-- ==== Sys2Proof/Word.lean ====
section
/-! DEFINITION. The bit-vector widths of WAVCODEC (R7, R11): a byte of a stream, a 16-bit header
field, and the 32-bit register, command word or sample word. -/

namespace Sys2Proof

/-- One byte of DEC.IN or ENC.OUT (R11). -/
abbrev Byte := BitVec 8

/-- A 16-bit header field or command immediate (R7, R101). -/
abbrev Half := BitVec 16

/-- A register, a command word, or a sample word of SIN or SOUT (R7, R60). -/
abbrev Word := BitVec 32

end Sys2Proof
end

