-- ==== Sys2Proof/Syntax.lean ====
section
/-! DEFINITION. The commands of WAVCODEC (R2, R103), one constructor per row of the opcode table,
and the assembler's command lines and pseudo-instructions (R108, R109). -/

namespace Sys2Proof

/-- The two kinds of unit (R3). -/
inductive UnitKind where
  | dec
  | enc
  deriving DecidableEq, Repr

/-- A unit instance: its kind and its instance index (R9, R108, R255). -/
inductive UnitId where
  | dec (i : Nat)
  | enc (i : Nat)
  deriving DecidableEq, Repr

/-- The kind of a unit instance. -/
def UnitId.kind : UnitId → UnitKind
  | .dec _ => .dec
  | .enc _ => .enc

/-- A command with its operands (R102, R103): immediates and operand words at the widths of their
encoded fields. -/
inductive Instr where
  /-- DEC_HEADER (R186). -/
  | decHeader
  /-- DEC_INT16 (R210). -/
  | decInt16
  /-- DEC_FLOAT32 (R220). -/
  | decFloat32
  /-- FMT_NEW_PCM: numChannels, sampleRate, bitsPerSample (R121). -/
  | fmtNewPcm (ch : Half) (rate : Word) (bits : Half)
  /-- FMT_NEW_FLOAT: numChannels, sampleRate, bitsPerSample (R122). -/
  | fmtNewFloat (ch : Half) (rate : Word) (bits : Half)
  /-- ENC_HEADER (R143). -/
  | encHeader
  /-- ENC_INT16: the sample count N (R144). -/
  | encInt16 (n : Word)
  /-- ENC_FLOAT32: the sample count N (R145). -/
  | encFloat32 (n : Word)
  deriving DecidableEq, Repr

/-- The mnemonics of the assembly (R103, R108). -/
inductive Mnemonic where
  | DEC_HEADER
  | DEC_INT16
  | DEC_FLOAT32
  | FMT_NEW_PCM
  | FMT_NEW_FLOAT
  | ENC_HEADER
  | ENC_INT16
  | ENC_FLOAT32
  deriving DecidableEq, Repr

/-- A command line `<unit>: <MNEMONIC> <operands>` (R108): the operands are the numbers as written. -/
structure AsmLine where
  unit     : UnitId
  mnemonic : Mnemonic
  operands : List Nat
  deriving DecidableEq, Repr

/-- The pseudo-instructions (R109). -/
inductive Pseudo where
  | wait (u : UnitId)
  | setSampleLe (u : UnitId)
  | setSampleBe (u : UnitId)
  | clrStatus (u : UnitId)
  | encPcm16 (e : Nat) (ch : Half) (rate n : Word)
  | encFloat32 (e : Nat) (ch : Half) (rate n : Word)
  deriving DecidableEq, Repr

end Sys2Proof
end

