-- ==== Sys2Proof/WellFormed.lean ====
section
/-! DEFINITION. Which commands a unit kind executes (R104) and which command lines the assembler
takes (R108). An `Instr` carries its operands at their encoded widths, so no operand of one can be
out of range: the range checks of R108 are on the line as written. -/

namespace Sys2Proof

/-- The unit kind that executes a command (R103, R104). -/
def Instr.unitKind : Instr → UnitKind
  | .decHeader => .dec
  | .decInt16 => .dec
  | .decFloat32 => .dec
  | .fmtNewPcm _ _ _ => .enc
  | .fmtNewFloat _ _ _ => .enc
  | .encHeader => .enc
  | .encInt16 _ => .enc
  | .encFloat32 _ => .enc

/-- A command is well-formed for a unit's CMD port when that unit kind executes it (R104). -/
def Instr.wellFormed (k : UnitKind) (i : Instr) : Bool := i.unitKind == k

/-- The number of CMD words of a command (R103). -/
def Instr.length : Instr → Nat
  | .decHeader => 1
  | .decInt16 => 1
  | .decFloat32 => 1
  | .fmtNewPcm _ _ _ => 3
  | .fmtNewFloat _ _ _ => 3
  | .encHeader => 1
  | .encInt16 _ => 2
  | .encFloat32 _ => 2

/-- The command a line names, when its operand list has the right length and every operand is in the
range R108 gives it: ch < 2^16, rate < 2^32, bits < 2^16, n < 2^32. -/
def AsmLine.instr? (l : AsmLine) : Option Instr :=
  match l.mnemonic, l.operands with
  | .DEC_HEADER, [] => some .decHeader
  | .DEC_INT16, [] => some .decInt16
  | .DEC_FLOAT32, [] => some .decFloat32
  | .FMT_NEW_PCM, [ch, rate, bits] =>
    if ch < 2 ^ 16 ∧ rate < 2 ^ 32 ∧ bits < 2 ^ 16 then
      some (.fmtNewPcm (BitVec.ofNat 16 ch) (BitVec.ofNat 32 rate) (BitVec.ofNat 16 bits))
    else none
  | .FMT_NEW_FLOAT, [ch, rate, bits] =>
    if ch < 2 ^ 16 ∧ rate < 2 ^ 32 ∧ bits < 2 ^ 16 then
      some (.fmtNewFloat (BitVec.ofNat 16 ch) (BitVec.ofNat 32 rate) (BitVec.ofNat 16 bits))
    else none
  | .ENC_HEADER, [] => some .encHeader
  | .ENC_INT16, [n] => if n < 2 ^ 32 then some (.encInt16 (BitVec.ofNat 32 n)) else none
  | .ENC_FLOAT32, [n] => if n < 2 ^ 32 then some (.encFloat32 (BitVec.ofNat 32 n)) else none
  | _, _ => none

/-- A line is well-formed when it names a command with operands in range (R108), on a unit of the
kind that executes it (R104). R108 is silent on a line that names a command of the other unit kind: that
the assembler does not take it is the model's choice (log 19, DESIGN CHOICE). -/
def AsmLine.wellFormed (l : AsmLine) : Bool :=
  match l.instr? with
  | some i => i.wellFormed l.unit.kind
  | none => false

end Sys2Proof
end

