-- ==== Sys2Proof/Decode.lean ====
section
/-! DEFINITION. Command words (R100 to R107): the decoder, total on any list of words and rejecting
by name; the encoder, written from R102 and R108; and the assembler's words of a command line. -/

namespace Sys2Proof

/-- Why a list of command words is no command. -/
inductive Reject where
  /-- No word at all. -/
  | noWord
  /-- R105 (a): an unassigned OPC (R106). -/
  | unassigned
  /-- R105 (a): an OPC of the other unit kind (R104). -/
  | wrongUnit
  /-- R105 (b): RSV ≠ 0. -/
  | rsvNonzero
  /-- R105 (c): IMM16 ≠ 0 where it must be 0. -/
  | immNonzero
  /-- R105 (d): bits [31:16] of word 2 ≠ 0. -/
  | word2High
  /-- A legal word 0 whose operand words are not all there (R100): not an illegal command. -/
  | operandMissing
  /-- More words than the command has (R100). -/
  | trailingWords
  deriving DecidableEq, Repr

/-- OPC, bits [7:0] of word 0 (R101). -/
def opc (w : Word) : Nat := w.toNat % 2 ^ 8

/-- RSV, bits [15:8] of word 0 (R101). -/
def rsv (w : Word) : Nat := w.toNat / 2 ^ 8 % 2 ^ 8

/-- IMM16, bits [31:16] of word 0 (R101); also the reserved half of word 2 (R102). -/
def imm16 (w : Word) : Nat := w.toNat / 2 ^ 16

/-- IMM16 as the field it is (R101). -/
def imm16Field (w : Word) : Half := BitVec.ofNat 16 (w.toNat / 2 ^ 16)

/-- Bits [15:0] of a word: bitsPerSample in word 2 (R102). -/
def lowHalf (w : Word) : Half := BitVec.ofNat 16 w.toNat

/-- The unit kind that executes an opcode (R103, R104); none for an unassigned one (R106). -/
def opcUnit (o : Nat) : Option UnitKind :=
  if o = 0x11 ∨ o = 0x12 ∨ o = 0x13 then some .dec
  else if o = 0x21 ∨ o = 0x22 ∨ o = 0x23 ∨ o = 0x24 ∨ o = 0x25 then some .enc
  else none

/-- Opcodes whose IMM16 is an operand (R101). -/
def opcHasImm (o : Nat) : Bool := o == 0x21 || o == 0x22

/-- The checks on word 0 (R105 (a), (b), (c)), for a unit of kind `k`; none when word 0 is legal. -/
def rejectWord0 (k : UnitKind) (w : Word) : Option Reject :=
  match opcUnit (opc w) with
  | none => some .unassigned
  | some k' =>
    if k' ≠ k then some .wrongUnit
    else if rsv w ≠ 0 then some .rsvNonzero
    else if opcHasImm (opc w) = false ∧ imm16 w ≠ 0 then some .immNonzero
    else none

/-- The number of words of a command from its opcode alone (R103, R107). -/
def opcLength (o : Nat) : Nat :=
  if o = 0x21 ∨ o = 0x22 then 3 else if o = 0x24 ∨ o = 0x25 then 2 else 1

/-- Length decoding (R107): a word 0 that is illegal on the unit has length 1. -/
def commandLength (k : UnitKind) (w : Word) : Nat :=
  match rejectWord0 k w with
  | some _ => 1
  | none => opcLength (opc w)

/-- The command of a legal one-word word 0 (R103). -/
def decodeOne (o : Nat) : Except Reject Instr :=
  if o = 0x11 then .ok .decHeader
  else if o = 0x12 then .ok .decInt16
  else if o = 0x13 then .ok .decFloat32
  else if o = 0x23 then .ok .encHeader
  else .error .operandMissing

/-- The command of a legal two-word command (R103). -/
def decodeTwo (o : Nat) (w1 : Word) : Except Reject Instr :=
  if o = 0x24 then .ok (.encInt16 w1)
  else if o = 0x25 then .ok (.encFloat32 w1)
  else if opcLength o < 2 then .error .trailingWords
  else .error .operandMissing

/-- The command of a legal three-word command, with the check of word 2 (R105 (d)). -/
def decodeThree (o : Nat) (w0 w1 w2 : Word) : Except Reject Instr :=
  if opcLength o < 3 then .error .trailingWords
  else if imm16 w2 ≠ 0 then .error .word2High
  else if o = 0x21 then .ok (.fmtNewPcm (imm16Field w0) w1 (lowHalf w2))
  else .ok (.fmtNewFloat (imm16Field w0) w1 (lowHalf w2))

/-- The decoder of a unit of kind `k`: the command that a list of CMD words is, or why it is none. -/
def decodeFor (k : UnitKind) : List Word → Except Reject Instr
  | [] => .error .noWord
  | w0 :: rest =>
    match rejectWord0 k w0 with
    | some r => .error r
    | none =>
      match rest with
      | [] => decodeOne (opc w0)
      | [w1] => decodeTwo (opc w0) w1
      | [w1, w2] => decodeThree (opc w0) w0 w1 w2
      | _ :: _ :: _ :: _ => .error .trailingWords

/-- The unit kind a first word is meant for; an unassigned opcode is tried, and rejected, on DEC. -/
def kindOfWord (w0 : Word) : UnitKind := (opcUnit (opc w0)).getD .dec

/-- The decoder on the unit kind that executes the opcode of the first word. -/
def decode : List Word → Except Reject Instr
  | [] => .error .noWord
  | w0 :: rest => decodeFor (kindOfWord w0) (w0 :: rest)

/-- Word 0 from its fields: `{imm16, 0x00, opc}` (R101, R108). -/
def word0 (imm : Half) (o : Nat) : Word := BitVec.ofNat 32 (imm.toNat * 2 ^ 16 + o)

/-- The CMD words of a command, in order (R102, R108). -/
def encode : Instr → List Word
  | .decHeader => [0x00000011#32]
  | .decInt16 => [0x00000012#32]
  | .decFloat32 => [0x00000013#32]
  | .fmtNewPcm ch rate bits => [word0 ch 0x21, rate, BitVec.setWidth 32 bits]
  | .fmtNewFloat ch rate bits => [word0 ch 0x22, rate, BitVec.setWidth 32 bits]
  | .encHeader => [0x00000023#32]
  | .encInt16 n => [0x00000024#32, n]
  | .encFloat32 n => [0x00000025#32, n]

/-- The CMD words a command line assembles to (R108); none for an ill-formed line (`AsmLine.wellFormed`;
log 19). -/
def AsmLine.assemble (l : AsmLine) : Option (List Word) :=
  if l.wellFormed then l.instr?.map encode else none

/-- The words of a table row's number: bit 0 is the least significant bit of the first word, a later
word's bits count on from it, and every bit above `nbits` is 0. The row's own words only (R107). -/
def tableWords (nbits w : Nat) : List Word :=
  let v := w % 2 ^ nbits
  let w0 := BitVec.ofNat 32 v
  [w0, BitVec.ofNat 32 (v / 2 ^ 32), BitVec.ofNat 32 (v / 2 ^ 64)].take
    (commandLength (kindOfWord w0) w0)

/-- The command the decoder reads from an instruction whose bits are `w`, numbered as the opcode
table numbers them. -/
def decodeTableWord (nbits w : Nat) : Option Instr := (decode (tableWords nbits w)).toOption

end Sys2Proof
end

