-- ==== Sys2Proof/Machine/Codes.lean ====
section
/-! DEFINITION. The closed sets of names of the block and the codes a host reads for them: PHASE
(R27), error kinds (R243), stages (R245), audio formats (R96), sample kinds (R8), byte order (R25).
A code the spec reserves has no name here, so no state can hold it. -/

namespace Sys2Proof.Machine

/-- The byte order of sample data, CFG.SAMPLE_BO (R25). -/
inductive ByteOrder where
  | little
  | big
  deriving DecidableEq, Repr, Inhabited

/-- CFG.SAMPLE_BO as a bit: 0 little-endian, 1 big-endian (R25). -/
def ByteOrder.code : ByteOrder → Nat
  | .little => 0
  | .big => 1

/-- The byte order a SAMPLE_BO bit selects (R25). -/
def ByteOrder.ofBit (b : Bool) : ByteOrder := if b then .big else .little

/-- The sample kinds (R7, R99). -/
inductive SampleKind where
  | int16
  | float32
  deriving DecidableEq, Repr

/-- The element size E in bytes (R8). -/
def SampleKind.size : SampleKind → Nat
  | .int16 => 2
  | .float32 => 4

/-- The audio-format code whose payload a sample path reads: PCM = 1, IEEE-float = 3 (R96, R210,
R220). -/
def SampleKind.formatCode : SampleKind → Half
  | .int16 => 1#16
  | .float32 => 3#16

/-- The five recognized audio-format codes (R96). -/
def recognizedFormats : List Half := [1#16, 3#16, 6#16, 7#16, 0xFFFE#16]

/-- STATUS.PHASE (R27); the reserved codes 13 and 14 have no name. -/
inductive Phase where
  | start
  | riffVerified
  | fmtVerified
  | formatValidated
  | extraParamsSkipped
  | chunkScanning
  | dataChunkFound
  | samplesDecoding
  | samplesDone
  | operands
  | encHeaderOut
  | encSamplesOut
  | encDone
  | error
  deriving DecidableEq, Repr, Inhabited

/-- The PHASE codes (R27). -/
def Phase.code : Phase → Nat
  | .start => 0
  | .riffVerified => 1
  | .fmtVerified => 2
  | .formatValidated => 3
  | .extraParamsSkipped => 4
  | .chunkScanning => 5
  | .dataChunkFound => 6
  | .samplesDecoding => 7
  | .samplesDone => 8
  | .operands => 9
  | .encHeaderOut => 10
  | .encSamplesOut => 11
  | .encDone => 12
  | .error => 15

/-- The error kinds (R242, R243). -/
inductive ErrKind where
  | malformedContainer
  | unsupportedFormat
  | truncatedStream
  | sampleOutOfRange
  | ioFailure
  | illegalCommand
  | operandRange
  deriving DecidableEq, Repr, Inhabited

/-- The STATUS.ERR codes (R243). -/
def ErrKind.code : ErrKind → Nat
  | .malformedContainer => 1
  | .unsupportedFormat => 2
  | .truncatedStream => 3
  | .sampleOutOfRange => 4
  | .ioFailure => 5
  | .illegalCommand => 8
  | .operandRange => 9

/-- STATUS.ERR of an optional error kind: 0 is NONE (R243). -/
def errCode : Option ErrKind → Nat
  | none => 0
  | some k => k.code

/-- The stages a failure is attributed to (R245). -/
inductive Stage where
  | riffRecord
  | fmtTag
  | fmtRecord
  | fmtValidate
  | extraSize
  | extraSkip
  | chunkHeader
  | chunkSkip
  | sampleKind
  | sampleData
  | sampleRange
  | command
  | encHeaderWrite
  | encSampleWrite
  | encSampleRange
  deriving DecidableEq, Repr

/-- The ERR_STAGE codes (R245). -/
def Stage.code : Stage → Nat
  | .riffRecord => 1
  | .fmtTag => 2
  | .fmtRecord => 3
  | .fmtValidate => 4
  | .extraSize => 5
  | .extraSkip => 6
  | .chunkHeader => 7
  | .chunkSkip => 8
  | .sampleKind => 9
  | .sampleData => 10
  | .sampleRange => 11
  | .command => 16
  | .encHeaderWrite => 17
  | .encSampleWrite => 18
  | .encSampleRange => 19

/-- ERR_STAGE of an optional stage: 0 is none (R245). -/
def stageCode : Option Stage → Nat
  | none => 0
  | some s => s.code

end Sys2Proof.Machine
end

