-- ==== Sys2Proof/Config.lean ====
section
/-! DEFINITION. The implementation parameters (R9) and the free values (R277). -/

namespace Sys2Proof.Config

open Sys2Proof.Machine (Phase ErrKind)

/-- The parameters a model takes as arguments (R9). They stand in State so that every claim holds
for every value of them; no step writes them. -/
structure Params where
  /-- NUM_DEC, the number of decoder units, at least 1. -/
  numDec : Nat
  /-- NUM_ENC, the number of encoder units, at least 1. -/
  numEnc : Nat
  /-- RIFF_SIZE_BIAS, a 32-bit natural (R140). -/
  riffSizeBias : Word
  /-- CTOR_CHANNEL_SCALING (R120). -/
  ctorChannelScaling : Bool
  /-- ENC_FLOAT_RANGE_CHECK (R146). -/
  encFloatRangeCheck : Bool
  deriving DecidableEq, Repr

/-- The defaults of R9, the values this spec's hardware takes. -/
def Params.default : Params where
  numDec := 1
  numEnc := 1
  riffSizeBias := 52#32
  ctorChannelScaling := true
  encFloatRangeCheck := false

/-- R277: what the n-th read of a 32-bit register that a BUSY unit may write returns. Free: log 3. -/
opaque freeWord : Nat → Word

/-- R277: what the n-th read of a 16-bit register that a BUSY unit may write returns. Free: log 3. -/
opaque freeHalf : Nat → Half

/-- R277: STATUS.DONE in the n-th read of a BUSY unit. Free: log 3. -/
opaque freeDone : Nat → Bool

/-- R277: STATUS.HDR_VALID in the n-th read of a BUSY decoder unit. Free: log 3. -/
opaque freeHdrValid : Nat → Bool

/-- R277: PHASE in the n-th read of a BUSY unit; R27 leaves it no reserved code. Free: log 3. -/
opaque freePhase : Nat → Phase

/-- R277: ERR in the n-th read of a BUSY unit; R28 leaves it no reserved code. Free: log 3. -/
opaque freeErr : Nat → Option ErrKind

end Sys2Proof.Config
end

