-- ==== Sys2Proof/Machine/State.lean ====
section
/-! DEFINITION. The state of WAVCODEC as plain data: the registers and hidden state of every unit
(R20 to R42), the host-owned streams attached to it (R60, R66 to R72), and the host's pending actions.
A register narrower than 32 bits or made of named fields is held as its fields; the word a host reads
is computed in Flags.lean and Platform.lean. -/

namespace Sys2Proof.Machine

open Sys2Proof.Config (Params)

/-! ### The host-owned streams -/

/-- The terminators of DEC.IN (R66). -/
inductive Term where
  | eof
  | fail
  deriving DecidableEq, Repr

/-- One event of DEC.IN (R66). -/
inductive InEvent where
  | byte (b : Byte)
  | stop (t : Term)
  deriving DecidableEq, Repr

/-- DEC.IN (R66): the delivered bytes not yet consumed, oldest first; the terminator delivered after
them, if any; and the record R284 asks for (log 20): the bytes consumed of this stream and of each one
attached before it, oldest first. -/
structure InStream where
  ready : List Byte
  term  : Option Term
  taken : List Byte
  past  : List (List Byte)
  deriving DecidableEq, Repr

/-- The answers of ENC.OUT to an offered byte (R69). -/
inductive Answer where
  | ack
  | fail
  deriving DecidableEq, Repr

/-- ENC.OUT (R69): the answers the sink is ready to give, first to be given first; the bytes it has
accepted, oldest first; and those of each sink attached before it (R284; log 20). -/
structure OutSink where
  answers : List Answer
  bytes   : List Byte
  past    : List (List Byte)
  deriving DecidableEq, Repr

/-- ENC.SIN (R70): the words not yet taken, oldest first; the words taken of this source and of each
one attached before it, oldest first (R284; log 20). -/
structure SampleSource where
  ready : List Word
  taken : List Word
  past  : List (List Word)
  deriving DecidableEq, Repr

/-- DEC.SOUT (R71, R279): how many more words the sink will take before it holds an append back; the
words it holds, oldest first; the words the host has removed, oldest first; and all the words appended
to each sink attached before it (R284; log 20). -/
structure SampleSink where
  room    : Nat
  words   : List Word
  removed : List Word
  past    : List (List Word)
  deriving DecidableEq, Repr

/-! ### What a running command is about to do -/

/-- How a command ends (R246, R248). The context words of an error are exact here and are truncated
when they are recorded. -/
inductive Ending where
  | ok (phase : Phase)
  | error (kind : ErrKind) (stage : Stage) (actual expected : Nat)
  deriving DecidableEq, Repr

/-- The decode commands as they run (R170). -/
inductive DecCmd where
  | header
  | samples (kind : SampleKind)
  deriving DecidableEq, Repr

/-- What a `MemRead(IN, n)` of a decode command is reading (R172, R210, R220). -/
inductive DecRead where
  | riff
  | fmtTag
  | fmtRecord
  | extraSize
  | chunkHeader
  /-- A payload element; `left` whole elements follow it. -/
  | element (kind : SampleKind) (left : Nat)
  /-- The bytes of a payload that is not a whole number of elements (R212). -/
  | residual (kind : SampleKind)
  deriving DecidableEq, Repr

/-- What a `MemSkip(IN, n)` skips (R172). -/
inductive DecSkip where
  | extension
  | chunk
  deriving DecidableEq, Repr

/-- The position of a decode command in its algorithm (R40 (b)). -/
inductive DecPos where
  /-- Inside `MemRead(IN, need)`; `got` is what it has read, oldest first. -/
  | reading (what : DecRead) (need : Nat) (got : List Byte)
  /-- Inside `MemSkip(IN, need)`, after `got` bytes. -/
  | skipping (what : DecSkip) (need got : Nat)
  /-- About to enter the chunk scan (R172 step 6). -/
  | scanning
  /-- The header parse has succeeded; the command's own part follows. -/
  | parsed
  /-- Inside `SampleOut(w)`; `left` whole elements follow. -/
  | appending (kind : SampleKind) (w : Word) (left : Nat)
  /-- About to record the outcome. -/
  | ending (e : Ending)
  /-- Outcome recorded; about to set DONE and clear BUSY. -/
  | releasing
  deriving DecidableEq, Repr

/-- A running decode command: which, the SAMPLE_BO sampled at its start (R40 (c)), and where it is. -/
structure DecRun where
  cmd : DecCmd
  bo  : ByteOrder
  pos : DecPos
  deriving DecidableEq, Repr

/-- The seven ENC format registers (R36, R120). -/
inductive FmtReg where
  | fmtLen
  | audioFormat
  | numChannels
  | sampleRate
  | bytesPerSec
  | blockAlign
  | bitsPerSample
  deriving DecidableEq, Repr

/-- The arguments of `CtorFormat` (R120). -/
structure CtorArgs where
  code : Half
  ch   : Half
  rate : Word
  bits : Half
  deriving DecidableEq, Repr

/-- What an encoder command runs (R120, R143 to R145). -/
inductive EncJob where
  | construct (a : CtorArgs)
  | header
  | samples (kind : SampleKind) (n : Word)
  deriving DecidableEq, Repr

/-- The position of an encoder command in its algorithm (R40 (b)). -/
inductive EncPos where
  /-- Inside `CtorFormat`; the registers still to be written, in R120's order. -/
  | constructing (a : CtorArgs) (todo : List FmtReg)
  /-- Inside `MemWrite(OUT, 44, h)`: bytes to offer, bytes accepted; then the samples, if any. -/
  | header (todo : List Byte) (sent : Nat) (next : Option (SampleKind × Nat))
  /-- Inside `SampleIn()`; `left` samples follow this one. -/
  | taking (kind : SampleKind) (left : Nat)
  /-- Inside the `MemWrite` of one element; `left` samples follow it. -/
  | element (todo : List Byte) (sent : Nat) (kind : SampleKind) (left : Nat)
  /-- About to record the outcome. -/
  | ending (e : Ending)
  /-- Outcome recorded; about to set DONE and clear BUSY. -/
  | releasing
  deriving DecidableEq, Repr

/-- A running encoder command: the sampled SAMPLE_BO (R40 (c)) and where it is. -/
structure EncRun where
  bo  : ByteOrder
  pos : EncPos
  deriving DecidableEq, Repr

/-! ### The registers -/

/-- The registers both unit kinds have (R24 0x000 to 0x01C, R25, R26) and the command assembly buffer
(R40 (a)). HDR_VALID is DEC's alone. -/
structure Ctl where
  /-- CFG.SAMPLE_BO (R25). -/
  sampleBo    : ByteOrder
  /-- STATUS.BUSY (R26). -/
  busy        : Bool
  /-- STATUS.DONE (R26). -/
  done        : Bool
  /-- STATUS.PHASE (R27). -/
  phase       : Phase
  /-- STATUS.ERR (R28). -/
  err         : Option ErrKind
  /-- STATUS.STICKY_ERR (R26). -/
  stickyErr   : Bool
  /-- STATUS.OVR (R26). -/
  ovr         : Bool
  /-- ERR_STAGE (R30, R245). -/
  errStage    : Option Stage
  /-- ERR_ACTUAL (R30, R247). -/
  errActual   : Word
  /-- ERR_EXPECTED (R30, R247). -/
  errExpected : Word
  /-- IO_COUNT (R31). -/
  ioCount     : Word
  /-- SAMPLE_COUNT (R32). -/
  sampleCount : Word
  /-- The words of a command whose operand words have not all arrived; empty otherwise (R40 (a)). -/
  asm         : List Word
  deriving DecidableEq, Repr

/-- The DEC header registers (R24, R33). -/
structure DecHeader where
  riffIdent     : Word
  riffSize      : Word
  riffType      : Word
  fmtLen        : Word
  audioFormat   : Half
  numChannels   : Half
  sampleRate    : Word
  bytesPerSec   : Word
  blockAlign    : Half
  bitsPerSample : Half
  extraSize     : Half
  dataSize      : Word
  deriving DecidableEq, Repr

/-- A decoder unit with the streams attached to it (R24, R60). -/
structure DecUnit where
  ctl      : Ctl
  hdr      : DecHeader
  /-- STATUS.HDR_VALID (R26, R35). -/
  hdrValid : Bool
  /-- The running command; none while idle (R40 (b), (c)). -/
  run      : Option DecRun
  inp      : InStream
  sout     : SampleSink
  deriving DecidableEq, Repr

/-- The ENC format registers (R36). -/
structure EncFormat where
  fmtLen        : Word
  audioFormat   : Half
  numChannels   : Half
  sampleRate    : Word
  bytesPerSec   : Word
  blockAlign    : Half
  bitsPerSample : Half
  deriving DecidableEq, Repr

/-- An encoder unit with the streams attached to it (R36, R60). -/
structure EncUnit where
  ctl      : Ctl
  fmt      : EncFormat
  /-- RIFF_SIZE (R37). -/
  riffSize : Word
  /-- DATA_SIZE (R37). -/
  dataSize : Word
  /-- The running command; none while idle (R40 (b), (c)). -/
  run      : Option EncRun
  out      : OutSink
  sin      : SampleSource
  deriving DecidableEq, Repr

/-! ### The host's pending actions -/

/-- One action of the host or the platform, or one turn of a unit. `State.script` lists them in the
order they happen, so the script is the interleaving of R283. -/
inductive HostEvent where
  /-- An MMIO read: unit, access width in bytes, offset (R62, R63). -/
  | read (u : UnitId) (width off : Nat)
  /-- An MMIO write of `v` (R62, R64). -/
  | write (u : UnitId) (width off : Nat) (v : Word)
  /-- The `wait` pseudo-instruction: read STATUS until BUSY = 0 (R109). -/
  | wait (u : UnitId)
  /-- The reset of one unit (R270). -/
  | resetUnit (u : UnitId)
  /-- A turn of a unit: it takes as many of its own steps as the pace allows (R283). -/
  | run (u : UnitId)
  /-- The pace of the units from here on (R283; log 4). -/
  | setPace (p : Option Nat)
  /-- The next event of a decoder's IN becomes ready (R66). -/
  | inEvent (d : Nat) (e : InEvent)
  /-- A new IN stream is attached (R72, R281). -/
  | attachIn (d : Nat) (ready : List Byte) (term : Option Term)
  /-- SOUT can take `n` more words (R279). -/
  | soutRoom (d n : Nat)
  /-- The host removes the oldest `n` words of SOUT (R279). -/
  | soutTake (d n : Nat)
  /-- A new, empty SOUT is attached (R72, R281). -/
  | attachSout (d room : Nat)
  /-- The next answer of an encoder's OUT becomes ready (R69). -/
  | outAnswer (e : Nat) (a : Answer)
  /-- A new, empty OUT is attached (R72, R281). -/
  | attachOut (e : Nat) (answers : List Answer)
  /-- The next word of SIN becomes ready (R70). -/
  | sinWord (e : Nat) (w : Word)
  /-- A new SIN is attached (R72, R281). -/
  | attachSin (e : Nat) (ready : List Word)
  /-- The host gives decoder `d` a new IN holding the bytes of encoder `e`'s OUT, then End (R255). -/
  | copyOut (e d : Nat)
  /-- The host attaches to one unit a stream that is another's (R81, R281). -/
  | share (a b : UnitId)
  deriving DecidableEq, Repr

/-- Why the machine stops with a fault. -/
inductive Fault where
  /-- Raised by a command or host action addressed to a unit instance that does not exist (R9, R255).
  Safe: nothing is claimed after it. -/
  | noSuchUnit
  /-- Raised by an MMIO access outside the 256-byte window of a unit (R61). Safe. -/
  | outsideWindow
  /-- Raised when a unit is BUSY, no unit can take a step, and no host action that could help one is
  scheduled, in the script or in the loop (R278, R279, R280, R283, R284: the verdict stuck; logs 1, 12). Safe. -/
  | stuck
  deriving DecidableEq, Repr

/-- Why the model gives a run no meaning. -/
inductive Refusal where
  /-- Raised by `exec` for a command without a meaning; no arm does. Safe. -/
  | notModelled (mnemonic : String)
  /-- Raised by an MMIO access that is not 32 bits wide or not 4-byte aligned (R62). Safe. -/
  | badAccess
  /-- Raised when the host attaches a stream to a BUSY unit, which is also how it would shorten or
  reorder one (R281). Safe. -/
  | busyStreamChange
  /-- Raised when the host attaches one stream to two units (R81, R281). Safe. -/
  | sharedStream
  /-- Raised when the host delivers an event of IN after its terminator: R66 lets a stream have at
  most one terminator, at its end (log 5). Safe. -/
  | eventAfterTerminator
  deriving DecidableEq, Repr

/-! ### The state -/

/-- The whole machine: the units and their streams, and the environment as data. -/
structure State where
  /-- The parameters (R9); no step writes them. -/
  params : Params
  /-- The decoder units, by instance index. -/
  decs   : List DecUnit
  /-- The encoder units, by instance index. -/
  encs   : List EncUnit
  /-- The instance whose CMD port took the command that `exec` runs (model's own; log 2). -/
  sel    : Nat
  /-- How many of its own steps a unit takes in one turn; none: all it can (model's own; log 4). -/
  pace   : Option Nat
  /-- The host's pending actions, next first (model's own; log 1). -/
  script : List HostEvent
  /-- What the host goes on doing, over and over, once its pending actions are done; its stream events also
  while a `wait` of its can come no further; empty for a host that stops (R190; model's own; logs 1, 12). -/
  loop   : List HostEvent
  /-- The value the last MMIO read returned (model's own; log 6). -/
  rdata  : Word
  /-- How many free values have been drawn (model's own; log 3). -/
  draws  : Nat
  deriving DecidableEq, Repr

/-! ### Reset values (R42, R272, R274) -/

/-- The common registers after reset (R42). -/
def Ctl.reset : Ctl where
  sampleBo := .little
  busy := false
  done := false
  phase := .start
  err := none
  stickyErr := false
  ovr := false
  errStage := none
  errActual := 0#32
  errExpected := 0#32
  ioCount := 0#32
  sampleCount := 0#32
  asm := []

/-- The DEC header registers at 0: after reset (R42) and at execution start (R34). -/
def DecHeader.zero : DecHeader where
  riffIdent := 0#32
  riffSize := 0#32
  riffType := 0#32
  fmtLen := 0#32
  audioFormat := 0#16
  numChannels := 0#16
  sampleRate := 0#32
  bytesPerSec := 0#32
  blockAlign := 0#16
  bitsPerSample := 0#16
  extraSize := 0#16
  dataSize := 0#32

/-- The ENC format registers after reset (R42). -/
def EncFormat.zero : EncFormat where
  fmtLen := 0#32
  audioFormat := 0#16
  numChannels := 0#16
  sampleRate := 0#32
  bytesPerSec := 0#32
  blockAlign := 0#16
  bitsPerSample := 0#16

/-- A stream no event of which is ready (R66). -/
def InStream.empty : InStream := ⟨[], none, [], []⟩

/-- A sink that is not ready and holds nothing (R69). -/
def OutSink.empty : OutSink := ⟨[], [], []⟩

/-- A source no word of which is ready (R70). -/
def SampleSource.empty : SampleSource := ⟨[], [], []⟩

/-- A sink that is full and holds nothing (R279). -/
def SampleSink.empty : SampleSink := ⟨0, [], [], []⟩

/-- A decoder unit after power-on, on streams with nothing ready (R42, R274). -/
def DecUnit.initial : DecUnit where
  ctl := Ctl.reset
  hdr := DecHeader.zero
  hdrValid := false
  run := none
  inp := InStream.empty
  sout := SampleSink.empty

/-- An encoder unit after power-on, on streams with nothing ready (R42, R274). -/
def EncUnit.initial : EncUnit where
  ctl := Ctl.reset
  fmt := EncFormat.zero
  riffSize := 0#32
  dataSize := 0#32
  run := none
  out := OutSink.empty
  sin := SampleSource.empty

/-- The machine after power-on, for given parameters: every unit reset, on streams with nothing ready,
and nothing pending (R272, R274; logs 1 to 4, 6, 7). -/
def State.initial (p : Params) : State where
  params := p
  decs := List.replicate p.numDec DecUnit.initial
  encs := List.replicate p.numEnc EncUnit.initial
  sel := 0
  pace := none
  script := []
  loop := []
  rdata := 0#32
  draws := 0

/-- The machine right after reset, with the default parameters (R9, R42, R272). -/
def State.reset : State := State.initial Params.default

end Sys2Proof.Machine
end

