-- ==== Sys2Proof/Machine/Operands.lean ====
section
/-! DEFINITION. The operand forms: byte sequences and their numbers in both byte orders (R11, R73,
R74), tags (R11, R75), sample elements (R99, R211, R221), the float range rule (R222), and the values
of the constructors (R120). -/

namespace Sys2Proof.Machine

open Sys2Proof.Config (Params)

/-- `s[i]` as a number (R11). -/
def byteAt (s : List Byte) (i : Nat) : Nat := (s.getD i 0#8).toNat

/-- `s[a..b]` with b = a + n - 1: `n` bytes of `s` from byte `a` (R11). -/
def slice (s : List Byte) (a n : Nat) : List Byte := (s.drop a).take n

/-- R11. -/
def le16 (s : List Byte) : Nat := byteAt s 0 + 2 ^ 8 * byteAt s 1

/-- R11. -/
def le32 (s : List Byte) : Nat :=
  byteAt s 0 + 2 ^ 8 * byteAt s 1 + 2 ^ 16 * byteAt s 2 + 2 ^ 24 * byteAt s 3

/-- R11. -/
def be16 (s : List Byte) : Nat := 2 ^ 8 * byteAt s 0 + byteAt s 1

/-- R11. -/
def be32 (s : List Byte) : Nat :=
  2 ^ 24 * byteAt s 0 + 2 ^ 16 * byteAt s 1 + 2 ^ 8 * byteAt s 2 + byteAt s 3

/-- Byte `k` of a number, counting from the least significant. -/
def byteOf (v k : Nat) : Byte := BitVec.ofNat 8 (v / 2 ^ (8 * k))

/-- R11. -/
def bytesLe16 (v : Half) : List Byte := [byteOf v.toNat 0, byteOf v.toNat 1]

/-- R11. -/
def bytesBe16 (v : Half) : List Byte := [byteOf v.toNat 1, byteOf v.toNat 0]

/-- R11. -/
def bytesLe32 (v : Word) : List Byte :=
  [byteOf v.toNat 0, byteOf v.toNat 1, byteOf v.toNat 2, byteOf v.toNat 3]

/-- R11. -/
def bytesBe32 (v : Word) : List Byte :=
  [byteOf v.toNat 3, byteOf v.toNat 2, byteOf v.toNat 1, byteOf v.toNat 0]

/-- R11: the tag's bytes in a register, first byte in bits [7:0]. -/
def pack32 (s : List Byte) : Nat := le32 s

/-- tag("RIFF") (R91). -/
def tagRiff : List Byte := [0x52#8, 0x49#8, 0x46#8, 0x46#8]

/-- tag("WAVE") (R91). -/
def tagWave : List Byte := [0x57#8, 0x41#8, 0x56#8, 0x45#8]

/-- tag("fmt ") (R92). -/
def tagFmt : List Byte := [0x66#8, 0x6D#8, 0x74#8, 0x20#8]

/-- tag("data") (R95). -/
def tagData : List Byte := [0x64#8, 0x61#8, 0x74#8, 0x61#8]

/-- `Int16Word(b, bo)` (R211): the two's-complement 16-bit element, sign-extended to 32 bits. -/
def int16Word (bo : ByteOrder) (b : List Byte) : Word :=
  match bo with
  | .little => (BitVec.ofNat 16 (le16 b)).signExtend 32
  | .big => (BitVec.ofNat 16 (be16 b)).signExtend 32

/-- The float32 element's pattern, bit for bit (R221). -/
def float32Word (bo : ByteOrder) (b : List Byte) : Word :=
  match bo with
  | .little => BitVec.ofNat 32 (le32 b)
  | .big => BitVec.ofNat 32 (be32 b)

/-- The word an element gives on SOUT (R211, R221). -/
def elementWord (kind : SampleKind) (bo : ByteOrder) (b : List Byte) : Word :=
  match kind with
  | .int16 => int16Word bo b
  | .float32 => float32Word bo b

/-- The bytes of the element of a SIN word (R142): an int16 sample is bits [15:0] (R70). -/
def elementBytes (kind : SampleKind) (bo : ByteOrder) (w : Word) : List Byte :=
  match kind, bo with
  | .int16, .little => bytesLe16 (BitVec.setWidth 16 w)
  | .int16, .big => bytesBe16 (BitVec.setWidth 16 w)
  | .float32, .little => bytesLe32 w
  | .float32, .big => bytesBe32 w

/-- The pattern of 1.0, the bound of the float range (R222). -/
def floatOne : Nat := 0x3F800000

/-- `InRangeF32(w)`: w[30:0] ≤ 0x3F800000, unsigned; the sign bit is ignored (R222). -/
def inRangeF32 (w : Word) : Bool := decide (w.toNat % 2 ^ 31 ≤ floatOne)

/-- Whether the decoder takes a sample: every int16, and a float32 in range (R220, R222). -/
def decodable (kind : SampleKind) (w : Word) : Bool :=
  match kind with
  | .int16 => true
  | .float32 => inRangeF32 w

/-- Whether the encoder writes a sample: a float32 is checked only when ENC_FLOAT_RANGE_CHECK is true
(R146). -/
def encodable (p : Params) (kind : SampleKind) (w : Word) : Bool :=
  match kind with
  | .int16 => true
  | .float32 => !p.encFloatRangeCheck || inRangeF32 w

/-- The factor of the constructors' products (R120). -/
def ctorScale (p : Params) (ch : Half) : Nat := if p.ctorChannelScaling then ch.toNat else 1

/-- BLOCK_ALIGN of the constructors (R120, R123). -/
def ctorBlockAlign (p : Params) (ch bits : Half) : Half :=
  BitVec.ofNat 16 (ctorScale p ch * bits.toNat / 8)

/-- BYTES_PER_SEC of the constructors (R120, R123). -/
def ctorBytesPerSec (p : Params) (ch : Half) (rate : Word) (bits : Half) : Word :=
  BitVec.ofNat 32 (rate.toNat * ctorScale p ch * bits.toNat / 8)

/-- NMAX, the largest sample count whose size fields fit 32 bits (R140). -/
def nMax (p : Params) (kind : SampleKind) : Nat :=
  (2 ^ 32 - 1 - p.riffSizeBias.toNat) / kind.size

end Sys2Proof.Machine
end

