-- ==== Sys2Proof/Machine/Ops.lean ====
section
/-! DEFINITION. The shared operations: acceptance and the two ends of a command (R240, R246, R248),
the stream primitives one event at a time (R66 to R71), and the places of the units in State. -/

namespace Sys2Proof.Machine

/-! ### The command lifecycle -/

/-- Acceptance of a command's first word (R240). -/
def Ctl.accept (c : Ctl) : Ctl :=
  { c with
    busy := true
    done := false
    err := none
    errStage := none
    errActual := 0#32
    errExpected := 0#32
    ioCount := 0#32
    sampleCount := 0#32 }

/-- The first part of `raise` and of `finish`: the outcome is recorded (R246, R248). -/
def Ctl.record (e : Ending) (c : Ctl) : Ctl :=
  match e with
  | .ok p => { c with phase := p }
  | .error k stage actual expected =>
    { c with
      errStage := some stage
      errActual := BitVec.ofNat 32 actual
      errExpected := BitVec.ofNat 32 expected
      err := some k
      phase := .error
      stickyErr := true }

/-- The last part of `raise` and of `finish`: the assembly buffer is dropped, DONE is set and BUSY is
cleared, BUSY last (R246, R248, R80). -/
def Ctl.release (c : Ctl) : Ctl := { c with asm := [], done := true, busy := false }

/-- `raise K(stage, actual, expected)` (R246): the block's one way to take an error. -/
def Ctl.raise (k : ErrKind) (stage : Stage) (actual expected : Nat) (c : Ctl) : Ctl :=
  (c.record (.error k stage actual expected)).release

/-- `finish(phase)` (R248). -/
def Ctl.finish (p : Phase) (c : Ctl) : Ctl := (c.record (.ok p)).release

/-- IO_COUNT + 1, modulo 2^32 (R31, R67, R69). -/
def Ctl.countByte (c : Ctl) : Ctl := { c with ioCount := c.ioCount + 1#32 }

/-- SAMPLE_COUNT + 1, modulo 2^32 (R32). -/
def Ctl.countSample (c : Ctl) : Ctl := { c with sampleCount := c.sampleCount + 1#32 }

/-- Another PHASE (R27). -/
def Ctl.setPhase (p : Phase) (c : Ctl) : Ctl := { c with phase := p }

/-! ### The stream primitives, one event at a time -/

/-- The next event of IN (R66): none while nothing is ready; a terminator is given again and again
(R72). -/
def InStream.next (s : InStream) : Option (InEvent × InStream) :=
  match s.ready with
  | b :: bs => some (.byte b, { s with ready := bs, taken := s.taken ++ [b] })
  | [] =>
    match s.term with
    | some t => some (.stop t, s)
    | none => none

/-- OUT's answer to an offered byte (R69): none while the sink is not ready; an acknowledged byte is
in the sink, a failed one is not. -/
def OutSink.offer (s : OutSink) (b : Byte) : Option (Answer × OutSink) :=
  match s.answers with
  | [] => none
  | .ack :: as => some (.ack, { s with answers := as, bytes := s.bytes ++ [b] })
  | .fail :: as => some (.fail, { s with answers := as })

/-- `SampleIn()` (R70): none while no word is ready. -/
def SampleSource.next (s : SampleSource) : Option (Word × SampleSource) :=
  match s.ready with
  | [] => none
  | w :: ws => some (w, { s with ready := ws, taken := s.taken ++ [w] })

/-- `SampleOut(w)` (R71): none while the sink is full. -/
def SampleSink.append (s : SampleSink) (w : Word) : Option SampleSink :=
  match s.room with
  | 0 => none
  | n + 1 => some { s with room := n, words := s.words ++ [w] }

/-! ### The record of the streams, and new streams (R72, R281, R284; log 20) -/

/-- The bytes consumed from each IN, in the order the streams were attached (R284). -/
def InStream.consumed (s : InStream) : List (List Byte) := s.past ++ [s.taken]

/-- The bytes each OUT accepted, in the order the sinks were attached (R284). -/
def OutSink.accepted (s : OutSink) : List (List Byte) := s.past ++ [s.bytes]

/-- The words taken from each SIN, in the order the sources were attached (R284). -/
def SampleSource.consumed (s : SampleSource) : List (List Word) := s.past ++ [s.taken]

/-- The words appended to each SOUT, removed since or not, in the order the sinks were attached (R284). -/
def SampleSink.appended (s : SampleSink) : List (List Word) := s.past ++ [s.removed ++ s.words]

/-- A new IN in the place of `s` (R72). -/
def InStream.attach (s : InStream) (ready : List Byte) (term : Option Term) : InStream :=
  { ready := ready, term := term, taken := [], past := s.consumed }

/-- A new, empty OUT in the place of `s` (R72; log 15). -/
def OutSink.attach (s : OutSink) (answers : List Answer) : OutSink :=
  { answers := answers, bytes := [], past := s.accepted }

/-- A new SIN in the place of `s` (R72). -/
def SampleSource.attach (s : SampleSource) (ready : List Word) : SampleSource :=
  { ready := ready, taken := [], past := s.consumed }

/-- A new, empty SOUT in the place of `s` (R72; log 15). -/
def SampleSink.attach (s : SampleSink) (room : Nat) : SampleSink :=
  { room := room, words := [], removed := [], past := s.appended }

/-- The host removes the oldest `n` words of SOUT (R279). -/
def SampleSink.remove (s : SampleSink) (n : Nat) : SampleSink :=
  { s with words := s.words.drop n, removed := s.removed ++ s.words.take n }

/-- The error a terminator raises inside a read (R67, D32). -/
def Term.errKind : Term → ErrKind
  | .eof => .truncatedStream
  | .fail => .ioFailure

/-! ### Units in State -/

/-- State with decoder `i` replaced. -/
def State.setDec (s : State) (i : Nat) (u : DecUnit) : State := { s with decs := s.decs.set i u }

/-- State with encoder `i` replaced. -/
def State.setEnc (s : State) (i : Nat) (u : EncUnit) : State := { s with encs := s.encs.set i u }

/-- How many of its own steps a unit with `work` left takes in one turn (R283; log 4). -/
def State.turn (s : State) (work : Nat) : Nat := s.pace.getD work

end Sys2Proof.Machine
end

