-- ==== Sys2Proof/Machine/Decoder.lean ====
section
/-! DEFINITION. The decoder: the header parse and chunk scan (R172), the sample paths (R210, R220),
and the three decode commands (R186, R210, R220). A running command advances by single steps, each
taking at most one stream event (R78, R79); a unit's turn is as many of them as its pace allows. -/

namespace Sys2Proof.Machine

/-! ### Moving inside a running command -/

/-- The running command at another position. -/
def DecUnit.goto (u : DecUnit) (r : DecRun) (p : DecPos) : DecUnit :=
  { u with run := some { r with pos := p } }

/-- `raise` inside a running command: the outcome is recorded next (R246). -/
def DecUnit.fail (u : DecUnit) (r : DecRun) (k : ErrKind) (st : Stage) (actual expected : Nat) :
    DecUnit :=
  u.goto r (.ending (.error k st actual expected))

/-- The unit with another PHASE. -/
def DecUnit.setPhase (u : DecUnit) (p : Phase) : DecUnit := { u with ctl := u.ctl.setPhase p }

/-- The stage of a read (R172, R187, R210, R220). -/
def DecRead.stage : DecRead → Stage
  | .riff => .riffRecord
  | .fmtTag => .fmtTag
  | .fmtRecord => .fmtRecord
  | .extraSize => .extraSize
  | .chunkHeader => .chunkHeader
  | .element _ _ => .sampleData
  | .residual _ => .sampleData

/-- The stage of a skip (R172, R187). -/
def DecSkip.stage : DecSkip → Stage
  | .extension => .extraSkip
  | .chunk => .chunkSkip

/-! ### Loading the header registers (R33, R172) -/

/-- The RiffHeader registers from the 12-byte record (R91, R172). -/
def DecHeader.loadRiff (h : DecHeader) (r : List Byte) : DecHeader :=
  { h with
    riffIdent := BitVec.ofNat 32 (pack32 (slice r 0 4))
    riffSize := BitVec.ofNat 32 (le32 (slice r 4 4))
    riffType := BitVec.ofNat 32 (pack32 (slice r 8 4)) }

/-- The format registers from the 20-byte record (R92, R172). -/
def DecHeader.loadFormat (h : DecHeader) (f : List Byte) : DecHeader :=
  { h with
    fmtLen := BitVec.ofNat 32 (le32 (slice f 0 4))
    audioFormat := BitVec.ofNat 16 (le16 (slice f 4 2))
    numChannels := BitVec.ofNat 16 (le16 (slice f 6 2))
    sampleRate := BitVec.ofNat 32 (le32 (slice f 8 4))
    bytesPerSec := BitVec.ofNat 32 (le32 (slice f 12 4))
    blockAlign := BitVec.ofNat 16 (le16 (slice f 16 2))
    bitsPerSample := BitVec.ofNat 16 (le16 (slice f 18 2)) }

/-- EXTRA_SIZE from its 2 bytes (R93, R172). -/
def DecHeader.loadExtraSize (h : DecHeader) (x : List Byte) : DecHeader :=
  { h with extraSize := BitVec.ofNat 16 (le16 x) }

/-- DATA_SIZE from a data chunk's header (R95, R172). -/
def DecHeader.loadDataSize (h : DecHeader) (c : List Byte) : DecHeader :=
  { h with dataSize := BitVec.ofNat 32 (le32 (slice c 4 4)) }

/-! ### What follows each read and skip -/

/-- After a skip (R172 steps 5 and 6): the extension leads into the chunk scan, a chunk to the next
chunk header. -/
def DecUnit.afterSkip (u : DecUnit) (r : DecRun) : DecSkip → DecUnit
  | .extension => (u.setPhase .extraParamsSkipped).goto r .scanning
  | .chunk => u.goto r (.reading .chunkHeader 8 [])

/-- `MemSkip(IN, n)` (R68): it takes nothing when n = 0. -/
def DecUnit.startSkip (u : DecUnit) (r : DecRun) (k : DecSkip) (n : Nat) : DecUnit :=
  if n = 0 then u.afterSkip r k else u.goto r (.skipping k n 0)

/-- The next payload element, or what ends the payload: the residual bytes (R212) or success. -/
def DecUnit.nextElement (u : DecUnit) (r : DecRun) (kind : SampleKind) (left : Nat) : DecUnit :=
  match left with
  | n + 1 => u.goto r (.reading (.element kind n) kind.size [])
  | 0 =>
    if u.hdr.dataSize.toNat % kind.size ≠ 0 then
      u.goto r (.reading (.residual kind) (u.hdr.dataSize.toNat % kind.size) [])
    else u.goto r (.ending (.ok .samplesDone))

/-- Step 1: the RiffHeader record, RIFF before WAVE (R172 to R175). -/
def DecUnit.afterRiff (u : DecUnit) (r : DecRun) (b : List Byte) : DecUnit :=
  let v := { u with hdr := u.hdr.loadRiff b }
  if slice b 0 4 ≠ tagRiff then
    v.fail r .malformedContainer .riffRecord (pack32 (slice b 0 4)) (pack32 tagRiff)
  else if slice b 8 4 ≠ tagWave then
    v.fail r .malformedContainer .riffRecord (pack32 (slice b 8 4)) (pack32 tagWave)
  else (v.setPhase .riffVerified).goto r (.reading .fmtTag 4 [])

/-- Step 2: the "fmt " tag (R172, R176). -/
def DecUnit.afterFmtTag (u : DecUnit) (r : DecRun) (b : List Byte) : DecUnit :=
  if b ≠ tagFmt then u.fail r .malformedContainer .fmtTag (pack32 b) (pack32 tagFmt)
  else (u.setPhase .fmtVerified).goto r (.reading .fmtRecord 20 [])

/-- Steps 3 to 5: the format record, the format code, and whether an extension follows (R172, R177 to
R180). -/
def DecUnit.afterFmtRecord (u : DecUnit) (r : DecRun) (b : List Byte) : DecUnit :=
  let v := { u with hdr := u.hdr.loadFormat b }
  if v.hdr.audioFormat ∉ recognizedFormats then
    v.fail r .unsupportedFormat .fmtValidate v.hdr.audioFormat.toNat 0
  else if v.hdr.fmtLen ≠ 16#32 then
    (v.setPhase .formatValidated).goto r (.reading .extraSize 2 [])
  else (v.setPhase .formatValidated).goto r .scanning

/-- Step 5: the extension's size, then its bytes (R172, R179). -/
def DecUnit.afterExtraSize (u : DecUnit) (r : DecRun) (b : List Byte) : DecUnit :=
  let v := { u with hdr := u.hdr.loadExtraSize b }
  v.startSkip r .extension v.hdr.extraSize.toNat

/-- Step 6: a chunk header; "data" ends the scan, any other tag is skipped (R172, R181, R182). -/
def DecUnit.afterChunkHeader (u : DecUnit) (r : DecRun) (b : List Byte) : DecUnit :=
  if slice b 0 4 = tagData then
    ({ u with hdr := u.hdr.loadDataSize b, hdrValid := true }.setPhase .dataChunkFound).goto r .parsed
  else u.startSkip r .chunk (le32 (slice b 4 4))

/-- A payload element: the range check of a float32, then its append (R210, R211, R220 to R223). -/
def DecUnit.afterElement (u : DecUnit) (r : DecRun) (kind : SampleKind) (left : Nat)
    (b : List Byte) : DecUnit :=
  let w := elementWord kind r.bo b
  if decodable kind w then u.goto r (.appending kind w left)
  else u.fail r .sampleOutOfRange .sampleRange w.toNat floatOne

/-- What follows a complete `MemRead` (R172, R210, R220; the residual bytes R212). -/
def DecUnit.afterRead (u : DecUnit) (r : DecRun) (what : DecRead) (b : List Byte) : DecUnit :=
  match what with
  | .riff => u.afterRiff r b
  | .fmtTag => u.afterFmtTag r b
  | .fmtRecord => u.afterFmtRecord r b
  | .extraSize => u.afterExtraSize r b
  | .chunkHeader => u.afterChunkHeader r b
  | .element kind left => u.afterElement r kind left b
  | .residual kind => u.fail r .truncatedStream .sampleData b.length kind.size

/-- After a successful header parse: DEC_HEADER finishes (R186); a sample command checks the format
code and starts on the payload (R210, R215, R220). -/
def DecUnit.afterParse (u : DecUnit) (r : DecRun) : DecUnit :=
  match r.cmd with
  | .header => u.goto r (.ending (.ok .dataChunkFound))
  | .samples kind =>
    if u.hdr.audioFormat ≠ kind.formatCode then
      u.fail r .unsupportedFormat .sampleKind u.hdr.audioFormat.toNat kind.formatCode.toNat
    else (u.setPhase .samplesDecoding).nextElement r kind (u.hdr.dataSize.toNat / kind.size)

/-! ### One step of a running command -/

/-- One event of `MemRead(IN, need)` (R67). -/
def DecUnit.stepRead (u : DecUnit) (r : DecRun) (what : DecRead) (need : Nat) (got : List Byte) :
    Option DecUnit :=
  match u.inp.next with
  | none => none
  | some (.byte b, inp) =>
    let v := { u with inp := inp, ctl := u.ctl.countByte }
    if got.length + 1 < need then some (v.goto r (.reading what need (got ++ [b])))
    else some (v.afterRead r what (got ++ [b]))
  | some (.stop t, inp) => some ({ u with inp := inp }.fail r t.errKind what.stage got.length need)

/-- One event of `MemSkip(IN, need)` (R68). -/
def DecUnit.stepSkip (u : DecUnit) (r : DecRun) (what : DecSkip) (need got : Nat) :
    Option DecUnit :=
  match u.inp.next with
  | none => none
  | some (.byte _, inp) =>
    let v := { u with inp := inp, ctl := u.ctl.countByte }
    if got + 1 < need then some (v.goto r (.skipping what need (got + 1)))
    else some (v.afterSkip r what)
  | some (.stop t, inp) => some ({ u with inp := inp }.fail r t.errKind what.stage got need)

/-- `SampleOut(w)` and the count (R71, R210, R220). -/
def DecUnit.stepAppend (u : DecUnit) (r : DecRun) (kind : SampleKind) (w : Word) (left : Nat) :
    Option DecUnit :=
  match u.sout.append w with
  | none => none
  | some sout => some ({ u with sout := sout, ctl := u.ctl.countSample }.nextElement r kind left)

/-- One step of a decoder unit; none when it is idle, collects operands, or waits for a stream. -/
def DecUnit.advance (u : DecUnit) : Option DecUnit :=
  match u.run with
  | none => none
  | some r =>
    match r.pos with
    | .reading what need got => u.stepRead r what need got
    | .skipping what need got => u.stepSkip r what need got
    | .scanning => some ((u.setPhase .chunkScanning).goto r (.reading .chunkHeader 8 []))
    | .parsed => some (u.afterParse r)
    | .appending kind w left => u.stepAppend r kind w left
    | .ending e => some ({ u with ctl := u.ctl.record e }.goto r .releasing)
    | .releasing => some { u with run := none, ctl := u.ctl.release }

/-- A bound on the steps a position leads to beside two for each byte of IN. -/
def DecPos.work : DecPos → Nat
  | .reading _ _ _ => 4
  | .skipping _ _ _ => 4
  | .scanning => 5
  | .parsed => 5
  | .appending _ _ _ => 5
  | .ending _ => 2
  | .releasing => 1

/-- A bound on the steps a decoder unit can take before it needs its host: every step lowers it. -/
def DecUnit.work (u : DecUnit) : Nat :=
  match u.run with
  | none => 0
  | some r => 2 * u.inp.ready.length + r.pos.work

/-- Up to `n` steps of a decoder unit, fewer if it can take no more. -/
def DecUnit.runFor : Nat → DecUnit → DecUnit
  | 0, u => u
  | n + 1, u =>
    match u.advance with
    | none => u
    | some v => DecUnit.runFor n v

/-! ### The commands -/

/-- Execution start of a decode command (R241, R34): SAMPLE_BO sampled, header registers and HDR_VALID
cleared, at `ParseHeader`'s first read (R172). -/
def DecUnit.begin (u : DecUnit) (cmd : DecCmd) : DecUnit :=
  { u with
    ctl := { u.ctl with asm := [], phase := .start }
    hdr := DecHeader.zero
    hdrValid := false
    run := some { cmd := cmd, bo := u.ctl.sampleBo, pos := .reading .riff 12 [] } }

/-- A decode command on the selected decoder: execution start, then the unit's turn. -/
def State.startDec (s : State) (cmd : DecCmd) : Host.Outcome State Fault Refusal :=
  match s.decs[s.sel]? with
  | none => .fault .noSuchUnit
  | some u => .next (s.setDec s.sel ((u.begin cmd).runFor (s.turn (u.begin cmd).work)))

/-- DEC_HEADER (R186). -/
def execDecHeader (s : State) : Host.Outcome State Fault Refusal := s.startDec .header

/-- DEC_INT16 (R210). -/
def execDecInt16 (s : State) : Host.Outcome State Fault Refusal := s.startDec (.samples .int16)

/-- DEC_FLOAT32 (R220). -/
def execDecFloat32 (s : State) : Host.Outcome State Fault Refusal := s.startDec (.samples .float32)

end Sys2Proof.Machine
end

