-- ==== Sys2Proof/Machine/Encoder.lean ====
section
/-! DEFINITION. The encoder: the format constructors (R120 to R125), the header and sample writers
(R140 to R142), and the five encoder commands (R121, R122, R143 to R145), advancing by single steps
as the decoder does. -/

namespace Sys2Proof.Machine

open Sys2Proof.Config (Params)

/-! ### Moving inside a running command -/

/-- The running command, with its sampled byte order, at a position. -/
def EncUnit.goto (u : EncUnit) (bo : ByteOrder) (p : EncPos) : EncUnit :=
  { u with run := some { bo := bo, pos := p } }

/-- `raise` inside a running command: the outcome is recorded next (R246). -/
def EncUnit.fail (u : EncUnit) (bo : ByteOrder) (k : ErrKind) (st : Stage) (actual expected : Nat) :
    EncUnit :=
  u.goto bo (.ending (.error k st actual expected))

/-- The unit with another PHASE. -/
def EncUnit.setPhase (u : EncUnit) (p : Phase) : EncUnit := { u with ctl := u.ctl.setPhase p }

/-! ### The format registers -/

/-- A 32-bit value put into a format register: a 16-bit register takes v[15:0] (R36). -/
def EncFormat.put (f : EncFormat) (r : FmtReg) (v : Word) : EncFormat :=
  match r with
  | .fmtLen => { f with fmtLen := v }
  | .audioFormat => { f with audioFormat := BitVec.setWidth 16 v }
  | .numChannels => { f with numChannels := BitVec.setWidth 16 v }
  | .sampleRate => { f with sampleRate := v }
  | .bytesPerSec => { f with bytesPerSec := v }
  | .blockAlign => { f with blockAlign := BitVec.setWidth 16 v }
  | .bitsPerSample => { f with bitsPerSample := BitVec.setWidth 16 v }

/-- The value `CtorFormat` writes to a format register (R120). -/
def ctorValue (p : Params) (a : CtorArgs) : FmtReg → Word
  | .fmtLen => 16#32
  | .audioFormat => BitVec.setWidth 32 a.code
  | .numChannels => BitVec.setWidth 32 a.ch
  | .sampleRate => a.rate
  | .blockAlign => BitVec.setWidth 32 (ctorBlockAlign p a.ch a.bits)
  | .bytesPerSec => ctorBytesPerSec p a.ch a.rate a.bits
  | .bitsPerSample => BitVec.setWidth 32 a.bits

/-- The order in which `CtorFormat` writes the registers (R120). -/
def ctorOrder : List FmtReg :=
  [.fmtLen, .audioFormat, .numChannels, .sampleRate, .blockAlign, .bytesPerSec, .bitsPerSample]

/-! ### The output -/

/-- The 44 header bytes (R97, R141), little-endian whatever SAMPLE_BO holds (R73). -/
def headerBytes (f : EncFormat) (riffSize dataSize : Word) : List Byte :=
  tagRiff ++ bytesLe32 riffSize ++ tagWave ++ tagFmt ++ bytesLe32 f.fmtLen ++
    bytesLe16 f.audioFormat ++ bytesLe16 f.numChannels ++ bytesLe32 f.sampleRate ++
    bytesLe32 f.bytesPerSec ++ bytesLe16 f.blockAlign ++ bytesLe16 f.bitsPerSample ++
    tagData ++ bytesLe32 dataSize

/-- The next sample of `EmitSamples`, or success after the last (R142). -/
def EncUnit.nextSample (u : EncUnit) (bo : ByteOrder) (kind : SampleKind) (left : Nat) : EncUnit :=
  match left with
  | n + 1 => u.goto bo (.taking kind n)
  | 0 => u.goto bo (.ending (.ok .encDone))

/-- After the header: ENC_HEADER finishes (R143), a sample command goes on to its samples (R142,
R144, R145). -/
def EncUnit.afterHeader (u : EncUnit) (bo : ByteOrder) : Option (SampleKind × Nat) → EncUnit
  | none => u.goto bo (.ending (.ok .encDone))
  | some (kind, n) => (u.setPhase .encSamplesOut).nextSample bo kind n

/-! ### One step of a running command -/

/-- One byte of the header's `MemWrite` (R69, R141). -/
def EncUnit.stepHeader (u : EncUnit) (bo : ByteOrder) (todo : List Byte) (sent : Nat)
    (next : Option (SampleKind × Nat)) : Option EncUnit :=
  match todo with
  | [] => some (u.afterHeader bo next)
  | b :: bs =>
    match u.out.offer b with
    | none => none
    | some (.ack, out) =>
      some ({ u with out := out, ctl := u.ctl.countByte }.goto bo (.header bs (sent + 1) next))
    | some (.fail, out) =>
      some ({ u with out := out }.fail bo .ioFailure .encHeaderWrite sent (sent + (b :: bs).length))

/-- `SampleIn()` and the optional range check (R70, R142, R146). -/
def EncUnit.stepTake (p : Params) (u : EncUnit) (bo : ByteOrder) (kind : SampleKind) (left : Nat) :
    Option EncUnit :=
  match u.sin.next with
  | none => none
  | some (w, sin) =>
    let v := { u with sin := sin }
    if encodable p kind w then some (v.goto bo (.element (elementBytes kind bo w) 0 kind left))
    else some (v.fail bo .sampleOutOfRange .encSampleRange w.toNat floatOne)

/-- One byte of an element's `MemWrite`; after the last, SAMPLE_COUNT and the next sample (R69,
R142). -/
def EncUnit.stepElement (u : EncUnit) (bo : ByteOrder) (todo : List Byte) (sent : Nat)
    (kind : SampleKind) (left : Nat) : Option EncUnit :=
  match todo with
  | [] => some ({ u with ctl := u.ctl.countSample }.nextSample bo kind left)
  | b :: bs =>
    match u.out.offer b with
    | none => none
    | some (.ack, out) =>
      some ({ u with out := out, ctl := u.ctl.countByte }.goto bo (.element bs (sent + 1) kind left))
    | some (.fail, out) =>
      some ({ u with out := out }.fail bo .ioFailure .encSampleWrite sent (sent + (b :: bs).length))

/-- One step of an encoder unit; none when it is idle, collects operands, or waits for a stream. -/
def EncUnit.advance (p : Params) (u : EncUnit) : Option EncUnit :=
  match u.run with
  | none => none
  | some r =>
    match r.pos with
    | .constructing _ [] => some (u.goto r.bo (.ending (.ok .encDone)))
    | .constructing a (f :: fs) =>
      some ({ u with fmt := u.fmt.put f (ctorValue p a f) }.goto r.bo (.constructing a fs))
    | .header todo sent next => u.stepHeader r.bo todo sent next
    | .taking kind left => u.stepTake p r.bo kind left
    | .element todo sent kind left => u.stepElement r.bo todo sent kind left
    | .ending e => some ({ u with ctl := u.ctl.record e }.goto r.bo .releasing)
    | .releasing => some { u with run := none, ctl := u.ctl.release }

/-- A bound on the steps a position leads to beside one for each answer and two for each SIN word. -/
def EncPos.work : EncPos → Nat
  | .constructing _ todo => todo.length + 3
  | .header _ _ _ => 4
  | .taking _ _ => 3
  | .element _ _ _ _ => 4
  | .ending _ => 2
  | .releasing => 1

/-- A bound on the steps an encoder unit can take before it needs its host: every step lowers it. -/
def EncUnit.work (u : EncUnit) : Nat :=
  match u.run with
  | none => 0
  | some r => u.out.answers.length + 2 * u.sin.ready.length + r.pos.work

/-- Up to `n` steps of an encoder unit, fewer if it can take no more. -/
def EncUnit.runFor (p : Params) : Nat → EncUnit → EncUnit
  | 0, u => u
  | n + 1, u =>
    match u.advance p with
    | none => u
    | some v => EncUnit.runFor p n v

/-! ### The commands -/

/-- `EncPrologue(N, E)` and the start of `EmitHeader()` (R140, R141). -/
def EncUnit.prologue (p : Params) (u : EncUnit) (bo : ByteOrder) (kind : SampleKind) (n : Nat)
    (next : Option (SampleKind × Nat)) : EncUnit :=
  if n > nMax p kind then u.fail bo .operandRange .command n (nMax p kind)
  else
    let v := { u with
      dataSize := BitVec.ofNat 32 (n * kind.size)
      riffSize := BitVec.ofNat 32 (p.riffSizeBias.toNat + n * kind.size) }
    (v.setPhase .encHeaderOut).goto bo (.header (headerBytes v.fmt v.riffSize v.dataSize) 0 next)

/-- Execution start of an encoder command (R241): SAMPLE_BO sampled, then the command's first part. -/
def EncUnit.begin (p : Params) (u : EncUnit) (job : EncJob) : EncUnit :=
  let v := { u with ctl := { u.ctl with asm := [] } }
  match job with
  | .construct a => v.goto u.ctl.sampleBo (.constructing a ctorOrder)
  | .header => v.prologue p u.ctl.sampleBo .int16 0 none
  | .samples kind n =>
    v.prologue p u.ctl.sampleBo kind n.toNat (some (kind, n.toNat))

/-- An encoder command on the selected encoder: execution start, then the unit's turn. -/
def State.startEnc (s : State) (job : EncJob) : Host.Outcome State Fault Refusal :=
  match s.encs[s.sel]? with
  | none => .fault .noSuchUnit
  | some u =>
    .next (s.setEnc s.sel
      ((u.begin s.params job).runFor s.params (s.turn (u.begin s.params job).work)))

/-- FMT_NEW_PCM (R121): `CtorFormat(1, ch, rate, bits)`. -/
def execFmtNewPcm (ch : Half) (rate : Word) (bits : Half) (s : State) :
    Host.Outcome State Fault Refusal :=
  s.startEnc (.construct ⟨1#16, ch, rate, bits⟩)

/-- FMT_NEW_FLOAT (R122): `CtorFormat(3, ch, rate, bits)`. -/
def execFmtNewFloat (ch : Half) (rate : Word) (bits : Half) (s : State) :
    Host.Outcome State Fault Refusal :=
  s.startEnc (.construct ⟨3#16, ch, rate, bits⟩)

/-- ENC_HEADER (R143). -/
def execEncHeader (s : State) : Host.Outcome State Fault Refusal := s.startEnc .header

/-- ENC_INT16 (R144). -/
def execEncInt16 (n : Word) (s : State) : Host.Outcome State Fault Refusal :=
  s.startEnc (.samples .int16 n)

/-- ENC_FLOAT32 (R145). -/
def execEncFloat32 (n : Word) (s : State) : Host.Outcome State Fault Refusal :=
  s.startEnc (.samples .float32 n)

end Sys2Proof.Machine
end

