-- ==== Sys2Proof/Machine/Dispatch.lean ====
section
/-! DEFINITION. exec: one arm per command (R103). -/

namespace Sys2Proof.Machine

def exec (i : Instr) (s : State) : Host.Outcome State Fault Refusal :=
  match i with
  | .decHeader => Sys2Proof.Machine.execDecHeader s
  | .decInt16 => Sys2Proof.Machine.execDecInt16 s
  | .decFloat32 => Sys2Proof.Machine.execDecFloat32 s
  | .fmtNewPcm ch rate bits => Sys2Proof.Machine.execFmtNewPcm ch rate bits s
  | .fmtNewFloat ch rate bits => Sys2Proof.Machine.execFmtNewFloat ch rate bits s
  | .encHeader => Sys2Proof.Machine.execEncHeader s
  | .encInt16 n => Sys2Proof.Machine.execEncInt16 n s
  | .encFloat32 n => Sys2Proof.Machine.execEncFloat32 n s

end Sys2Proof.Machine
end

