-- ==== Sys2Proof/Machine/Flags.lean ====
section
/-! DEFINITION. The flag words: STATUS as the host reads it (R26), the W1C write (R29), CFG (R25), and
STATUS of a BUSY unit (R277). -/

namespace Sys2Proof.Machine

/-- A flag as a bit. -/
def bit (b : Bool) : Nat := if b then 1 else 0

/-- STATUS from its fields (R26): BUSY [0], DONE [1], HDR_VALID [2], PHASE [7:4], ERR [11:8],
STICKY_ERR [12], OVR [13]; bits 3 and [31:14] are 0. -/
def statusWord (busy done hdrValid : Bool) (phase : Phase) (err : Option ErrKind)
    (stickyErr ovr : Bool) : Word :=
  BitVec.ofNat 32
    (bit busy + 2 ^ 1 * bit done + 2 ^ 2 * bit hdrValid + 2 ^ 4 * phase.code + 2 ^ 8 * errCode err +
      2 ^ 12 * bit stickyErr + 2 ^ 13 * bit ovr)

/-- STATUS of a unit that is not BUSY (R26); HDR_VALID is 0 in ENC. -/
def Ctl.status (c : Ctl) (hdrValid : Bool) : Word :=
  statusWord c.busy c.done hdrValid c.phase c.err c.stickyErr c.ovr

/-- STATUS of a BUSY unit in its n-th read (R277): BUSY is 1, STICKY_ERR and OVR are current, and
DONE, PHASE, ERR and HDR_VALID are free; HDR_VALID is 0 in ENC (R26). -/
def Ctl.busyStatus (c : Ctl) (isDec : Bool) (n : Nat) : Word :=
  statusWord true (Config.freeDone n) (isDec && Config.freeHdrValid n) (Config.freePhase n)
    (Config.freeErr n) c.stickyErr c.ovr

/-- The W1C write of `v` to STATUS (R29): bit 12 clears STICKY_ERR, bit 13 clears OVR, and every other
bit is ignored. -/
def Ctl.clearStatus (v : Word) (c : Ctl) : Ctl :=
  { c with
    stickyErr := if v.getLsbD 12 then false else c.stickyErr
    ovr := if v.getLsbD 13 then false else c.ovr }

/-- CFG as read (R25): SAMPLE_BO in bit 0, the rest 0. -/
def Ctl.cfg (c : Ctl) : Word := BitVec.ofNat 32 c.sampleBo.code

/-- A write of `v` to CFG (R25, R64, R276): SAMPLE_BO takes bit 0; while BUSY it is discarded and OVR
is set. -/
def Ctl.writeCfg (v : Word) (c : Ctl) : Ctl :=
  if c.busy then { c with ovr := true } else { c with sampleBo := ByteOrder.ofBit (v.getLsbD 0) }

end Sys2Proof.Machine
end

