-- ==== Sys2Proof/Machine/Command.lean ====
section
/-! DEFINITION. The command port (R38, R100, R105, R240, R275): what a word written to CMD does. -/

namespace Sys2Proof.Machine

/-- A word written to CMD of a unit of kind `k` (R240): the registers after it, and the command whose
execution it starts, if any. A word for a BUSY unit that collects no operands is lost and sets OVR
(R275); a first word is accepted; an illegal word ends the command (R105); and a command with all its
words starts (R241). -/
def Ctl.takeWord (k : UnitKind) (w : Word) (c : Ctl) : Ctl × Option Instr :=
  match c.asm with
  | [] =>
    if c.busy then ({ c with ovr := true }, none)
    else
      match rejectWord0 k w with
      | some _ => (c.accept.raise .illegalCommand .command w.toNat 0, none)
      | none =>
        if opcLength (opc w) > 1 then ({ c.accept with asm := [w], phase := .operands }, none)
        else (c.accept, (decodeFor k [w]).toOption)
  | w0 :: ops =>
    match decodeFor k (w0 :: ops ++ [w]) with
    | .ok i => ({ c with asm := [] }, some i)
    | .error .word2High => (c.raise .illegalCommand .command w.toNat 2, none)
    | .error _ => ({ c with asm := w0 :: ops ++ [w] }, none)

/-- A CMD write to decoder `d`: its registers after the word, then the command it starts. -/
def State.cmdDec (s : State) (d : Nat) (u : DecUnit) (w : Word) : Host.Outcome State Fault Refusal :=
  let t := { s.setDec d { u with ctl := (u.ctl.takeWord .dec w).1 } with sel := d }
  match (u.ctl.takeWord .dec w).2 with
  | none => .next t
  | some i => exec i t

/-- A CMD write to encoder `e`: its registers after the word, then the command it starts. -/
def State.cmdEnc (s : State) (e : Nat) (u : EncUnit) (w : Word) : Host.Outcome State Fault Refusal :=
  let t := { s.setEnc e { u with ctl := (u.ctl.takeWord .enc w).1 } with sel := e }
  match (u.ctl.takeWord .enc w).2 with
  | none => .next t
  | some i => exec i t

end Sys2Proof.Machine
end

