-- ==== Sys2Proof/Machine/Platform.lean ====
section
/-! DEFINITION. The MMIO window (R24, R36, R38, R39, R61 to R65, R276, R277), reset (R270, R271), the
host's actions on the streams (R66 to R72, R274, R279, R281), and the turns of the units (R283, R284).
-/

namespace Sys2Proof.Machine

/-! ### The register maps (R24, R36) -/

/-- The registers of both maps. -/
inductive Reg where
  | cfg
  | status
  | cmd
  | errStage
  | errActual
  | errExpected
  | ioCount
  | sampleCount
  | riffIdent
  | riffSize
  | riffType
  | fmtLen
  | audioFormat
  | numChannels
  | sampleRate
  | bytesPerSec
  | blockAlign
  | bitsPerSample
  | extraSize
  | dataSize
  deriving DecidableEq, Repr

/-- The offsets both maps share (R24, R36). -/
def commonMap : List (Nat × Reg) :=
  [(0x000, .cfg), (0x004, .status), (0x008, .cmd), (0x00C, .errStage), (0x010, .errActual),
   (0x014, .errExpected), (0x018, .ioCount), (0x01C, .sampleCount), (0x044, .riffSize),
   (0x04C, .fmtLen), (0x050, .audioFormat), (0x054, .numChannels), (0x058, .sampleRate),
   (0x05C, .bytesPerSec), (0x060, .blockAlign), (0x064, .bitsPerSample), (0x06C, .dataSize)]

/-- The offsets that only the decoder maps (R24). -/
def decOnlyMap : List (Nat × Reg) := [(0x040, .riffIdent), (0x048, .riffType), (0x068, .extraSize)]

/-- The register at an offset of a unit's window; none for an unmapped one (R24, R36, R39). -/
def regAt (k : UnitKind) (off : Nat) : Option Reg :=
  match k with
  | .dec => (commonMap ++ decOnlyMap).lookup off
  | .enc => commonMap.lookup off

/-- The ENC format register among the registers (R36). -/
def Reg.fmt? : Reg → Option FmtReg
  | .fmtLen => some .fmtLen
  | .audioFormat => some .audioFormat
  | .numChannels => some .numChannels
  | .sampleRate => some .sampleRate
  | .bytesPerSec => some .bytesPerSec
  | .blockAlign => some .blockAlign
  | .bitsPerSample => some .bitsPerSample
  | _ => none

/-! ### Reads -/

/-- A register of a decoder unit that is not BUSY (R24, R63); CMD reads 0 (R38). -/
def DecUnit.peek (u : DecUnit) : Reg → Word
  | .cfg => u.ctl.cfg
  | .status => u.ctl.status u.hdrValid
  | .cmd => 0#32
  | .errStage => BitVec.ofNat 32 (stageCode u.ctl.errStage)
  | .errActual => u.ctl.errActual
  | .errExpected => u.ctl.errExpected
  | .ioCount => u.ctl.ioCount
  | .sampleCount => u.ctl.sampleCount
  | .riffIdent => u.hdr.riffIdent
  | .riffSize => u.hdr.riffSize
  | .riffType => u.hdr.riffType
  | .fmtLen => u.hdr.fmtLen
  | .audioFormat => BitVec.setWidth 32 u.hdr.audioFormat
  | .numChannels => BitVec.setWidth 32 u.hdr.numChannels
  | .sampleRate => u.hdr.sampleRate
  | .bytesPerSec => u.hdr.bytesPerSec
  | .blockAlign => BitVec.setWidth 32 u.hdr.blockAlign
  | .bitsPerSample => BitVec.setWidth 32 u.hdr.bitsPerSample
  | .extraSize => BitVec.setWidth 32 u.hdr.extraSize
  | .dataSize => u.hdr.dataSize

/-- A register of an encoder unit that is not BUSY (R36, R63); CMD reads 0 (R38), and so does what ENC
does not map (R39). -/
def EncUnit.peek (u : EncUnit) : Reg → Word
  | .cfg => u.ctl.cfg
  | .status => u.ctl.status false
  | .cmd => 0#32
  | .errStage => BitVec.ofNat 32 (stageCode u.ctl.errStage)
  | .errActual => u.ctl.errActual
  | .errExpected => u.ctl.errExpected
  | .ioCount => u.ctl.ioCount
  | .sampleCount => u.ctl.sampleCount
  | .riffIdent => 0#32
  | .riffSize => u.riffSize
  | .riffType => 0#32
  | .fmtLen => u.fmt.fmtLen
  | .audioFormat => BitVec.setWidth 32 u.fmt.audioFormat
  | .numChannels => BitVec.setWidth 32 u.fmt.numChannels
  | .sampleRate => u.fmt.sampleRate
  | .bytesPerSec => u.fmt.bytesPerSec
  | .blockAlign => BitVec.setWidth 32 u.fmt.blockAlign
  | .bitsPerSample => BitVec.setWidth 32 u.fmt.bitsPerSample
  | .extraSize => 0#32
  | .dataSize => u.dataSize

/-- A register of a BUSY decoder unit in the n-th read (R277): CFG and CMD as ever, STATUS in part,
the others free at their widths. -/
def DecUnit.peekBusy (u : DecUnit) (n : Nat) : Reg → Word
  | .cfg => u.ctl.cfg
  | .status => u.ctl.busyStatus true n
  | .cmd => 0#32
  | .audioFormat => BitVec.setWidth 32 (Config.freeHalf n)
  | .numChannels => BitVec.setWidth 32 (Config.freeHalf n)
  | .blockAlign => BitVec.setWidth 32 (Config.freeHalf n)
  | .bitsPerSample => BitVec.setWidth 32 (Config.freeHalf n)
  | .extraSize => BitVec.setWidth 32 (Config.freeHalf n)
  | _ => Config.freeWord n

/-- A register of a BUSY encoder unit in the n-th read (R277): CFG, CMD and the format registers as
ever, STATUS in part, the others free. -/
def EncUnit.peekBusy (u : EncUnit) (n : Nat) (r : Reg) : Word :=
  match r with
  | .status => u.ctl.busyStatus false n
  | .errStage => Config.freeWord n
  | .errActual => Config.freeWord n
  | .errExpected => Config.freeWord n
  | .ioCount => Config.freeWord n
  | .sampleCount => Config.freeWord n
  | .riffSize => Config.freeWord n
  | .dataSize => Config.freeWord n
  | _ => u.peek r

/-- What a 32-bit read at an offset of a decoder's window returns (R39, R63, R277). -/
def DecUnit.readAt (u : DecUnit) (n off : Nat) : Word :=
  match regAt .dec off with
  | none => 0#32
  | some r => if u.ctl.busy then u.peekBusy n r else u.peek r

/-- What a 32-bit read at an offset of an encoder's window returns (R39, R63, R277). -/
def EncUnit.readAt (u : EncUnit) (n off : Nat) : Word :=
  match regAt .enc off with
  | none => 0#32
  | some r => if u.ctl.busy then u.peekBusy n r else u.peek r

/-! ### Writes other than to CMD (R64) -/

/-- A 32-bit write at an offset of a decoder's window other than CMD's. -/
def DecUnit.writeAt (u : DecUnit) (off : Nat) (v : Word) : DecUnit :=
  match regAt .dec off with
  | some .status => { u with ctl := u.ctl.clearStatus v }
  | some .cfg => { u with ctl := u.ctl.writeCfg v }
  | _ => u

/-- A 32-bit write to a format register (R36, R64); while BUSY it is discarded and OVR is set
(R276). -/
def EncUnit.writeFmt (u : EncUnit) (f : FmtReg) (v : Word) : EncUnit :=
  if u.ctl.busy then { u with ctl := { u.ctl with ovr := true } }
  else { u with fmt := u.fmt.put f v }

/-- A 32-bit write at an offset of an encoder's window other than CMD's. -/
def EncUnit.writeAt (u : EncUnit) (off : Nat) (v : Word) : EncUnit :=
  match regAt .enc off with
  | none => u
  | some .status => { u with ctl := u.ctl.clearStatus v }
  | some .cfg => { u with ctl := u.ctl.writeCfg v }
  | some r =>
    match r.fmt? with
    | some f => u.writeFmt f v
    | none => u

/-! ### Reset of a unit (R270, R271) -/

/-- Reset: every register and all hidden state, no stream. -/
def DecUnit.resetUnit (u : DecUnit) : DecUnit :=
  { DecUnit.initial with inp := u.inp, sout := u.sout }

/-- Reset: every register and all hidden state, no stream. -/
def EncUnit.resetUnit (u : EncUnit) : EncUnit :=
  { EncUnit.initial with out := u.out, sin := u.sin }

/-! ### Host actions on a unit -/

/-- An action on decoder `d`. -/
def State.onDec (s : State) (d : Nat) (f : DecUnit → Host.Outcome DecUnit Fault Refusal) :
    Host.Outcome State Fault Refusal :=
  match s.decs[d]? with
  | none => .fault .noSuchUnit
  | some u =>
    match f u with
    | .next v => .next (s.setDec d v)
    | .fault r => .fault r
    | .refused r => .refused r

/-- An action on encoder `e`. -/
def State.onEnc (s : State) (e : Nat) (f : EncUnit → Host.Outcome EncUnit Fault Refusal) :
    Host.Outcome State Fault Refusal :=
  match s.encs[e]? with
  | none => .fault .noSuchUnit
  | some u =>
    match f u with
    | .next v => .next (s.setEnc e v)
    | .fault r => .fault r
    | .refused r => .refused r

/-- The only MMIO access the block accepts is 32 bits wide and 4-byte aligned (R62), and the window
ends at offset 0x0FF (R61). -/
def accessProblem (width off : Nat) : Option (Host.Outcome State Fault Refusal) :=
  if width ≠ 4 ∨ off % 4 ≠ 0 then some (.refused .badAccess)
  else if off ≥ 0x100 then some (.fault .outsideWindow)
  else none

/-- An MMIO read (R62, R63): no unit changes. The value is in `rdata`; every read moves on to the next
free value, which a BUSY unit's read uses. -/
def State.mmioRead (s : State) (u : UnitId) (width off : Nat) : Host.Outcome State Fault Refusal :=
  match accessProblem width off with
  | some o => o
  | none =>
    match u with
    | .dec d =>
      match s.decs[d]? with
      | none => .fault .noSuchUnit
      | some v => .next { s with rdata := v.readAt s.draws off, draws := s.draws + 1 }
    | .enc e =>
      match s.encs[e]? with
      | none => .fault .noSuchUnit
      | some v => .next { s with rdata := v.readAt s.draws off, draws := s.draws + 1 }

/-- An MMIO write (R62, R64): to CMD a command word, elsewhere a register write. -/
def State.mmioWrite (s : State) (u : UnitId) (width off : Nat) (w : Word) :
    Host.Outcome State Fault Refusal :=
  match accessProblem width off with
  | some o => o
  | none =>
    match u with
    | .dec d =>
      match s.decs[d]? with
      | none => .fault .noSuchUnit
      | some v => if off = 0x008 then s.cmdDec d v w else .next (s.setDec d (v.writeAt off w))
    | .enc e =>
      match s.encs[e]? with
      | none => .fault .noSuchUnit
      | some v => if off = 0x008 then s.cmdEnc e v w else .next (s.setEnc e (v.writeAt off w))

/-- A new stream for a unit that is not BUSY; a BUSY unit's streams must not be changed (R72, R281). -/
def whenIdle {α : Type} (busy : Bool) (u : α) : Host.Outcome α Fault Refusal :=
  if busy then .refused .busyStreamChange else .next u

/-- The next event of IN becomes ready (R66, R281); none may follow the terminator (log 5). -/
def DecUnit.deliver (u : DecUnit) (e : InEvent) : Host.Outcome DecUnit Fault Refusal :=
  match u.inp.term with
  | some _ => .refused .eventAfterTerminator
  | none =>
    match e with
    | .byte b => .next { u with inp := { u.inp with ready := u.inp.ready ++ [b] } }
    | .stop t => .next { u with inp := { u.inp with term := some t } }

/-- SOUT can take `n` more words (R279). -/
def DecUnit.addRoom (u : DecUnit) (n : Nat) : DecUnit :=
  { u with sout := { u.sout with room := u.sout.room + n } }

/-- The next answer of OUT becomes ready (R69). -/
def EncUnit.addAnswer (u : EncUnit) (a : Answer) : EncUnit :=
  { u with out := { u.out with answers := u.out.answers ++ [a] } }

/-- The next word of SIN becomes ready (R70). -/
def EncUnit.addWord (u : EncUnit) (w : Word) : EncUnit :=
  { u with sin := { u.sin with ready := u.sin.ready ++ [w] } }

/-- The bytes of encoder `e`'s OUT, then End, become decoder `d`'s new IN (R255). -/
def State.copyOut (s : State) (e d : Nat) : Host.Outcome State Fault Refusal :=
  match s.encs[e]? with
  | none => .fault .noSuchUnit
  | some v => s.onDec d fun u => whenIdle u.ctl.busy 
      { u with inp := u.inp.attach v.out.bytes (some .eof) }

/-! ### The turns of the units (R283) -/

/-- The turn of a unit: up to its pace, and nothing if it can take no step. -/
def State.turnOf (s : State) : UnitId → Host.Outcome State Fault Refusal
  | .dec d => s.onDec d fun u => .next (u.runFor (s.turn u.work))
  | .enc e => s.onEnc e fun u => .next (u.runFor s.params (s.turn u.work))

/-- A turn of at least one step for a unit that can take one; none when it cannot. -/
def State.push (s : State) : UnitId → Option State
  | .dec d =>
    match s.decs[d]? with
    | none => none
    | some u => u.advance.map fun v => s.setDec d (v.runFor (s.turn u.work - 1))
  | .enc e =>
    match s.encs[e]? with
    | none => none
    | some u => (u.advance s.params).map fun v => s.setEnc e (v.runFor s.params (s.turn u.work - 1))

/-- STATUS.BUSY of a unit; false for one that does not exist. -/
def State.busy (s : State) : UnitId → Bool
  | .dec d => (s.decs[d]?.map fun u => u.ctl.busy).getD false
  | .enc e => (s.encs[e]?.map fun u => u.ctl.busy).getD false

/-- The units of the machine, decoders first. -/
def State.units (s : State) : List UnitId :=
  (List.range s.decs.length).map .dec ++ (List.range s.encs.length).map .enc

/-- Whether every unit is idle (R284). -/
def State.idle (s : State) : Bool :=
  s.decs.all (fun u => !u.ctl.busy) && s.encs.all (fun u => !u.ctl.busy)

/-- Whether a host action is an event of a stream after which the unit the stream is attached to can take a
step (R279, R283). -/
def State.supplies (s : State) : HostEvent → Bool
  | .inEvent d e => s.decs[d]?.any fun u =>
    match u.deliver e with
    | .next v => v.advance.isSome
    | _ => false
  | .soutRoom d n => s.decs[d]?.any fun u => (u.addRoom n).advance.isSome
  | .outAnswer e a => s.encs[e]?.any fun u => ((u.addAnswer a).advance s.params).isSome
  | .sinWord e w => s.encs[e]?.any fun u => ((u.addWord w).advance s.params).isSome
  | .read _ _ _ => false
  | .write _ _ _ _ => false
  | .wait _ => false
  | .resetUnit _ => false
  | .run _ => false
  | .setPace _ => false
  | .attachIn _ _ _ => false
  | .soutTake _ _ => false
  | .attachSout _ _ => false
  | .attachOut _ _ => false
  | .attachSin _ _ => false
  | .copyOut _ _ => false
  | .share _ _ => false

/-- `wait <u>` (R109): STATUS is read, and while its BUSY bit is 1 the wait goes on. Meanwhile the units take
their turns: the polled unit where it can take a step, any other where it cannot (R283). When none can, the
streams that a host's loop goes on feeding deliver what lets a unit take a step (R190), and when there is
nothing of the kind no event can come any more (R283, R284): the host does nothing else before the wait is
over (log 12). -/
def State.waitFor (s : State) (u : UnitId) : Host.Outcome State Fault Refusal :=
  match s.mmioRead u 4 0x004 with
  | .next t =>
    if s.busy u then
      match (u :: t.units).findSome? t.push with
      | some v => .next { v with script := .wait u :: v.script }
      | none =>
        match t.loop.filter t.supplies with
        | [] => .fault .stuck
        | e :: es => .next { t with script := e :: es ++ .wait u :: t.script }
    else .next t
  | o => o

/-! ### One host action -/

/-- What the next entry of the script does, on the state without it. -/
def State.perform (s : State) : HostEvent → Host.Outcome State Fault Refusal
  | .read u width off => s.mmioRead u width off
  | .write u width off v => s.mmioWrite u width off v
  | .wait u => s.waitFor u
  | .resetUnit (.dec d) => s.onDec d fun u => .next u.resetUnit
  | .resetUnit (.enc e) => s.onEnc e fun u => .next u.resetUnit
  | .run u => s.turnOf u
  | .setPace p => .next { s with pace := p }
  | .inEvent d e => s.onDec d fun u => u.deliver e
  | .attachIn d ready term =>
    s.onDec d fun u => whenIdle u.ctl.busy { u with inp := u.inp.attach ready term }
  | .soutRoom d n => s.onDec d fun u => .next (u.addRoom n)
  | .soutTake d n => s.onDec d fun u => .next { u with sout := u.sout.remove n }
  | .attachSout d room => s.onDec d fun u => whenIdle u.ctl.busy { u with sout := u.sout.attach room }
  | .outAnswer e a => s.onEnc e fun u => .next (u.addAnswer a)
  | .attachOut e answers => s.onEnc e fun u => whenIdle u.ctl.busy { u with out := u.out.attach answers }
  | .sinWord e w => s.onEnc e fun u => .next (u.addWord w)
  | .attachSin e ready => s.onEnc e fun u => whenIdle u.ctl.busy { u with sin := u.sin.attach ready }
  | .copyOut e d => s.copyOut e d
  | .share a b => if a = b then .next s else .refused .sharedStream

/-! ### No host action pending (R283, R284) -/

/-- Whether a unit takes the next word written to its CMD: it is idle or it collects operands (R240, R275). -/
def State.takesWord (s : State) : UnitId → Bool
  | .dec d => s.decs[d]?.any fun u => !u.ctl.busy || !u.ctl.asm.isEmpty
  | .enc e => s.encs[e]?.any fun u => !u.ctl.busy || !u.ctl.asm.isEmpty

/-- Whether a host action hands a unit a word of a command, or ends by a reset what a BUSY unit does. -/
def State.commands (s : State) : HostEvent → Bool
  | .write x width off _ => width == 4 && off == 0x008 && s.takesWord x
  | .resetUnit x => s.busy x
  | .read _ _ _ => false
  | .wait _ => false
  | .run _ => false
  | .setPace _ => false
  | .inEvent _ _ => false
  | .attachIn _ _ _ => false
  | .soutRoom _ _ => false
  | .soutTake _ _ => false
  | .attachSout _ _ => false
  | .outAnswer _ _ => false
  | .attachOut _ _ => false
  | .sinWord _ _ => false
  | .attachSin _ _ => false
  | .copyOut _ _ => false
  | .share _ _ => false

/-- Whether a machine none of whose units can take a step gets any further by a host action: a unit is given a
stream event or a command, or reset; or the action itself is a fault or refused, which ends the run. A poll is
none of these (log 1). -/
def State.helps (s : State) (e : HostEvent) : Bool :=
  s.supplies e || s.commands e ||
    match s.perform e with
    | .next _ => false
    | _ => true

/-- With no host action pending, the first unit that can take a step takes a turn (R283). When none can, a host
that goes on for ever starts again on its loop (R190), if every unit is idle or the loop helps one (log 1); an
idle machine whose host has stopped stays as it is (R258, R284); and otherwise a unit is BUSY with no event
that could come: stuck (R283, R284). -/
def State.settle (s : State) : Host.Outcome State Fault Refusal :=
  match s.units.findSome? s.push with
  | some t => .next t
  | none =>
    if s.idle || s.loop.any s.helps then .next { s with script := s.loop }
    else .fault .stuck

/-- One step of the machine: the host's next action, or, when none is pending, a unit's turn. -/
def State.stepOnce (s : State) : Host.Outcome State Fault Refusal :=
  match s.script with
  | [] => s.settle
  | e :: rest => { s with script := rest }.perform e

/-! ### Host programs (R108, R109) -/

/-- The CMD writes of a command line (R108); none for an ill-formed line. -/
def AsmLine.events (l : AsmLine) : Option (List HostEvent) :=
  l.assemble.map fun ws => ws.map (HostEvent.write l.unit 4 0x008 ·)

/-- The expansion of a pseudo-instruction (R109). -/
def Pseudo.expand : Pseudo → List HostEvent
  | .wait u => [.wait u]
  | .setSampleLe u => [.write u 4 0x000 0x00000000#32]
  | .setSampleBe u => [.write u 4 0x000 0x00000001#32]
  | .clrStatus u => [.write u 4 0x004 0x00003000#32]
  | .encPcm16 e ch rate n =>
    (encode (.fmtNewPcm ch rate 16#16)).map (HostEvent.write (.enc e) 4 0x008 ·) ++
      [.wait (.enc e)] ++ (encode (.encInt16 n)).map (HostEvent.write (.enc e) 4 0x008 ·)
  | .encFloat32 e ch rate n =>
    (encode (.fmtNewFloat ch rate 32#16)).map (HostEvent.write (.enc e) 4 0x008 ·) ++
      [.wait (.enc e)] ++ (encode (.encFloat32 n)).map (HostEvent.write (.enc e) 4 0x008 ·)

/-! ### Placing a command where the next step takes it -/

/-- A decoder unit that is not BUSY, its running command abandoned as a reset would; unchanged if it
is idle. -/
def DecUnit.freed (u : DecUnit) : DecUnit :=
  { u with run := none, ctl := { u.ctl with busy := false, asm := [] } }

/-- An encoder unit that is not BUSY, its running command abandoned as a reset would; unchanged if it
is idle. -/
def EncUnit.freed (u : EncUnit) : EncUnit :=
  { u with run := none, ctl := { u.ctl with busy := false, asm := [] } }

/-- Registers after all the words of a command but its last have been written to CMD (R240). -/
def Ctl.takeAll (k : UnitKind) : List Word → Ctl → Ctl
  | w :: v :: ws, c => Ctl.takeAll k (v :: ws) (c.takeWord k w).1
  | _, c => c

/-- State with the words of a command placed at CMD of instance 0 of the kind that executes it: all
but the last already written, the last the host's next action (log 8). -/
def State.placeWords (s : State) (ws : List Word) : State :=
  match ws with
  | [] => s
  | w0 :: _ =>
    match kindOfWord w0 with
    | .dec =>
      { s with
        decs := s.decs.modify 0 fun u => { u.freed with ctl := u.freed.ctl.takeAll .dec ws }
        script := .write (.dec 0) 4 0x008 (ws.getLastD w0) :: s.script }
    | .enc =>
      { s with
        encs := s.encs.modify 0 fun u => { u.freed with ctl := u.freed.ctl.takeAll .enc ws }
        script := .write (.enc 0) 4 0x008 (ws.getLastD w0) :: s.script }

end Sys2Proof.Machine
end

