-- ==== Sys2Proof/Machine/Step.lean ====
section
/-! DEFINITION. step: one action of the host or one turn of a unit (R283); and the placing of a command
where the next step takes it. -/

namespace Sys2Proof.Machine

/-- One step of the machine. -/
def step : State → Host.Outcome State Fault Refusal := State.stepOnce

/-- State with the command whose bits are `w`, numbered as the opcode table numbers them, placed so
that the very next step takes its last word and runs it (log 8). -/
def State.withFetchWord (s : State) (nbits w : Nat) : State := s.placeWords (tableWords nbits w)

end Sys2Proof.Machine
end

