-- ==== Sys2Proof/Safety.lean ====
section
/-! DEFINITION. The terms claims use: a unit just accepted (R240), the bits of command words, the byte
streams the encoder writes and the decoder accepts (R97, R98), which error each command may raise
(R244), and the invariant of the machine. -/

namespace Sys2Proof.Machine

open Sys2Proof.Config (Params)

/-! ### A command just accepted -/

/-- The registers as acceptance leaves them, every word of the command taken (R240). -/
abbrev Ctl.Accepted (c : Ctl) : Prop :=
  c.busy = true ∧ c.done = false ∧ c.err = none ∧ c.errStage = none ∧ c.errActual = 0#32 ∧
    c.errExpected = 0#32 ∧ c.ioCount = 0#32 ∧ c.sampleCount = 0#32 ∧ c.asm = []

/-! ### Command words, bit by bit (R101, R103 to R106) -/

/-- The opcodes of a unit kind (R104). -/
def unitOpcodes : UnitKind → List (BitVec 8)
  | .dec => [0x11#8, 0x12#8, 0x13#8]
  | .enc => [0x21#8, 0x22#8, 0x23#8, 0x24#8, 0x25#8]

/-- OPC, bits [7:0] of word 0 (R101). -/
abbrev opcField (w : Word) : BitVec 8 := w.extractLsb' 0 8

/-- RSV, bits [15:8] of word 0 (R101). -/
abbrev rsvField (w : Word) : BitVec 8 := w.extractLsb' 8 8

/-- Bits [31:16] of a word: IMM16 of word 0 (R101), the reserved bits of word 2 (R102). -/
abbrev highField (w : Word) : Half := w.extractLsb' 16 16

/-- R105 (a), (b), (c) for word 0 on a unit of kind `k`. -/
abbrev IllegalWord0 (k : UnitKind) (w : Word) : Prop :=
  opcField w ∉ unitOpcodes k ∨ rsvField w ≠ 0#8 ∨
    (opcField w ∉ [0x21#8, 0x22#8] ∧ highField w ≠ 0#16)

/-- The command of a decode job (R103). -/
def DecCmd.instr : DecCmd → Instr
  | .header => .decHeader
  | .samples .int16 => .decInt16
  | .samples .float32 => .decFloat32

/-- The encoder's sample command of a kind (R103). -/
def SampleKind.encode (n : Word) : SampleKind → Instr
  | .int16 => .encInt16 n
  | .float32 => .encFloat32 n

/-! ### The streams the encoder writes (R97) -/

/-- The 44 header bytes for a payload of `dataSize` bytes, every field little-endian, then the payload
bytes (R97). -/
def waveStream (p : Params) (f : EncFormat) (dataSize : Nat) (payload : List Byte) : List Byte :=
  [0x52#8, 0x49#8, 0x46#8, 0x46#8] ++
  bytesLe32 (BitVec.ofNat 32 (p.riffSizeBias.toNat + dataSize)) ++
  [0x57#8, 0x41#8, 0x56#8, 0x45#8] ++ [0x66#8, 0x6D#8, 0x74#8, 0x20#8] ++
  bytesLe32 f.fmtLen ++ bytesLe16 f.audioFormat ++ bytesLe16 f.numChannels ++
  bytesLe32 f.sampleRate ++ bytesLe32 f.bytesPerSec ++ bytesLe16 f.blockAlign ++
  bytesLe16 f.bitsPerSample ++ [0x64#8, 0x61#8, 0x74#8, 0x61#8] ++
  bytesLe32 (BitVec.ofNat 32 dataSize) ++ payload

/-! ### The streams a header parse accepts (R90 to R98) -/

/-- A non-data chunk: its tag and its payload (R94). -/
structure Chunk where
  tag  : List Byte
  body : List Byte
  deriving DecidableEq, Repr

/-- The bytes of a chunk; no pad byte follows (R94). -/
def Chunk.bytes (c : Chunk) : List Byte :=
  c.tag ++ bytesLe32 (BitVec.ofNat 32 c.body.length) ++ c.body

/-- A chunk the scan skips: a 4-byte tag other than "data", and a size of 32 bits (R94, R98). -/
abbrev Chunk.Ok (c : Chunk) : Prop :=
  c.tag.length = 4 ∧ c.tag ≠ tagData ∧ c.body.length < 2 ^ 32

/-- A header of R98's grammar: the RIFF size, the format record, the extension bytes (present when
LengthOfHeader ≠ 16), the chunks before "data", and the data size. -/
structure WavHead where
  riffSize : Word
  fmt      : EncFormat
  ext      : List Byte
  chunks   : List Chunk
  dataSize : Word
  deriving DecidableEq, Repr

/-- The 20-byte format record (R92). -/
def formatRecord (f : EncFormat) : List Byte :=
  bytesLe32 f.fmtLen ++ bytesLe16 f.audioFormat ++ bytesLe16 f.numChannels ++
    bytesLe32 f.sampleRate ++ bytesLe32 f.bytesPerSec ++ bytesLe16 f.blockAlign ++
    bytesLe16 f.bitsPerSample

/-- The extension as it stands in the stream (R93). -/
def WavHead.extBytes (h : WavHead) : List Byte :=
  if h.fmt.fmtLen = 16#32 then [] else bytesLe16 (BitVec.ofNat 16 h.ext.length) ++ h.ext

/-- The bytes of the header, up to and with the data size (R90, R98). -/
def WavHead.bytes (h : WavHead) : List Byte :=
  tagRiff ++ bytesLe32 h.riffSize ++ tagWave ++ tagFmt ++ formatRecord h.fmt ++ h.extBytes ++
    h.chunks.flatMap Chunk.bytes ++ (tagData ++ bytesLe32 h.dataSize)

/-- The conditions of R98's grammar on the fields: a recognized code, and sizes that fit. -/
abbrev WavHead.Ok (h : WavHead) : Prop :=
  h.fmt.audioFormat ∈ recognizedFormats ∧ h.ext.length < 2 ^ 16 ∧ ∀ c ∈ h.chunks, c.Ok

/-- The header registers a parse of the header loads (R33, R172). -/
def WavHead.registers (h : WavHead) : DecHeader where
  riffIdent := 0x46464952#32
  riffSize := h.riffSize
  riffType := 0x45564157#32
  fmtLen := h.fmt.fmtLen
  audioFormat := h.fmt.audioFormat
  numChannels := h.fmt.numChannels
  sampleRate := h.fmt.sampleRate
  bytesPerSec := h.fmt.bytesPerSec
  blockAlign := h.fmt.blockAlign
  bitsPerSample := h.fmt.bitsPerSample
  extraSize := if h.fmt.fmtLen = 16#32 then 0#16 else BitVec.ofNat 16 h.ext.length
  dataSize := h.dataSize

/-- The reads of the chunk scan: stage and bytes needed, in order (R181, R187). -/
def scanReads : List Chunk → List (Stage × Nat)
  | [] => [(.chunkHeader, 8)]
  | c :: cs => (.chunkHeader, 8) :: (.chunkSkip, c.body.length) :: scanReads cs

/-- The reads of a parse of the header: stage and bytes needed, in order (R172, R187). -/
def WavHead.reads (h : WavHead) : List (Stage × Nat) :=
  (.riffRecord, 12) :: (.fmtTag, 4) :: (.fmtRecord, 20) ::
    if h.fmt.fmtLen = 16#32 then scanReads h.chunks
    else (.extraSize, 2) :: (.extraSkip, h.ext.length) :: scanReads h.chunks

/-- Where a stream of `n` bytes ends in a list of reads: the stage, the bytes that read got, and the
bytes it needed (R187); none when the stream is long enough for all of them. -/
def cutAt : List (Stage × Nat) → Nat → Option (Stage × Nat × Nat)
  | [], _ => none
  | (st, need) :: rest, n => if n < need then some (st, n, need) else cutAt rest (n - need)

/-- The header registers after a parse that got the first `n` bytes of the header, n short of all of
them: those of the records read so far, the rest 0 (R34). -/
def WavHead.loaded (h : WavHead) (n : Nat) : DecHeader where
  riffIdent := if n < 12 then 0#32 else 0x46464952#32
  riffSize := if n < 12 then 0#32 else h.riffSize
  riffType := if n < 12 then 0#32 else 0x45564157#32
  fmtLen := if n < 36 then 0#32 else h.fmt.fmtLen
  audioFormat := if n < 36 then 0#16 else h.fmt.audioFormat
  numChannels := if n < 36 then 0#16 else h.fmt.numChannels
  sampleRate := if n < 36 then 0#32 else h.fmt.sampleRate
  bytesPerSec := if n < 36 then 0#32 else h.fmt.bytesPerSec
  blockAlign := if n < 36 then 0#16 else h.fmt.blockAlign
  bitsPerSample := if n < 36 then 0#16 else h.fmt.bitsPerSample
  extraSize := if n < 38 ∨ h.fmt.fmtLen = 16#32 then 0#16 else BitVec.ofNat 16 h.ext.length
  dataSize := 0#32

/-- The magnitude of a binary32 pattern that is neither an infinity nor a NaN, in units of 2^-149: the
biased exponent is bits [30:23], the fraction bits [22:0] (R222). -/
def f32Magnitude (w : Word) : Nat :=
  if w.extractLsb' 23 8 = 0#8 then (w.extractLsb' 0 23).toNat
  else (2 ^ 23 + (w.extractLsb' 0 23).toNat) * 2 ^ ((w.extractLsb' 23 8).toNat - 1)

/-! ### The window of a unit that is not BUSY (R24, R26, R29, R36, R38, R63, R64) -/

/-- What a read returns, offset by offset, in decoder `u`'s window (R24, R25, R26, R38, R63): the registers
with their fields in place and zeros around them. -/
def DecUnit.idleMap (u : DecUnit) : List (Nat × Word) := [
  (0x000, if u.ctl.sampleBo = .big then 1#32 else 0#32),
  (0x004, 0#18 ++ BitVec.ofBool u.ctl.ovr ++ BitVec.ofBool u.ctl.stickyErr ++
    BitVec.ofNat 4 (errCode u.ctl.err) ++ BitVec.ofNat 4 u.ctl.phase.code ++ 0#1 ++
    BitVec.ofBool u.hdrValid ++ BitVec.ofBool u.ctl.done ++ 0#1),
  (0x008, 0#32), (0x00C, BitVec.ofNat 32 (stageCode u.ctl.errStage)), (0x010, u.ctl.errActual),
  (0x014, u.ctl.errExpected), (0x018, u.ctl.ioCount), (0x01C, u.ctl.sampleCount),
  (0x040, u.hdr.riffIdent), (0x044, u.hdr.riffSize), (0x048, u.hdr.riffType),
  (0x04C, u.hdr.fmtLen), (0x050, 0#16 ++ u.hdr.audioFormat), (0x054, 0#16 ++ u.hdr.numChannels),
  (0x058, u.hdr.sampleRate), (0x05C, u.hdr.bytesPerSec), (0x060, 0#16 ++ u.hdr.blockAlign),
  (0x064, 0#16 ++ u.hdr.bitsPerSample), (0x068, 0#16 ++ u.hdr.extraSize),
  (0x06C, u.hdr.dataSize)]

/-- What a read returns, offset by offset, in encoder `u`'s window (R36, R25, R26, R38, R63). -/
def EncUnit.idleMap (u : EncUnit) : List (Nat × Word) := [
  (0x000, if u.ctl.sampleBo = .big then 1#32 else 0#32),
  (0x004, 0#18 ++ BitVec.ofBool u.ctl.ovr ++ BitVec.ofBool u.ctl.stickyErr ++
    BitVec.ofNat 4 (errCode u.ctl.err) ++ BitVec.ofNat 4 u.ctl.phase.code ++ 0#2 ++
    BitVec.ofBool u.ctl.done ++ 0#1),
  (0x008, 0#32), (0x00C, BitVec.ofNat 32 (stageCode u.ctl.errStage)), (0x010, u.ctl.errActual),
  (0x014, u.ctl.errExpected), (0x018, u.ctl.ioCount), (0x01C, u.ctl.sampleCount),
  (0x044, u.riffSize), (0x04C, u.fmt.fmtLen), (0x050, 0#16 ++ u.fmt.audioFormat),
  (0x054, 0#16 ++ u.fmt.numChannels), (0x058, u.fmt.sampleRate), (0x05C, u.fmt.bytesPerSec),
  (0x060, 0#16 ++ u.fmt.blockAlign), (0x064, 0#16 ++ u.fmt.bitsPerSample),
  (0x06C, u.dataSize)]

/-- The format registers after a write of `v`, offset by offset: a register takes the value at its own
width (R36, R64). -/
def EncUnit.formatWrites (u : EncUnit) (v : Word) : List (Nat × EncFormat) := [
  (0x04C, { u.fmt with fmtLen := v }),
  (0x050, { u.fmt with audioFormat := v.extractLsb' 0 16 }),
  (0x054, { u.fmt with numChannels := v.extractLsb' 0 16 }),
  (0x058, { u.fmt with sampleRate := v }),
  (0x05C, { u.fmt with bytesPerSec := v }),
  (0x060, { u.fmt with blockAlign := v.extractLsb' 0 16 }),
  (0x064, { u.fmt with bitsPerSample := v.extractLsb' 0 16 })]

/-! ### Host actions -/

/-- The unit a host action is addressed to (R255); none for one that changes no unit. -/
def HostEvent.target : HostEvent → Option UnitId
  | .read _ _ _ => none
  | .write u _ _ _ => some u
  | .wait u => some u
  | .resetUnit u => some u
  | .run u => some u
  | .setPace _ => none
  | .inEvent d _ => some (.dec d)
  | .attachIn d _ _ => some (.dec d)
  | .soutRoom d _ => some (.dec d)
  | .soutTake d _ => some (.dec d)
  | .attachSout d _ => some (.dec d)
  | .outAnswer e _ => some (.enc e)
  | .attachOut e _ => some (.enc e)
  | .sinWord e _ => some (.enc e)
  | .attachSin e _ => some (.enc e)
  | .copyOut _ d => some (.dec d)
  | .share _ _ => none

/-! ### Turns of the units (R283) -/

/-- Unit `x` exists and can take a step. -/
def State.CanStep (s : State) : UnitId → Prop
  | .dec d => ∃ u, s.decs[d]? = some u ∧ u.advance ≠ none
  | .enc e => ∃ u, s.encs[e]? = some u ∧ u.advance s.params ≠ none

/-- No unit can take a step: each is idle, collects operands, or waits for a stream. -/
def State.Quiet (s : State) : Prop := ∀ x, ¬ s.CanStep x

/-- The machine after unit `x` has taken a turn of at least one step, whatever the pace (log 4). -/
def State.turnTaken (s : State) : UnitId → State
  | .dec d =>
    match s.decs[d]? with
    | none => s
    | some u => s.setDec d (u.runFor (max 1 (s.pace.getD u.work)))
  | .enc e =>
    match s.encs[e]? with
    | none => s
    | some u => s.setEnc e (u.runFor s.params (max 1 (s.pace.getD u.work)))

/-- How the record of a port may grow (R284; log 20): the streams before the last stay as they are, the last
one carries more or the same, and new ones follow it. -/
def RecordGrows {α : Type} (a b : List (List α)) : Prop :=
  ∃ earlier last more later, a = earlier ++ [last] ∧ b = earlier ++ [last ++ more] ++ later

/-! ### Ends of commands -/

/-- A decoder after a command that succeeded (R248). -/
def DecUnit.finished (u : DecUnit) (p : Phase) : DecUnit :=
  { u with ctl := u.ctl.finish p, run := none }

/-- A decoder after a command that ended with an error (R246). -/
def DecUnit.raised (u : DecUnit) (k : ErrKind) (st : Stage) (actual expected : Nat) : DecUnit :=
  { u with ctl := u.ctl.raise k st actual expected, run := none }

/-- An encoder after a command that succeeded (R248). -/
def EncUnit.finished (u : EncUnit) (p : Phase) : EncUnit :=
  { u with ctl := u.ctl.finish p, run := none }

/-- An encoder after a command that ended with an error (R246). -/
def EncUnit.raised (u : EncUnit) (k : ErrKind) (st : Stage) (actual expected : Nat) : EncUnit :=
  { u with ctl := u.ctl.raise k st actual expected, run := none }

/-- A decoder after `MemRead`s that consumed the first `n` bytes of IN (R67). -/
def DecUnit.consume (u : DecUnit) (n : Nat) : DecUnit :=
  { u with
    inp := { u.inp with ready := u.inp.ready.drop n, taken := u.inp.taken ++ u.inp.ready.take n }
    ctl := { u.ctl with ioCount := u.ctl.ioCount + BitVec.ofNat 32 n } }

/-- A decoder after the words `ws` have been appended to SOUT and counted (R71). -/
def DecUnit.emit (u : DecUnit) (ws : List Word) : DecUnit :=
  { u with
    sout := { u.sout with room := u.sout.room - ws.length, words := u.sout.words ++ ws }
    ctl := { u.ctl with sampleCount := u.ctl.sampleCount + BitVec.ofNat 32 ws.length } }

/-- An encoder after the sink has taken the bytes `bs`, answering Ack to each (R69). -/
def EncUnit.send (u : EncUnit) (bs : List Byte) : EncUnit :=
  { u with
    out := { u.out with answers := u.out.answers.drop bs.length, bytes := u.out.bytes ++ bs }
    ctl := { u.ctl with ioCount := u.ctl.ioCount + BitVec.ofNat 32 bs.length } }

/-- An encoder after it has taken `n` words of SIN (R70). -/
def EncUnit.takeWords (u : EncUnit) (n : Nat) : EncUnit :=
  { u with
    sin := { u.sin with ready := u.sin.ready.drop n, taken := u.sin.taken ++ u.sin.ready.take n } }

/-- An encoder after it has counted `n` samples (R32). -/
def EncUnit.countSamples (u : EncUnit) (n : Nat) : EncUnit :=
  { u with ctl := { u.ctl with sampleCount := u.ctl.sampleCount + BitVec.ofNat 32 n } }

/-! ### Which command raises which error, and at which stage (R244) -/

/-- The stages at which a header parse can be cut short (R187). -/
def parseStages : List Stage :=
  [.riffRecord, .fmtTag, .fmtRecord, .extraSize, .extraSkip, .chunkHeader, .chunkSkip]

/-- A cut at any of the stages of a header parse (R187). -/
def parseCuts (k : ErrKind) : List (ErrKind × Stage) := parseStages.map fun st => (k, st)

/-- The errors of the header parse: DEC_HEADER's row of R244. -/
def parseErrors : List (ErrKind × Stage) :=
  (.malformedContainer, .riffRecord) :: (.malformedContainer, .fmtTag) ::
    (.unsupportedFormat, .fmtValidate) :: (parseCuts .truncatedStream ++ parseCuts .ioFailure)

/-- The errors of a decode command: its row of R244. -/
def decErrors : DecCmd → List (ErrKind × Stage)
  | .header => parseErrors
  | .samples .int16 =>
    parseErrors ++
      [(.unsupportedFormat, .sampleKind), (.truncatedStream, .sampleData), (.ioFailure, .sampleData)]
  | .samples .float32 =>
    parseErrors ++
      [(.unsupportedFormat, .sampleKind), (.truncatedStream, .sampleData), (.ioFailure, .sampleData),
        (.sampleOutOfRange, .sampleRange)]

/-- The errors of an encoder's command: its row of R244. -/
def encErrors (p : Params) : EncJob → List (ErrKind × Stage)
  | .construct _ => []
  | .header => [(.ioFailure, .encHeaderWrite)]
  | .samples .int16 _ =>
    [(.operandRange, .command), (.ioFailure, .encHeaderWrite), (.ioFailure, .encSampleWrite)]
  | .samples .float32 _ =>
    [(.operandRange, .command), (.ioFailure, .encHeaderWrite), (.ioFailure, .encSampleWrite)] ++
      if p.encFloatRangeCheck then [(.sampleOutOfRange, .encSampleRange)] else []

/-- The error every command can end with (R244). -/
def commandError : ErrKind × Stage := (.illegalCommand, .command)

/-- The errors a decoder can show (R244). -/
def anyDecError : List (ErrKind × Stage) := commandError :: decErrors (.samples .float32)

/-- The errors an encoder can show (R244). -/
def anyEncError (p : Params) : List (ErrKind × Stage) :=
  commandError :: encErrors p (.samples .float32 0#32)

/-! ### The invariant of the machine -/

/-- No error is recorded (R30, R240). -/
abbrev Ctl.Clean (c : Ctl) : Prop :=
  c.err = none ∧ c.errStage = none ∧ c.errActual = 0#32 ∧ c.errExpected = 0#32

/-- How a command can have ended: with one of its success phases and no error (R248), or with one of
its errors, at that error's stage, and PHASE = ERROR (R246). -/
def Ctl.Ended (c : Ctl) (phases : List Phase) (errors : List (ErrKind × Stage)) : Prop :=
  (c.Clean ∧ c.phase ∈ phases) ∨
    ∃ k st, c.err = some k ∧ c.errStage = some st ∧ (k, st) ∈ errors ∧ c.phase = .error

/-- The registers of a unit that runs nothing and collects nothing: as reset leaves them (R272), or
after a command that has ended. -/
def Ctl.Idle (c : Ctl) (phases : List Phase) (errors : List (ErrKind × Stage)) : Prop :=
  c.busy = false ∧
    ((c.done = false ∧ c.phase = .start ∧ c.Clean) ∨ (c.done = true ∧ c.Ended phases errors))

/-- The RiffHeader registers hold "RIFF" and "WAVE" (R174, R175). -/
abbrev DecHeader.RiffOk (h : DecHeader) : Prop :=
  h.riffIdent = 0x46464952#32 ∧ h.riffType = 0x45564157#32

/-- They do, and the audio format is recognized (R178). -/
abbrev DecHeader.FormatOk (h : DecHeader) : Prop :=
  h.RiffOk ∧ h.audioFormat ∈ recognizedFormats

/-- The number of bytes a read needs (R172, R210, R220). -/
def DecRead.need (h : DecHeader) : DecRead → Nat
  | .riff => 12
  | .fmtTag => 4
  | .fmtRecord => 20
  | .extraSize => 2
  | .chunkHeader => 8
  | .element kind _ => kind.size
  | .residual kind => h.dataSize.toNat % kind.size

/-- PHASE during a read (R27, R172, R210, R220). -/
def DecRead.phase : DecRead → Phase
  | .riff => .start
  | .fmtTag => .riffVerified
  | .fmtRecord => .fmtVerified
  | .extraSize => .formatValidated
  | .chunkHeader => .chunkScanning
  | .element _ _ => .samplesDecoding
  | .residual _ => .samplesDecoding

/-- PHASE during a skip (R27, R172). -/
def DecSkip.phase : DecSkip → Phase
  | .extension => .formatValidated
  | .chunk => .chunkScanning

/-- Inside the payload: the header is complete and of the command's kind, and `todo` whole elements
are still to be appended (R34, R35, R210, R220, R32). -/
def DecUnit.InPayload (u : DecUnit) (cmd : DecCmd) (kind : SampleKind) (todo : Nat) : Prop :=
  cmd = .samples kind ∧ u.hdrValid = true ∧ u.hdr.audioFormat = kind.formatCode ∧
    u.ctl.sampleCount.toNat + todo = u.hdr.dataSize.toNat / kind.size

/-- What a read knows of the header and of the samples. -/
def DecRead.Ok (u : DecUnit) (cmd : DecCmd) : DecRead → Prop
  | .riff => u.hdrValid = false ∧ u.ctl.sampleCount = 0#32
  | .fmtTag => u.hdrValid = false ∧ u.ctl.sampleCount = 0#32 ∧ u.hdr.RiffOk
  | .fmtRecord => u.hdrValid = false ∧ u.ctl.sampleCount = 0#32 ∧ u.hdr.RiffOk
  | .extraSize => u.hdrValid = false ∧ u.ctl.sampleCount = 0#32 ∧ u.hdr.FormatOk ∧ u.hdr.fmtLen ≠ 16#32
  | .chunkHeader => u.hdrValid = false ∧ u.ctl.sampleCount = 0#32 ∧ u.hdr.FormatOk
  | .element kind left => u.InPayload cmd kind (left + 1)
  | .residual kind => u.InPayload cmd kind 0

/-- IO_COUNT inside a read that has got `n` bytes (R31, R172): the bytes before the read and those `n`. From
the chunk scan on it also depends on the chunks, and nothing is said of it. -/
def DecRead.Counted (u : DecUnit) (n : Nat) : DecRead → Prop
  | .riff => u.ctl.ioCount = BitVec.ofNat 32 n
  | .fmtTag => u.ctl.ioCount = BitVec.ofNat 32 (12 + n)
  | .fmtRecord => u.ctl.ioCount = BitVec.ofNat 32 (16 + n)
  | .extraSize => u.ctl.ioCount = BitVec.ofNat 32 (36 + n)
  | .chunkHeader => True
  | .element _ _ => True
  | .residual _ => True

/-- What a skip of `need` bytes that has passed `got` of them knows: the extension is present and as long as
EXTRA_SIZE says, and IO_COUNT is that of the bytes up to it and those of it (R31, R172). -/
def DecSkip.Ok (u : DecUnit) (need got : Nat) : DecSkip → Prop
  | .extension =>
    u.hdr.fmtLen ≠ 16#32 ∧ need = u.hdr.extraSize.toNat ∧ u.ctl.ioCount = BitVec.ofNat 32 (38 + got)
  | .chunk => True

/-- The successful ends of a decode command: DEC_HEADER with the header complete, a sample command
with every element of a whole number of elements appended (R186, R210, R212, R220). -/
def DecUnit.SuccessOk (u : DecUnit) (cmd : DecCmd) (p : Phase) : Prop :=
  match cmd with
  | .header => p = .dataChunkFound ∧ u.hdrValid = true ∧ u.ctl.sampleCount = 0#32
  | .samples kind =>
    p = .samplesDone ∧ u.InPayload cmd kind 0 ∧ u.hdr.dataSize.toNat % kind.size = 0

/-- What a position means for its unit. -/
def DecPos.Ok (u : DecUnit) (cmd : DecCmd) : DecPos → Prop
  | .reading what need got =>
    u.ctl.Clean ∧ u.ctl.phase = what.phase ∧ need = what.need u.hdr ∧ got.length < need ∧
      what.Ok u cmd ∧ what.Counted u got.length
  | .skipping what need got =>
    u.ctl.Clean ∧ u.ctl.phase = what.phase ∧ got < need ∧ u.hdrValid = false ∧
      u.ctl.sampleCount = 0#32 ∧ u.hdr.FormatOk ∧ what.Ok u need got
  | .scanning =>
    u.ctl.Clean ∧ u.ctl.phase ∈ [Phase.formatValidated, Phase.extraParamsSkipped] ∧
      u.hdrValid = false ∧ u.ctl.sampleCount = 0#32 ∧ u.hdr.FormatOk ∧
      u.ctl.ioCount =
        BitVec.ofNat 32 (if u.hdr.fmtLen = 16#32 then 36 else 38 + u.hdr.extraSize.toNat)
  | .parsed =>
    u.ctl.Clean ∧ u.ctl.phase = .dataChunkFound ∧ u.hdrValid = true ∧ u.ctl.sampleCount = 0#32
  | .appending kind _ left =>
    u.ctl.Clean ∧ u.ctl.phase = .samplesDecoding ∧ u.InPayload cmd kind (left + 1)
  | .ending (.ok p) => u.ctl.Clean ∧ u.SuccessOk cmd p
  | .ending (.error k st _ _) => u.ctl.Clean ∧ (k, st) ∈ decErrors cmd
  | .releasing =>
    (u.ctl.Clean ∧ u.SuccessOk cmd u.ctl.phase) ∨
      ∃ k st, u.ctl.err = some k ∧ u.ctl.errStage = some st ∧ (k, st) ∈ decErrors cmd ∧
        u.ctl.phase = .error

/-- The invariant of a decoder unit: it collects no operands (R107); HDR_VALID means a complete header
with a recognized format (R35); BUSY exactly while a command runs (R26); a running command uses the
byte order CFG holds (R282), and its position, PHASE and registers agree; an idle unit shows an
outcome of R244. -/
def DecUnit.Ok (u : DecUnit) : Prop :=
  u.ctl.asm = [] ∧ (u.hdrValid = true → u.hdr.FormatOk) ∧
    match u.run with
    | none => u.ctl.Idle [.dataChunkFound, .samplesDone] anyDecError
    | some r =>
      u.ctl.busy = true ∧ u.ctl.done = false ∧ r.bo = u.ctl.sampleBo ∧ r.pos.Ok u r.cmd

/-- The words of a command that an encoder can be collecting (R100, R107). -/
def AsmOk : List Word → Prop
  | [w0] => rejectWord0 .enc w0 = none ∧ 1 < opcLength (opc w0)
  | [w0, _] => rejectWord0 .enc w0 = none ∧ 2 < opcLength (opc w0)
  | _ => False

/-- The two size fields of a running encoder command agree exactly (R140, R150). -/
abbrev EncUnit.SizesOk (p : Params) (u : EncUnit) : Prop :=
  u.riffSize.toNat = p.riffSizeBias.toNat + u.dataSize.toNat

/-- Inside the samples: `todo` samples are still to be counted, the data size is that of all of them,
and IO_COUNT is 44 plus the bytes accepted so far, `part` of them of an uncounted sample (R31, R32,
R142). -/
def EncUnit.InSamples (p : Params) (u : EncUnit) (kind : SampleKind) (todo part : Nat) : Prop :=
  u.ctl.Clean ∧ u.ctl.phase = .encSamplesOut ∧ u.SizesOk p ∧
    u.dataSize.toNat = (u.ctl.sampleCount.toNat + todo) * kind.size ∧
    u.ctl.ioCount = BitVec.ofNat 32 (44 + u.ctl.sampleCount.toNat * kind.size + part)

/-- What a position means for its unit. -/
def EncPos.Ok (p : Params) (u : EncUnit) : EncPos → Prop
  | .constructing _ todo =>
    u.ctl.Clean ∧ u.ctl.ioCount = 0#32 ∧ u.ctl.sampleCount = 0#32 ∧ todo <:+ ctorOrder
  | .header todo sent next =>
    u.ctl.Clean ∧ u.ctl.phase = .encHeaderOut ∧ u.SizesOk p ∧ sent ≤ 44 ∧
      todo = (headerBytes u.fmt u.riffSize u.dataSize).drop sent ∧
      u.ctl.ioCount = BitVec.ofNat 32 sent ∧ u.ctl.sampleCount = 0#32 ∧
      match next with
      | none => u.dataSize = 0#32
      | some (kind, n) => u.dataSize.toNat = n * kind.size
  | .taking kind left => u.InSamples p kind (left + 1) 0
  | .element todo sent kind left =>
    u.InSamples p kind (left + 1) sent ∧ sent + todo.length = kind.size
  | .ending (.ok ph) => u.ctl.Clean ∧ ph = .encDone
  | .ending (.error k st _ _) => u.ctl.Clean ∧ (k, st) ∈ anyEncError p
  | .releasing => u.ctl.Ended [.encDone] (anyEncError p)

/-- The invariant of an encoder unit: BUSY exactly while a command runs or collects its operands (R26,
R280); only the words of one multi-word command are collected, with PHASE = OPERANDS (R100); a running
command uses the byte order CFG holds (R282), and its position, PHASE and registers agree; an idle
unit shows an outcome of R244. -/
def EncUnit.Ok (p : Params) (u : EncUnit) : Prop :=
  match u.run with
  | none =>
    (u.ctl.asm = [] ∧ u.ctl.Idle [.encDone] (anyEncError p)) ∨
      (AsmOk u.ctl.asm ∧ u.ctl.busy = true ∧ u.ctl.done = false ∧ u.ctl.phase = .operands ∧
        u.ctl.Clean ∧ u.ctl.ioCount = 0#32 ∧ u.ctl.sampleCount = 0#32)
  | some r =>
    u.ctl.asm = [] ∧ u.ctl.busy = true ∧ u.ctl.done = false ∧ r.bo = u.ctl.sampleBo ∧ r.pos.Ok p u

/-- The invariant of the machine: the parameters' numbers of units (R9), each as it must be. -/
def State.Inv (s : State) : Prop :=
  s.decs.length = s.params.numDec ∧ s.encs.length = s.params.numEnc ∧
    (∀ u ∈ s.decs, u.Ok) ∧ ∀ u ∈ s.encs, u.Ok s.params

end Sys2Proof.Machine
end

