-- ==== Sys2Proof/Certificates/Slice0/Obligations.lean ====
section
/-! DEFINITION. The statements for the provers. Where a statement runs a command, the unit has just
accepted it (`Ctl.Accepted`, R240) and the pace is none, so that the whole command is one turn; any other
pace reaches the same end (`Obligations.TurnsAddUp`, `Obligations.LongTurnsSettle`; log 4). Every such
statement gives the whole next state, so it is its own frame. -/

open Sys2Proof Sys2Proof.Machine
open Sys2Proof.Config (Params)

/-! ### Command words (R100 to R109) -/

/-- R101, R102, R103, R108: no bit of an encoding is dropped, on the unit that executes the command. -/
def Obligations.DecodeOfEncode : Prop :=
  ∀ i : Instr, decode (encode i) = .ok i ∧
    ∀ k, i.wellFormed k = true → decodeFor k (encode i) = .ok i

/-- R102, R103, R104: what decodes is the encoding of what it decodes to, and of its length. -/
def Obligations.EncodeOfDecode : Prop :=
  ∀ (k : UnitKind) (ws : List Word) (i : Instr), decodeFor k ws = .ok i →
    encode i = ws ∧ i.wellFormed k = true ∧ ws.length = i.length

/-- R103, R108, R121, R122: words written out in the spec, as numbers. -/
def Obligations.SpecWordsDecode : Prop :=
  decode [0x00010021#32, 0x00001F40#32, 0x00000010#32] = .ok (.fmtNewPcm 1 8000 16) ∧
  decode [0x00010022#32, 0x0000BB80#32, 0x00000020#32] = .ok (.fmtNewFloat 1 48000 32) ∧
  decode [0x00000023#32] = .ok .encHeader ∧
  decode [0x00000024#32, 0x00000007#32] = .ok (.encInt16 7) ∧
  decode [0x00000025#32, 0x00000003#32] = .ok (.encFloat32 3) ∧
  decode [0x00000011#32] = .ok .decHeader ∧
  decode [0x00000012#32] = .ok .decInt16 ∧
  decode [0x00000013#32] = .ok .decFloat32

/-- R104, R106, R107, bit by bit: which words 0 are legal on which unit kind, and the length of the
command that a word 0 starts. -/
def Obligations.WordZeroDecidesLength : Prop :=
  ∀ (k : UnitKind) (w : Word),
    (rejectWord0 k w = none ↔ ¬ IllegalWord0 k w) ∧
    (IllegalWord0 k w → commandLength k w = 1) ∧
    (¬ IllegalWord0 k w →
      (opcField w ∈ [0x21#8, 0x22#8] → commandLength k w = 3) ∧
      (opcField w ∈ [0x24#8, 0x25#8] → commandLength k w = 2) ∧
      (opcField w ∈ [0x11#8, 0x12#8, 0x13#8, 0x23#8] → commandLength k w = 1))

/-- R108, on the numbers as written: the operands each command line takes, their ranges, and the words it
assembles to; then what the words do: written to an idle unit's CMD, one after the other, they end in exec
of the command they decode to on the accepted unit. R109: the expansions of the pseudo-instructions. That a
line addressed to a unit of the other kind does not assemble is the model's choice (log 19). -/
def Obligations.AssembledLinesDecode : Prop :=
  (∀ (x : UnitId) (m : Mnemonic) (ops : List Nat) (ws : List Word),
    (AsmLine.mk x m ops).assemble = some ws ↔
      match m with
      | .DEC_HEADER => x.kind = .dec ∧ ops = [] ∧ ws = [0x00000011#32]
      | .DEC_INT16 => x.kind = .dec ∧ ops = [] ∧ ws = [0x00000012#32]
      | .DEC_FLOAT32 => x.kind = .dec ∧ ops = [] ∧ ws = [0x00000013#32]
      | .FMT_NEW_PCM => x.kind = .enc ∧ ∃ ch rate bits, ops = [ch, rate, bits] ∧
          ch < 2 ^ 16 ∧ rate < 2 ^ 32 ∧ bits < 2 ^ 16 ∧
          ws = [BitVec.ofNat 16 ch ++ 0x00#8 ++ 0x21#8, BitVec.ofNat 32 rate, BitVec.ofNat 32 bits]
      | .FMT_NEW_FLOAT => x.kind = .enc ∧ ∃ ch rate bits, ops = [ch, rate, bits] ∧
          ch < 2 ^ 16 ∧ rate < 2 ^ 32 ∧ bits < 2 ^ 16 ∧
          ws = [BitVec.ofNat 16 ch ++ 0x00#8 ++ 0x22#8, BitVec.ofNat 32 rate, BitVec.ofNat 32 bits]
      | .ENC_HEADER => x.kind = .enc ∧ ops = [] ∧ ws = [0x00000023#32]
      | .ENC_INT16 => x.kind = .enc ∧ ∃ n, ops = [n] ∧ n < 2 ^ 32 ∧
          ws = [0x00000024#32, BitVec.ofNat 32 n]
      | .ENC_FLOAT32 => x.kind = .enc ∧ ∃ n, ops = [n] ∧ n < 2 ^ 32 ∧
          ws = [0x00000025#32, BitVec.ofNat 32 n]) ∧
  (∀ (s : State) (l : AsmLine) es rest d u, l.unit = .dec d → Machine.AsmLine.events l = some es →
    s.decs[d]? = some u → u.ctl.busy = false → u.ctl.asm = [] → s.script = es ++ rest →
    ∃ ws i, l.assemble = some ws ∧ es = ws.map (.write (.dec d) 4 0x008 ·) ∧
      decodeFor .dec ws = .ok i ∧
      Sys2Proof.core.run es.length s = exec i { { s with script := rest }.setDec d
        { u with ctl := { u.ctl with
          busy := true, done := false, err := none, errStage := none, errActual := 0#32,
          errExpected := 0#32, ioCount := 0#32, sampleCount := 0#32 } } with sel := d }) ∧
  (∀ (s : State) (l : AsmLine) es rest e u, l.unit = .enc e → Machine.AsmLine.events l = some es →
    s.encs[e]? = some u → u.ctl.busy = false → u.ctl.asm = [] → s.script = es ++ rest →
    ∃ ws i, l.assemble = some ws ∧ es = ws.map (.write (.enc e) 4 0x008 ·) ∧
      decodeFor .enc ws = .ok i ∧
      Sys2Proof.core.run es.length s = exec i { { s with script := rest }.setEnc e
        { u with ctl := { u.ctl with
          busy := true, done := false, err := none, errStage := none, errActual := 0#32,
          errExpected := 0#32, ioCount := 0#32, sampleCount := 0#32,
          phase := if ws.length = 1 then u.ctl.phase else .operands } } with sel := e }) ∧
  (∀ x, Machine.Pseudo.expand (.wait x) = [.wait x] ∧
    Machine.Pseudo.expand (.setSampleLe x) = [.write x 4 0x000 0x00000000#32] ∧
    Machine.Pseudo.expand (.setSampleBe x) = [.write x 4 0x000 0x00000001#32] ∧
    Machine.Pseudo.expand (.clrStatus x) = [.write x 4 0x004 0x00003000#32]) ∧
  (∀ e (ch : Half) (rate n : Word),
    Machine.Pseudo.expand (.encPcm16 e ch rate n) = [
      .write (.enc e) 4 0x008 (ch ++ 0x00#8 ++ 0x21#8), .write (.enc e) 4 0x008 rate,
      .write (.enc e) 4 0x008 0x00000010#32, .wait (.enc e),
      .write (.enc e) 4 0x008 0x00000024#32, .write (.enc e) 4 0x008 n] ∧
    Machine.Pseudo.expand (.encFloat32 e ch rate n) = [
      .write (.enc e) 4 0x008 (ch ++ 0x00#8 ++ 0x22#8), .write (.enc e) 4 0x008 rate,
      .write (.enc e) 4 0x008 0x00000020#32, .wait (.enc e),
      .write (.enc e) 4 0x008 0x00000025#32, .write (.enc e) 4 0x008 n])

/-! ### The command port (R105, R240, R275) -/

/-- R100, R240, R241: a step that writes the last word of a command runs it: a one-word command on the
unit as acceptance leaves it, a longer one with its operand words taken. -/
def Obligations.StepRunsDecodedCommand : Prop :=
  (∀ (s : State) rest d u w i, s.script = .write (.dec d) 4 0x008 w :: rest →
    s.decs[d]? = some u → u.ctl.busy = false → u.ctl.asm = [] → decodeFor .dec [w] = .ok i →
    step s = exec i { { s with script := rest }.setDec d { u with ctl := { u.ctl with
      busy := true, done := false, err := none, errStage := none, errActual := 0#32,
      errExpected := 0#32, ioCount := 0#32, sampleCount := 0#32 } } with sel := d }) ∧
  (∀ (s : State) rest e u w i, s.script = .write (.enc e) 4 0x008 w :: rest →
    s.encs[e]? = some u → u.ctl.busy = false → u.ctl.asm = [] → decodeFor .enc [w] = .ok i →
    step s = exec i { { s with script := rest }.setEnc e { u with ctl := { u.ctl with
      busy := true, done := false, err := none, errStage := none, errActual := 0#32,
      errExpected := 0#32, ioCount := 0#32, sampleCount := 0#32 } } with sel := e }) ∧
  (∀ (s : State) rest e u w w0 ops i, s.script = .write (.enc e) 4 0x008 w :: rest →
    s.encs[e]? = some u → u.ctl.asm = w0 :: ops → decodeFor .enc (w0 :: ops ++ [w]) = .ok i →
    step s = exec i { { s with script := rest }.setEnc e { u with ctl := { u.ctl with asm := [] } }
      with sel := e })

/-- R100, R240: the first word of a longer command is accepted and the unit collects its operands, with
PHASE = OPERANDS; the second word of a three-word command is kept beside it. -/
def Obligations.OperandWordsCollect : Prop :=
  (∀ (s : State) rest e u w, s.script = .write (.enc e) 4 0x008 w :: rest →
    s.encs[e]? = some u → u.ctl.busy = false → u.ctl.asm = [] → ¬ IllegalWord0 .enc w →
    opcField w ≠ 0x23#8 →
    step s = .next { { s with script := rest }.setEnc e { u with ctl := { u.ctl with
      busy := true, done := false, phase := .operands, err := none, errStage := none,
      errActual := 0#32, errExpected := 0#32, ioCount := 0#32, sampleCount := 0#32,
      asm := [w] } } with sel := e }) ∧
  (∀ (s : State) rest e u w w0, s.script = .write (.enc e) 4 0x008 w :: rest →
    s.encs[e]? = some u → u.ctl.asm = [w0] → ¬ IllegalWord0 .enc w0 →
    opcField w0 ∈ [0x21#8, 0x22#8] →
    step s = .next { { s with script := rest }.setEnc e
      { u with ctl := { u.ctl with asm := [w0, w] } } with sel := e })

/-- R105: an illegal word 0, on an idle unit of either kind, and an illegal word 2 each end the command
with ILLEGAL_COMMAND and change STATUS, the ERR registers and the zeroed counters only. -/
def Obligations.IllegalWordsEndCommand : Prop :=
  (∀ (s : State) rest d u w, s.script = .write (.dec d) 4 0x008 w :: rest →
    s.decs[d]? = some u → u.ctl.busy = false → u.ctl.asm = [] → IllegalWord0 .dec w →
    step s = .next { { s with script := rest }.setDec d { u with ctl := { u.ctl with
      busy := false, done := true, phase := .error, err := some .illegalCommand,
      stickyErr := true, errStage := some .command, errActual := w, errExpected := 0#32,
      ioCount := 0#32, sampleCount := 0#32, asm := [] } } with sel := d }) ∧
  (∀ (s : State) rest e u w, s.script = .write (.enc e) 4 0x008 w :: rest →
    s.encs[e]? = some u → u.ctl.busy = false → u.ctl.asm = [] → IllegalWord0 .enc w →
    step s = .next { { s with script := rest }.setEnc e { u with ctl := { u.ctl with
      busy := false, done := true, phase := .error, err := some .illegalCommand,
      stickyErr := true, errStage := some .command, errActual := w, errExpected := 0#32,
      ioCount := 0#32, sampleCount := 0#32, asm := [] } } with sel := e }) ∧
  (∀ (s : State) rest e u w w0 w1, s.script = .write (.enc e) 4 0x008 w :: rest →
    s.encs[e]? = some u → u.ctl.asm = [w0, w1] → ¬ IllegalWord0 .enc w0 →
    opcField w0 ∈ [0x21#8, 0x22#8] → highField w ≠ 0#16 →
    step s = .next { { s with script := rest }.setEnc e { u with ctl := { u.ctl with
      busy := false, done := true, phase := .error, err := some .illegalCommand,
      stickyErr := true, errStage := some .command, errActual := w, errExpected := 2#32,
      asm := [] } } with sel := e })

/-- R275: a CMD word for a BUSY unit that collects nothing is lost and sets OVR; for one that collects
operands it is the next operand word, whatever it holds, and never a new command. That a unit collects
operands is told by its assembly buffer, as in R240, and not by PHASE, which still holds OPERANDS when a
constructor has started: log 10 (DEDUCED). -/
def Obligations.CmdWordWhileBusy : Prop :=
  (∀ (s : State) rest d u w, s.script = .write (.dec d) 4 0x008 w :: rest →
    s.decs[d]? = some u → u.ctl.busy = true → u.ctl.asm = [] →
    step s = .next { { s with script := rest }.setDec d
      { u with ctl := { u.ctl with ovr := true } } with sel := d }) ∧
  (∀ (s : State) rest e u w, s.script = .write (.enc e) 4 0x008 w :: rest →
    s.encs[e]? = some u → u.ctl.busy = true → u.ctl.asm = [] →
    step s = .next { { s with script := rest }.setEnc e
      { u with ctl := { u.ctl with ovr := true } } with sel := e }) ∧
  (∀ (s : State) rest e u w, s.script = .write (.enc e) 4 0x008 w :: rest →
    s.encs[e]? = some u → AsmOk u.ctl.asm →
    (∃ i, decodeFor .enc (u.ctl.asm ++ [w]) = .ok i ∧
      step s = exec i { { s with script := rest }.setEnc e
        { u with ctl := { u.ctl with asm := [] } } with sel := e }) ∨
    (decodeFor .enc (u.ctl.asm ++ [w]) = .error .operandMissing ∧
      step s = .next { { s with script := rest }.setEnc e
        { u with ctl := { u.ctl with asm := u.ctl.asm ++ [w] } } with sel := e }) ∨
    (decodeFor .enc (u.ctl.asm ++ [w]) = .error .word2High ∧ highField w ≠ 0#16 ∧
      step s = .next { { s with script := rest }.setEnc e { u with ctl := { u.ctl with
        busy := false, done := true, phase := .error, err := some .illegalCommand,
        stickyErr := true, errStage := some .command, errActual := w, errExpected := 2#32,
        asm := [] } } with sel := e }))

/-! ### The MMIO window (R24, R25, R29, R36, R38, R39, R62 to R64, R276, R277) -/

/-- R62: an access of another width, or at an offset that is not a multiple of 4, is refused; an aligned
32-bit one, in the window of a unit that exists, is not. -/
def Obligations.OnlyAlignedWordAccess : Prop :=
  (∀ (s : State) rest u width off v, (width ≠ 4 ∨ off % 4 ≠ 0) →
    (s.script = .read u width off :: rest ∨ s.script = .write u width off v :: rest) →
    step s = .refused .badAccess) ∧
  (∀ (s : State) rest u off v, off % 4 = 0 → off < 0x100 → u ∈ s.units →
    (s.script = .read u 4 off :: rest ∨ s.script = .write u 4 off v :: rest) →
    ∃ t, step s = .next t)

/-- R24, R26, R38, R39, R63: what a read of a unit that is not BUSY returns, register by register, and
that it changes no unit. -/
def Obligations.IdleReads : Prop :=
  (∀ (s : State) rest d u off v, s.script = .read (.dec d) 4 off :: rest → s.decs[d]? = some u →
    u.ctl.busy = false →
    (off, v) ∈ u.idleMap →
    step s = .next { s with script := rest, rdata := v, draws := s.draws + 1 }) ∧
  (∀ (s : State) rest e u off v, s.script = .read (.enc e) 4 off :: rest → s.encs[e]? = some u →
    u.ctl.busy = false →
    (off, v) ∈ u.idleMap →
    step s = .next { s with script := rest, rdata := v, draws := s.draws + 1 }) ∧
  (∀ (s : State) rest d u off, s.script = .read (.dec d) 4 off :: rest → s.decs[d]? = some u →
    off % 4 = 0 → (0x020 ≤ off ∧ off < 0x040 ∨ 0x070 ≤ off ∧ off < 0x100) →
    step s = .next { s with script := rest, rdata := 0#32, draws := s.draws + 1 }) ∧
  (∀ (s : State) rest e u off, s.script = .read (.enc e) 4 off :: rest → s.encs[e]? = some u →
    off % 4 = 0 → (0x020 ≤ off ∧ off < 0x044 ∨ off = 0x048 ∨ off = 0x068 ∨
      0x070 ≤ off ∧ off < 0x100) →
    step s = .next { s with script := rest, rdata := 0#32, draws := s.draws + 1 })

/-- R277: while BUSY, STATUS.BUSY reads 1, STICKY_ERR, OVR, CFG and the ENC format registers read their
current values; CMD reads 0 as ever (R38, R63); and no read changes a unit. Nothing is said of the other
registers. -/
def Obligations.BusyReads : Prop :=
  (∀ (s : State) rest d u off, s.script = .read (.dec d) 4 off :: rest → s.decs[d]? = some u →
    u.ctl.busy = true → off % 4 = 0 → off < 0x100 →
    ∃ v, step s = .next { s with script := rest, rdata := v, draws := s.draws + 1 } ∧
      (off = 0x000 → v = if u.ctl.sampleBo = .big then 1#32 else 0#32) ∧
      (off = 0x008 → v = 0#32) ∧
      (off = 0x004 → v.getLsbD 0 = true ∧ v.getLsbD 12 = u.ctl.stickyErr ∧
        v.getLsbD 13 = u.ctl.ovr ∧ v.getLsbD 3 = false ∧ v.extractLsb' 14 18 = 0#18)) ∧
  (∀ (s : State) rest e u off, s.script = .read (.enc e) 4 off :: rest → s.encs[e]? = some u →
    u.ctl.busy = true → off % 4 = 0 → off < 0x100 →
    ∃ v, step s = .next { s with script := rest, rdata := v, draws := s.draws + 1 } ∧
      (off = 0x000 → v = if u.ctl.sampleBo = .big then 1#32 else 0#32) ∧
      (off = 0x008 → v = 0#32) ∧
      (off = 0x004 → v.getLsbD 0 = true ∧ v.getLsbD 12 = u.ctl.stickyErr ∧
        v.getLsbD 13 = u.ctl.ovr ∧ v.extractLsb' 2 2 = 0#2 ∧ v.extractLsb' 14 18 = 0#18) ∧
      (off = 0x04C → v = u.fmt.fmtLen) ∧ (off = 0x050 → v = 0#16 ++ u.fmt.audioFormat) ∧
      (off = 0x054 → v = 0#16 ++ u.fmt.numChannels) ∧ (off = 0x058 → v = u.fmt.sampleRate) ∧
      (off = 0x05C → v = u.fmt.bytesPerSec) ∧ (off = 0x060 → v = 0#16 ++ u.fmt.blockAlign) ∧
      (off = 0x064 → v = 0#16 ++ u.fmt.bitsPerSample))

/-- R29: a write to STATUS clears STICKY_ERR by bit 12 and OVR by bit 13, and does nothing else, BUSY or
not. -/
def Obligations.StatusWriteOneClears : Prop :=
  (∀ (s : State) rest d u v, s.script = .write (.dec d) 4 0x004 v :: rest → s.decs[d]? = some u →
    step s = .next ({ s with script := rest }.setDec d { u with ctl := { u.ctl with
      stickyErr := u.ctl.stickyErr && !v.getLsbD 12, ovr := u.ctl.ovr && !v.getLsbD 13 } })) ∧
  (∀ (s : State) rest e u v, s.script = .write (.enc e) 4 0x004 v :: rest → s.encs[e]? = some u →
    step s = .next ({ s with script := rest }.setEnc e { u with ctl := { u.ctl with
      stickyErr := u.ctl.stickyErr && !v.getLsbD 12, ovr := u.ctl.ovr && !v.getLsbD 13 } }))

/-- R25, R36, R39, R64: writes to a unit that is not BUSY: CFG takes bit 0, an ENC format register takes
the value at its width, and every other offset but STATUS and CMD takes nothing. -/
def Obligations.IdleWrites : Prop :=
  (∀ (s : State) rest d u off v, s.script = .write (.dec d) 4 off v :: rest →
    s.decs[d]? = some u → u.ctl.busy = false → off % 4 = 0 → off < 0x100 →
    (off = 0x000 → step s = .next ({ s with script := rest }.setDec d { u with ctl := { u.ctl with
      sampleBo := if v.getLsbD 0 then .big else .little } })) ∧
    (off ∉ [0x000, 0x004, 0x008] → step s = .next { s with script := rest })) ∧
  (∀ (s : State) rest e u off v, s.script = .write (.enc e) 4 off v :: rest →
    s.encs[e]? = some u → u.ctl.busy = false → off % 4 = 0 → off < 0x100 →
    (off = 0x000 → step s = .next ({ s with script := rest }.setEnc e { u with ctl := { u.ctl with
      sampleBo := if v.getLsbD 0 then .big else .little } })) ∧
    (∀ f, (off, f) ∈ u.formatWrites v →
      step s = .next ({ s with script := rest }.setEnc e { u with fmt := f })) ∧
    (off ∉ [0x000, 0x004, 0x008, 0x04C, 0x050, 0x054, 0x058, 0x05C, 0x060, 0x064] →
      step s = .next { s with script := rest }))

/-- R276: while BUSY, collecting operands or not, a write to CFG or to an ENC format register is
discarded and sets OVR; a write to STATUS is taken and sets no OVR; any other offset but CMD's takes
nothing. -/
def Obligations.BusyWrites : Prop :=
  (∀ (s : State) rest d u off v, s.script = .write (.dec d) 4 off v :: rest →
    s.decs[d]? = some u → u.ctl.busy = true → off % 4 = 0 → off < 0x100 →
    (off = 0x000 → step s = .next ({ s with script := rest }.setDec d
      { u with ctl := { u.ctl with ovr := true } })) ∧
    (off = 0x004 → step s = .next ({ s with script := rest }.setDec d { u with ctl := { u.ctl with
      stickyErr := u.ctl.stickyErr && !v.getLsbD 12, ovr := u.ctl.ovr && !v.getLsbD 13 } })) ∧
    (off ∉ [0x000, 0x004, 0x008] → step s = .next { s with script := rest })) ∧
  (∀ (s : State) rest e u off v, s.script = .write (.enc e) 4 off v :: rest →
    s.encs[e]? = some u → u.ctl.busy = true → off % 4 = 0 → off < 0x100 →
    (off ∈ [0x000, 0x04C, 0x050, 0x054, 0x058, 0x05C, 0x060, 0x064] →
      step s = .next ({ s with script := rest }.setEnc e
        { u with ctl := { u.ctl with ovr := true } })) ∧
    (off = 0x004 → step s = .next ({ s with script := rest }.setEnc e { u with ctl := { u.ctl with
      stickyErr := u.ctl.stickyErr && !v.getLsbD 12, ovr := u.ctl.ovr && !v.getLsbD 13 } })) ∧
    (off ∉ [0x000, 0x004, 0x008, 0x04C, 0x050, 0x054, 0x058, 0x05C, 0x060, 0x064] →
      step s = .next { s with script := rest }))

/-! ### Byte sequences (R11, R74, R75) -/

/-- R11, R74: the bytes of a number are its bytes from the low end or from the high end, and reading
them in the same order gives the number back. -/
def Obligations.ByteOrderConversions : Prop :=
  (∀ v : Word, bytesLe32 v =
      [v.extractLsb' 0 8, v.extractLsb' 8 8, v.extractLsb' 16 8, v.extractLsb' 24 8] ∧
    bytesBe32 v = (bytesLe32 v).reverse ∧ le32 (bytesLe32 v) = v.toNat ∧
    be32 (bytesBe32 v) = v.toNat) ∧
  (∀ v : Half, bytesLe16 v = [v.extractLsb' 0 8, v.extractLsb' 8 8] ∧
    bytesBe16 v = (bytesLe16 v).reverse ∧ le16 (bytesLe16 v) = v.toNat ∧
    be16 (bytesBe16 v) = v.toNat)

/-! ### The format constructors (R120 to R125) -/

/-- R121: FMT_NEW_PCM completes, whatever its operands, with the seven format registers of R120 and
nothing else of the machine changed but how the command ended. -/
def Obligations.FmtNewPcmCompletes : Prop :=
  ∀ (s : State) (u : EncUnit) (ch : Half) (rate : Word) (bits : Half), s.encs[s.sel]? = some u → u.ctl.Accepted → s.pace = none →
    exec (.fmtNewPcm ch rate bits) s = .next (s.setEnc s.sel { u with
      ctl := { u.ctl with busy := false, done := true, phase := .encDone, asm := [] }
      run := none
      fmt := {
        fmtLen := 16#32
        audioFormat := 1#16
        numChannels := ch
        sampleRate := rate
        blockAlign := BitVec.ofNat 16
          ((if s.params.ctorChannelScaling then ch.toNat else 1) * bits.toNat / 8)
        bytesPerSec := BitVec.ofNat 32
          (rate.toNat * (if s.params.ctorChannelScaling then ch.toNat else 1) * bits.toNat / 8)
        bitsPerSample := bits } })

/-- R122: FMT_NEW_FLOAT completes as FMT_NEW_PCM does, with format code 3. -/
def Obligations.FmtNewFloatCompletes : Prop :=
  ∀ (s : State) (u : EncUnit) (ch : Half) (rate : Word) (bits : Half), s.encs[s.sel]? = some u → u.ctl.Accepted → s.pace = none →
    exec (.fmtNewFloat ch rate bits) s = .next (s.setEnc s.sel { u with
      ctl := { u.ctl with busy := false, done := true, phase := .encDone, asm := [] }
      run := none
      fmt := {
        fmtLen := 16#32
        audioFormat := 3#16
        numChannels := ch
        sampleRate := rate
        blockAlign := BitVec.ofNat 16
          ((if s.params.ctorChannelScaling then ch.toNat else 1) * bits.toNat / 8)
        bytesPerSec := BitVec.ofNat 32
          (rate.toNat * (if s.params.ctorChannelScaling then ch.toNat else 1) * bits.toNat / 8)
        bitsPerSample := bits } })

/-- R123: the source's invariant bytesPerSec = sampleRate × blockAlign holds of a constructor's result
when scale·bits is a multiple of 8 and neither result was truncated. -/
def Obligations.ConstructedByteRate : Prop :=
  ∀ (s t : State) u ch rate bits i, i ∈ [Instr.fmtNewPcm ch rate bits, .fmtNewFloat ch rate bits] →
    s.encs[s.sel]? = some u → u.ctl.Accepted → s.pace = none → exec i s = .next t →
    ∀ scale, scale = (if s.params.ctorChannelScaling then ch.toNat else 1) →
    8 ∣ scale * bits.toNat → scale * bits.toNat / 8 < 2 ^ 16 →
    rate.toNat * scale * bits.toNat / 8 < 2 ^ 32 →
    ∃ v, t.encs[s.sel]? = some v ∧
      v.fmt.bytesPerSec.toNat = v.fmt.sampleRate.toNat * v.fmt.blockAlign.toNat

/-! ### The encoder (R140 to R151) -/

/-- R143: ENC_HEADER completes on a sink that takes 44 bytes; its bytes are R97's with no payload. -/
def Obligations.EncHeaderCompletes : Prop :=
  ∀ (s : State) (u : EncUnit) (as : List Answer), s.encs[s.sel]? = some u → u.ctl.Accepted → s.pace = none →
    u.out.answers = List.replicate 44 Answer.ack ++ as →
    exec .encHeader s = .next (s.setEnc s.sel { u with
      ctl := { u.ctl with
        busy := false, done := true, phase := .encDone, ioCount := 44#32, asm := [] }
      riffSize := s.params.riffSizeBias
      dataSize := 0#32
      run := none
      out.answers := as
      out.bytes := u.out.bytes ++ waveStream s.params u.fmt 0 [] })

/-- R144: ENC_INT16 completes when N ≤ NMAX, SIN holds N words and the sink takes 44 + 2·N bytes; it
writes bits [15:0] of each word in the order of CFG.SAMPLE_BO. -/
def Obligations.EncInt16Completes : Prop :=
  ∀ (s : State) (u : EncUnit) (n : Word) (ws rest : List Word) (as : List Answer),
    s.encs[s.sel]? = some u → u.ctl.Accepted → s.pace = none →
    n.toNat ≤ (2 ^ 32 - 1 - s.params.riffSizeBias.toNat) / 2 →
    ws.length = n.toNat → u.sin.ready = ws ++ rest →
    u.out.answers = List.replicate (44 + 2 * n.toNat) Answer.ack ++ as →
    exec (.encInt16 n) s = .next (s.setEnc s.sel { u with
      ctl := { u.ctl with
        busy := false, done := true, phase := .encDone,
        ioCount := BitVec.ofNat 32 (44 + 2 * n.toNat), sampleCount := n, asm := [] }
      riffSize := BitVec.ofNat 32 (s.params.riffSizeBias.toNat + 2 * n.toNat)
      dataSize := BitVec.ofNat 32 (2 * n.toNat)
      run := none
      out.answers := as
      out.bytes := u.out.bytes ++ waveStream s.params u.fmt (2 * n.toNat)
        (ws.flatMap fun w => match u.ctl.sampleBo with
          | .little => [w.extractLsb' 0 8, w.extractLsb' 8 8]
          | .big => [w.extractLsb' 8 8, w.extractLsb' 0 8])
      sin.ready := rest
      sin.taken := u.sin.taken ++ ws })

/-- R145, R146: ENC_FLOAT32 completes when N ≤ NMAX, SIN holds N words, the sink takes 44 + 4·N bytes,
and, where the range check is on, every word is in range; it writes every word's pattern unchanged. -/
def Obligations.EncFloat32Completes : Prop :=
  ∀ (s : State) (u : EncUnit) (n : Word) (ws rest : List Word) (as : List Answer),
    s.encs[s.sel]? = some u → u.ctl.Accepted → s.pace = none →
    n.toNat ≤ (2 ^ 32 - 1 - s.params.riffSizeBias.toNat) / 4 →
    ws.length = n.toNat → u.sin.ready = ws ++ rest →
    (s.params.encFloatRangeCheck = true → ∀ w ∈ ws, inRangeF32 w = true) →
    u.out.answers = List.replicate (44 + 4 * n.toNat) Answer.ack ++ as →
    exec (.encFloat32 n) s = .next (s.setEnc s.sel { u with
      ctl := { u.ctl with
        busy := false, done := true, phase := .encDone,
        ioCount := BitVec.ofNat 32 (44 + 4 * n.toNat), sampleCount := n, asm := [] }
      riffSize := BitVec.ofNat 32 (s.params.riffSizeBias.toNat + 4 * n.toNat)
      dataSize := BitVec.ofNat 32 (4 * n.toNat)
      run := none
      out.answers := as
      out.bytes := u.out.bytes ++ waveStream s.params u.fmt (4 * n.toNat)
        (ws.flatMap fun w => match u.ctl.sampleBo with
          | .little =>
            [w.extractLsb' 0 8, w.extractLsb' 8 8, w.extractLsb' 16 8, w.extractLsb' 24 8]
          | .big =>
            [w.extractLsb' 24 8, w.extractLsb' 16 8, w.extractLsb' 8 8, w.extractLsb' 0 8])
      sin.ready := rest
      sin.taken := u.sin.taken ++ ws })

/-- R140, R250: a sample count above NMAX ends the command with OPERAND_RANGE before any byte is written
and before either size register is. -/
def Obligations.SampleCountTooLarge : Prop :=
  ∀ (s : State) (u : EncUnit) (kind : SampleKind) (n : Word), s.encs[s.sel]? = some u → u.ctl.Accepted → s.pace = none →
    (2 ^ 32 - 1 - s.params.riffSizeBias.toNat) / kind.size < n.toNat →
    exec (kind.encode n) s = .next (s.setEnc s.sel { u with
      ctl := { u.ctl with
        busy := false, done := true, phase := .error, err := some .operandRange, stickyErr := true,
        errStage := some .command, errActual := n,
        errExpected := BitVec.ofNat 32 ((2 ^ 32 - 1 - s.params.riffSizeBias.toNat) / kind.size),
        asm := [] }
      run := none })

/-- R69, R148: a write failure inside ENC_HEADER. The bytes taken before it stay in the sink and are
counted; the failing one is neither. -/
def Obligations.EncHeaderWriteFailure : Prop :=
  ∀ (s : State) (u : EncUnit) (m : Nat) (as : List Answer), s.encs[s.sel]? = some u → u.ctl.Accepted → s.pace = none → m < 44 →
    u.out.answers = List.replicate m Answer.ack ++ Answer.fail :: as →
    exec .encHeader s = .next (s.setEnc s.sel { u with
      ctl := { u.ctl with
        busy := false, done := true, phase := .error, err := some .ioFailure, stickyErr := true,
        errStage := some .encHeaderWrite, errActual := BitVec.ofNat 32 m, errExpected := 44#32,
        ioCount := BitVec.ofNat 32 m, asm := [] }
      riffSize := s.params.riffSizeBias
      dataSize := 0#32
      run := none
      out.answers := as
      out.bytes := u.out.bytes ++ (waveStream s.params u.fmt 0 []).take m })

/-- R69, R148, R249: a write failure at byte `m` of a sample command's stream, in the header or inside a
sample: how much has been written, counted and taken from SIN by then. -/
def Obligations.EncSampleWriteFailure : Prop :=
  ∀ (s : State) (u : EncUnit) (kind : SampleKind) (n : Word) (ws rest : List Word) (m : Nat)
    (as : List Answer), s.encs[s.sel]? = some u → u.ctl.Accepted →
    s.pace = none → n.toNat ≤ (2 ^ 32 - 1 - s.params.riffSizeBias.toNat) / kind.size →
    ws.length = n.toNat → u.sin.ready = ws ++ rest →
    (∀ w ∈ ws, encodable s.params kind w = true) →
    m < 44 + n.toNat * kind.size → u.out.answers = List.replicate m Answer.ack ++ Answer.fail :: as →
    exec (kind.encode n) s = .next (s.setEnc s.sel { u with
      ctl := { u.ctl with
        busy := false, done := true, phase := .error, err := some .ioFailure, stickyErr := true,
        errStage := some (if m < 44 then .encHeaderWrite else .encSampleWrite),
        errActual := BitVec.ofNat 32 (if m < 44 then m else (m - 44) % kind.size),
        errExpected := BitVec.ofNat 32 (if m < 44 then 44 else kind.size),
        ioCount := BitVec.ofNat 32 m, sampleCount := BitVec.ofNat 32 ((m - 44) / kind.size),
        asm := [] }
      riffSize := BitVec.ofNat 32 (s.params.riffSizeBias.toNat + n.toNat * kind.size)
      dataSize := BitVec.ofNat 32 (n.toNat * kind.size)
      run := none
      out.answers := as
      out.bytes := u.out.bytes ++ (waveStream s.params u.fmt (n.toNat * kind.size)
        (ws.flatMap (elementBytes kind u.ctl.sampleBo))).take m
      sin := if m < 44 then u.sin else
        { u.sin with
          ready := u.sin.ready.drop ((m - 44) / kind.size + 1)
          taken := u.sin.taken ++ u.sin.ready.take ((m - 44) / kind.size + 1) } })

/-- R146: with the encoder's range check on, the first sample out of range ends ENC_FLOAT32 after the
header and the samples before it have been written. -/
def Obligations.EncRangeFailure : Prop :=
  ∀ (s : State) (u : EncUnit) (n : Word) (ws : List Word) (w : Word) (rest : List Word)
    (as : List Answer), s.encs[s.sel]? = some u → u.ctl.Accepted → s.pace = none →
    s.params.encFloatRangeCheck = true →
    n.toNat ≤ (2 ^ 32 - 1 - s.params.riffSizeBias.toNat) / 4 → ws.length < n.toNat →
    u.sin.ready = ws ++ w :: rest → (∀ x ∈ ws, inRangeF32 x = true) → inRangeF32 w = false →
    u.out.answers = List.replicate (44 + 4 * ws.length) Answer.ack ++ as →
    exec (.encFloat32 n) s = .next (s.setEnc s.sel { u with
      ctl := { u.ctl with
        busy := false, done := true, phase := .error, err := some .sampleOutOfRange,
        stickyErr := true, errStage := some .encSampleRange, errActual := w,
        errExpected := 0x3F800000#32, ioCount := BitVec.ofNat 32 (44 + 4 * ws.length),
        sampleCount := BitVec.ofNat 32 ws.length, asm := [] }
      riffSize := BitVec.ofNat 32 (s.params.riffSizeBias.toNat + 4 * n.toNat)
      dataSize := BitVec.ofNat 32 (4 * n.toNat)
      run := none
      out.answers := as
      out.bytes := u.out.bytes ++ waveStream s.params u.fmt (4 * n.toNat)
        (ws.flatMap (elementBytes .float32 u.ctl.sampleBo))
      sin.ready := rest
      sin.taken := u.sin.taken ++ ws ++ [w] })

/-- The waits of an encoder command, BUSY. R70, R278: with fewer words in SIN than the command needs, it
writes those there are and waits, with PHASE = ENC_SAMPLES_OUT, for the next. R69: with a sink that
acknowledges `m` bytes of its stream and gives no further answer, it waits at byte `m`: in the header, or in
an element whose word it has taken. -/
def Obligations.EncWaitsForSamples : Prop :=
  (∀ (s : State) (u : EncUnit) (kind : SampleKind) (n : Word) (as : List Answer), s.encs[s.sel]? = some u → u.ctl.Accepted →
      s.pace = none → n.toNat ≤ (2 ^ 32 - 1 - s.params.riffSizeBias.toNat) / kind.size →
      u.sin.ready.length < n.toNat → (∀ w ∈ u.sin.ready, encodable s.params kind w = true) →
      u.out.answers = List.replicate (44 + u.sin.ready.length * kind.size) Answer.ack ++ as →
      exec (kind.encode n) s = .next (s.setEnc s.sel { u with
        ctl := { u.ctl with
          phase := .encSamplesOut, ioCount := BitVec.ofNat 32 (44 + u.sin.ready.length * kind.size),
          sampleCount := BitVec.ofNat 32 u.sin.ready.length }
        riffSize := BitVec.ofNat 32 (s.params.riffSizeBias.toNat + n.toNat * kind.size)
        dataSize := BitVec.ofNat 32 (n.toNat * kind.size)
        run := some ⟨u.ctl.sampleBo, .taking kind (n.toNat - u.sin.ready.length - 1)⟩
        out.answers := as
        out.bytes := u.out.bytes ++ waveStream s.params u.fmt (n.toNat * kind.size)
          (u.sin.ready.flatMap (elementBytes kind u.ctl.sampleBo))
        sin.ready := []
        sin.taken := u.sin.taken ++ u.sin.ready })) ∧
  (∀ (s : State) (u : EncUnit) (m : Nat), s.encs[s.sel]? = some u → u.ctl.Accepted → s.pace = none →
    m < 44 → u.out.answers = List.replicate m Answer.ack →
    exec .encHeader s = .next (s.setEnc s.sel { u with
      ctl := { u.ctl with phase := .encHeaderOut, ioCount := BitVec.ofNat 32 m }
      riffSize := s.params.riffSizeBias
      dataSize := 0#32
      run := some ⟨u.ctl.sampleBo, .header ((waveStream s.params u.fmt 0 []).drop m) m none⟩
      out.answers := []
      out.bytes := u.out.bytes ++ (waveStream s.params u.fmt 0 []).take m })) ∧
  (∀ (s : State) (u : EncUnit) (kind : SampleKind) (n : Word) (ws rest : List Word) (m : Nat),
    s.encs[s.sel]? = some u → u.ctl.Accepted → s.pace = none →
    n.toNat ≤ (2 ^ 32 - 1 - s.params.riffSizeBias.toNat) / kind.size →
    ws.length = n.toNat → u.sin.ready = ws ++ rest →
    (∀ w ∈ ws, encodable s.params kind w = true) →
    m < 44 + n.toNat * kind.size → u.out.answers = List.replicate m Answer.ack →
    ∀ stream, stream = waveStream s.params u.fmt (n.toNat * kind.size)
      (ws.flatMap (elementBytes kind u.ctl.sampleBo)) →
    exec (kind.encode n) s = .next (s.setEnc s.sel { u with
      ctl := { u.ctl with
        phase := if m < 44 then .encHeaderOut else .encSamplesOut,
        ioCount := BitVec.ofNat 32 m, sampleCount := BitVec.ofNat 32 ((m - 44) / kind.size) }
      riffSize := BitVec.ofNat 32 (s.params.riffSizeBias.toNat + n.toNat * kind.size)
      dataSize := BitVec.ofNat 32 (n.toNat * kind.size)
      run := some ⟨u.ctl.sampleBo,
        if m < 44 then .header ((stream.take 44).drop m) m (some (kind, n.toNat))
        else .element ((stream.drop m).take (kind.size - (m - 44) % kind.size))
          ((m - 44) % kind.size) kind (n.toNat - (m - 44) / kind.size - 1)⟩
      out.answers := []
      out.bytes := u.out.bytes ++ stream.take m
      sin := if m < 44 then u.sin else
        { u.sin with
          ready := u.sin.ready.drop ((m - 44) / kind.size + 1)
          taken := u.sin.taken ++ u.sin.ready.take ((m - 44) / kind.size + 1) } }))

/-! ### The decoder (R170 to R190, R210 to R226) -/

/-- R186, R188: DEC_HEADER completes on any header of R98's grammar: it loads the twelve registers,
consumes exactly the header and reads nothing after it. -/
def Obligations.DecHeaderCompletes : Prop :=
  ∀ (s : State) (u : DecUnit) (h : WavHead) (rest : List Byte), s.decs[s.sel]? = some u → u.ctl.Accepted → s.pace = none →
    h.Ok → u.inp.ready = h.bytes ++ rest →
    exec .decHeader s = .next (s.setDec s.sel { u with
      ctl := { u.ctl with
        busy := false, done := true, phase := .dataChunkFound,
        ioCount := BitVec.ofNat 32 h.bytes.length, asm := [] }
      hdr := h.registers
      hdrValid := true
      run := none
      inp := { u.inp with ready := rest, taken := u.inp.taken ++ h.bytes } })

/-- R210, R211: DEC_INT16 completes on a PCM header with DATA_SIZE = 2·n, n elements behind it, and room
for n words: it appends each element sign-extended, in the order of CFG.SAMPLE_BO. -/
def Obligations.DecInt16Completes : Prop :=
  ∀ (s : State) (u : DecUnit) (h : WavHead) (es : List (Byte × Byte)) (rest : List Byte), s.decs[s.sel]? = some u →
    u.ctl.Accepted → s.pace = none → h.Ok → h.fmt.audioFormat = 1#16 →
    h.dataSize.toNat = 2 * es.length → es.length ≤ u.sout.room →
    u.inp.ready = h.bytes ++ es.flatMap (fun e => [e.1, e.2]) ++ rest →
    exec .decInt16 s = .next (s.setDec s.sel { u with
      ctl := { u.ctl with
        busy := false, done := true, phase := .samplesDone,
        ioCount := BitVec.ofNat 32 (h.bytes.length + 2 * es.length),
        sampleCount := BitVec.ofNat 32 es.length, asm := [] }
      hdr := h.registers
      hdrValid := true
      run := none
      inp := { u.inp with
        ready := rest, taken := u.inp.taken ++ (h.bytes ++ es.flatMap fun e => [e.1, e.2]) }
      sout := { u.sout with
        room := u.sout.room - es.length
        words := u.sout.words ++ es.map fun e => match u.ctl.sampleBo with
          | .little => (e.2 ++ e.1).signExtend 32
          | .big => (e.1 ++ e.2).signExtend 32 } })

/-- R220, R221: DEC_FLOAT32 completes on an IEEE-float header with DATA_SIZE = 4·n, n elements in range
behind it, and room for n words: it appends each element's pattern unchanged. -/
def Obligations.DecFloat32Completes : Prop :=
  ∀ (s : State) (u : DecUnit) (h : WavHead) (es : List (Byte × Byte × Byte × Byte)) (rest : List Byte),
    s.decs[s.sel]? = some u → u.ctl.Accepted → s.pace = none → h.Ok →
    h.fmt.audioFormat = 3#16 → h.dataSize.toNat = 4 * es.length → es.length ≤ u.sout.room →
    u.inp.ready = h.bytes ++ es.flatMap (fun e => [e.1, e.2.1, e.2.2.1, e.2.2.2]) ++ rest →
    ∀ word : Byte × Byte × Byte × Byte → Word,
    (word = fun e => match u.ctl.sampleBo with
      | .little => e.2.2.2 ++ e.2.2.1 ++ e.2.1 ++ e.1
      | .big => e.1 ++ e.2.1 ++ e.2.2.1 ++ e.2.2.2) →
    (∀ e ∈ es, inRangeF32 (word e) = true) →
    exec .decFloat32 s = .next (s.setDec s.sel { u with
      ctl := { u.ctl with
        busy := false, done := true, phase := .samplesDone,
        ioCount := BitVec.ofNat 32 (h.bytes.length + 4 * es.length),
        sampleCount := BitVec.ofNat 32 es.length, asm := [] }
      hdr := h.registers
      hdrValid := true
      run := none
      inp := { u.inp with
        ready := rest
        taken := u.inp.taken ++ (h.bytes ++ es.flatMap fun e => [e.1, e.2.1, e.2.2.1, e.2.2.2]) }
      sout := { u.sout with
        room := u.sout.room - es.length, words := u.sout.words ++ es.map word } })

/-- R174, R175: a RiffHeader whose ident is not "RIFF" or whose type is not "WAVE" ends any decode
command with MALFORMED_CONTAINER at stage 1, the ident reported when both are wrong. The three
registers are loaded and 12 bytes are consumed. -/
def Obligations.WrongRiffHeader : Prop :=
  ∀ (s : State) (u : DecUnit) (cmd : DecCmd) a0 a1 a2 a3 (size : Word) b0 b1 b2 b3 rest,
    s.decs[s.sel]? = some u → u.ctl.Accepted → s.pace = none →
    u.inp.ready = [a0, a1, a2, a3] ++ bytesLe32 size ++ [b0, b1, b2, b3] ++ rest →
    ([a0, a1, a2, a3] ≠ [0x52#8, 0x49#8, 0x46#8, 0x46#8] ∨
      [b0, b1, b2, b3] ≠ [0x57#8, 0x41#8, 0x56#8, 0x45#8]) →
    exec cmd.instr s = .next (s.setDec s.sel { u with
      ctl := { u.ctl with
        busy := false, done := true, phase := .error, err := some .malformedContainer,
        stickyErr := true, errStage := some .riffRecord,
        errActual := if [a0, a1, a2, a3] ≠ [0x52#8, 0x49#8, 0x46#8, 0x46#8] then
          a3 ++ a2 ++ a1 ++ a0 else b3 ++ b2 ++ b1 ++ b0
        errExpected := if [a0, a1, a2, a3] ≠ [0x52#8, 0x49#8, 0x46#8, 0x46#8] then
          0x46464952#32 else 0x45564157#32
        ioCount := 12#32, asm := [] }
      hdr := { DecHeader.zero with
        riffIdent := a3 ++ a2 ++ a1 ++ a0, riffSize := size, riffType := b3 ++ b2 ++ b1 ++ b0 }
      hdrValid := false
      run := none
      inp := { u.inp with ready := rest, taken := u.inp.taken ++ u.inp.ready.take 12 } })

/-- R176: any tag but "fmt " after the RiffHeader ends any decode command with MALFORMED_CONTAINER at
stage 2. -/
def Obligations.WrongFormatTag : Prop :=
  ∀ (s : State) (u : DecUnit) (cmd : DecCmd) (size : Word) a0 a1 a2 a3 rest,
    s.decs[s.sel]? = some u → u.ctl.Accepted → s.pace = none →
    u.inp.ready = [0x52#8, 0x49#8, 0x46#8, 0x46#8] ++ bytesLe32 size ++
      [0x57#8, 0x41#8, 0x56#8, 0x45#8] ++ [a0, a1, a2, a3] ++ rest →
    [a0, a1, a2, a3] ≠ [0x66#8, 0x6D#8, 0x74#8, 0x20#8] →
    exec cmd.instr s = .next (s.setDec s.sel { u with
      ctl := { u.ctl with
        busy := false, done := true, phase := .error, err := some .malformedContainer,
        stickyErr := true, errStage := some .fmtTag, errActual := a3 ++ a2 ++ a1 ++ a0,
        errExpected := 0x20746D66#32, ioCount := 16#32, asm := [] }
      hdr := { DecHeader.zero with
        riffIdent := 0x46464952#32, riffSize := size, riffType := 0x45564157#32 }
      hdrValid := false
      run := none
      inp := { u.inp with ready := rest, taken := u.inp.taken ++ u.inp.ready.take 16 } })

/-- R178: a format code that is none of the five recognized ones ends any decode command with
UNSUPPORTED_FORMAT at stage 4, the format registers loaded and no extension byte consumed. -/
def Obligations.UnrecognizedFormatCode : Prop :=
  ∀ (s : State) (u : DecUnit) (cmd : DecCmd) (h : WavHead) (rest : List Byte),
    s.decs[s.sel]? = some u → u.ctl.Accepted → s.pace = none →
    h.fmt.audioFormat ∉ [1#16, 3#16, 6#16, 7#16, 0xFFFE#16] →
    u.inp.ready = [0x52#8, 0x49#8, 0x46#8, 0x46#8] ++ bytesLe32 h.riffSize ++
      [0x57#8, 0x41#8, 0x56#8, 0x45#8] ++ [0x66#8, 0x6D#8, 0x74#8, 0x20#8] ++
      formatRecord h.fmt ++ rest →
    exec cmd.instr s = .next (s.setDec s.sel { u with
      ctl := { u.ctl with
        busy := false, done := true, phase := .error, err := some .unsupportedFormat,
        stickyErr := true, errStage := some .fmtValidate,
        errActual := 0#16 ++ h.fmt.audioFormat, errExpected := 0#32, ioCount := 36#32, asm := [] }
      hdr := { h.registers with extraSize := 0#16, dataSize := 0#32 }
      hdrValid := false
      run := none
      inp := { u.inp with ready := rest, taken := u.inp.taken ++ u.inp.ready.take 36 } })

/-- R187, R34, R67: a header cut anywhere by End or Fail ends any decode command with TRUNCATED_STREAM or
IO_FAILURE at the stage of the read it cuts, with the bytes that read got and the bytes it needed. The
registers of the records read so far are loaded, the rest are 0. -/
def Obligations.HeaderCutShort : Prop :=
  ∀ (s : State) (u : DecUnit) (cmd : DecCmd) (h : WavHead) n t,
    s.decs[s.sel]? = some u → u.ctl.Accepted → s.pace = none → h.Ok → n < h.bytes.length →
    u.inp.ready = h.bytes.take n → u.inp.term = some t →
    ∃ st got need, cutAt h.reads n = some (st, got, need) ∧
    exec cmd.instr s = .next (s.setDec s.sel { u with
      ctl := { u.ctl with
        busy := false, done := true, phase := .error, stickyErr := true,
        err := some (match t with | .eof => .truncatedStream | .fail => .ioFailure),
        errStage := some st, errActual := BitVec.ofNat 32 got, errExpected := BitVec.ofNat 32 need,
        ioCount := BitVec.ofNat 32 n, asm := [] }
      hdr := h.loaded n
      hdrValid := false
      run := none
      inp := { u.inp with ready := [], taken := u.inp.taken ++ u.inp.ready } })

/-- R215: a sample command on a header of another format code, recognized or not of a sample kind, ends
with UNSUPPORTED_FORMAT at stage 9 before any payload byte is read. -/
def Obligations.SampleKindMismatch : Prop :=
  ∀ (s : State) (u : DecUnit) (kind : SampleKind) (h : WavHead) (rest : List Byte),
    s.decs[s.sel]? = some u → u.ctl.Accepted → s.pace = none → h.Ok →
    h.fmt.audioFormat ≠ kind.formatCode → u.inp.ready = h.bytes ++ rest →
    exec (DecCmd.samples kind).instr s = .next (s.setDec s.sel { u with
      ctl := { u.ctl with
        busy := false, done := true, phase := .error, err := some .unsupportedFormat,
        stickyErr := true, errStage := some .sampleKind,
        errActual := 0#16 ++ h.fmt.audioFormat,
        errExpected := match kind with | .int16 => 1#32 | .float32 => 3#32
        ioCount := BitVec.ofNat 32 h.bytes.length, asm := [] }
      hdr := h.registers
      hdrValid := true
      run := none
      inp := { u.inp with ready := rest, taken := u.inp.taken ++ h.bytes } })

/-- R212: a payload that is not a whole number of elements. After the whole elements, the bytes left in
the data chunk are consumed, no sample is appended for them, and the command ends with
TRUNCATED_STREAM(10, rem, E); if the stream ends or fails among them, with the bytes it got of rem. -/
def Obligations.ResidualBytes : Prop :=
  ∀ (s : State) (u : DecUnit) (kind : SampleKind) (h : WavHead) (es : List (List Byte)) rem (part rest : List Byte),
    s.decs[s.sel]? = some u → u.ctl.Accepted → s.pace = none → h.Ok →
    h.fmt.audioFormat = kind.formatCode → h.dataSize.toNat = es.length * kind.size + rem →
    0 < rem → rem < kind.size → (∀ e ∈ es, e.length = kind.size) →
    (∀ e ∈ es, decodable kind (elementWord kind u.ctl.sampleBo e) = true) →
    es.length ≤ u.sout.room → u.inp.ready = h.bytes ++ es.flatten ++ part ++ rest →
    ∀ k st actual expected,
    ((part.length = rem ∧ k = .truncatedStream ∧ actual = rem ∧ expected = kind.size) ∨
      (part.length < rem ∧ rest = [] ∧ actual = part.length ∧ expected = rem ∧
        (u.inp.term = some .eof ∧ k = .truncatedStream ∨
          u.inp.term = some .fail ∧ k = .ioFailure))) → st = .sampleData →
    exec (DecCmd.samples kind).instr s = .next (s.setDec s.sel { u with
      ctl := { u.ctl with
        busy := false, done := true, phase := .error, err := some k, stickyErr := true,
        errStage := some st, errActual := BitVec.ofNat 32 actual,
        errExpected := BitVec.ofNat 32 expected,
        ioCount := BitVec.ofNat 32 (h.bytes.length + es.length * kind.size + part.length),
        sampleCount := BitVec.ofNat 32 es.length, asm := [] }
      hdr := h.registers
      hdrValid := true
      run := none
      inp := { u.inp with
        ready := rest
        taken := u.inp.taken ++ (h.bytes ++ es.flatten ++ part) }
      sout := { u.sout with
        room := u.sout.room - es.length
        words := u.sout.words ++ es.map (elementWord kind u.ctl.sampleBo) } })

/-- R210, R220, R214: a stream that ends or fails inside a whole element of the payload. The samples
before it stay appended and the header stays complete. -/
def Obligations.PayloadCutShort : Prop :=
  ∀ (s : State) (u : DecUnit) (kind : SampleKind) (h : WavHead) (es : List (List Byte)) (part : List Byte) t,
    s.decs[s.sel]? = some u → u.ctl.Accepted → s.pace = none → h.Ok →
    h.fmt.audioFormat = kind.formatCode → (es.length + 1) * kind.size ≤ h.dataSize.toNat →
    part.length < kind.size → (∀ e ∈ es, e.length = kind.size) →
    (∀ e ∈ es, decodable kind (elementWord kind u.ctl.sampleBo e) = true) →
    es.length ≤ u.sout.room → u.inp.ready = h.bytes ++ es.flatten ++ part →
    u.inp.term = some t →
    exec (DecCmd.samples kind).instr s = .next (s.setDec s.sel { u with
      ctl := { u.ctl with
        busy := false, done := true, phase := .error, stickyErr := true,
        err := some (match t with | .eof => .truncatedStream | .fail => .ioFailure),
        errStage := some .sampleData, errActual := BitVec.ofNat 32 part.length,
        errExpected := BitVec.ofNat 32 kind.size,
        ioCount := BitVec.ofNat 32 (h.bytes.length + es.length * kind.size + part.length),
        sampleCount := BitVec.ofNat 32 es.length, asm := [] }
      hdr := h.registers
      hdrValid := true
      run := none
      inp := { u.inp with
        ready := []
        taken := u.inp.taken ++ (h.bytes ++ es.flatten ++ part) }
      sout := { u.sout with
        room := u.sout.room - es.length
        words := u.sout.words ++ es.map (elementWord kind u.ctl.sampleBo) } })

/-- R223: the first float32 element out of range, wherever it stands. It is consumed and not appended,
and no later payload byte is read. -/
def Obligations.FloatOutOfRange : Prop :=
  ∀ (s : State) (u : DecUnit) (h : WavHead) (es : List (List Byte)) (e rest : List Byte),
    s.decs[s.sel]? = some u → u.ctl.Accepted → s.pace = none → h.Ok →
    h.fmt.audioFormat = 3#16 → (es.length + 1) * 4 ≤ h.dataSize.toNat →
    (∀ x ∈ es, x.length = 4) → e.length = 4 →
    (∀ x ∈ es, inRangeF32 (elementWord .float32 u.ctl.sampleBo x) = true) →
    inRangeF32 (elementWord .float32 u.ctl.sampleBo e) = false →
    es.length ≤ u.sout.room → u.inp.ready = h.bytes ++ es.flatten ++ e ++ rest →
    exec .decFloat32 s = .next (s.setDec s.sel { u with
      ctl := { u.ctl with
        busy := false, done := true, phase := .error, err := some .sampleOutOfRange,
        stickyErr := true, errStage := some .sampleRange,
        errActual := elementWord .float32 u.ctl.sampleBo e, errExpected := 0x3F800000#32,
        ioCount := BitVec.ofNat 32 (h.bytes.length + (es.length + 1) * 4),
        sampleCount := BitVec.ofNat 32 es.length, asm := [] }
      hdr := h.registers
      hdrValid := true
      run := none
      inp := { u.inp with
        ready := rest, taken := u.inp.taken ++ (h.bytes ++ es.flatten ++ e) }
      sout := { u.sout with
        room := u.sout.room - es.length
        words := u.sout.words ++ es.map (elementWord .float32 u.ctl.sampleBo) } })

/-- The waits of a decode command, BUSY. R71, R279: with room for fewer words than the payload holds, the
decoder appends those it can and waits to append the next, which it has read. R66: where IN has nothing
ready and no terminator has come, it waits inside the read or skip it has reached, with the bytes that read
has got: inside the header after any number of its bytes, and inside the payload, in an element or in the
residual bytes. -/
def Obligations.DecWaitsForSink : Prop :=
  (∀ (s : State) (u : DecUnit) (kind : SampleKind) (h : WavHead) (es : List (List Byte)) (e rest : List Byte),
      s.decs[s.sel]? = some u → u.ctl.Accepted → s.pace = none → h.Ok →
      h.fmt.audioFormat = kind.formatCode → (es.length + 1) * kind.size ≤ h.dataSize.toNat →
      (∀ x ∈ es ++ [e], x.length = kind.size) →
      (∀ x ∈ es ++ [e], decodable kind (elementWord kind u.ctl.sampleBo x) = true) →
      es.length = u.sout.room → u.inp.ready = h.bytes ++ es.flatten ++ e ++ rest →
      exec (DecCmd.samples kind).instr s = .next (s.setDec s.sel { u with
        ctl := { u.ctl with
          phase := .samplesDecoding,
          ioCount := BitVec.ofNat 32 (h.bytes.length + (es.length + 1) * kind.size),
          sampleCount := BitVec.ofNat 32 es.length }
        hdr := h.registers
        hdrValid := true
        run := some ⟨.samples kind, u.ctl.sampleBo, .appending kind
          (elementWord kind u.ctl.sampleBo e) (h.dataSize.toNat / kind.size - es.length - 1)⟩
        inp := { u.inp with
          ready := rest, taken := u.inp.taken ++ (h.bytes ++ es.flatten ++ e) }
        sout := { u.sout with
          room := 0, words := u.sout.words ++ es.map (elementWord kind u.ctl.sampleBo) } })) ∧
  (∀ (s : State) (u : DecUnit) (cmd : DecCmd) (h : WavHead) n,
    s.decs[s.sel]? = some u → u.ctl.Accepted → s.pace = none → h.Ok → n < h.bytes.length →
    u.inp.ready = h.bytes.take n → u.inp.term = none →
    ∃ st got need pos, cutAt h.reads n = some (st, got, need) ∧
      ((∃ what, pos = .reading what need (u.inp.ready.drop (n - got)) ∧ what.stage = st) ∨
        ∃ what, pos = .skipping what need got ∧ what.stage = st) ∧
      exec cmd.instr s = .next (s.setDec s.sel { u with
        ctl := { u.ctl with
          phase := match st with
            | .riffRecord => .start
            | .fmtTag => .riffVerified
            | .fmtRecord => .fmtVerified
            | .extraSize => .formatValidated
            | .extraSkip => .formatValidated
            | _ => .chunkScanning
          ioCount := BitVec.ofNat 32 n }
        hdr := h.loaded n
        hdrValid := false
        run := some ⟨cmd, u.ctl.sampleBo, pos⟩
        inp := { u.inp with ready := [], taken := u.inp.taken ++ u.inp.ready } })) ∧
  (∀ (s : State) (u : DecUnit) (kind : SampleKind) (h : WavHead) (es : List (List Byte))
    (part : List Byte) what need, s.decs[s.sel]? = some u → u.ctl.Accepted → s.pace = none → h.Ok →
    h.fmt.audioFormat = kind.formatCode →
    ((es.length < h.dataSize.toNat / kind.size ∧ need = kind.size ∧
        what = .element kind (h.dataSize.toNat / kind.size - es.length - 1)) ∨
      (es.length = h.dataSize.toNat / kind.size ∧ need = h.dataSize.toNat % kind.size ∧
        what = .residual kind)) →
    part.length < need → (∀ e ∈ es, e.length = kind.size) →
    (∀ e ∈ es, decodable kind (elementWord kind u.ctl.sampleBo e) = true) →
    es.length ≤ u.sout.room → u.inp.ready = h.bytes ++ es.flatten ++ part →
    u.inp.term = none →
    exec (DecCmd.samples kind).instr s = .next (s.setDec s.sel { u with
      ctl := { u.ctl with
        phase := .samplesDecoding,
        ioCount := BitVec.ofNat 32 (h.bytes.length + es.length * kind.size + part.length),
        sampleCount := BitVec.ofNat 32 es.length }
      hdr := h.registers
      hdrValid := true
      run := some ⟨.samples kind, u.ctl.sampleBo, .reading what need part⟩
      inp := { u.inp with
        ready := [], taken := u.inp.taken ++ (h.bytes ++ es.flatten ++ part) }
      sout := { u.sout with
        room := u.sout.room - es.length
        words := u.sout.words ++ es.map (elementWord kind u.ctl.sampleBo) } }))

/-- R222, R224: the range verdict on the pattern, what it says of the value, and its classes. -/
def Obligations.FloatRangeVerdict : Prop :=
  (∀ w : Word, inRangeF32 w = true ↔ (w.extractLsb' 0 31).toNat ≤ 0x3F800000) ∧
  (∀ w : Word, inRangeF32 w = true ↔
    w.extractLsb' 23 8 ≠ 255#8 ∧ f32Magnitude w ≤ f32Magnitude 0x3F800000#32) ∧
  (∀ w : Word, inRangeF32 (w ^^^ 0x80000000#32) = inRangeF32 w) ∧
  (∀ w : Word, w.extractLsb' 23 8 = 0#8 → inRangeF32 w = true) ∧
  (∀ w : Word, w.extractLsb' 23 8 = 255#8 → inRangeF32 w = false) ∧
  (∀ w ∈ [0x00000000#32, 0x80000000#32, 0x3F800000#32, 0xBF800000#32, 0x3F7FFFFF#32],
    inRangeF32 w = true) ∧
  (∀ w ∈ [0x3F800001#32, 0xBF800001#32, 0x40000000#32, 0x7F800000#32, 0xFF800000#32,
    0x7FC00000#32, 0x7F800001#32, 0xFFFFFFFF#32], inRangeF32 w = false)

/-- R189: chunks between the format record and the data chunk change nothing of what a decode command
does, whatever follows the header and however the command ends, but IO_COUNT and the bytes consumed. -/
def Obligations.SkippedChunksLeaveNoTrace : Prop :=
  ∀ (s : State) (u : DecUnit) (cmd : DecCmd) (h : WavHead) (rest : List Byte),
    s.decs[s.sel]? = some u → u.ctl.Accepted → s.pace = none → h.Ok →
    u.inp.ready = h.bytes ++ rest →
    ∀ s', s' = s.setDec s.sel { u with
      inp := { u.inp with ready := WavHead.bytes { h with chunks := [] } ++ rest } } →
    ∃ v v', exec cmd.instr s = .next (s.setDec s.sel v) ∧
      exec cmd.instr s' = .next (s'.setDec s.sel v') ∧
      v'.ctl = { v.ctl with ioCount := v'.ctl.ioCount } ∧ v'.hdr = v.hdr ∧
      v'.hdrValid = v.hdrValid ∧ v'.run = v.run ∧ v'.sout = v.sout ∧
      v'.inp = { v.inp with taken := v'.inp.taken }

/-- R190, R283: on a stream that ends with End or Fail, and with room in SOUT, every decode command ends,
whatever the stream holds. -/
def Obligations.DecodeAlwaysEnds : Prop :=
  ∀ (s : State) (u : DecUnit) (cmd : DecCmd) t, s.decs[s.sel]? = some u → s.pace = none →
    u.inp.term = some t → u.inp.ready.length ≤ u.sout.room →
    ∃ v, exec cmd.instr s = .next (s.setDec s.sel v) ∧ v.run = none ∧ v.ctl.busy = false ∧
      v.ctl.done = true

/-- R226: what an encoder writes on a format that fits the sample kind, followed by End, decodes to the
format registers and the samples: on the same byte order to the samples themselves, on the other to the
samples with the bytes of each element swapped (for float32, where those are in range). -/
def Obligations.RoundTrip : Prop :=
  ∀ (s : State) (u : EncUnit) (kind : SampleKind) (n : Word) (ws rest : List Word)
    (as : List Answer), s.encs[s.sel]? = some u → u.ctl.Accepted →
    s.pace = none → n.toNat ≤ (2 ^ 32 - 1 - s.params.riffSizeBias.toNat) / kind.size →
    ws.length = n.toNat → u.sin.ready = ws ++ rest →
    (kind = .float32 → ∀ w ∈ ws, inRangeF32 w = true) →
    u.out.answers = List.replicate (44 + n.toNat * kind.size) Answer.ack ++ as →
    u.fmt.fmtLen = 16#32 → u.fmt.audioFormat = kind.formatCode →
    ∃ t v bytes, exec (kind.encode n) s = .next t ∧ t.encs[s.sel]? = some v ∧
      v.ctl.phase = .encDone ∧ v.out.bytes = u.out.bytes ++ bytes ∧
      ∀ (s' : State) u', s'.decs[s'.sel]? = some u' → u'.ctl.Accepted → s'.pace = none →
        u'.inp.ready = bytes → u'.inp.term = some .eof → n.toNat ≤ u'.sout.room →
        ∀ out : Word → Word,
        (u'.ctl.sampleBo = u.ctl.sampleBo → out = fun w => match kind with
          | .int16 => (w.extractLsb' 0 16).signExtend 32
          | .float32 => w) →
        (u'.ctl.sampleBo ≠ u.ctl.sampleBo → out = fun w => match kind with
          | .int16 => (w.extractLsb' 0 8 ++ w.extractLsb' 8 8).signExtend 32
          | .float32 =>
            w.extractLsb' 0 8 ++ w.extractLsb' 8 8 ++ w.extractLsb' 16 8 ++ w.extractLsb' 24 8) →
        (kind = .float32 → ∀ w ∈ ws, inRangeF32 (out w) = true) →
        ∃ t' v', exec (DecCmd.samples kind).instr s' = .next t' ∧ t'.decs[s'.sel]? = some v' ∧
          v'.ctl.phase = .samplesDone ∧ v'.ctl.err = none ∧ v'.hdrValid = true ∧
          v'.sout.words = u'.sout.words ++ ws.map out ∧ v'.inp.ready = [] ∧
          v'.hdr = {
            riffIdent := 0x46464952#32
            riffSize := BitVec.ofNat 32 (s.params.riffSizeBias.toNat + n.toNat * kind.size)
            riffType := 0x45564157#32
            fmtLen := u.fmt.fmtLen
            audioFormat := u.fmt.audioFormat
            numChannels := u.fmt.numChannels
            sampleRate := u.fmt.sampleRate
            bytesPerSec := u.fmt.bytesPerSec
            blockAlign := u.fmt.blockAlign
            bitsPerSample := u.fmt.bitsPerSample
            extraSize := 0#16
            dataSize := BitVec.ofNat 32 (n.toNat * kind.size) }

/-! ### Frames, whatever the pace and however the command ends -/

/-- R23, R31, R71, R76, R214, R249: what a decode command leaves alone and how its streams move: no other
unit changes, CFG and OVR stay, STICKY_ERR is never cleared, SOUT only grows, SAMPLE_COUNT counts its
growth, the bytes gone from IN are the ones counted and recorded, and the record of earlier streams
stays. -/
def Obligations.DecodeFrame : Prop :=
  ∀ (s t : State) u (cmd : DecCmd), s.decs[s.sel]? = some u → exec cmd.instr s = .next t →
    ∃ v got new, t = s.setDec s.sel v ∧
      v.ctl.sampleBo = u.ctl.sampleBo ∧ v.ctl.ovr = u.ctl.ovr ∧
      (u.ctl.stickyErr = true → v.ctl.stickyErr = true) ∧
      u.inp.ready = got ++ v.inp.ready ∧ v.inp.term = u.inp.term ∧ v.inp.past = u.inp.past ∧
      v.inp.taken = u.inp.taken ++ got ∧
      v.ctl.ioCount = u.ctl.ioCount + BitVec.ofNat 32 got.length ∧
      v.sout.words = u.sout.words ++ new ∧ v.sout.room + new.length = u.sout.room ∧
      v.sout.removed = u.sout.removed ∧ v.sout.past = u.sout.past ∧
      v.ctl.sampleCount = u.ctl.sampleCount + BitVec.ofNat 32 new.length

/-- R23, R37, R69, R70, R125, R151: what an encoder command leaves alone and how its streams move: no
other unit changes, CFG and OVR stay, STICKY_ERR is never cleared, OUT only grows and IO_COUNT counts
its growth, one answer goes with each byte but a failing one, a constructor touches no stream and no
size register, and the others write no format register. -/
def Obligations.EncodeFrame : Prop :=
  ∀ (s t : State) u (i : Instr), i.unitKind = .enc → s.encs[s.sel]? = some u →
    exec i s = .next t →
    ∃ v new used got, t = s.setEnc s.sel v ∧
      v.ctl.sampleBo = u.ctl.sampleBo ∧ v.ctl.ovr = u.ctl.ovr ∧
      (u.ctl.stickyErr = true → v.ctl.stickyErr = true) ∧
      v.out.bytes = u.out.bytes ++ new ∧ u.out.answers = used ++ v.out.answers ∧
      (used = List.replicate new.length Answer.ack ∨ used = List.replicate new.length Answer.ack ++ [Answer.fail]) ∧
      v.ctl.ioCount = u.ctl.ioCount + BitVec.ofNat 32 new.length ∧
      v.out.past = u.out.past ∧ v.sin.past = u.sin.past ∧
      u.sin.ready = got ++ v.sin.ready ∧ v.sin.taken = u.sin.taken ++ got ∧
      (∀ ch rate bits, i = .fmtNewPcm ch rate bits ∨ i = .fmtNewFloat ch rate bits →
        new = [] ∧ used = [] ∧ got = [] ∧ v.riffSize = u.riffSize ∧ v.dataSize = u.dataSize ∧
        v.ctl.sampleCount = u.ctl.sampleCount) ∧
      (∀ n, i = .encHeader ∨ i = .encInt16 n ∨ i = .encFloat32 n → v.fmt = u.fmt) ∧
      (i = .encHeader → got = [] ∧ v.ctl.sampleCount = u.ctl.sampleCount)

/-- R244: the errors a command can end with, and at which stages, as codes. -/
def Obligations.ErrorsByCommand : Prop :=
  (∀ (s t : State) u v (cmd : DecCmd) k, s.decs[s.sel]? = some u → u.ctl.Accepted →
    exec cmd.instr s = .next t → t.decs[s.sel]? = some v → v.ctl.err = some k →
    ∃ st, v.ctl.errStage = some st ∧ v.ctl.phase = .error ∧ v.ctl.stickyErr = true ∧
      match cmd with
      | .header => (k.code, st.code) ∈ [(1, 1), (1, 2), (2, 4), (3, 1), (3, 2), (3, 3), (3, 5), (3, 6),
          (3, 7), (3, 8), (5, 1), (5, 2), (5, 3), (5, 5), (5, 6), (5, 7), (5, 8)]
      | .samples .int16 => (k.code, st.code) ∈ [(1, 1), (1, 2), (2, 4), (2, 9), (3, 1), (3, 2), (3, 3),
          (3, 5), (3, 6), (3, 7), (3, 8), (3, 10), (5, 1), (5, 2), (5, 3), (5, 5), (5, 6), (5, 7),
          (5, 8), (5, 10)]
      | .samples .float32 => (k.code, st.code) ∈ [(1, 1), (1, 2), (2, 4), (2, 9), (3, 1), (3, 2),
          (3, 3), (3, 5), (3, 6), (3, 7), (3, 8), (3, 10), (4, 11), (5, 1), (5, 2), (5, 3), (5, 5),
          (5, 6), (5, 7), (5, 8), (5, 10)]) ∧
  (∀ (s t : State) u v (i : Instr) k, i.unitKind = .enc → s.encs[s.sel]? = some u →
    u.ctl.Accepted → exec i s = .next t → t.encs[s.sel]? = some v → v.ctl.err = some k →
    ∃ st, v.ctl.errStage = some st ∧ v.ctl.phase = .error ∧ v.ctl.stickyErr = true ∧
      match i with
      | .encHeader => (k.code, st.code) = (5, 17)
      | .encInt16 _ => (k.code, st.code) ∈ [(9, 16), (5, 17), (5, 18)]
      | .encFloat32 _ => (k.code, st.code) ∈ [(9, 16), (5, 17), (5, 18)] ∨
          s.params.encFloatRangeCheck = true ∧ (k.code, st.code) = (4, 19)
      | _ => False)

/-! ### Reset, turns and the whole machine (R23, R25, R26, R253 to R284) -/

/-- R42, R272: after power-on every unit is idle with all its registers 0, and every read of a window
returns 0. R274 leaves the streams to the host: that each is empty, with nothing ready and no room, is the
model's choice (log 7). -/
def Obligations.ResetRegistersZero : Prop :=
  (∀ p : Params, (State.initial p).decs.length = p.numDec ∧ (State.initial p).encs.length = p.numEnc ∧
    (∀ u ∈ (State.initial p).decs, u.ctl.busy = false ∧ u.ctl.done = false ∧ u.run = none ∧
      u.ctl.asm = [] ∧ u.ctl.sampleBo = .little ∧ (∀ n off, u.readAt n off = 0#32) ∧
      u.inp = ⟨[], none, [], []⟩ ∧ u.sout = ⟨0, [], [], []⟩) ∧
    (∀ u ∈ (State.initial p).encs, u.ctl.busy = false ∧ u.ctl.done = false ∧ u.run = none ∧
      u.ctl.asm = [] ∧ u.ctl.sampleBo = .little ∧ (∀ n off, u.readAt n off = 0#32) ∧
      u.out = ⟨[], [], []⟩ ∧ u.sin = ⟨[], [], []⟩)) ∧
  State.reset = State.initial ⟨1, 1, 52#32, true, false⟩

/-- R271: a reset of a unit, at any moment, BUSY or not, abandons what it runs or collects, sets every
register to its reset value, with DONE and the error registers 0, and changes no stream. -/
def Obligations.UnitResetKeepsStreams : Prop :=
  (∀ (s : State) rest d u, s.script = .resetUnit (.dec d) :: rest → s.decs[d]? = some u →
    step s = .next ({ s with script := rest }.setDec d {
      ctl := {
        sampleBo := .little, busy := false, done := false, phase := .start, err := none,
        stickyErr := false, ovr := false, errStage := none, errActual := 0#32,
        errExpected := 0#32, ioCount := 0#32, sampleCount := 0#32, asm := [] }
      hdr := ⟨0#32, 0#32, 0#32, 0#32, 0#16, 0#16, 0#32, 0#32, 0#16, 0#16, 0#16, 0#32⟩
      hdrValid := false
      run := none
      inp := u.inp
      sout := u.sout })) ∧
  (∀ (s : State) rest e u, s.script = .resetUnit (.enc e) :: rest → s.encs[e]? = some u →
    step s = .next ({ s with script := rest }.setEnc e {
      ctl := {
        sampleBo := .little, busy := false, done := false, phase := .start, err := none,
        stickyErr := false, ovr := false, errStage := none, errActual := 0#32,
        errExpected := 0#32, ioCount := 0#32, sampleCount := 0#32, asm := [] }
      fmt := ⟨0#32, 0#16, 0#16, 0#32, 0#32, 0#16, 0#16⟩
      riffSize := 0#32
      dataSize := 0#32
      run := none
      out := u.out
      sin := u.sin }))

/-- R26, R252, R270: STICKY_ERR and OVR, once set, are cleared only by a reset of the unit or by a write
of 1 to their bit of its STATUS. -/
def Obligations.StickyBitsStay : Prop :=
  (∀ (s t : State) d u, step s = .next t → s.decs[d]? = some u →
    ∃ v, t.decs[d]? = some v ∧
      (s.script.head? ≠ some (.resetUnit (.dec d)) →
        (u.ctl.stickyErr = true →
          (∀ w, s.script.head? = some (.write (.dec d) 4 0x004 w) → w.getLsbD 12 = false) →
          v.ctl.stickyErr = true) ∧
        (u.ctl.ovr = true →
          (∀ w, s.script.head? = some (.write (.dec d) 4 0x004 w) → w.getLsbD 13 = false) →
          v.ctl.ovr = true))) ∧
  (∀ (s t : State) e u, step s = .next t → s.encs[e]? = some u →
    ∃ v, t.encs[e]? = some v ∧
      (s.script.head? ≠ some (.resetUnit (.enc e)) →
        (u.ctl.stickyErr = true →
          (∀ w, s.script.head? = some (.write (.enc e) 4 0x004 w) → w.getLsbD 12 = false) →
          v.ctl.stickyErr = true) ∧
        (u.ctl.ovr = true →
          (∀ w, s.script.head? = some (.write (.enc e) 4 0x004 w) → w.getLsbD 13 = false) →
          v.ctl.ovr = true)))

/-- R25, R276, R282: while a unit is BUSY nothing but its reset changes CFG, and nothing but its reset or
a constructor it runs changes an ENC format register: neither while a command runs nor while its operands
are collected, short of the word that completes it and starts it. -/
def Obligations.ConfigStableWhileBusy : Prop :=
  (∀ (s t : State) d u, step s = .next t → s.decs[d]? = some u → u.ctl.busy = true →
    s.script.head? ≠ some (.resetUnit (.dec d)) →
    ∃ v, t.decs[d]? = some v ∧ v.ctl.sampleBo = u.ctl.sampleBo) ∧
  (∀ (s t : State) e u, step s = .next t → s.encs[e]? = some u → u.ctl.busy = true →
    s.script.head? ≠ some (.resetUnit (.enc e)) →
    ∃ v, t.encs[e]? = some v ∧ v.ctl.sampleBo = u.ctl.sampleBo ∧
      (u.ctl.asm = [] → (∀ r, u.run = some r → ∀ a todo, r.pos ≠ .constructing a todo) →
        v.fmt = u.fmt) ∧
      (u.ctl.asm ≠ [] → u.run = none →
        (∀ w, s.script.head? = some (.write (.enc e) 4 0x008 w) →
          ∀ i, decodeFor .enc (u.ctl.asm ++ [w]) ≠ .ok i) →
        v.fmt = u.fmt))

/-- R23, R81, R255: a host action changes no unit but the one it is addressed to, and never the
parameters. A `wait`, which is polling, changes a unit only by a turn of that unit's own: at most one unit
takes one, the polled unit or another (R283; log 12). -/
def Obligations.UnitsIndependent : Prop :=
  (∀ (s t : State) e rest, s.script = e :: rest → (∀ u, e ≠ .wait u) → step s = .next t →
    t.params = s.params ∧ (∀ d, e.target ≠ some (.dec d) → t.decs[d]? = s.decs[d]?) ∧
    (∀ k, e.target ≠ some (.enc k) → t.encs[k]? = s.encs[k]?)) ∧
  (∀ (s t : State) u rest, s.script = .wait u :: rest → step s = .next t →
    t.params = s.params ∧ ∃ x : UnitId,
      (∀ d, x ≠ .dec d → t.decs[d]? = s.decs[d]?) ∧ (∀ k, x ≠ .enc k → t.encs[k]? = s.encs[k]?) ∧
      (∀ d v, x = .dec d → s.decs[d]? = some v → ∃ n, t.decs[d]? = some (v.runFor n)) ∧
      (∀ k v, x = .enc k → s.encs[k]? = some v → ∃ n, t.encs[k]? = some (v.runFor s.params n)))

/-- R81, R283: turns of two different units may be taken in either order. -/
def Obligations.TurnsCommute : Prop :=
  ∀ (s t : State) x y rest, x ≠ y →
    ((∃ m, step { s with script := .run x :: .run y :: rest } = .next m ∧ step m = .next t) ↔
      ∃ m, step { s with script := .run y :: .run x :: rest } = .next m ∧ step m = .next t)

/-- R79, R283: however a unit's run is cut into turns, once they are together as long as its work they leave
it where one turn of that length does, and there it can take no step (the model's own schedule, log 4). -/
def Obligations.TurnsAddUp : Prop :=
  (∀ (ns : List Nat) (u : DecUnit), u.work ≤ ns.sum →
    ns.foldl (fun v n => v.runFor n) u = u.runFor u.work ∧ (u.runFor u.work).advance = none) ∧
  (∀ p (ns : List Nat) (u : EncUnit), u.work ≤ ns.sum →
    ns.foldl (fun v n => v.runFor p n) u = u.runFor p u.work ∧ (u.runFor p u.work).advance p = none)

/-- R190, R283: a turn as long as the unit's work ends where the unit is idle, collects operands, or waits
for a stream, and every longer turn ends there too (the model's own schedule, log 4). Progress is fair: from
every state, whatever the host's script and loop and whatever the pace, the machine comes to a state where no
unit can take a step, so that every unit that could has taken one, unless its run ends in a fault or a
refusal before. -/
def Obligations.LongTurnsSettle : Prop :=
  (∀ n (u : DecUnit), u.work ≤ n → u.runFor n = u.runFor u.work ∧
    ((u.runFor n).run = none ∨
      (∃ r what need got, (u.runFor n).run = some r ∧ r.pos = .reading what need got ∧
        (u.runFor n).inp.ready = [] ∧ (u.runFor n).inp.term = none) ∨
      (∃ r what need got, (u.runFor n).run = some r ∧ r.pos = .skipping what need got ∧
        (u.runFor n).inp.ready = [] ∧ (u.runFor n).inp.term = none) ∨
      (∃ r kind w left, (u.runFor n).run = some r ∧ r.pos = .appending kind w left ∧
        (u.runFor n).sout.room = 0))) ∧
  (∀ p n (u : EncUnit), u.work ≤ n → u.runFor p n = u.runFor p u.work ∧
    ((u.runFor p n).run = none ∨
      (∃ r todo sent next, (u.runFor p n).run = some r ∧ r.pos = .header todo sent next ∧
        todo ≠ [] ∧ (u.runFor p n).out.answers = []) ∨
      (∃ r kind left, (u.runFor p n).run = some r ∧ r.pos = .taking kind left ∧
        (u.runFor p n).sin.ready = []) ∨
      (∃ r todo sent kind left, (u.runFor p n).run = some r ∧ r.pos = .element todo sent kind left ∧
        todo ≠ [] ∧ (u.runFor p n).out.answers = []))) ∧
  (∀ s : State, ∃ n, (∃ t, Sys2Proof.core.run n s = .next t ∧ t.Quiet) ∨
    (∃ r, Sys2Proof.core.run n s = .fault r) ∨ ∃ r, Sys2Proof.core.run n s = .refused r)

/-- R258, R283, R284: with no host action pending and none to come, an idle machine stays as it is; where a
unit can take a step, one does. Where none can, a host that goes on for ever goes on if all units are idle, or
if its loop holds an action that gets the machine further; otherwise, with a unit BUSY and no event that could
come, the machine is stuck, be the loop empty or made of polls only (what gets it further: log 1). R190: on a
stream that the host feeds for ever with chunks other than "data", a decoder in the chunk scan stays BUSY for
ever and consumes as many bytes as one likes, whether the host waits for it or does nothing else, and whatever
the other units do. R284: no step loses the record of what the streams carried, whatever the host attaches or
removes (log 20). -/
def Obligations.EndOfRun : Prop :=
  (∀ s : State, s.script = [] → s.Inv →
    ((∀ u ∈ s.decs, u.ctl.busy = false) → (∀ u ∈ s.encs, u.ctl.busy = false) →
      step s = .next { s with script := s.loop } ∧ (s.loop = [] → step s = .next s)) ∧
    (s.Quiet → ((∃ u ∈ s.decs, u.ctl.busy = true) ∨ ∃ u ∈ s.encs, u.ctl.busy = true) →
      (∀ e ∈ s.loop, s.helps e = false) → step s = .fault .stuck) ∧
    (s.Quiet → (∃ e ∈ s.loop, s.helps e = true) → step s = .next { s with script := s.loop }) ∧
    (¬ s.Quiet → ∃ x, s.CanStep x ∧ step s = .next (s.turnTaken x) ∧ s.turnTaken x ≠ s)) ∧
  (∀ (s : State) (e : HostEvent), s.Quiet → (s.helps e = true ↔
    (((∃ d v, e = .inEvent d v) ∨ (∃ d n, e = .soutRoom d n) ∨ (∃ k a, e = .outAnswer k a) ∨
        (∃ k w, e = .sinWord k w)) ∧ ∃ t, s.perform e = .next t ∧ ¬ t.Quiet) ∨
      (∃ d u w, e = .write (.dec d) 4 0x008 w ∧ s.decs[d]? = some u ∧
        (u.ctl.busy = false ∨ u.ctl.asm ≠ [])) ∨
      (∃ k u w, e = .write (.enc k) 4 0x008 w ∧ s.encs[k]? = some u ∧
        (u.ctl.busy = false ∨ u.ctl.asm ≠ [])) ∨
      (∃ x, e = .resetUnit x ∧ s.busy x = true) ∨ ∀ t, s.perform e ≠ .next t)) ∧
  (∀ (s : State) d u r (cs : List Chunk) rest, s.decs[d]? = some u → u.ctl.busy = true → u.run = some r →
    r.pos = .reading .chunkHeader 8 [] → u.inp.ready = [] → u.inp.term = none →
    cs ≠ [] → (∀ c ∈ cs, c.Ok) → s.script = [] ∨ s.script = .wait (.dec d) :: rest →
    s.loop = (cs.flatMap Chunk.bytes).map (fun b => .inEvent d (.byte b)) →
    (∀ n, ∃ t v, Sys2Proof.core.run n s = .next t ∧ t.decs[d]? = some v ∧ v.ctl.busy = true) ∧
    ∀ k, ∃ n t v, Sys2Proof.core.run n s = .next t ∧ t.decs[d]? = some v ∧ k ≤ v.inp.taken.length) ∧
  (∀ s t : State, step s = .next t →
    (∀ (d : Nat) u, s.decs[d]? = some u → ∃ v, t.decs[d]? = some v ∧
      RecordGrows u.inp.consumed v.inp.consumed ∧ RecordGrows u.sout.appended v.sout.appended) ∧
    (∀ (e : Nat) u, s.encs[e]? = some u → ∃ v, t.encs[e]? = some v ∧
      RecordGrows u.out.accepted v.out.accepted ∧ RecordGrows u.sin.consumed v.sin.consumed))

/-- What the host may do to the streams. R72, R81, R281: a new stream for a BUSY unit, and one unit's stream
for another, are refused (log 16); a unit that is not BUSY takes a new one on any of its ports, a sink empty
(log 15), and what the old one carried stays on record (log 20). R255: the bytes of OUT, then End, become the
IN of a decoder that is not BUSY. R66, R69, R70, R279: more bytes of IN, its terminator, answers of OUT, words
of SIN and room in SOUT go to the end of the stream, BUSY or not (log 17); an event after the terminator is
refused (log 5); words leave SOUT from its front. -/
def Obligations.StreamDuties : Prop :=
  (∀ (s : State) rest x y, x ≠ y → s.script = .share x y :: rest →
    step s = .refused .sharedStream) ∧
  (∀ (s : State) rest d u e, s.decs[d]? = some u → u.ctl.busy = true →
    (∃ ready term, e = .attachIn d ready term) ∨ (∃ room, e = .attachSout d room) ∨
      (∃ k v, s.encs[k]? = some v ∧ e = .copyOut k d) →
    s.script = e :: rest → step s = .refused .busyStreamChange) ∧
  (∀ (s : State) rest k u e, s.encs[k]? = some u → u.ctl.busy = true →
    (∃ answers, e = .attachOut k answers) ∨ (∃ ready, e = .attachSin k ready) →
    s.script = e :: rest → step s = .refused .busyStreamChange) ∧
  (∀ (s : State) rest d u ready term, s.decs[d]? = some u → u.ctl.busy = false →
    s.script = .attachIn d ready term :: rest →
    step s = .next ({ s with script := rest }.setDec d
      { u with inp := ⟨ready, term, [], u.inp.past ++ [u.inp.taken]⟩ })) ∧
  (∀ (s : State) rest d u room, s.decs[d]? = some u → u.ctl.busy = false →
    s.script = .attachSout d room :: rest →
    step s = .next ({ s with script := rest }.setDec d
      { u with sout := ⟨room, [], [], u.sout.past ++ [u.sout.removed ++ u.sout.words]⟩ })) ∧
  (∀ (s : State) rest k u answers, s.encs[k]? = some u → u.ctl.busy = false →
    s.script = .attachOut k answers :: rest →
    step s = .next ({ s with script := rest }.setEnc k
      { u with out := ⟨answers, [], u.out.past ++ [u.out.bytes]⟩ })) ∧
  (∀ (s : State) rest k u ready, s.encs[k]? = some u → u.ctl.busy = false →
    s.script = .attachSin k ready :: rest →
    step s = .next ({ s with script := rest }.setEnc k
      { u with sin := ⟨ready, [], u.sin.past ++ [u.sin.taken]⟩ })) ∧
  (∀ (s : State) rest k v d u, s.encs[k]? = some v → s.decs[d]? = some u → u.ctl.busy = false →
    s.script = .copyOut k d :: rest →
    step s = .next ({ s with script := rest }.setDec d
      { u with inp := ⟨v.out.bytes, some .eof, [], u.inp.past ++ [u.inp.taken]⟩ })) ∧
  (∀ (s : State) rest d u b, s.decs[d]? = some u → u.inp.term = none →
    s.script = .inEvent d (.byte b) :: rest →
    step s = .next ({ s with script := rest }.setDec d
      { u with inp := { u.inp with ready := u.inp.ready ++ [b] } })) ∧
  (∀ (s : State) rest d u t, s.decs[d]? = some u → u.inp.term = none →
    s.script = .inEvent d (.stop t) :: rest →
    step s = .next ({ s with script := rest }.setDec d
      { u with inp := { u.inp with term := some t } })) ∧
  (∀ (s : State) rest d u e t, s.decs[d]? = some u → u.inp.term = some t →
    s.script = .inEvent d e :: rest → step s = .refused .eventAfterTerminator) ∧
  (∀ (s : State) rest d u n, s.decs[d]? = some u → s.script = .soutRoom d n :: rest →
    step s = .next ({ s with script := rest }.setDec d
      { u with sout := { u.sout with room := u.sout.room + n } })) ∧
  (∀ (s : State) rest d u gone left, s.decs[d]? = some u → u.sout.words = gone ++ left →
    s.script = .soutTake d gone.length :: rest →
    step s = .next ({ s with script := rest }.setDec d
      { u with sout := { u.sout with words := left, removed := u.sout.removed ++ gone } })) ∧
  (∀ (s : State) rest k u a, s.encs[k]? = some u → s.script = .outAnswer k a :: rest →
    step s = .next ({ s with script := rest }.setEnc k
      { u with out := { u.out with answers := u.out.answers ++ [a] } })) ∧
  (∀ (s : State) rest k u w, s.encs[k]? = some u → s.script = .sinWord k w :: rest →
    step s = .next ({ s with script := rest }.setEnc k
      { u with sin := { u.sin with ready := u.sin.ready ++ [w] } }))

/-- R109, R253, R283: `wait` reads STATUS; it is over when BUSY is 0. Until then it stays the host's next action,
and at each poll a unit that can take a step takes a turn of at least one, whatever the pace: the polled unit
where it can, another where it cannot. Where none can, a host that goes on for ever goes on with those events
of its loop, in their order, that are events of a stream and let a unit take a step; where the loop holds none,
no event can come, and the machine is stuck, whatever stands after the wait (the model's choice, log 12). -/
def Obligations.WaitUntilIdle : Prop :=
  (∀ (s : State) rest d u, s.script = .wait (.dec d) :: rest → s.decs[d]? = some u →
    u.ctl.busy = false → step s = .next { s with
      script := rest, rdata := u.ctl.status u.hdrValid, draws := s.draws + 1 }) ∧
  (∀ (s : State) rest e u, s.script = .wait (.enc e) :: rest → s.encs[e]? = some u →
    u.ctl.busy = false → step s = .next { s with
      script := rest, rdata := u.ctl.status false, draws := s.draws + 1 }) ∧
  (∀ (s : State) rest u, s.script = .wait u :: rest → s.busy u = true →
    ∃ x : Word, x.getLsbD 0 = true ∧
      ((s.CanStep u → step s = .next ({ s with rdata := x, draws := s.draws + 1 }.turnTaken u)) ∧
      (¬ s.CanStep u → ¬ s.Quiet → ∃ y, s.CanStep y ∧
        step s = .next ({ s with rdata := x, draws := s.draws + 1 }.turnTaken y)) ∧
      (s.Quiet → (∀ e ∈ s.loop, s.supplies e = false) → step s = .fault .stuck) ∧
      (s.Quiet → (∃ e ∈ s.loop, s.supplies e = true) → step s = .next { s with
        script := s.loop.filter s.supplies ++ s.script, rdata := x, draws := s.draws + 1 }))) ∧
  (∀ (s : State) (e : HostEvent), s.Quiet → (s.supplies e = true ↔
    ((∃ d v, e = .inEvent d v) ∨ (∃ d n, e = .soutRoom d n) ∨ (∃ k a, e = .outAnswer k a) ∨
      (∃ k w, e = .sinWord k w)) ∧ ∃ t, s.perform e = .next t ∧ ¬ t.Quiet))

/-- The invariant holds after power-on, whatever the parameters (R42, R272). -/
def Obligations.InitialStatesKeepRules : Prop :=
  ∀ p : Params, (State.initial p).Inv

/-- Every step keeps the invariant, from every state that meets it: BUSY exactly while a command runs or
collects operands (R26), HDR_VALID only with a complete header of a recognized format (R35), PHASE and
the counters those of the position reached (R27, R31, R32; of a decoder's IO_COUNT up to the chunk scan, from
where it depends on the chunks), the byte order in use the one CFG holds
(R282), exact size fields (R150), and, once a command has ended, one of the outcomes of R244. -/
def Obligations.StepKeepsRules : Prop :=
  ∀ s t : State, s.Inv → step s = .next t → t.Inv

/-- R26, R27, R28, R35, R243, R245: what a host can conclude, in a state that meets the invariant, of a
unit that is not BUSY: its error code, stage and PHASE agree, and HDR_VALID means a header whose
identifiers and format code have been checked. -/
def Obligations.IdleUnitsExplained : Prop :=
  ∀ s : State, s.Inv →
    (∀ u ∈ s.decs, u.ctl.busy = false →
      u.run = none ∧ u.ctl.asm = [] ∧
      (u.ctl.done = false → u.ctl.phase = .start ∧ u.ctl.err = none) ∧
      (u.ctl.err = none ↔ u.ctl.phase ≠ .error) ∧ (u.ctl.err = none ↔ u.ctl.errStage = none) ∧
      (u.ctl.err = none → u.ctl.errActual = 0#32 ∧ u.ctl.errExpected = 0#32) ∧
      (u.hdrValid = true → u.hdr.riffIdent = 0x46464952#32 ∧ u.hdr.riffType = 0x45564157#32 ∧
        u.hdr.audioFormat ∈ [1#16, 3#16, 6#16, 7#16, 0xFFFE#16])) ∧
    (∀ u ∈ s.encs, u.ctl.busy = false →
      u.run = none ∧ u.ctl.asm = [] ∧
      (u.ctl.done = false → u.ctl.phase = .start ∧ u.ctl.err = none) ∧
      (u.ctl.err = none ↔ u.ctl.phase ≠ .error) ∧ (u.ctl.err = none ↔ u.ctl.errStage = none) ∧
      (u.ctl.err = none → u.ctl.errActual = 0#32 ∧ u.ctl.errExpected = 0#32))
end

