-- ==== Sys2Proof/Laws/State.lean ====
section
/-! SUPPORT. One lemma per field per update of the state records, each true by rfl, so that no later
proof unfolds an update. -/

namespace Sys2Proof.Machine

/-! ### Ctl -/

@[simp] theorem Ctl.accept_sampleBo (c : Ctl) : (c.accept).sampleBo = c.sampleBo := rfl
@[simp] theorem Ctl.accept_busy (c : Ctl) : (c.accept).busy = true := rfl
@[simp] theorem Ctl.accept_done (c : Ctl) : (c.accept).done = false := rfl
@[simp] theorem Ctl.accept_phase (c : Ctl) : (c.accept).phase = c.phase := rfl
@[simp] theorem Ctl.accept_err (c : Ctl) : (c.accept).err = none := rfl
@[simp] theorem Ctl.accept_stickyErr (c : Ctl) : (c.accept).stickyErr = c.stickyErr := rfl
@[simp] theorem Ctl.accept_ovr (c : Ctl) : (c.accept).ovr = c.ovr := rfl
@[simp] theorem Ctl.accept_errStage (c : Ctl) : (c.accept).errStage = none := rfl
@[simp] theorem Ctl.accept_errActual (c : Ctl) : (c.accept).errActual = 0#32 := rfl
@[simp] theorem Ctl.accept_errExpected (c : Ctl) : (c.accept).errExpected = 0#32 := rfl
@[simp] theorem Ctl.accept_ioCount (c : Ctl) : (c.accept).ioCount = 0#32 := rfl
@[simp] theorem Ctl.accept_sampleCount (c : Ctl) : (c.accept).sampleCount = 0#32 := rfl
@[simp] theorem Ctl.accept_asm (c : Ctl) : (c.accept).asm = c.asm := rfl

@[simp] theorem Ctl.release_sampleBo (c : Ctl) : (c.release).sampleBo = c.sampleBo := rfl
@[simp] theorem Ctl.release_busy (c : Ctl) : (c.release).busy = false := rfl
@[simp] theorem Ctl.release_done (c : Ctl) : (c.release).done = true := rfl
@[simp] theorem Ctl.release_phase (c : Ctl) : (c.release).phase = c.phase := rfl
@[simp] theorem Ctl.release_err (c : Ctl) : (c.release).err = c.err := rfl
@[simp] theorem Ctl.release_stickyErr (c : Ctl) : (c.release).stickyErr = c.stickyErr := rfl
@[simp] theorem Ctl.release_ovr (c : Ctl) : (c.release).ovr = c.ovr := rfl
@[simp] theorem Ctl.release_errStage (c : Ctl) : (c.release).errStage = c.errStage := rfl
@[simp] theorem Ctl.release_errActual (c : Ctl) : (c.release).errActual = c.errActual := rfl
@[simp] theorem Ctl.release_errExpected (c : Ctl) : (c.release).errExpected = c.errExpected := rfl
@[simp] theorem Ctl.release_ioCount (c : Ctl) : (c.release).ioCount = c.ioCount := rfl
@[simp] theorem Ctl.release_sampleCount (c : Ctl) : (c.release).sampleCount = c.sampleCount := rfl
@[simp] theorem Ctl.release_asm (c : Ctl) : (c.release).asm = [] := rfl

@[simp] theorem Ctl.countByte_sampleBo (c : Ctl) : (c.countByte).sampleBo = c.sampleBo := rfl
@[simp] theorem Ctl.countByte_busy (c : Ctl) : (c.countByte).busy = c.busy := rfl
@[simp] theorem Ctl.countByte_done (c : Ctl) : (c.countByte).done = c.done := rfl
@[simp] theorem Ctl.countByte_phase (c : Ctl) : (c.countByte).phase = c.phase := rfl
@[simp] theorem Ctl.countByte_err (c : Ctl) : (c.countByte).err = c.err := rfl
@[simp] theorem Ctl.countByte_stickyErr (c : Ctl) : (c.countByte).stickyErr = c.stickyErr := rfl
@[simp] theorem Ctl.countByte_ovr (c : Ctl) : (c.countByte).ovr = c.ovr := rfl
@[simp] theorem Ctl.countByte_errStage (c : Ctl) : (c.countByte).errStage = c.errStage := rfl
@[simp] theorem Ctl.countByte_errActual (c : Ctl) : (c.countByte).errActual = c.errActual := rfl
@[simp] theorem Ctl.countByte_errExpected (c : Ctl) :
    (c.countByte).errExpected = c.errExpected := rfl
@[simp] theorem Ctl.countByte_ioCount (c : Ctl) : (c.countByte).ioCount = c.ioCount + 1#32 := rfl
@[simp] theorem Ctl.countByte_sampleCount (c : Ctl) :
    (c.countByte).sampleCount = c.sampleCount := rfl
@[simp] theorem Ctl.countByte_asm (c : Ctl) : (c.countByte).asm = c.asm := rfl

@[simp] theorem Ctl.countSample_sampleBo (c : Ctl) : (c.countSample).sampleBo = c.sampleBo := rfl
@[simp] theorem Ctl.countSample_busy (c : Ctl) : (c.countSample).busy = c.busy := rfl
@[simp] theorem Ctl.countSample_done (c : Ctl) : (c.countSample).done = c.done := rfl
@[simp] theorem Ctl.countSample_phase (c : Ctl) : (c.countSample).phase = c.phase := rfl
@[simp] theorem Ctl.countSample_err (c : Ctl) : (c.countSample).err = c.err := rfl
@[simp] theorem Ctl.countSample_stickyErr (c : Ctl) : (c.countSample).stickyErr = c.stickyErr := rfl
@[simp] theorem Ctl.countSample_ovr (c : Ctl) : (c.countSample).ovr = c.ovr := rfl
@[simp] theorem Ctl.countSample_errStage (c : Ctl) : (c.countSample).errStage = c.errStage := rfl
@[simp] theorem Ctl.countSample_errActual (c : Ctl) : (c.countSample).errActual = c.errActual := rfl
@[simp] theorem Ctl.countSample_errExpected (c : Ctl) :
    (c.countSample).errExpected = c.errExpected := rfl
@[simp] theorem Ctl.countSample_ioCount (c : Ctl) : (c.countSample).ioCount = c.ioCount := rfl
@[simp] theorem Ctl.countSample_sampleCount (c : Ctl) :
    (c.countSample).sampleCount = c.sampleCount + 1#32 := rfl
@[simp] theorem Ctl.countSample_asm (c : Ctl) : (c.countSample).asm = c.asm := rfl

@[simp] theorem Ctl.setPhase_sampleBo (c : Ctl) (p : Phase) :
    (c.setPhase p).sampleBo = c.sampleBo := rfl
@[simp] theorem Ctl.setPhase_busy (c : Ctl) (p : Phase) : (c.setPhase p).busy = c.busy := rfl
@[simp] theorem Ctl.setPhase_done (c : Ctl) (p : Phase) : (c.setPhase p).done = c.done := rfl
@[simp] theorem Ctl.setPhase_phase (c : Ctl) (p : Phase) : (c.setPhase p).phase = p := rfl
@[simp] theorem Ctl.setPhase_err (c : Ctl) (p : Phase) : (c.setPhase p).err = c.err := rfl
@[simp] theorem Ctl.setPhase_stickyErr (c : Ctl) (p : Phase) :
    (c.setPhase p).stickyErr = c.stickyErr := rfl
@[simp] theorem Ctl.setPhase_ovr (c : Ctl) (p : Phase) : (c.setPhase p).ovr = c.ovr := rfl
@[simp] theorem Ctl.setPhase_errStage (c : Ctl) (p : Phase) :
    (c.setPhase p).errStage = c.errStage := rfl
@[simp] theorem Ctl.setPhase_errActual (c : Ctl) (p : Phase) :
    (c.setPhase p).errActual = c.errActual := rfl
@[simp] theorem Ctl.setPhase_errExpected (c : Ctl) (p : Phase) :
    (c.setPhase p).errExpected = c.errExpected := rfl
@[simp] theorem Ctl.setPhase_ioCount (c : Ctl) (p : Phase) :
    (c.setPhase p).ioCount = c.ioCount := rfl
@[simp] theorem Ctl.setPhase_sampleCount (c : Ctl) (p : Phase) :
    (c.setPhase p).sampleCount = c.sampleCount := rfl
@[simp] theorem Ctl.setPhase_asm (c : Ctl) (p : Phase) : (c.setPhase p).asm = c.asm := rfl

@[simp] theorem Ctl.recordOk_sampleBo (c : Ctl) (p : Phase) :
    (c.record (.ok p)).sampleBo = c.sampleBo := rfl
@[simp] theorem Ctl.recordOk_busy (c : Ctl) (p : Phase) : (c.record (.ok p)).busy = c.busy := rfl
@[simp] theorem Ctl.recordOk_done (c : Ctl) (p : Phase) : (c.record (.ok p)).done = c.done := rfl
@[simp] theorem Ctl.recordOk_phase (c : Ctl) (p : Phase) : (c.record (.ok p)).phase = p := rfl
@[simp] theorem Ctl.recordOk_err (c : Ctl) (p : Phase) : (c.record (.ok p)).err = c.err := rfl
@[simp] theorem Ctl.recordOk_stickyErr (c : Ctl) (p : Phase) :
    (c.record (.ok p)).stickyErr = c.stickyErr := rfl
@[simp] theorem Ctl.recordOk_ovr (c : Ctl) (p : Phase) : (c.record (.ok p)).ovr = c.ovr := rfl
@[simp] theorem Ctl.recordOk_errStage (c : Ctl) (p : Phase) :
    (c.record (.ok p)).errStage = c.errStage := rfl
@[simp] theorem Ctl.recordOk_errActual (c : Ctl) (p : Phase) :
    (c.record (.ok p)).errActual = c.errActual := rfl
@[simp] theorem Ctl.recordOk_errExpected (c : Ctl) (p : Phase) :
    (c.record (.ok p)).errExpected = c.errExpected := rfl
@[simp] theorem Ctl.recordOk_ioCount (c : Ctl) (p : Phase) :
    (c.record (.ok p)).ioCount = c.ioCount := rfl
@[simp] theorem Ctl.recordOk_sampleCount (c : Ctl) (p : Phase) :
    (c.record (.ok p)).sampleCount = c.sampleCount := rfl
@[simp] theorem Ctl.recordOk_asm (c : Ctl) (p : Phase) : (c.record (.ok p)).asm = c.asm := rfl

@[simp] theorem Ctl.recordError_sampleBo (c : Ctl) (k : ErrKind) (st : Stage) (a x : Nat) :
    (c.record (.error k st a x)).sampleBo = c.sampleBo := rfl
@[simp] theorem Ctl.recordError_busy (c : Ctl) (k : ErrKind) (st : Stage) (a x : Nat) :
    (c.record (.error k st a x)).busy = c.busy := rfl
@[simp] theorem Ctl.recordError_done (c : Ctl) (k : ErrKind) (st : Stage) (a x : Nat) :
    (c.record (.error k st a x)).done = c.done := rfl
@[simp] theorem Ctl.recordError_phase (c : Ctl) (k : ErrKind) (st : Stage) (a x : Nat) :
    (c.record (.error k st a x)).phase = .error := rfl
@[simp] theorem Ctl.recordError_err (c : Ctl) (k : ErrKind) (st : Stage) (a x : Nat) :
    (c.record (.error k st a x)).err = some k := rfl
@[simp] theorem Ctl.recordError_stickyErr (c : Ctl) (k : ErrKind) (st : Stage) (a x : Nat) :
    (c.record (.error k st a x)).stickyErr = true := rfl
@[simp] theorem Ctl.recordError_ovr (c : Ctl) (k : ErrKind) (st : Stage) (a x : Nat) :
    (c.record (.error k st a x)).ovr = c.ovr := rfl
@[simp] theorem Ctl.recordError_errStage (c : Ctl) (k : ErrKind) (st : Stage) (a x : Nat) :
    (c.record (.error k st a x)).errStage = some st := rfl
@[simp] theorem Ctl.recordError_errActual (c : Ctl) (k : ErrKind) (st : Stage) (a x : Nat) :
    (c.record (.error k st a x)).errActual = BitVec.ofNat 32 a := rfl
@[simp] theorem Ctl.recordError_errExpected (c : Ctl) (k : ErrKind) (st : Stage) (a x : Nat) :
    (c.record (.error k st a x)).errExpected = BitVec.ofNat 32 x := rfl
@[simp] theorem Ctl.recordError_ioCount (c : Ctl) (k : ErrKind) (st : Stage) (a x : Nat) :
    (c.record (.error k st a x)).ioCount = c.ioCount := rfl
@[simp] theorem Ctl.recordError_sampleCount (c : Ctl) (k : ErrKind) (st : Stage) (a x : Nat) :
    (c.record (.error k st a x)).sampleCount = c.sampleCount := rfl
@[simp] theorem Ctl.recordError_asm (c : Ctl) (k : ErrKind) (st : Stage) (a x : Nat) :
    (c.record (.error k st a x)).asm = c.asm := rfl

/-! What recording either outcome leaves alone. -/

@[simp] theorem Ctl.record_sampleBo (c : Ctl) (e : Ending) :
    (c.record e).sampleBo = c.sampleBo := by cases e <;> rfl
@[simp] theorem Ctl.record_busy (c : Ctl) (e : Ending) :
    (c.record e).busy = c.busy := by cases e <;> rfl
@[simp] theorem Ctl.record_done (c : Ctl) (e : Ending) :
    (c.record e).done = c.done := by cases e <;> rfl
@[simp] theorem Ctl.record_ovr (c : Ctl) (e : Ending) :
    (c.record e).ovr = c.ovr := by cases e <;> rfl
@[simp] theorem Ctl.record_ioCount (c : Ctl) (e : Ending) :
    (c.record e).ioCount = c.ioCount := by cases e <;> rfl
@[simp] theorem Ctl.record_sampleCount (c : Ctl) (e : Ending) :
    (c.record e).sampleCount = c.sampleCount := by cases e <;> rfl
@[simp] theorem Ctl.record_asm (c : Ctl) (e : Ending) :
    (c.record e).asm = c.asm := by cases e <;> rfl

/-! ### The streams -/

@[simp] theorem InStream.attach_ready (s : InStream) (b : List Byte) (t : Option Term) :
    (s.attach b t).ready = b := rfl
@[simp] theorem InStream.attach_term (s : InStream) (b : List Byte) (t : Option Term) :
    (s.attach b t).term = t := rfl
@[simp] theorem InStream.attach_taken (s : InStream) (b : List Byte) (t : Option Term) :
    (s.attach b t).taken = [] := rfl
@[simp] theorem InStream.attach_past (s : InStream) (b : List Byte) (t : Option Term) :
    (s.attach b t).past = s.past ++ [s.taken] := rfl

@[simp] theorem OutSink.attach_answers (s : OutSink) (a : List Answer) : (s.attach a).answers = a := rfl
@[simp] theorem OutSink.attach_bytes (s : OutSink) (a : List Answer) : (s.attach a).bytes = [] := rfl
@[simp] theorem OutSink.attach_past (s : OutSink) (a : List Answer) :
    (s.attach a).past = s.past ++ [s.bytes] := rfl

@[simp] theorem SampleSource.attach_ready (s : SampleSource) (w : List Word) :
    (s.attach w).ready = w := rfl
@[simp] theorem SampleSource.attach_taken (s : SampleSource) (w : List Word) :
    (s.attach w).taken = [] := rfl
@[simp] theorem SampleSource.attach_past (s : SampleSource) (w : List Word) :
    (s.attach w).past = s.past ++ [s.taken] := rfl

@[simp] theorem SampleSink.attach_room (s : SampleSink) (n : Nat) : (s.attach n).room = n := rfl
@[simp] theorem SampleSink.attach_words (s : SampleSink) (n : Nat) : (s.attach n).words = [] := rfl
@[simp] theorem SampleSink.attach_removed (s : SampleSink) (n : Nat) : (s.attach n).removed = [] := rfl
@[simp] theorem SampleSink.attach_past (s : SampleSink) (n : Nat) :
    (s.attach n).past = s.past ++ [s.removed ++ s.words] := rfl

@[simp] theorem SampleSink.remove_room (s : SampleSink) (n : Nat) : (s.remove n).room = s.room := rfl
@[simp] theorem SampleSink.remove_words (s : SampleSink) (n : Nat) :
    (s.remove n).words = s.words.drop n := rfl
@[simp] theorem SampleSink.remove_removed (s : SampleSink) (n : Nat) :
    (s.remove n).removed = s.removed ++ s.words.take n := rfl
@[simp] theorem SampleSink.remove_past (s : SampleSink) (n : Nat) : (s.remove n).past = s.past := rfl

/-! ### DecUnit -/

@[simp] theorem DecUnit.goto_ctl (u : DecUnit) (r : DecRun) (p : DecPos) :
    (u.goto r p).ctl = u.ctl := rfl
@[simp] theorem DecUnit.goto_hdr (u : DecUnit) (r : DecRun) (p : DecPos) :
    (u.goto r p).hdr = u.hdr := rfl
@[simp] theorem DecUnit.goto_hdrValid (u : DecUnit) (r : DecRun) (p : DecPos) :
    (u.goto r p).hdrValid = u.hdrValid := rfl
@[simp] theorem DecUnit.goto_run (u : DecUnit) (r : DecRun) (p : DecPos) :
    (u.goto r p).run = some { r with pos := p } := rfl
@[simp] theorem DecUnit.goto_inp (u : DecUnit) (r : DecRun) (p : DecPos) :
    (u.goto r p).inp = u.inp := rfl
@[simp] theorem DecUnit.goto_sout (u : DecUnit) (r : DecRun) (p : DecPos) :
    (u.goto r p).sout = u.sout := rfl

@[simp] theorem DecUnit.fail_ctl (u : DecUnit) (r : DecRun) (k : ErrKind) (st : Stage) (a x : Nat) :
    (u.fail r k st a x).ctl = u.ctl := rfl
@[simp] theorem DecUnit.fail_hdr (u : DecUnit) (r : DecRun) (k : ErrKind) (st : Stage) (a x : Nat) :
    (u.fail r k st a x).hdr = u.hdr := rfl
@[simp] theorem DecUnit.fail_hdrValid (u : DecUnit) (r : DecRun) (k : ErrKind) (st : Stage) (a x : Nat) :
    (u.fail r k st a x).hdrValid = u.hdrValid := rfl
@[simp] theorem DecUnit.fail_run (u : DecUnit) (r : DecRun) (k : ErrKind) (st : Stage) (a x : Nat) :
    (u.fail r k st a x).run = some { r with pos := .ending (.error k st a x) } := rfl
@[simp] theorem DecUnit.fail_inp (u : DecUnit) (r : DecRun) (k : ErrKind) (st : Stage) (a x : Nat) :
    (u.fail r k st a x).inp = u.inp := rfl
@[simp] theorem DecUnit.fail_sout (u : DecUnit) (r : DecRun) (k : ErrKind) (st : Stage) (a x : Nat) :
    (u.fail r k st a x).sout = u.sout := rfl

@[simp] theorem DecUnit.setPhase_ctl (u : DecUnit) (p : Phase) :
    (u.setPhase p).ctl = u.ctl.setPhase p := rfl
@[simp] theorem DecUnit.setPhase_hdr (u : DecUnit) (p : Phase) : (u.setPhase p).hdr = u.hdr := rfl
@[simp] theorem DecUnit.setPhase_hdrValid (u : DecUnit) (p : Phase) :
    (u.setPhase p).hdrValid = u.hdrValid := rfl
@[simp] theorem DecUnit.setPhase_run (u : DecUnit) (p : Phase) : (u.setPhase p).run = u.run := rfl
@[simp] theorem DecUnit.setPhase_inp (u : DecUnit) (p : Phase) : (u.setPhase p).inp = u.inp := rfl
@[simp] theorem DecUnit.setPhase_sout (u : DecUnit) (p : Phase) :
    (u.setPhase p).sout = u.sout := rfl

@[simp] theorem DecUnit.resetUnit_ctl (u : DecUnit) : (u.resetUnit).ctl = Ctl.reset := rfl
@[simp] theorem DecUnit.resetUnit_hdr (u : DecUnit) : (u.resetUnit).hdr = DecHeader.zero := rfl
@[simp] theorem DecUnit.resetUnit_hdrValid (u : DecUnit) : (u.resetUnit).hdrValid = false := rfl
@[simp] theorem DecUnit.resetUnit_run (u : DecUnit) : (u.resetUnit).run = none := rfl
@[simp] theorem DecUnit.resetUnit_inp (u : DecUnit) : (u.resetUnit).inp = u.inp := rfl
@[simp] theorem DecUnit.resetUnit_sout (u : DecUnit) : (u.resetUnit).sout = u.sout := rfl

@[simp] theorem DecUnit.addRoom_ctl (u : DecUnit) (n : Nat) : (u.addRoom n).ctl = u.ctl := rfl
@[simp] theorem DecUnit.addRoom_hdr (u : DecUnit) (n : Nat) : (u.addRoom n).hdr = u.hdr := rfl
@[simp] theorem DecUnit.addRoom_hdrValid (u : DecUnit) (n : Nat) : (u.addRoom n).hdrValid = u.hdrValid := rfl
@[simp] theorem DecUnit.addRoom_run (u : DecUnit) (n : Nat) : (u.addRoom n).run = u.run := rfl
@[simp] theorem DecUnit.addRoom_inp (u : DecUnit) (n : Nat) : (u.addRoom n).inp = u.inp := rfl
@[simp] theorem DecUnit.addRoom_sout (u : DecUnit) (n : Nat) :
    (u.addRoom n).sout = { u.sout with room := u.sout.room + n } := rfl

/-! ### EncUnit -/

@[simp] theorem EncUnit.goto_ctl (u : EncUnit) (bo : ByteOrder) (p : EncPos) :
    (u.goto bo p).ctl = u.ctl := rfl
@[simp] theorem EncUnit.goto_fmt (u : EncUnit) (bo : ByteOrder) (p : EncPos) :
    (u.goto bo p).fmt = u.fmt := rfl
@[simp] theorem EncUnit.goto_riffSize (u : EncUnit) (bo : ByteOrder) (p : EncPos) :
    (u.goto bo p).riffSize = u.riffSize := rfl
@[simp] theorem EncUnit.goto_dataSize (u : EncUnit) (bo : ByteOrder) (p : EncPos) :
    (u.goto bo p).dataSize = u.dataSize := rfl
@[simp] theorem EncUnit.goto_run (u : EncUnit) (bo : ByteOrder) (p : EncPos) :
    (u.goto bo p).run = some ⟨bo, p⟩ := rfl
@[simp] theorem EncUnit.goto_out (u : EncUnit) (bo : ByteOrder) (p : EncPos) :
    (u.goto bo p).out = u.out := rfl
@[simp] theorem EncUnit.goto_sin (u : EncUnit) (bo : ByteOrder) (p : EncPos) :
    (u.goto bo p).sin = u.sin := rfl

@[simp] theorem EncUnit.fail_ctl (u : EncUnit) (bo : ByteOrder) (k : ErrKind) (st : Stage) (a x : Nat) :
    (u.fail bo k st a x).ctl = u.ctl := rfl
@[simp] theorem EncUnit.fail_fmt (u : EncUnit) (bo : ByteOrder) (k : ErrKind) (st : Stage) (a x : Nat) :
    (u.fail bo k st a x).fmt = u.fmt := rfl
@[simp] theorem EncUnit.fail_riffSize (u : EncUnit) (bo : ByteOrder) (k : ErrKind) (st : Stage) (a x : Nat) :
    (u.fail bo k st a x).riffSize = u.riffSize := rfl
@[simp] theorem EncUnit.fail_dataSize (u : EncUnit) (bo : ByteOrder) (k : ErrKind) (st : Stage) (a x : Nat) :
    (u.fail bo k st a x).dataSize = u.dataSize := rfl
@[simp] theorem EncUnit.fail_run (u : EncUnit) (bo : ByteOrder) (k : ErrKind) (st : Stage) (a x : Nat) :
    (u.fail bo k st a x).run = some ⟨bo, .ending (.error k st a x)⟩ := rfl
@[simp] theorem EncUnit.fail_out (u : EncUnit) (bo : ByteOrder) (k : ErrKind) (st : Stage) (a x : Nat) :
    (u.fail bo k st a x).out = u.out := rfl
@[simp] theorem EncUnit.fail_sin (u : EncUnit) (bo : ByteOrder) (k : ErrKind) (st : Stage) (a x : Nat) :
    (u.fail bo k st a x).sin = u.sin := rfl

@[simp] theorem EncUnit.setPhase_ctl (u : EncUnit) (p : Phase) :
    (u.setPhase p).ctl = u.ctl.setPhase p := rfl
@[simp] theorem EncUnit.setPhase_fmt (u : EncUnit) (p : Phase) : (u.setPhase p).fmt = u.fmt := rfl
@[simp] theorem EncUnit.setPhase_riffSize (u : EncUnit) (p : Phase) :
    (u.setPhase p).riffSize = u.riffSize := rfl
@[simp] theorem EncUnit.setPhase_dataSize (u : EncUnit) (p : Phase) :
    (u.setPhase p).dataSize = u.dataSize := rfl
@[simp] theorem EncUnit.setPhase_run (u : EncUnit) (p : Phase) : (u.setPhase p).run = u.run := rfl
@[simp] theorem EncUnit.setPhase_out (u : EncUnit) (p : Phase) : (u.setPhase p).out = u.out := rfl
@[simp] theorem EncUnit.setPhase_sin (u : EncUnit) (p : Phase) : (u.setPhase p).sin = u.sin := rfl

@[simp] theorem EncUnit.resetUnit_ctl (u : EncUnit) : (u.resetUnit).ctl = Ctl.reset := rfl
@[simp] theorem EncUnit.resetUnit_fmt (u : EncUnit) : (u.resetUnit).fmt = EncFormat.zero := rfl
@[simp] theorem EncUnit.resetUnit_riffSize (u : EncUnit) : (u.resetUnit).riffSize = 0#32 := rfl
@[simp] theorem EncUnit.resetUnit_dataSize (u : EncUnit) : (u.resetUnit).dataSize = 0#32 := rfl
@[simp] theorem EncUnit.resetUnit_run (u : EncUnit) : (u.resetUnit).run = none := rfl
@[simp] theorem EncUnit.resetUnit_out (u : EncUnit) : (u.resetUnit).out = u.out := rfl
@[simp] theorem EncUnit.resetUnit_sin (u : EncUnit) : (u.resetUnit).sin = u.sin := rfl

@[simp] theorem EncUnit.addAnswer_ctl (u : EncUnit) (a : Answer) : (u.addAnswer a).ctl = u.ctl := rfl
@[simp] theorem EncUnit.addAnswer_fmt (u : EncUnit) (a : Answer) : (u.addAnswer a).fmt = u.fmt := rfl
@[simp] theorem EncUnit.addAnswer_riffSize (u : EncUnit) (a : Answer) : (u.addAnswer a).riffSize = u.riffSize := rfl
@[simp] theorem EncUnit.addAnswer_dataSize (u : EncUnit) (a : Answer) : (u.addAnswer a).dataSize = u.dataSize := rfl
@[simp] theorem EncUnit.addAnswer_run (u : EncUnit) (a : Answer) : (u.addAnswer a).run = u.run := rfl
@[simp] theorem EncUnit.addAnswer_sin (u : EncUnit) (a : Answer) : (u.addAnswer a).sin = u.sin := rfl
@[simp] theorem EncUnit.addAnswer_out (u : EncUnit) (a : Answer) :
    (u.addAnswer a).out = { u.out with answers := u.out.answers ++ [a] } := rfl

@[simp] theorem EncUnit.addWord_ctl (u : EncUnit) (w : Word) : (u.addWord w).ctl = u.ctl := rfl
@[simp] theorem EncUnit.addWord_fmt (u : EncUnit) (w : Word) : (u.addWord w).fmt = u.fmt := rfl
@[simp] theorem EncUnit.addWord_riffSize (u : EncUnit) (w : Word) : (u.addWord w).riffSize = u.riffSize := rfl
@[simp] theorem EncUnit.addWord_dataSize (u : EncUnit) (w : Word) : (u.addWord w).dataSize = u.dataSize := rfl
@[simp] theorem EncUnit.addWord_run (u : EncUnit) (w : Word) : (u.addWord w).run = u.run := rfl
@[simp] theorem EncUnit.addWord_out (u : EncUnit) (w : Word) : (u.addWord w).out = u.out := rfl
@[simp] theorem EncUnit.addWord_sin (u : EncUnit) (w : Word) :
    (u.addWord w).sin = { u.sin with ready := u.sin.ready ++ [w] } := rfl

/-! ### State -/

@[simp] theorem State.setDec_params (s : State) (i : Nat) (u : DecUnit) :
    (s.setDec i u).params = s.params := rfl
@[simp] theorem State.setDec_decs (s : State) (i : Nat) (u : DecUnit) :
    (s.setDec i u).decs = s.decs.set i u := rfl
@[simp] theorem State.setDec_encs (s : State) (i : Nat) (u : DecUnit) :
    (s.setDec i u).encs = s.encs := rfl
@[simp] theorem State.setDec_sel (s : State) (i : Nat) (u : DecUnit) :
    (s.setDec i u).sel = s.sel := rfl
@[simp] theorem State.setDec_pace (s : State) (i : Nat) (u : DecUnit) :
    (s.setDec i u).pace = s.pace := rfl
@[simp] theorem State.setDec_script (s : State) (i : Nat) (u : DecUnit) :
    (s.setDec i u).script = s.script := rfl
@[simp] theorem State.setDec_loop (s : State) (i : Nat) (u : DecUnit) :
    (s.setDec i u).loop = s.loop := rfl
@[simp] theorem State.setDec_rdata (s : State) (i : Nat) (u : DecUnit) :
    (s.setDec i u).rdata = s.rdata := rfl
@[simp] theorem State.setDec_draws (s : State) (i : Nat) (u : DecUnit) :
    (s.setDec i u).draws = s.draws := rfl

@[simp] theorem State.setEnc_params (s : State) (i : Nat) (u : EncUnit) :
    (s.setEnc i u).params = s.params := rfl
@[simp] theorem State.setEnc_decs (s : State) (i : Nat) (u : EncUnit) :
    (s.setEnc i u).decs = s.decs := rfl
@[simp] theorem State.setEnc_encs (s : State) (i : Nat) (u : EncUnit) :
    (s.setEnc i u).encs = s.encs.set i u := rfl
@[simp] theorem State.setEnc_sel (s : State) (i : Nat) (u : EncUnit) :
    (s.setEnc i u).sel = s.sel := rfl
@[simp] theorem State.setEnc_pace (s : State) (i : Nat) (u : EncUnit) :
    (s.setEnc i u).pace = s.pace := rfl
@[simp] theorem State.setEnc_script (s : State) (i : Nat) (u : EncUnit) :
    (s.setEnc i u).script = s.script := rfl
@[simp] theorem State.setEnc_loop (s : State) (i : Nat) (u : EncUnit) :
    (s.setEnc i u).loop = s.loop := rfl
@[simp] theorem State.setEnc_rdata (s : State) (i : Nat) (u : EncUnit) :
    (s.setEnc i u).rdata = s.rdata := rfl
@[simp] theorem State.setEnc_draws (s : State) (i : Nat) (u : EncUnit) :
    (s.setEnc i u).draws = s.draws := rfl

/-! ### Where a step ends a command, the whole of `raise` and `finish` (R246, R248) -/

@[simp] theorem Ctl.raise_eq (c : Ctl) (k : ErrKind) (st : Stage) (a x : Nat) :
    c.raise k st a x = (c.record (.error k st a x)).release := rfl

@[simp] theorem Ctl.finish_eq (c : Ctl) (p : Phase) :
    c.finish p = (c.record (.ok p)).release := rfl

end Sys2Proof.Machine
end

