-- ==== Sys2Proof/Laws/Bytes.lean ====
section
/-! SUPPORT. The byte conversions (R11): lengths, each conversion is the inverse of its own, and elements
and tags as the bit vectors they are (R142, R211, R221). -/

namespace Sys2Proof.Machine

@[simp] theorem bytesLe16_length (v : Half) : (bytesLe16 v).length = 2 := rfl
@[simp] theorem bytesBe16_length (v : Half) : (bytesBe16 v).length = 2 := rfl
@[simp] theorem bytesLe32_length (v : Word) : (bytesLe32 v).length = 4 := rfl
@[simp] theorem bytesBe32_length (v : Word) : (bytesBe32 v).length = 4 := rfl
@[simp] theorem tagRiff_length : tagRiff.length = 4 := rfl
@[simp] theorem tagWave_length : tagWave.length = 4 := rfl
@[simp] theorem tagFmt_length : tagFmt.length = 4 := rfl
@[simp] theorem tagData_length : tagData.length = 4 := rfl

@[simp] theorem elementBytes_length (kind : SampleKind) (bo : ByteOrder) (w : Word) :
    (elementBytes kind bo w).length = kind.size := by
  cases kind <;> cases bo <;> rfl

theorem SampleKind.size_pos (kind : SampleKind) : 0 < kind.size := by cases kind <;> decide

theorem SampleKind.two_le_size (kind : SampleKind) : 2 ≤ kind.size := by cases kind <;> decide

theorem byteOf_toNat (v k : Nat) : (byteOf v k).toNat = v / 2 ^ (8 * k) % 256 := by
  simp [byteOf, BitVec.toNat_ofNat]

@[simp] theorem le16_bytesLe16 (v : Half) : le16 (bytesLe16 v) = v.toNat := by
  have := v.isLt
  simp only [le16, byteAt, bytesLe16, List.getD_cons_zero, List.getD_cons_succ, byteOf_toNat]
  omega

@[simp] theorem be16_bytesBe16 (v : Half) : be16 (bytesBe16 v) = v.toNat := by
  have := v.isLt
  simp only [be16, byteAt, bytesBe16, List.getD_cons_zero, List.getD_cons_succ, byteOf_toNat]
  omega

@[simp] theorem le32_bytesLe32 (v : Word) : le32 (bytesLe32 v) = v.toNat := by
  have := v.isLt
  simp only [le32, byteAt, bytesLe32, List.getD_cons_zero, List.getD_cons_succ, byteOf_toNat]
  omega

@[simp] theorem be32_bytesBe32 (v : Word) : be32 (bytesBe32 v) = v.toNat := by
  have := v.isLt
  simp only [be32, byteAt, bytesBe32, List.getD_cons_zero, List.getD_cons_succ, byteOf_toNat]
  omega

/-- An element written by the encoder gives back, on a decoder of the same byte order, bits [15:0]
sign-extended or the whole pattern (R211, R221, R226). -/
theorem elementWord_elementBytes (kind : SampleKind) (bo : ByteOrder) (w : Word) :
    elementWord kind bo (elementBytes kind bo w) =
      match kind with
      | .int16 => (BitVec.setWidth 16 w).signExtend 32
      | .float32 => w := by
  cases kind <;> cases bo <;>
    simp [elementWord, elementBytes, int16Word, float32Word, -BitVec.toNat_setWidth]

/-- A number below 2^32 survives being a Word. -/
theorem toNat_ofNat32 (n : Nat) (h : n < 2 ^ 32) : (BitVec.ofNat 32 n).toNat = n := by
  simpa using Nat.mod_eq_of_lt h

/-! ### Elements and tags as bit vectors -/

/-- A 16-bit element by its bytes (R211). -/
theorem elementWord_int16 (bo : ByteOrder) (a b : Byte) : elementWord .int16 bo [a, b] = match bo with
    | .little => (b ++ a).signExtend 32
    | .big => (a ++ b).signExtend 32 := by
  have key (x y : Byte) : BitVec.ofNat 16 (x.toNat + 2^8 * y.toNat) = y ++ x := by
    apply BitVec.eq_of_toNat_eq
    rw [BitVec.toNat_append, Nat.shiftLeft_eq, Nat.mul_comm, ← Nat.shiftLeft_eq]
    have := x.isLt; have := y.isLt
    rw [← Nat.shiftLeft_add_eq_or_of_lt (by omega), Nat.shiftLeft_eq, BitVec.toNat_ofNat, Nat.mod_eq_of_lt (by omega)]; omega
  cases bo
  · simp only [elementWord, int16Word, le16, byteAt, List.getD_cons_zero, List.getD_cons_succ]; rw [key]
  · simp only [elementWord, int16Word, be16, byteAt, List.getD_cons_zero, List.getD_cons_succ]; rw [Nat.add_comm, key]


/-- A 32-bit element by its bytes (R221). -/
theorem elementWord_float32 (bo : ByteOrder) (a b c d : Byte) : elementWord .float32 bo [a, b, c, d] = match bo with
    | .little => d ++ c ++ b ++ a
    | .big => a ++ b ++ c ++ d := by
  have key (a b c d : Byte) (n : Nat) (hn : n = a.toNat + 2^8 * b.toNat + 2^16 * c.toNat + 2^24 * d.toNat) : BitVec.ofNat 32 n = d ++ c ++ b ++ a := by
    apply BitVec.eq_of_toNat_eq
    have := a.isLt; have := b.isLt; have := c.isLt; have := d.isLt
    simp only [BitVec.toNat_append]
    rw [← Nat.shiftLeft_add_eq_or_of_lt (by omega), ← Nat.shiftLeft_add_eq_or_of_lt (by omega), ← Nat.shiftLeft_add_eq_or_of_lt (by omega)]
    simp only [Nat.shiftLeft_eq, BitVec.toNat_ofNat]
    rw [Nat.mod_eq_of_lt (by omega)]; omega
  cases bo
  · simp only [elementWord, float32Word, le32, byteAt, List.getD_cons_zero, List.getD_cons_succ]; rw [key _ _ _ _ _ rfl]
  · simp only [elementWord, float32Word, be32, byteAt, List.getD_cons_zero, List.getD_cons_succ]; rw [key d c b a]; omega


/-- The bytes of an int16 element (R70, R142). -/
theorem elementBytes_int16 (bo : ByteOrder) (w : Word) : elementBytes .int16 bo w = match bo with
          | .little => [w.extractLsb' 0 8, w.extractLsb' 8 8]
          | .big => [w.extractLsb' 8 8, w.extractLsb' 0 8] := by
  have a : byteOf (BitVec.setWidth 16 w).toNat 0 = w.extractLsb' 0 8 := by
    apply BitVec.eq_of_toNat_eq; simp [byteOf]
  have b : byteOf (BitVec.setWidth 16 w).toNat 1 = w.extractLsb' 8 8 := by
    have := w.isLt
    apply BitVec.eq_of_toNat_eq; simp [byteOf, BitVec.extractLsb'_toNat, Nat.shiftRight_eq_div_pow]; omega
  cases bo <;> simp only [elementBytes, bytesLe16, bytesBe16, a, b]


/-- The bytes of a float32 element (R142). -/
theorem elementBytes_float32 (bo : ByteOrder) (w : Word) : elementBytes .float32 bo w = match bo with
          | .little =>
            [w.extractLsb' 0 8, w.extractLsb' 8 8, w.extractLsb' 16 8, w.extractLsb' 24 8]
          | .big =>
            [w.extractLsb' 24 8, w.extractLsb' 16 8, w.extractLsb' 8 8, w.extractLsb' 0 8] := by
  have a : byteOf w.toNat 0 = w.extractLsb' 0 8 := by
    apply BitVec.eq_of_toNat_eq; simp [byteOf]
  have b : byteOf w.toNat 1 = w.extractLsb' 8 8 := by
    apply BitVec.eq_of_toNat_eq; simp [byteOf, BitVec.extractLsb'_toNat, Nat.shiftRight_eq_div_pow]
  have c : byteOf w.toNat 2 = w.extractLsb' 16 8 := by
    apply BitVec.eq_of_toNat_eq; simp [byteOf, BitVec.extractLsb'_toNat, Nat.shiftRight_eq_div_pow]
  have d : byteOf w.toNat 3 = w.extractLsb' 24 8 := by
    apply BitVec.eq_of_toNat_eq; simp [byteOf, BitVec.extractLsb'_toNat, Nat.shiftRight_eq_div_pow]
  cases bo <;> simp only [elementBytes, bytesLe32, bytesBe32, a, b, c, d]


/-- The size of the payload of a list of samples (R140, R142). -/
theorem flatMap_elementBytes_length (kind bo) (ws : List Word) : (ws.flatMap (elementBytes kind bo)).length = ws.length * kind.size := by
  induction ws with
  | nil => simp
  | cons w ws ih => simp [ih, Nat.add_mul]; omega


/-- A tag in a register: its first byte in bits [7:0] (R11). -/
theorem ofNat_pack32 (a b c d : Byte) : BitVec.ofNat 32 (pack32 [a, b, c, d]) = d ++ c ++ b ++ a := by
  have := elementWord_float32 .little a b c d
  exact this


end Sys2Proof.Machine
end

