-- ==== Sys2Proof/Laws/Command.lean ====
section
/-! SUPPORT. The command decoder and the command port (R100 to R107, R240): which words decode, and one
lemma for each thing a CMD word can do. -/

namespace Sys2Proof

/-! ### Words -/

/-- A legal word 0 carries an opcode of the unit kind (R105 (a)). -/
theorem opcUnit_of_legal {k : UnitKind} {w : Word} (h : rejectWord0 k w = none) :
    opcUnit (opc w) = some k := by
  unfold rejectWord0 at h
  split at h
  · cases h
  · rename_i k' hk
    split at h
    · cases h
    · rename_i hne
      simp only [ne_eq, not_not] at hne
      rw [hk, hne]

/-- The opcodes of each unit kind (R104). -/
theorem opc_cases {k : UnitKind} {o : Nat} (h : opcUnit o = some k) :
    (k = .dec ∧ (o = 0x11 ∨ o = 0x12 ∨ o = 0x13)) ∨
      (k = .enc ∧ (o = 0x21 ∨ o = 0x22 ∨ o = 0x23 ∨ o = 0x24 ∨ o = 0x25)) := by
  unfold opcUnit at h
  split at h
  · cases h; exact .inl ⟨rfl, by assumption⟩
  · split at h
    · cases h; exact .inr ⟨rfl, by assumption⟩
    · cases h

/-- A list of words that decodes starts with a legal word 0 (R105). -/
theorem decodeFor_legal {k : UnitKind} {ws : List Word} {i : Instr} (h : decodeFor k ws = .ok i) :
    ∃ w0 rest, ws = w0 :: rest ∧ rejectWord0 k w0 = none := by
  unfold decodeFor at h
  split at h
  · cases h
  · rename_i w0 rest
    split at h
    · cases h
    · rename_i hr
      exact ⟨w0, rest, rfl, hr⟩

/-- What decodes on a unit is well-formed for it (R104). -/
theorem decodeFor_unitKind {k : UnitKind} {ws : List Word} {i : Instr}
    (h : decodeFor k ws = .ok i) : i.unitKind = k := by
  obtain ⟨w0, rest, rfl, hr⟩ := decodeFor_legal h
  simp only [decodeFor, hr] at h
  rcases opc_cases (opcUnit_of_legal hr) with ⟨rfl, ho⟩ | ⟨rfl, ho⟩
  · rcases ho with ho | ho | ho <;>
      (split at h <;> simp [decodeOne, decodeTwo, decodeThree, ho, opcLength] at h <;> subst h <;> rfl)
  · rcases ho with ho | ho | ho | ho | ho <;>
      (split at h <;> simp [decodeOne, decodeTwo, decodeThree, ho, opcLength] at h <;>
        (try split at h) <;> cases h <;> rfl)

namespace Machine

/-! ### The command port -/

/-- A word for a BUSY unit that collects nothing (R275). -/
theorem Ctl.takeWord_busy {c : Ctl} (hb : c.busy = true) (ha : c.asm = []) (k : UnitKind) (w : Word) :
    c.takeWord k w = ({ c with ovr := true }, none) := by
  simp [Ctl.takeWord, ha, hb]

/-- An illegal first word (R105 (a) to (c), R240). -/
theorem Ctl.takeWord_illegal {c : Ctl} (hb : c.busy = false) (ha : c.asm = []) {k : UnitKind}
    {w : Word} {r : Reject} (hr : rejectWord0 k w = some r) :
    c.takeWord k w = (c.accept.raise .illegalCommand .command w.toNat 0, none) := by
  simp [Ctl.takeWord, ha, hb, hr]

/-- The first word of a command of more than one word (R100, R240). -/
theorem Ctl.takeWord_first {c : Ctl} (hb : c.busy = false) (ha : c.asm = []) {k : UnitKind}
    {w : Word} (hr : rejectWord0 k w = none) (hl : 1 < opcLength (opc w)) :
    c.takeWord k w = ({ c.accept with asm := [w], phase := .operands }, none) := by
  simp [Ctl.takeWord, ha, hb, hr, hl]

/-- The only word of a one-word command (R240, R241). -/
theorem Ctl.takeWord_start {c : Ctl} (hb : c.busy = false) (ha : c.asm = []) {k : UnitKind}
    {w : Word} {i : Instr} (hd : decodeFor k [w] = .ok i) :
    c.takeWord k w = (c.accept, some i) := by
  obtain ⟨w0, rest, hw, hr⟩ := decodeFor_legal hd
  cases hw
  have hl : ¬ 1 < opcLength (opc w) := by
    simp only [decodeFor, hr] at hd
    rcases opc_cases (opcUnit_of_legal hr) with ⟨rfl, ho⟩ | ⟨rfl, ho⟩
    · rcases ho with ho | ho | ho <;> simp [ho, opcLength]
    · rcases ho with ho | ho | ho | ho | ho <;> simp [decodeOne, ho] at hd <;> simp [ho, opcLength]
  simp [Ctl.takeWord, ha, hb, hr, hl, hd, Except.toOption]

/-- The last operand word of a command (R240, R241). -/
theorem Ctl.takeWord_last {c : Ctl} {w0 : Word} {ops : List Word} (ha : c.asm = w0 :: ops)
    {k : UnitKind} {w : Word} {i : Instr} (hd : decodeFor k (w0 :: ops ++ [w]) = .ok i) :
    c.takeWord k w = ({ c with asm := [] }, some i) := by
  simp only [Ctl.takeWord, ha, hd]

/-- An illegal word 2 (R105 (d), R240). -/
theorem Ctl.takeWord_word2 {c : Ctl} {w0 : Word} {ops : List Word} (ha : c.asm = w0 :: ops)
    {k : UnitKind} {w : Word} (hd : decodeFor k (w0 :: ops ++ [w]) = .error .word2High) :
    c.takeWord k w = (c.raise .illegalCommand .command w.toNat 2, none) := by
  simp only [Ctl.takeWord, ha, hd]

/-- An operand word that is not the last (R100, R240). -/
theorem Ctl.takeWord_operand {c : Ctl} {w0 : Word} {ops : List Word} (ha : c.asm = w0 :: ops)
    {k : UnitKind} {w : Word} {e : Reject} (hd : decodeFor k (w0 :: ops ++ [w]) = .error e)
    (he : e ≠ .word2High) :
    c.takeWord k w = ({ c with asm := w0 :: ops ++ [w] }, none) := by
  simp only [Ctl.takeWord, ha, hd]

/-- A command that a CMD word starts is one of its unit kind (R104). -/
theorem Ctl.takeWord_unitKind {k w} {c : Ctl} {i} (h : (c.takeWord k w).2 = some i) : i.unitKind = k := by
  unfold Ctl.takeWord at h
  split at h
  · split at h
    · cases h
    · split at h
      · cases h
      · split at h
        · cases h
        · cases hd : decodeFor k [w] with
          | error e => rw [hd] at h; cases h
          | ok j => rw [hd] at h; cases h; exact decodeFor_unitKind hd
  · rename_i w0 ops _
    cases hd : decodeFor k (w0 :: ops ++ [w]) with
    | error e => rw [hd] at h; cases e <;> cases h
    | ok j => rw [hd] at h; cases h; exact decodeFor_unitKind hd

/-- A CMD word that starts nothing changes its unit's registers only (R240). -/
theorem State.cmdDec_of_none {s : State} {d : Nat} {u : DecUnit} {w : Word} {c : Ctl}
    (h : u.ctl.takeWord .dec w = (c, none)) :
    s.cmdDec d u w = .next { s.setDec d { u with ctl := c } with sel := d } := by
  simp [State.cmdDec, h]

/-- A CMD word that completes a command runs it (R241). -/
theorem State.cmdDec_of_some {s : State} {d : Nat} {u : DecUnit} {w : Word} {c : Ctl} {i : Instr}
    (h : u.ctl.takeWord .dec w = (c, some i)) :
    s.cmdDec d u w = exec i { s.setDec d { u with ctl := c } with sel := d } := by
  simp [State.cmdDec, h]

/-- A CMD word that starts nothing changes its unit's registers only (R240). -/
theorem State.cmdEnc_of_none {s : State} {e : Nat} {u : EncUnit} {w : Word} {c : Ctl}
    (h : u.ctl.takeWord .enc w = (c, none)) :
    s.cmdEnc e u w = .next { s.setEnc e { u with ctl := c } with sel := e } := by
  simp [State.cmdEnc, h]

/-- A CMD word that completes a command runs it (R241). -/
theorem State.cmdEnc_of_some {s : State} {e : Nat} {u : EncUnit} {w : Word} {c : Ctl} {i : Instr}
    (h : u.ctl.takeWord .enc w = (c, some i)) :
    s.cmdEnc e u w = exec i { s.setEnc e { u with ctl := c } with sel := e } := by
  simp [State.cmdEnc, h]

/-- A decode command runs on the selected decoder. -/
theorem exec_of_dec {i : Instr} (h : i.unitKind = .dec) (s : State) :
    ∃ cmd, exec i s = s.startDec cmd := by
  cases i <;> first | exact ⟨_, rfl⟩ | cases h

/-- An encoder command runs on the selected encoder. -/
theorem exec_of_enc {i : Instr} (h : i.unitKind = .enc) (s : State) :
    ∃ job, exec i s = s.startEnc job := by
  cases i <;> first | exact ⟨_, rfl⟩ | cases h

end Machine

end Sys2Proof
end

