-- ==== Sys2Proof/Laws/Decoder.lean ====
section
/-! SUPPORT. The decoder's runs: every step lowers the work left, so a turn with no pace ends where the
unit ends or waits; and what a read, a skip and an append do as wholes (R67, R68, R71). -/

namespace Sys2Proof.Machine

/-! ### Runs of single steps -/

/-- `v` is reached from `u` by single steps. -/
inductive DecUnit.Steps : DecUnit → DecUnit → Prop where
  | refl (u : DecUnit) : DecUnit.Steps u u
  | head {u v w : DecUnit} : u.advance = some v → DecUnit.Steps v w → DecUnit.Steps u w

theorem DecUnit.Steps.trans {u v w : DecUnit} (h : u.Steps v) (k : v.Steps w) : u.Steps w := by
  induction h with
  | refl => exact k
  | head a _ ih => exact .head a (ih k)

theorem DecUnit.Steps.single {u v : DecUnit} (h : u.advance = some v) : u.Steps v :=
  .head h (.refl v)

theorem DecUnit.runFor_zero (u : DecUnit) : u.runFor 0 = u := rfl

theorem DecUnit.runFor_of_none {u : DecUnit} (h : u.advance = none) (n : Nat) :
    u.runFor n = u := by
  cases n with
  | zero => rfl
  | succ n => simp [DecUnit.runFor, h]

theorem DecUnit.runFor_of_some {u v : DecUnit} (h : u.advance = some v) (n : Nat) :
    u.runFor (n + 1) = v.runFor n := by
  simp [DecUnit.runFor, h]

/-- Every turn is a run of single steps. -/
theorem DecUnit.runFor_steps (n : Nat) (u : DecUnit) : u.Steps (u.runFor n) := by
  induction n generalizing u with
  | zero => exact .refl u
  | succ n ih =>
    cases h : u.advance with
    | none => rw [DecUnit.runFor_of_none h]; exact .refl u
    | some v => rw [DecUnit.runFor_of_some h]; exact .head h (ih v)

/-! ### Work -/

theorem DecUnit.work_goto (u : DecUnit) (r : DecRun) (p : DecPos) :
    (u.goto r p).work = 2 * u.inp.ready.length + p.work := rfl

theorem DecUnit.work_fail (u : DecUnit) (r : DecRun) (k : ErrKind) (st : Stage) (a x : Nat) :
    (u.fail r k st a x).work = 2 * u.inp.ready.length + 2 := rfl

theorem DecUnit.startSkip_work_le (u : DecUnit) (r : DecRun) (k : DecSkip) (n : Nat) :
    (u.startSkip r k n).work ≤ 2 * u.inp.ready.length + 5 := by
  unfold DecUnit.startSkip
  split
  · cases k <;> simp [DecUnit.afterSkip, DecUnit.work_goto, DecPos.work]
  · simp [DecUnit.work_goto, DecPos.work]

theorem DecUnit.nextElement_work_le (u : DecUnit) (r : DecRun) (kind : SampleKind) (left : Nat) :
    (u.nextElement r kind left).work ≤ 2 * u.inp.ready.length + 4 := by
  unfold DecUnit.nextElement
  split
  · simp [DecUnit.work_goto, DecPos.work]
  · split <;> simp [DecUnit.work_goto, DecPos.work]

theorem DecUnit.afterRead_work_le (u : DecUnit) (r : DecRun) (what : DecRead) (b : List Byte) :
    (u.afterRead r what b).work ≤ 2 * u.inp.ready.length + 5 := by
  cases what <;> simp only [DecUnit.afterRead]
  case riff =>
    simp only [DecUnit.afterRiff]
    split
    · simp [DecUnit.work_fail]
    · split <;> simp [DecUnit.work_fail, DecUnit.work_goto, DecPos.work]
  case fmtTag =>
    simp only [DecUnit.afterFmtTag]
    split <;> simp [DecUnit.work_fail, DecUnit.work_goto, DecPos.work]
  case fmtRecord =>
    simp only [DecUnit.afterFmtRecord]
    split
    · simp [DecUnit.work_fail]
    · split <;> simp [DecUnit.work_goto, DecPos.work]
  case extraSize => exact DecUnit.startSkip_work_le _ _ _ _
  case chunkHeader =>
    simp only [DecUnit.afterChunkHeader]
    split
    · simp [DecUnit.work_goto, DecPos.work]
    · exact DecUnit.startSkip_work_le _ _ _ _
  case element kind left =>
    simp only [DecUnit.afterElement]
    split <;> simp [DecUnit.work_fail, DecUnit.work_goto, DecPos.work]
  case residual kind => simp [DecUnit.work_fail]

/-- What the next event of IN is, and what is left of the stream (R66, R72). -/
theorem InStream.next_cases {s t : InStream} {e : InEvent} (h : s.next = some (e, t)) :
    (∃ b bs, e = .byte b ∧ s.ready = b :: bs ∧
      t = { s with ready := bs, taken := s.taken ++ [b] }) ∨
    (∃ k, e = .stop k ∧ s.ready = [] ∧ s.term = some k ∧ t = s) := by
  obtain ⟨ready, term, taken, past⟩ := s
  cases ready with
  | cons b bs =>
    simp only [InStream.next, Option.some.injEq, Prod.mk.injEq] at h
    exact .inl ⟨b, bs, h.1.symm, rfl, h.2.symm⟩
  | nil =>
    cases term with
    | none => simp [InStream.next] at h
    | some k =>
      simp only [InStream.next, Option.some.injEq, Prod.mk.injEq] at h
      exact .inr ⟨k, h.1.symm, rfl, rfl, h.2.symm⟩

/-- Everything one step of a running decoder can do. -/
inductive DecUnit.Step (u : DecUnit) (r : DecRun) : DecUnit → Prop where
  | readByte {what : DecRead} {need : Nat} {got : List Byte} {b : Byte} {bs : List Byte}
      (pos : r.pos = .reading what need got) (ready : u.inp.ready = b :: bs)
      (more : got.length + 1 < need) :
      DecUnit.Step u r ((u.consume 1).goto r (.reading what need (got ++ [b])))
  | readLast {what : DecRead} {need : Nat} {got : List Byte} {b : Byte} {bs : List Byte}
      (pos : r.pos = .reading what need got) (ready : u.inp.ready = b :: bs)
      (last : ¬ got.length + 1 < need) :
      DecUnit.Step u r ((u.consume 1).afterRead r what (got ++ [b]))
  | readStop {what : DecRead} {need : Nat} {got : List Byte} {t : Term}
      (pos : r.pos = .reading what need got) (ready : u.inp.ready = []) (term : u.inp.term = some t) :
      DecUnit.Step u r (u.fail r t.errKind what.stage got.length need)
  | skipByte {what : DecSkip} {need got : Nat} {b : Byte} {bs : List Byte}
      (pos : r.pos = .skipping what need got) (ready : u.inp.ready = b :: bs)
      (more : got + 1 < need) :
      DecUnit.Step u r ((u.consume 1).goto r (.skipping what need (got + 1)))
  | skipLast {what : DecSkip} {need got : Nat} {b : Byte} {bs : List Byte}
      (pos : r.pos = .skipping what need got) (ready : u.inp.ready = b :: bs)
      (last : ¬ got + 1 < need) :
      DecUnit.Step u r ((u.consume 1).afterSkip r what)
  | skipStop {what : DecSkip} {need got : Nat} {t : Term}
      (pos : r.pos = .skipping what need got) (ready : u.inp.ready = [])
      (term : u.inp.term = some t) :
      DecUnit.Step u r (u.fail r t.errKind what.stage got need)
  | scan (pos : r.pos = .scanning) :
      DecUnit.Step u r ((u.setPhase .chunkScanning).goto r (.reading .chunkHeader 8 []))
  | parse (pos : r.pos = .parsed) : DecUnit.Step u r (u.afterParse r)
  | append {kind : SampleKind} {w : Word} {left : Nat} (pos : r.pos = .appending kind w left)
      (room : 0 < u.sout.room) : DecUnit.Step u r ((u.emit [w]).nextElement r kind left)
  | record {e : Ending} (pos : r.pos = .ending e) :
      DecUnit.Step u r ({ u with ctl := u.ctl.record e }.goto r .releasing)
  | release (pos : r.pos = .releasing) :
      DecUnit.Step u r { u with run := none, ctl := u.ctl.release }

theorem DecUnit.consume_one (u : DecUnit) {b : Byte} {bs : List Byte} (h : u.inp.ready = b :: bs) :
    u.consume 1 =
      { u with
        inp := { u.inp with ready := bs, taken := u.inp.taken ++ [b] }
        ctl := u.ctl.countByte } := by
  simp [DecUnit.consume, h, Ctl.countByte]

/-- A step of a decoder is one of the steps above. -/
theorem DecUnit.advance_step {u v : DecUnit} (h : u.advance = some v) :
    ∃ r, u.run = some r ∧ u.Step r v := by
  unfold DecUnit.advance at h
  split at h
  · cases h
  rename_i r hr
  refine ⟨r, hr, ?_⟩
  split at h
  case h_1 what need got hp =>
    unfold DecUnit.stepRead at h
    split at h
    · cases h
    · rename_i b inp hn
      obtain ⟨b', bs, he, hb, rfl⟩ | ⟨k, he, -⟩ := InStream.next_cases hn
      · cases he
        split at h <;> rename_i hlt <;> cases h <;> rw [← DecUnit.consume_one u hb]
        · exact .readByte hp hb hlt
        · exact .readLast hp hb hlt
      · cases he
    · rename_i t inp hn
      obtain ⟨b', bs, he, -⟩ | ⟨k, he, hb, ht, rfl⟩ := InStream.next_cases hn
      · cases he
      · cases he; cases h; exact .readStop hp hb ht
  case h_2 what need got hp =>
    unfold DecUnit.stepSkip at h
    split at h
    · cases h
    · rename_i b inp hn
      obtain ⟨b', bs, he, hb, rfl⟩ | ⟨k, he, -⟩ := InStream.next_cases hn
      · cases he
        split at h <;> rename_i hlt <;> cases h <;> rw [← DecUnit.consume_one u hb]
        · exact .skipByte hp hb hlt
        · exact .skipLast hp hb hlt
      · cases he
    · rename_i t inp hn
      obtain ⟨b', bs, he, -⟩ | ⟨k, he, hb, ht, rfl⟩ := InStream.next_cases hn
      · cases he
      · cases he; cases h; exact .skipStop hp hb ht
  case h_3 hp => cases h; exact .scan hp
  case h_4 hp => cases h; exact .parse hp
  case h_5 kind w left hp =>
    unfold DecUnit.stepAppend SampleSink.append at h
    cases hroom : u.sout.room with
    | zero => simp [hroom] at h
    | succ n =>
      simp only [hroom, Option.some.injEq] at h
      have := DecUnit.Step.append (u := u) hp (by omega)
      simpa [DecUnit.emit, hroom, ← h, Ctl.countSample] using this
  case h_6 e hp => cases h; exact .record hp
  case h_7 hp => cases h; exact .release hp

/-- Every step lowers the work left. -/
theorem DecUnit.advance_work_lt {u v : DecUnit} (h : u.advance = some v) : v.work < u.work := by
  obtain ⟨r, hr, hs⟩ := DecUnit.advance_step h
  have hw : u.work = 2 * u.inp.ready.length + r.pos.work := by simp [DecUnit.work, hr]
  cases hs with
  | readByte hp hb => simp [hw, hp, DecUnit.work_goto, DecUnit.consume, hb, DecPos.work]
  | @readLast what need got b bs hp hb =>
    have := DecUnit.afterRead_work_le (u.consume 1) r what (got ++ [b])
    simp only [DecUnit.consume, hb, List.drop_succ_cons, List.drop_zero] at this
    simp only [hw, hp, hb, DecPos.work, List.length_cons, DecUnit.consume, List.drop_succ_cons,
      List.drop_zero]
    omega
  | readStop hp hb => simp [hw, hp, hb, DecUnit.work_fail, DecPos.work]
  | skipByte hp hb => simp [hw, hp, DecUnit.work_goto, DecUnit.consume, hb, DecPos.work]
  | @skipLast what need got b bs hp hb =>
    cases what <;>
      simp [hw, hp, DecUnit.afterSkip, DecUnit.work_goto, DecUnit.consume, hb, DecPos.work]
    omega
  | skipStop hp hb => simp [hw, hp, hb, DecUnit.work_fail, DecPos.work]
  | scan hp => simp [hw, hp, DecUnit.work_goto, DecPos.work]
  | parse hp =>
    simp only [DecUnit.afterParse]
    split
    · simp [hw, hp, DecUnit.work_goto, DecPos.work]
    · split
      · simp [hw, hp, DecUnit.work_fail, DecPos.work]
      · rename_i kind _ _
        have := DecUnit.nextElement_work_le (u.setPhase .samplesDecoding) r kind
          (u.hdr.dataSize.toNat / kind.size)
        simp only [hw, hp, DecPos.work, DecUnit.setPhase_inp] at *
        omega
  | @append kind w left hp =>
    have := DecUnit.nextElement_work_le (u.emit [w]) r kind left
    simp only [hw, hp, DecPos.work, DecUnit.emit] at *
    omega
  | record hp => simp [hw, hp, DecUnit.work_goto, DecPos.work]
  | release hp =>
    rw [hw, hp]
    simp only [DecUnit.work, DecPos.work]
    omega

/-- A turn of a unit that reaches a unit which can take no more steps ends there, if it is long enough:
the work left at its start is (R283). -/
theorem DecUnit.Steps.runFor_eq {u v : DecUnit} (h : u.Steps v) (hv : v.advance = none) {n : Nat}
    (hn : u.work ≤ n) : u.runFor n = v := by
  induction h generalizing n with
  | refl => exact DecUnit.runFor_of_none hv n
  | @head a b c hab hbc ih =>
    have := DecUnit.advance_work_lt hab
    obtain ⟨m, rfl⟩ : ∃ m, n = m + 1 := ⟨n - 1, by omega⟩
    rw [DecUnit.runFor_of_some hab]
    exact ih hv (by omega)

/-- After a turn as long as its work, a unit can take no more steps. -/
theorem DecUnit.runFor_work_quiet (u : DecUnit) {n : Nat} (hn : u.work ≤ n) :
    (u.runFor n).advance = none := by
  induction n generalizing u with
  | zero =>
    cases h : u.advance with
    | none => simpa [DecUnit.runFor_zero] using h
    | some v => have := DecUnit.advance_work_lt h; omega
  | succ n ih =>
    cases h : u.advance with
    | none => rw [DecUnit.runFor_of_none h]; exact h
    | some v =>
      have := DecUnit.advance_work_lt h
      rw [DecUnit.runFor_of_some h]
      exact ih v (by omega)

/-! ### Reads, skips and appends as wholes -/

theorem DecUnit.consume_consume (u : DecUnit) (m n : Nat) :
    (u.consume m).consume n = u.consume (m + n) := by
  simp [DecUnit.consume, List.drop_drop, List.take_add, BitVec.ofNat_add, BitVec.add_assoc]

/-- What is left of IN after its first bytes are consumed. -/
theorem DecUnit.consume_ready (u : DecUnit) {bs rest : List Byte} (h : u.inp.ready = bs ++ rest) :
    (u.consume bs.length).inp.ready = rest := by
  simp [DecUnit.consume, h]

theorem DecUnit.consume_zero (u : DecUnit) : u.consume 0 = u := by
  simp [DecUnit.consume]

theorem DecUnit.goto_consume (u : DecUnit) (r : DecRun) (p : DecPos) (n : Nat) :
    (u.consume n).goto r p = (u.goto r p).consume n := rfl

/-- Only the command and the sampled byte order of a run matter to what comes after it. -/
theorem DecUnit.afterRead_pos (u : DecUnit) (r : DecRun) (p : DecPos) (what : DecRead)
    (b : List Byte) : u.afterRead { r with pos := p } what b = u.afterRead r what b := by
  cases what <;> rfl

theorem DecUnit.afterSkip_pos (u : DecUnit) (r : DecRun) (p : DecPos) (what : DecSkip) :
    u.afterSkip { r with pos := p } what = u.afterSkip r what := by
  cases what <;> rfl

theorem DecUnit.nextElement_pos (u : DecUnit) (r : DecRun) (p : DecPos) (kind : SampleKind)
    (left : Nat) : u.nextElement { r with pos := p } kind left = u.nextElement r kind left := by
  cases left <;> rfl

theorem DecUnit.afterParse_pos (u : DecUnit) (r : DecRun) (p : DecPos) :
    u.afterParse { r with pos := p } = u.afterParse r := by
  obtain ⟨cmd, bo, q⟩ := r
  cases cmd <;> simp [DecUnit.afterParse, DecUnit.fail, DecUnit.goto, DecUnit.nextElement]

/-- A read gets the bytes there are and stays inside itself while it needs more (R67). -/
theorem DecUnit.steps_read_part (u : DecUnit) (r : DecRun) (what : DecRead) (need : Nat)
    (bs rest got : List Byte) (hb : u.inp.ready = bs ++ rest) (hn : got.length + bs.length < need) :
    (u.goto r (.reading what need got)).Steps
      ((u.consume bs.length).goto r (.reading what need (got ++ bs))) := by
  induction bs generalizing u got with
  | nil => rw [List.append_nil, List.length_nil, DecUnit.consume_zero]; exact .refl _
  | cons b bs ih =>
    have hr : u.inp.ready = b :: (bs ++ rest) := by simpa using hb
    have hlt : got.length + 1 < need := by simp at hn; omega
    have step : (u.goto r (.reading what need got)).advance =
        some ((u.consume 1).goto r (.reading what need (got ++ [b]))) := by
      simp [DecUnit.advance, DecUnit.goto, DecUnit.stepRead, InStream.next, hr, hlt,
        DecUnit.consume, Ctl.countByte]
    have := ih (u.consume 1) (got ++ [b]) (by simp [DecUnit.consume, hr]) (by simp at hn ⊢; omega)
    refine .head step ?_
    rw [DecUnit.consume_consume] at this
    simpa [Nat.add_comm] using this

/-- A read whose bytes are all there completes (R67). -/
theorem DecUnit.steps_read (u : DecUnit) (r : DecRun) (what : DecRead) (need : Nat)
    (bs rest got : List Byte) (hb : u.inp.ready = bs ++ rest) (h0 : bs ≠ [])
    (hn : got.length + bs.length = need) :
    (u.goto r (.reading what need got)).Steps ((u.consume bs.length).afterRead r what (got ++ bs)) := by
  obtain ⟨cs, b, rfl⟩ := List.eq_nil_or_concat' bs |>.resolve_left h0
  rw [List.append_assoc] at hb
  rw [List.length_append, List.length_singleton] at hn
  refine (DecUnit.steps_read_part u r what need cs _ got hb (by omega)).trans (.single ?_)
  have hlt : ¬ got.length + cs.length + 1 < need := by omega
  have step : ∀ v : DecUnit, v.inp.ready = b :: rest → (v.goto r (.reading what need (got ++ cs))).advance =
      some ((v.consume 1).afterRead r what (got ++ cs ++ [b])) := by
    intro v hv
    simp [DecUnit.advance, DecUnit.goto, DecUnit.stepRead, InStream.next, hv, hlt, DecUnit.consume,
      Ctl.countByte]
    exact DecUnit.afterRead_pos _ r _ what _
  rw [step _ (DecUnit.consume_ready u hb), DecUnit.consume_consume]
  simp

/-- A read that a terminator cuts short raises at its stage, with the bytes it got and the bytes it
needed (R67, R187). -/
theorem DecUnit.advance_read_stop (u : DecUnit) (r : DecRun) (what : DecRead) (need : Nat) (t : Term)
    (got : List Byte) (hb : u.inp.ready = []) (ht : u.inp.term = some t) :
    (u.goto r (.reading what need got)).advance =
      some (u.fail r t.errKind what.stage got.length need) := by
  simp [DecUnit.advance, DecUnit.goto, DecUnit.stepRead, InStream.next, hb, ht, DecUnit.fail]

/-- A read with nothing ready and no terminator waits (R66). -/
theorem DecUnit.advance_read_wait (u : DecUnit) (r : DecRun) (what : DecRead) (need : Nat)
    (got : List Byte) (hb : u.inp.ready = []) (ht : u.inp.term = none) :
    (u.goto r (.reading what need got)).advance = none := by
  simp [DecUnit.advance, DecUnit.goto, DecUnit.stepRead, InStream.next, hb, ht]

/-- A read of what is left of a stream that a terminator ends short of it (R67, R187). -/
theorem DecUnit.steps_read_short (u : DecUnit) (r : DecRun) (what : DecRead) (need : Nat) (t : Term)
    (got : List Byte) (ht : u.inp.term = some t) (hn : got.length + u.inp.ready.length < need) :
    (u.goto r (.reading what need got)).Steps
      ((u.consume u.inp.ready.length).fail r t.errKind what.stage
        (got.length + u.inp.ready.length) need) := by
  have hb : u.inp.ready = u.inp.ready ++ [] := (List.append_nil _).symm
  refine (DecUnit.steps_read_part u r what need _ [] got hb hn).trans (.single ?_)
  rw [DecUnit.advance_read_stop _ r what need t _ (DecUnit.consume_ready u hb) ht, List.length_append]

/-- A skip skips the bytes there are and stays inside itself while it needs more (R68). -/
theorem DecUnit.steps_skip_part (u : DecUnit) (r : DecRun) (what : DecSkip) (need : Nat)
    (bs rest : List Byte) (got : Nat) (hb : u.inp.ready = bs ++ rest) (hn : got + bs.length < need) :
    (u.goto r (.skipping what need got)).Steps
      ((u.consume bs.length).goto r (.skipping what need (got + bs.length))) := by
  induction bs generalizing u got with
  | nil => rw [List.length_nil, DecUnit.consume_zero]; exact .refl _
  | cons b bs ih =>
    have hr : u.inp.ready = b :: (bs ++ rest) := by simpa using hb
    have hlt : got + 1 < need := by simp at hn; omega
    have step : (u.goto r (.skipping what need got)).advance =
        some ((u.consume 1).goto r (.skipping what need (got + 1))) := by
      simp [DecUnit.advance, DecUnit.goto, DecUnit.stepSkip, InStream.next, hr, hlt,
        DecUnit.consume, Ctl.countByte]
    have := ih (u.consume 1) (got + 1) (by simp [DecUnit.consume, hr]) (by simp at hn ⊢; omega)
    refine .head step ?_
    rw [DecUnit.consume_consume] at this
    simpa [Nat.add_comm, Nat.add_left_comm, Nat.add_assoc] using this

/-- A skip of at least one byte whose bytes are all there completes (R68). -/
theorem DecUnit.steps_skipping (u : DecUnit) (r : DecRun) (what : DecSkip) (need : Nat)
    (bs rest : List Byte) (got : Nat) (hb : u.inp.ready = bs ++ rest) (h0 : bs ≠ [])
    (hn : got + bs.length = need) :
    (u.goto r (.skipping what need got)).Steps ((u.consume bs.length).afterSkip r what) := by
  obtain ⟨cs, b, rfl⟩ := List.eq_nil_or_concat' bs |>.resolve_left h0
  rw [List.append_assoc] at hb
  rw [List.length_append, List.length_singleton] at hn
  refine (DecUnit.steps_skip_part u r what need cs _ got hb (by omega)).trans (.single ?_)
  have hlt : ¬ got + cs.length + 1 < need := by omega
  have step : ∀ v : DecUnit, v.inp.ready = b :: rest → (v.goto r (.skipping what need (got + cs.length))).advance =
      some ((v.consume 1).afterSkip r what) := by
    intro v hv
    simp [DecUnit.advance, DecUnit.goto, DecUnit.stepSkip, InStream.next, hv, hlt, DecUnit.consume,
      Ctl.countByte]
    exact DecUnit.afterSkip_pos _ r _ what
  rw [step _ (DecUnit.consume_ready u hb), DecUnit.consume_consume]
  simp

/-- `MemSkip(IN, n)` whose bytes are all there completes, whatever n is (R68). -/
theorem DecUnit.steps_startSkip (u : DecUnit) (r : DecRun) (what : DecSkip)
    (bs rest : List Byte) (hb : u.inp.ready = bs ++ rest) :
    (u.startSkip r what bs.length).Steps ((u.consume bs.length).afterSkip r what) := by
  unfold DecUnit.startSkip
  split
  · rename_i h
    rw [h, DecUnit.consume_zero]; exact .refl _
  · rename_i h
    exact DecUnit.steps_skipping u r what bs.length bs rest 0 hb
      (by intro h'; simp [h'] at h) (by simp)

/-- A skip that a terminator cuts short raises at its stage (R68, R187). -/
theorem DecUnit.advance_skip_stop (u : DecUnit) (r : DecRun) (what : DecSkip) (need : Nat) (t : Term)
    (got : Nat) (hb : u.inp.ready = []) (ht : u.inp.term = some t) :
    (u.goto r (.skipping what need got)).advance = some (u.fail r t.errKind what.stage got need) := by
  simp [DecUnit.advance, DecUnit.goto, DecUnit.stepSkip, InStream.next, hb, ht, DecUnit.fail]

/-- A skip with nothing ready and no terminator waits (R66). -/
theorem DecUnit.advance_skip_wait (u : DecUnit) (r : DecRun) (what : DecSkip) (need : Nat)
    (got : Nat) (hb : u.inp.ready = []) (ht : u.inp.term = none) :
    (u.goto r (.skipping what need got)).advance = none := by
  simp [DecUnit.advance, DecUnit.goto, DecUnit.stepSkip, InStream.next, hb, ht]

/-- A command that has reached its successful end ends (R248). -/
theorem DecUnit.steps_finish (u : DecUnit) (r : DecRun) (p : Phase) :
    (u.goto r (.ending (.ok p))).Steps (u.finished p) :=
  .head (v := { u with ctl := u.ctl.record (.ok p) }.goto r .releasing) rfl (.single rfl)

/-- A command that has failed ends with its error (R246). -/
theorem DecUnit.steps_raise (u : DecUnit) (r : DecRun) (k : ErrKind) (st : Stage) (a x : Nat) :
    (u.fail r k st a x).Steps (u.raised k st a x) :=
  .head (v := { u with ctl := u.ctl.record (.error k st a x) }.goto r .releasing) rfl (.single rfl)

/-- An idle unit takes no step (R258). -/
theorem DecUnit.advance_of_idle {u : DecUnit} (h : u.run = none) : u.advance = none := by
  simp [DecUnit.advance, h]

/-- Payload elements that are all there, all decodable and all taken by the sink are appended (R210,
R220). -/
theorem DecUnit.steps_elements (u : DecUnit) (r : DecRun) (kind : SampleKind) (es : List (List Byte))
    (rest : List Byte) (hb : u.inp.ready = es.flatten ++ rest)
    (hlen : ∀ e ∈ es, e.length = kind.size)
    (hok : ∀ e ∈ es, decodable kind (elementWord kind r.bo e) = true)
    (hroom : es.length ≤ u.sout.room) (left : Nat) :
    (u.nextElement r kind (es.length + left)).Steps
      (((u.consume es.flatten.length).emit (es.map (elementWord kind r.bo))).nextElement r kind
        left) := by
  induction es generalizing u with
  | nil => simp [DecUnit.consume_zero, DecUnit.emit]; exact .refl _
  | cons e es ih =>
    have hel : e.length = kind.size := hlen e (by simp)
    have he0 : e ≠ [] := by
      intro h; have := kind.size_pos; simp [h] at hel; omega
    have hshow : u.nextElement r kind ((e :: es).length + left) =
        u.goto r (.reading (.element kind (es.length + left)) kind.size []) := by
      have : (e :: es).length + left = (es.length + left) + 1 := by simp; omega
      rw [this]; rfl
    rw [hshow]
    refine (DecUnit.steps_read u r (.element kind (es.length + left)) kind.size e
      (es.flatten ++ rest) [] (by simpa using hb) he0 (by simpa using hel)).trans ?_
    have hdec : decodable kind (elementWord kind r.bo e) = true := hok e (by simp)
    simp only [DecUnit.afterRead, List.nil_append, DecUnit.afterElement, hdec, if_true]
    have hr1 : 0 < u.sout.room := by simp at hroom; omega
    have step : ((u.consume e.length).goto r
        (.appending kind (elementWord kind r.bo e) (es.length + left))).advance =
        some (((u.consume e.length).emit [elementWord kind r.bo e]).nextElement r kind
          (es.length + left)) := by
      obtain ⟨n, hn⟩ : ∃ n, u.sout.room = n + 1 := ⟨u.sout.room - 1, by omega⟩
      simp only [DecUnit.advance, DecUnit.goto, DecUnit.stepAppend, SampleSink.append,
        DecUnit.consume, hn, DecUnit.emit, List.length_singleton, Nat.add_sub_cancel,
        Ctl.countSample]
      rw [DecUnit.nextElement_pos]
      cases es.length + left <;> rfl
    refine .head step ?_
    have := ih ((u.consume e.length).emit [elementWord kind r.bo e])
      (by simp [DecUnit.consume, DecUnit.emit, hb])
      (fun e' he' => hlen e' (by simp [he'])) (fun e' he' => hok e' (by simp [he']))
      (by simp [DecUnit.consume, DecUnit.emit] at hroom ⊢; omega)
    convert this using 2
    simp [DecUnit.consume, DecUnit.emit, List.drop_drop, List.take_add, BitVec.add_assoc,
      BitVec.ofNat_add, Nat.sub_sub, Nat.add_comm]

end Sys2Proof.Machine
end

