-- ==== Sys2Proof/Laws/Encoder.lean ====
section
/-! SUPPORT. The encoder's runs: every step lowers the work left, so a turn with no pace ends where the
unit ends or waits; and what the header's and an element's writes do as wholes (R69, R141, R142). -/

namespace Sys2Proof.Machine

open Sys2Proof.Config (Params)

/-! ### Runs of single steps -/

/-- `v` is reached from `u` by single steps. -/
inductive EncUnit.Steps (p : Params) : EncUnit → EncUnit → Prop where
  | refl (u : EncUnit) : EncUnit.Steps p u u
  | head {u v w : EncUnit} : u.advance p = some v → EncUnit.Steps p v w → EncUnit.Steps p u w

theorem EncUnit.Steps.trans {p : Params} {u v w : EncUnit} (h : u.Steps p v) (k : v.Steps p w) :
    u.Steps p w := by
  induction h with
  | refl => exact k
  | head a _ ih => exact .head a (ih k)

theorem EncUnit.Steps.single {p : Params} {u v : EncUnit} (h : u.advance p = some v) :
    u.Steps p v :=
  .head h (.refl v)

theorem EncUnit.runFor_zero (p : Params) (u : EncUnit) : u.runFor p 0 = u := rfl

theorem EncUnit.runFor_of_none {p : Params} {u : EncUnit} (h : u.advance p = none) (n : Nat) :
    u.runFor p n = u := by
  cases n with
  | zero => rfl
  | succ n => simp [EncUnit.runFor, h]

theorem EncUnit.runFor_of_some {p : Params} {u v : EncUnit} (h : u.advance p = some v) (n : Nat) :
    u.runFor p (n + 1) = v.runFor p n := by
  simp [EncUnit.runFor, h]

/-- Every turn is a run of single steps. -/
theorem EncUnit.runFor_steps (p : Params) (n : Nat) (u : EncUnit) : u.Steps p (u.runFor p n) := by
  induction n generalizing u with
  | zero => exact .refl u
  | succ n ih =>
    cases h : u.advance p with
    | none => rw [EncUnit.runFor_of_none h]; exact .refl u
    | some v => rw [EncUnit.runFor_of_some h]; exact .head h (ih v)

/-! ### One step -/

/-- What the sink answers to an offered byte, and what becomes of it (R69). -/
theorem OutSink.offer_cases {s t : OutSink} {b : Byte} {a : Answer} (h : s.offer b = some (a, t)) :
    (∃ as, a = .ack ∧ s.answers = .ack :: as ∧ t = { s with answers := as, bytes := s.bytes ++ [b] }) ∨
    (∃ as, a = .fail ∧ s.answers = .fail :: as ∧ t = { s with answers := as }) := by
  obtain ⟨answers, bytes, past⟩ := s
  match answers, h with
  | .ack :: as, h =>
    simp only [OutSink.offer, Option.some.injEq, Prod.mk.injEq] at h
    exact .inl ⟨as, h.1.symm, rfl, h.2.symm⟩
  | .fail :: as, h =>
    simp only [OutSink.offer, Option.some.injEq, Prod.mk.injEq] at h
    exact .inr ⟨as, h.1.symm, rfl, h.2.symm⟩

/-- An encoder whose sink has answered Fail (R69). -/
def EncUnit.refused (u : EncUnit) : EncUnit :=
  { u with out := { u.out with answers := u.out.answers.drop 1 } }

/-- Everything one step of a running encoder can do. -/
inductive EncUnit.Step (p : Params) (u : EncUnit) (r : EncRun) : EncUnit → Prop where
  | constructed {a : CtorArgs} (pos : r.pos = .constructing a []) :
      EncUnit.Step p u r (u.goto r.bo (.ending (.ok .encDone)))
  | construct {a : CtorArgs} {f : FmtReg} {fs : List FmtReg}
      (pos : r.pos = .constructing a (f :: fs)) :
      EncUnit.Step p u r
        ({ u with fmt := u.fmt.put f (ctorValue p a f) }.goto r.bo (.constructing a fs))
  | headerDone {sent : Nat} {next : Option (SampleKind × Nat)} (pos : r.pos = .header [] sent next) :
      EncUnit.Step p u r (u.afterHeader r.bo next)
  | headerByte {b : Byte} {bs : List Byte} {sent : Nat} {next : Option (SampleKind × Nat)}
      {as : List Answer} (pos : r.pos = .header (b :: bs) sent next)
      (answers : u.out.answers = .ack :: as) :
      EncUnit.Step p u r ((u.send [b]).goto r.bo (.header bs (sent + 1) next))
  | headerFail {b : Byte} {bs : List Byte} {sent : Nat} {next : Option (SampleKind × Nat)}
      {as : List Answer} (pos : r.pos = .header (b :: bs) sent next)
      (answers : u.out.answers = .fail :: as) :
      EncUnit.Step p u r
        (u.refused.fail r.bo .ioFailure .encHeaderWrite sent (sent + (b :: bs).length))
  | take {kind : SampleKind} {left : Nat} {w : Word} {ws : List Word}
      (pos : r.pos = .taking kind left) (ready : u.sin.ready = w :: ws)
      (ok : encodable p kind w = true) :
      EncUnit.Step p u r
        ((u.takeWords 1).goto r.bo (.element (elementBytes kind r.bo w) 0 kind left))
  | takeBad {kind : SampleKind} {left : Nat} {w : Word} {ws : List Word}
      (pos : r.pos = .taking kind left) (ready : u.sin.ready = w :: ws)
      (bad : encodable p kind w = false) :
      EncUnit.Step p u r
        ((u.takeWords 1).fail r.bo .sampleOutOfRange .encSampleRange w.toNat floatOne)
  | elementDone {sent : Nat} {kind : SampleKind} {left : Nat}
      (pos : r.pos = .element [] sent kind left) :
      EncUnit.Step p u r ((u.countSamples 1).nextSample r.bo kind left)
  | elementByte {b : Byte} {bs : List Byte} {sent : Nat} {kind : SampleKind} {left : Nat}
      {as : List Answer} (pos : r.pos = .element (b :: bs) sent kind left)
      (answers : u.out.answers = .ack :: as) :
      EncUnit.Step p u r ((u.send [b]).goto r.bo (.element bs (sent + 1) kind left))
  | elementFail {b : Byte} {bs : List Byte} {sent : Nat} {kind : SampleKind} {left : Nat}
      {as : List Answer} (pos : r.pos = .element (b :: bs) sent kind left)
      (answers : u.out.answers = .fail :: as) :
      EncUnit.Step p u r
        (u.refused.fail r.bo .ioFailure .encSampleWrite sent (sent + (b :: bs).length))
  | record {e : Ending} (pos : r.pos = .ending e) :
      EncUnit.Step p u r ({ u with ctl := u.ctl.record e }.goto r.bo .releasing)
  | release (pos : r.pos = .releasing) :
      EncUnit.Step p u r { u with run := none, ctl := u.ctl.release }

theorem EncUnit.send_one (u : EncUnit) {b : Byte} {as : List Answer}
    (h : u.out.answers = .ack :: as) :
    u.send [b] =
      { u with out := { u.out with answers := as, bytes := u.out.bytes ++ [b] }, ctl := u.ctl.countByte } := by
  simp [EncUnit.send, h, Ctl.countByte]

theorem EncUnit.refused_eq (u : EncUnit) {a : Answer} {as : List Answer}
    (h : u.out.answers = a :: as) :
    u.refused = { u with out := { u.out with answers := as } } := by
  simp [EncUnit.refused, h]

/-- A step of an encoder is one of the steps above. -/
theorem EncUnit.advance_step {p : Params} {u v : EncUnit} (h : u.advance p = some v) :
    ∃ r, u.run = some r ∧ u.Step p r v := by
  unfold EncUnit.advance at h
  split at h
  · cases h
  rename_i r hr
  refine ⟨r, hr, ?_⟩
  split at h
  case h_1 hp => cases h; exact .constructed hp
  case h_2 hp => cases h; exact .construct hp
  case h_3 todo sent next hp =>
    unfold EncUnit.stepHeader at h
    split at h
    · cases h; exact .headerDone hp
    · split at h
      · cases h
      · rename_i ho
        obtain ⟨as, -, ha, rfl⟩ | ⟨as, hx, -⟩ := OutSink.offer_cases ho
        · cases h
          rw [← EncUnit.send_one u ha]
          exact .headerByte hp ha
        · cases hx
      · rename_i ho
        obtain ⟨as, hx, -⟩ | ⟨as, -, ha, rfl⟩ := OutSink.offer_cases ho
        · cases hx
        · cases h
          rw [← EncUnit.refused_eq u ha]
          exact .headerFail hp ha
  case h_4 kind left hp =>
    unfold EncUnit.stepTake SampleSource.next at h
    cases hs : u.sin.ready with
    | nil => simp [hs] at h
    | cons w ws =>
      simp only [hs] at h
      have ht : u.takeWords 1 =
          { u with sin := { u.sin with ready := ws, taken := u.sin.taken ++ [w] } } := by
        simp [EncUnit.takeWords, hs]
      rw [← ht] at h
      split at h <;> rename_i hok <;> cases h
      · exact .take hp hs hok
      · exact .takeBad hp hs (by simpa using hok)
  case h_5 todo sent kind left hp =>
    unfold EncUnit.stepElement at h
    split at h
    · cases h; exact .elementDone hp
    · split at h
      · cases h
      · rename_i ho
        obtain ⟨as, -, ha, rfl⟩ | ⟨as, hx, -⟩ := OutSink.offer_cases ho
        · cases h
          rw [← EncUnit.send_one u ha]
          exact .elementByte hp ha
        · cases hx
      · rename_i ho
        obtain ⟨as, hx, -⟩ | ⟨as, -, ha, rfl⟩ := OutSink.offer_cases ho
        · cases hx
        · cases h
          rw [← EncUnit.refused_eq u ha]
          exact .elementFail hp ha
  case h_6 hp => cases h; exact .record hp
  case h_7 hp => cases h; exact .release hp

/-! ### Work -/

theorem EncUnit.work_goto (u : EncUnit) (bo : ByteOrder) (q : EncPos) :
    (u.goto bo q).work = u.out.answers.length + 2 * u.sin.ready.length + q.work := rfl

theorem EncUnit.work_fail (u : EncUnit) (bo : ByteOrder) (k : ErrKind) (st : Stage) (a x : Nat) :
    (u.fail bo k st a x).work = u.out.answers.length + 2 * u.sin.ready.length + 2 := rfl

theorem EncUnit.nextSample_work_le (u : EncUnit) (bo : ByteOrder) (kind : SampleKind) (left : Nat) :
    (u.nextSample bo kind left).work ≤ u.out.answers.length + 2 * u.sin.ready.length + 3 := by
  cases left <;> simp [EncUnit.nextSample, EncUnit.work_goto, EncPos.work]

/-- Every step lowers the work left. -/
theorem EncUnit.advance_work_lt {p : Params} {u v : EncUnit} (h : u.advance p = some v) :
    v.work < u.work := by
  obtain ⟨r, hr, hs⟩ := EncUnit.advance_step h
  have hw : u.work = u.out.answers.length + 2 * u.sin.ready.length + r.pos.work := by
    simp [EncUnit.work, hr]
  cases hs with
  | constructed hp => simp [hw, hp, EncUnit.work_goto, EncPos.work]
  | construct hp => simp [hw, hp, EncUnit.work_goto, EncPos.work]
  | @headerDone sent next hp =>
    cases next with
    | none => simp [hw, hp, EncUnit.afterHeader, EncUnit.work_goto, EncPos.work]
    | some kn =>
      have := EncUnit.nextSample_work_le (u.setPhase .encSamplesOut) r.bo kn.1 kn.2
      simp only [EncUnit.afterHeader, EncUnit.setPhase_out, EncUnit.setPhase_sin, hw, hp,
        EncPos.work] at *
      omega
  | headerByte hp ha => simp [hw, hp, ha, EncUnit.work_goto, EncUnit.send, EncPos.work]
  | headerFail hp ha => simp [hw, hp, ha, EncUnit.work_fail, EncUnit.refused, EncPos.work]; omega
  | take hp hready =>
    simp [hw, hp, hready, EncUnit.work_goto, EncUnit.takeWords, EncPos.work]
    omega
  | takeBad hp hready =>
    simp [hw, hp, hready, EncUnit.work_fail, EncUnit.takeWords, EncPos.work]
  | @elementDone sent kind left hp =>
    have := EncUnit.nextSample_work_le (u.countSamples 1) r.bo kind left
    simp only [hw, hp, EncPos.work, EncUnit.countSamples] at *
    omega
  | elementByte hp ha => simp [hw, hp, ha, EncUnit.work_goto, EncUnit.send, EncPos.work]
  | elementFail hp ha => simp [hw, hp, ha, EncUnit.work_fail, EncUnit.refused, EncPos.work]; omega
  | record hp => simp [hw, hp, EncUnit.work_goto, EncPos.work]
  | release hp =>
    rw [hw, hp]
    simp only [EncUnit.work, EncPos.work]
    omega

/-- A turn of a unit that reaches a unit which can take no more steps ends there, if it is long enough:
the work left at its start is (R283). -/
theorem EncUnit.Steps.runFor_eq {p : Params} {u v : EncUnit} (h : u.Steps p v)
    (hv : v.advance p = none) {n : Nat} (hn : u.work ≤ n) : u.runFor p n = v := by
  induction h generalizing n with
  | refl => exact EncUnit.runFor_of_none hv n
  | @head a b c hab hbc ih =>
    have := EncUnit.advance_work_lt hab
    obtain ⟨m, rfl⟩ : ∃ m, n = m + 1 := ⟨n - 1, by omega⟩
    rw [EncUnit.runFor_of_some hab]
    exact ih hv (by omega)

/-- After a turn as long as its work, a unit can take no more steps. -/
theorem EncUnit.runFor_work_quiet (p : Params) (u : EncUnit) {n : Nat} (hn : u.work ≤ n) :
    (u.runFor p n).advance p = none := by
  induction n generalizing u with
  | zero =>
    cases h : u.advance p with
    | none => simpa [EncUnit.runFor_zero] using h
    | some v => have := EncUnit.advance_work_lt h; omega
  | succ n ih =>
    cases h : u.advance p with
    | none => rw [EncUnit.runFor_of_none h]; exact h
    | some v =>
      have := EncUnit.advance_work_lt h
      rw [EncUnit.runFor_of_some h]
      exact ih v (by omega)

/-! ### Ends -/

/-- An idle unit takes no step (R258). -/
theorem EncUnit.advance_of_idle {p : Params} {u : EncUnit} (h : u.run = none) :
    u.advance p = none := by
  simp [EncUnit.advance, h]

/-- A command that has reached its successful end ends (R248). -/
theorem EncUnit.steps_finish (p : Params) (u : EncUnit) (bo : ByteOrder) (ph : Phase) :
    (u.goto bo (.ending (.ok ph))).Steps p (u.finished ph) :=
  .head (v := { u with ctl := u.ctl.record (.ok ph) }.goto bo .releasing) rfl (.single rfl)

/-- A command that has failed ends with its error (R246). -/
theorem EncUnit.steps_raise (p : Params) (u : EncUnit) (bo : ByteOrder) (k : ErrKind) (st : Stage)
    (a x : Nat) : (u.fail bo k st a x).Steps p (u.raised k st a x) :=
  .head (v := { u with ctl := u.ctl.record (.error k st a x) }.goto bo .releasing) rfl (.single rfl)

/-! ### Writes as wholes -/

theorem EncUnit.send_send (u : EncUnit) (a b : List Byte) : (u.send a).send b = u.send (a ++ b) := by
  simp [EncUnit.send, BitVec.ofNat_add, BitVec.add_assoc]

theorem EncUnit.send_nil (u : EncUnit) : u.send [] = u := by simp [EncUnit.send]

/-- As many header bytes as the sink acknowledges are in the sink (R69, R141). -/
theorem EncUnit.steps_header_part (p : Params) (u : EncUnit) (bo : ByteOrder) (bs cs : List Byte)
    (sent : Nat) (next : Option (SampleKind × Nat)) (as : List Answer)
    (ha : u.out.answers = List.replicate bs.length .ack ++ as) :
    (u.goto bo (.header (bs ++ cs) sent next)).Steps p
      ((u.send bs).goto bo (.header cs (sent + bs.length) next)) := by
  induction bs generalizing u sent with
  | nil => rw [EncUnit.send_nil]; exact .refl _
  | cons b bs ih =>
    have ha' : u.out.answers = .ack :: (List.replicate bs.length .ack ++ as) := by
      simpa [List.replicate_succ] using ha
    have step : (u.goto bo (.header (b :: bs ++ cs) sent next)).advance p =
        some ((u.send [b]).goto bo (.header (bs ++ cs) (sent + 1) next)) := by
      rw [EncUnit.send_one u ha']
      simp [EncUnit.advance, EncUnit.goto, EncUnit.stepHeader, OutSink.offer, ha']
    have := ih (u.send [b]) (sent + 1) (by simp [EncUnit.send, ha'])
    rw [EncUnit.send_send, Nat.add_right_comm] at this
    exact .head step this

/-- The header's bytes, all acknowledged, are all in the sink (R69, R141). -/
theorem EncUnit.steps_header (p : Params) (u : EncUnit) (bo : ByteOrder) (bs : List Byte) (sent : Nat)
    (next : Option (SampleKind × Nat)) (as : List Answer)
    (ha : u.out.answers = List.replicate bs.length .ack ++ as) :
    (u.goto bo (.header bs sent next)).Steps p ((u.send bs).afterHeader bo next) := by
  have := EncUnit.steps_header_part p u bo bs [] sent next as ha
  rw [List.append_nil] at this
  refine this.trans (.single ?_)
  rcases next with _ | ⟨kind, n | n⟩ <;> rfl

/-- A Fail inside the header ends it there (R69, R148). -/
theorem EncUnit.steps_header_fail (p : Params) (u : EncUnit) (bo : ByteOrder) (bs : List Byte)
    (b : Byte) (cs : List Byte) (sent : Nat) (next : Option (SampleKind × Nat)) (as : List Answer)
    (ha : u.out.answers = List.replicate bs.length .ack ++ .fail :: as) :
    (u.goto bo (.header (bs ++ b :: cs) sent next)).Steps p
      ((u.send bs).refused.fail bo .ioFailure .encHeaderWrite (sent + bs.length)
        (sent + (bs ++ b :: cs).length)) := by
  refine (EncUnit.steps_header_part p u bo bs (b :: cs) sent next _ ha).trans (.single ?_)
  have hf : (u.send bs).out.answers = .fail :: as := by simp [EncUnit.send, ha]
  simp [EncUnit.advance, EncUnit.goto, EncUnit.stepHeader, OutSink.offer, EncUnit.refused,
    EncUnit.fail, hf, Nat.add_assoc]

/-- A header with no answer ready waits (R69). -/
theorem EncUnit.advance_header_wait (p : Params) (u : EncUnit) (bo : ByteOrder) (b : Byte)
    (cs : List Byte) (sent : Nat) (next : Option (SampleKind × Nat)) (ha : u.out.answers = []) :
    (u.goto bo (.header (b :: cs) sent next)).advance p = none := by
  simp [EncUnit.advance, EncUnit.goto, EncUnit.stepHeader, OutSink.offer, ha]

/-- As many bytes of an element as the sink acknowledges are in the sink (R69, R142). -/
theorem EncUnit.steps_element_part (p : Params) (u : EncUnit) (bo : ByteOrder) (bs cs : List Byte)
    (sent : Nat) (kind : SampleKind) (left : Nat) (as : List Answer)
    (ha : u.out.answers = List.replicate bs.length .ack ++ as) :
    (u.goto bo (.element (bs ++ cs) sent kind left)).Steps p
      ((u.send bs).goto bo (.element cs (sent + bs.length) kind left)) := by
  induction bs generalizing u sent with
  | nil => rw [EncUnit.send_nil]; exact .refl _
  | cons b bs ih =>
    have ha' : u.out.answers = .ack :: (List.replicate bs.length .ack ++ as) := by
      simpa [List.replicate_succ] using ha
    have step : (u.goto bo (.element (b :: bs ++ cs) sent kind left)).advance p =
        some ((u.send [b]).goto bo (.element (bs ++ cs) (sent + 1) kind left)) := by
      rw [EncUnit.send_one u ha']
      simp [EncUnit.advance, EncUnit.goto, EncUnit.stepElement, OutSink.offer, ha']
    have := ih (u.send [b]) (sent + 1) (by simp [EncUnit.send, ha'])
    rw [EncUnit.send_send, Nat.add_right_comm] at this
    exact .head step this

/-- An element's bytes, all acknowledged, are all in the sink, and the sample is counted (R69,
R142). -/
theorem EncUnit.steps_element (p : Params) (u : EncUnit) (bo : ByteOrder) (bs : List Byte)
    (sent : Nat) (kind : SampleKind) (left : Nat) (as : List Answer)
    (ha : u.out.answers = List.replicate bs.length .ack ++ as) :
    (u.goto bo (.element bs sent kind left)).Steps p
      (((u.send bs).countSamples 1).nextSample bo kind left) := by
  have := EncUnit.steps_element_part p u bo bs [] sent kind left as ha
  rw [List.append_nil] at this
  refine this.trans (.single ?_)
  cases left <;> rfl

/-- A Fail inside an element ends it there (R69, R148). -/
theorem EncUnit.steps_element_fail (p : Params) (u : EncUnit) (bo : ByteOrder) (bs : List Byte)
    (b : Byte) (cs : List Byte) (sent : Nat) (kind : SampleKind) (left : Nat) (as : List Answer)
    (ha : u.out.answers = List.replicate bs.length .ack ++ .fail :: as) :
    (u.goto bo (.element (bs ++ b :: cs) sent kind left)).Steps p
      ((u.send bs).refused.fail bo .ioFailure .encSampleWrite (sent + bs.length)
        (sent + (bs ++ b :: cs).length)) := by
  refine (EncUnit.steps_element_part p u bo bs (b :: cs) sent kind left _ ha).trans (.single ?_)
  have hf : (u.send bs).out.answers = .fail :: as := by simp [EncUnit.send, ha]
  simp [EncUnit.advance, EncUnit.goto, EncUnit.stepElement, OutSink.offer, EncUnit.refused,
    EncUnit.fail, hf, Nat.add_assoc]

/-- An element with no answer ready waits (R69). -/
theorem EncUnit.advance_element_wait (p : Params) (u : EncUnit) (bo : ByteOrder) (b : Byte)
    (cs : List Byte) (sent : Nat) (kind : SampleKind) (left : Nat) (ha : u.out.answers = []) :
    (u.goto bo (.element (b :: cs) sent kind left)).advance p = none := by
  simp [EncUnit.advance, EncUnit.goto, EncUnit.stepElement, OutSink.offer, ha]

/-- A sample command with no word ready waits (R70). -/
theorem EncUnit.advance_taking_wait (p : Params) (u : EncUnit) (bo : ByteOrder) (kind : SampleKind)
    (left : Nat) (hs : u.sin.ready = []) : (u.goto bo (.taking kind left)).advance p = none := by
  simp [EncUnit.advance, EncUnit.goto, EncUnit.stepTake, SampleSource.next, hs]

/-- An encoder after it has written the samples `ws` (R142). -/
def EncUnit.wrote (u : EncUnit) (kind : SampleKind) (bo : ByteOrder) (ws : List Word) : EncUnit :=
  ((u.takeWords ws.length).send (ws.flatMap (elementBytes kind bo))).countSamples ws.length

/-- `EmitSamples` (R142): samples that are all there and all encodable, with every byte acknowledged,
are all written. -/
theorem EncUnit.steps_samples (p : Params) (u : EncUnit) (bo : ByteOrder) (kind : SampleKind)
    (ws rest : List Word) (as : List Answer) (left : Nat)
    (hs : u.sin.ready = ws ++ rest) (hok : ∀ w ∈ ws, encodable p kind w = true)
    (ha : u.out.answers = List.replicate (ws.length * kind.size) .ack ++ as) :
    (u.nextSample bo kind (ws.length + left)).Steps p ((u.wrote kind bo ws).nextSample bo kind left) := by
  induction ws generalizing u with
  | nil => simp [EncUnit.wrote, EncUnit.takeWords, EncUnit.send, EncUnit.countSamples]; exact .refl _
  | cons w ws ih =>
    have hshow : u.nextSample bo kind ((w :: ws).length + left) =
        u.goto bo (.taking kind (ws.length + left)) := by
      have : (w :: ws).length + left = (ws.length + left) + 1 := by simp; omega
      rw [this]; rfl
    have hw : u.sin.ready = w :: (ws ++ rest) := by simpa using hs
    have hsplit : u.out.answers =
        List.replicate kind.size .ack ++ (List.replicate (ws.length * kind.size) .ack ++ as) := by
      rw [ha, ← List.append_assoc, List.replicate_append_replicate]
      congr 2
      simp [Nat.add_mul, Nat.add_comm]
    have step : (u.goto bo (.taking kind (ws.length + left))).advance p =
        some ((u.takeWords 1).goto bo (.element (elementBytes kind bo w) 0 kind (ws.length + left))) := by
      simp [EncUnit.advance, EncUnit.goto, EncUnit.stepTake, SampleSource.next, hw,
        hok w (by simp), EncUnit.takeWords]
    rw [hshow]
    refine .head step ((EncUnit.steps_element p (u.takeWords 1) bo (elementBytes kind bo w) 0 kind
      (ws.length + left) (List.replicate (ws.length * kind.size) .ack ++ as)
      (by simpa [EncUnit.takeWords] using hsplit)).trans ?_)
    have := ih (((u.takeWords 1).send (elementBytes kind bo w)).countSamples 1)
      (by simp [EncUnit.takeWords, EncUnit.send, EncUnit.countSamples, hw])
      (fun w' hw' => hok w' (by simp [hw']))
      (by simp [EncUnit.takeWords, EncUnit.send, EncUnit.countSamples, hsplit])
    convert this using 2
    simp [EncUnit.wrote, EncUnit.takeWords, EncUnit.send, EncUnit.countSamples, List.drop_drop,
      BitVec.ofNat_add, BitVec.add_assoc, BitVec.add_comm, hw]

/-- `CtorFormat` (R120) writes the seven registers. -/
def EncUnit.constructed (p : Params) (u : EncUnit) (a : CtorArgs) : EncUnit :=
  { u with
    fmt := {
      fmtLen := 16#32
      audioFormat := a.code
      numChannels := a.ch
      sampleRate := a.rate
      bytesPerSec := ctorBytesPerSec p a.ch a.rate a.bits
      blockAlign := ctorBlockAlign p a.ch a.bits
      bitsPerSample := a.bits } }

theorem EncUnit.steps_construct (p : Params) (u : EncUnit) (bo : ByteOrder) (a : CtorArgs) :
    (u.goto bo (.constructing a ctorOrder)).Steps p
      ((u.constructed p a).goto bo (.ending (.ok .encDone))) := by
  refine .head rfl (.head rfl (.head rfl (.head rfl (.head rfl (.head rfl (.head rfl (.head rfl ?_)))))))
  convert EncUnit.Steps.refl _ using 1
  simp [EncUnit.constructed, EncFormat.put, ctorValue, EncUnit.goto]

/-! ### Commands as wholes -/

/-- An encoder command that reaches a unit which can take no more steps ends there (R283). -/
theorem State.startEnc_eq {s : State} {u v : EncUnit} {job : EncJob} (hu : s.encs[s.sel]? = some u)
    (hp : s.pace = none) (h : (u.begin s.params job).Steps s.params v)
    (hv : v.advance s.params = none) : s.startEnc job = .next (s.setEnc s.sel v) := by
  simp only [State.startEnc, hu, State.turn, hp, Option.getD_none]
  rw [h.runFor_eq hv (le_refl _)]

/-- A sample command of the encoder is its job started on the selected encoder. -/
theorem exec_encSamples (kind : SampleKind) (n : Word) (s : State) :
    exec (kind.encode n) s = s.startEnc (.samples kind n) := by
  cases kind <;> rfl

/-- The encoder once the operand check has passed, before the first header byte (R140). -/
def EncUnit.sized (p : Params) (u : EncUnit) (size : Nat) : EncUnit :=
  { u with
    ctl := { u.ctl with asm := [] }
    dataSize := BitVec.ofNat 32 size
    riffSize := BitVec.ofNat 32 (p.riffSizeBias.toNat + size) }.setPhase .encHeaderOut

/-- The header the encoder writes is R97's. -/
theorem waveStream_eq (p : Params) (f : EncFormat) (size : Nat) (payload : List Byte) :
    waveStream p f size payload =
      headerBytes f (BitVec.ofNat 32 (p.riffSizeBias.toNat + size)) (BitVec.ofNat 32 size) ++
        payload := by
  simp [waveStream, headerBytes, tagRiff, tagWave, tagFmt, tagData]

@[simp] theorem headerBytes_length (f : EncFormat) (a b : Word) : (headerBytes f a b).length = 44 :=
  rfl

/-- `EncPrologue` with a count in range (R140). -/
theorem EncUnit.begin_samples (p : Params) (u : EncUnit) (kind : SampleKind) (n : Word)
    (hn : n.toNat ≤ nMax p kind) :
    u.begin p (.samples kind n) = (u.sized p (n.toNat * kind.size)).goto u.ctl.sampleBo
      (.header (headerBytes u.fmt (BitVec.ofNat 32 (p.riffSizeBias.toNat + n.toNat * kind.size))
        (BitVec.ofNat 32 (n.toNat * kind.size))) 0 (some (kind, n.toNat))) := by
  simp only [EncUnit.begin, EncUnit.prologue, Nat.not_lt.2 hn, gt_iff_lt, if_false]
  rfl

/-- `EncPrologue` of ENC_HEADER (R140, R143). -/
theorem EncUnit.begin_header (p : Params) (u : EncUnit) :
    u.begin p .header = (u.sized p 0).goto u.ctl.sampleBo
      (.header (headerBytes u.fmt (BitVec.ofNat 32 (p.riffSizeBias.toNat + 0))
        (BitVec.ofNat 32 0)) 0 none) := by
  simp only [EncUnit.begin, EncUnit.prologue, Nat.zero_mul, gt_iff_lt, Nat.not_lt_zero, if_false]
  rfl

/-- A sample command whose header and first samples are all written (R142, R144, R145). -/
theorem EncUnit.steps_begin_samples (p : Params) (u : EncUnit) (kind : SampleKind) (n : Word)
    (ws rest : List Word) (as : List Answer) (left : Nat) (hn : n.toNat ≤ nMax p kind)
    (hl : n.toNat = ws.length + left) (hs : u.sin.ready = ws ++ rest)
    (hok : ∀ w ∈ ws, encodable p kind w = true)
    (ha : u.out.answers = List.replicate (44 + ws.length * kind.size) .ack ++ as) :
    (u.begin p (.samples kind n)).Steps p
      (((((u.sized p (n.toNat * kind.size)).send (headerBytes u.fmt
        (BitVec.ofNat 32 (p.riffSizeBias.toNat + n.toNat * kind.size))
        (BitVec.ofNat 32 (n.toNat * kind.size)))).setPhase .encSamplesOut).wrote kind u.ctl.sampleBo
          ws).nextSample u.ctl.sampleBo kind left) := by
  rw [EncUnit.begin_samples p u kind n hn]
  have ha' : (u.sized p (n.toNat * kind.size)).out.answers = List.replicate 44 .ack ++
      (List.replicate (ws.length * kind.size) .ack ++ as) := by
    rw [← List.append_assoc, List.replicate_append_replicate]; exact ha
  refine (EncUnit.steps_header p _ u.ctl.sampleBo (headerBytes u.fmt
    (BitVec.ofNat 32 (p.riffSizeBias.toNat + n.toNat * kind.size))
    (BitVec.ofNat 32 (n.toNat * kind.size))) 0 _ _ ha').trans ?_
  simp only [EncUnit.afterHeader, hl]
  refine EncUnit.steps_samples p _ u.ctl.sampleBo kind ws rest as left hs hok ?_
  simp only [EncUnit.send, EncUnit.setPhase, headerBytes_length]
  rw [hl] at ha'
  simp only [ha']
  simp

/-- A sample command with `m` bytes of its stream in the sink, in the header or inside an element (R142,
R144, R145). -/
def EncUnit.midway (p : Params) (u : EncUnit) (kind : SampleKind) (n : Word) (stream : List Byte)
    (m : Nat) : EncUnit :=
  let v := (u.sized p (n.toNat * kind.size)).send (stream.take m)
  if m < 44 then
    v.goto u.ctl.sampleBo (.header ((stream.take 44).drop m) m (some (kind, n.toNat)))
  else
    ((((v.setPhase .encSamplesOut).takeWords ((m - 44) / kind.size + 1)).countSamples
      ((m - 44) / kind.size))).goto u.ctl.sampleBo
        (.element ((stream.drop m).take (kind.size - (m - 44) % kind.size)) ((m - 44) % kind.size) kind
          (n.toNat - (m - 44) / kind.size - 1))

/-- A sample command whose words are all there and encodable, and whose sink acknowledges `m` bytes, reaches
byte `m` of its stream (R69, R142). -/
theorem EncUnit.steps_midway (p : Params) (u : EncUnit) (kind : SampleKind) (n : Word)
    (ws rest : List Word) (m : Nat) (as : List Answer) (hn : n.toNat ≤ nMax p kind)
    (hl : ws.length = n.toNat) (hs : u.sin.ready = ws ++ rest)
    (hok : ∀ w ∈ ws, encodable p kind w = true) (hm : m < 44 + n.toNat * kind.size)
    (ha : u.out.answers = List.replicate m .ack ++ as) :
    (u.begin p (.samples kind n)).Steps p (u.midway p kind n (waveStream p u.fmt (n.toNat * kind.size)
      (ws.flatMap (elementBytes kind u.ctl.sampleBo))) m) := by
  rw [waveStream_eq]
  have hbegin := EncUnit.begin_samples p u kind n hn
  have hlen : (headerBytes u.fmt (BitVec.ofNat 32 (p.riffSizeBias.toNat + n.toNat * kind.size))
    (BitVec.ofNat 32 (n.toNat * kind.size))).length = 44 := rfl
  have hb1 := fun us vs bs => EncUnit.steps_begin_samples p u kind n us vs bs
  generalize headerBytes u.fmt (BitVec.ofNat 32 (p.riffSizeBias.toNat + n.toNat * kind.size))
    (BitVec.ofNat 32 (n.toNat * kind.size)) = hb at hlen hbegin hb1 ⊢
  by_cases hm44 : m < 44
  · have := EncUnit.steps_header_part p (u.sized p (n.toNat * kind.size)) u.ctl.sampleBo (hb.take m)
      (hb.drop m) 0 (some (kind, n.toNat)) as
      (by rw [List.length_take, hlen, Nat.min_eq_left (Nat.le_of_lt hm44)]; exact ha)
    rw [List.take_append_drop, ← hbegin, List.length_take, hlen, Nat.min_eq_left (Nat.le_of_lt hm44),
      Nat.zero_add] at this
    rw [EncUnit.midway, if_pos hm44, List.take_append_of_le_length (i := m) (l₁ := hb) (by omega),
      List.take_append_of_le_length (i := 44) (l₁ := hb) (by omega), 
      List.take_of_length_le (i := 44) (l := hb) (by omega)]
    exact this
  obtain ⟨q, r, rfl, hr, hq⟩ : ∃ q r, m = 44 + (q * kind.size + r) ∧ r < kind.size ∧ q < n.toNat := by
    refine ⟨(m - 44) / kind.size, (m - 44) % kind.size, ?_, Nat.mod_lt _ kind.size_pos, ?_⟩
    · rw [Nat.mul_comm, Nat.div_add_mod]; omega
    · rw [Nat.div_lt_iff_lt_mul kind.size_pos]; omega
  have hdiv : (44 + (q * kind.size + r) - 44) / kind.size = q := by
    rw [Nat.add_sub_cancel_left, Nat.add_comm, Nat.add_mul_div_right _ _ kind.size_pos,
      Nat.div_eq_of_lt hr, Nat.zero_add]
  have hmod : (44 + (q * kind.size + r) - 44) % kind.size = r := by
    rw [Nat.add_sub_cancel_left, Nat.add_comm, Nat.add_mul_mod_self_right, Nat.mod_eq_of_lt hr]
  rw [EncUnit.midway, if_neg hm44, hdiv, hmod]
  obtain ⟨us, w, vs, rfl, rfl⟩ : ∃ us w vs, ws = us ++ w :: vs ∧ us.length = q :=
    ⟨ws.take q, ws[q]'(by omega), ws.drop (q + 1), by rw [List.getElem_cons_drop, List.take_append_drop],
      by simp; omega⟩
  set el := elementBytes kind u.ctl.sampleBo w with hel
  have hell : el.length = kind.size := elementBytes_length _ _ _
  have hus : (us.flatMap (elementBytes kind u.ctl.sampleBo)).length = us.length * kind.size := by simp
  refine (hb1 us (w :: vs ++ rest) (List.replicate r .ack ++ as) (n.toNat - us.length) hn (by omega)
    (by simpa using hs) (fun x hx => hok x (by simp [hx]))
    (by rw [ha, ← List.append_assoc, List.replicate_append_replicate, Nat.add_assoc])).trans ?_
  set v := (((u.sized p (n.toNat * kind.size)).send hb).setPhase .encSamplesOut).wrote kind
    u.ctl.sampleBo us with hv
  have hvs : v.sin.ready = w :: (vs ++ rest) := by
    simp [hv, EncUnit.wrote, EncUnit.takeWords, EncUnit.countSamples, EncUnit.send, EncUnit.setPhase,
      EncUnit.sized, hs]
  have hva : v.out.answers = List.replicate r .ack ++ as := by
    simp [hv, EncUnit.wrote, EncUnit.takeWords, EncUnit.countSamples, EncUnit.send, EncUnit.setPhase,
      EncUnit.sized, ha, hlen, hus, ← List.replicate_append_replicate]
  obtain ⟨left, hleft⟩ : ∃ left, n.toNat - us.length = left + 1 := ⟨n.toNat - us.length - 1, by omega⟩
  rw [hleft]
  have step : (v.nextSample u.ctl.sampleBo kind (left + 1)).advance p =
      some ((v.takeWords 1).goto u.ctl.sampleBo (.element el 0 kind left)) := by
    simp [EncUnit.nextSample, EncUnit.advance, EncUnit.goto, EncUnit.stepTake, SampleSource.next, hvs,
      hok w (by simp), EncUnit.takeWords, hel]
  refine .head step ?_
  have st := EncUnit.steps_element_part p (v.takeWords 1) u.ctl.sampleBo (el.take r) (el.drop r) 0 kind
    left as (by simpa [EncUnit.takeWords, hell, Nat.min_eq_left (Nat.le_of_lt hr)] using hva)
  rw [List.take_append_drop] at st
  convert st using 1
  have hfm : (us ++ w :: vs).flatMap (elementBytes kind u.ctl.sampleBo) =
      us.flatMap (elementBytes kind u.ctl.sampleBo) ++
        (el ++ vs.flatMap (elementBytes kind u.ctl.sampleBo)) := by
    simp [hel]
  have ht : (hb ++ (us ++ w :: vs).flatMap (elementBytes kind u.ctl.sampleBo)).take
      (44 + (us.length * kind.size + r)) =
        hb ++ (us.flatMap (elementBytes kind u.ctl.sampleBo) ++ el.take r) := by
    rw [hfm, ← hlen, List.take_length_add_append, ← hus, List.take_length_add_append,
      List.take_append_of_le_length (by omega)]
  have hd : ((hb ++ (us ++ w :: vs).flatMap (elementBytes kind u.ctl.sampleBo)).drop
      (44 + (us.length * kind.size + r))).take (kind.size - r) = el.drop r := by
    rw [hfm, ← hlen, List.drop_length_add_append, ← hus, List.drop_length_add_append,
      List.drop_append_of_le_length (by omega), List.take_append_of_le_length (by simp [hell]),
      List.take_of_length_le (by simp [hell])]
  rw [ht, hd]
  rw [Nat.add_sub_cancel, Nat.zero_add, List.length_take, hell,
    Nat.min_eq_left (Nat.le_of_lt hr)]
  simp [hv, EncUnit.wrote, EncUnit.takeWords, EncUnit.countSamples, EncUnit.send, EncUnit.setPhase,
    EncUnit.goto, EncUnit.sized, Ctl.setPhase, hlen, hus, hell, BitVec.ofNat_add, BitVec.add_assoc,
    List.drop_drop, Nat.min_eq_left (Nat.le_of_lt hr), Nat.add_assoc]
  rw [List.take_add]
end Sys2Proof.Machine
end

