-- ==== Sys2Proof/Laws/Parse.lean ====
section
/-! SUPPORT. The header parse as a whole (R172, R188): on a header of R98's grammar it consumes exactly
the header and loads its registers. -/

namespace Sys2Proof.Machine

/-- The decoder at execution start, before its first read (R34, R241). -/
def DecUnit.started (u : DecUnit) : DecUnit :=
  { u with
    ctl := { u.ctl with asm := [], phase := .start }
    hdr := DecHeader.zero
    hdrValid := false }

theorem DecUnit.begin_eq (u : DecUnit) (cmd : DecCmd) :
    u.begin cmd = u.started.goto ⟨cmd, u.ctl.sampleBo, .releasing⟩ (.reading .riff 12 []) := rfl

/-! ### The records -/

theorem slice_riff_ident (v : Word) (t : List Byte) : slice (tagRiff ++ bytesLe32 v ++ t) 0 4 = tagRiff :=
  rfl

theorem slice_riff_size (v : Word) (t : List Byte) :
    slice (tagRiff ++ bytesLe32 v ++ t) 4 4 = bytesLe32 v := rfl

theorem slice_riff_type (v : Word) : slice (tagRiff ++ bytesLe32 v ++ tagWave) 8 4 = tagWave := rfl

theorem slice_chunk_tag {t : List Byte} (h : t.length = 4) (v : Word) :
    slice (t ++ bytesLe32 v) 0 4 = t := by
  simp [slice, h]

theorem slice_chunk_size {t : List Byte} (h : t.length = 4) (v : Word) :
    slice (t ++ bytesLe32 v) 4 4 = bytesLe32 v := by
  simp [slice, ← h]

/-- The RiffHeader's registers from its bytes (R91). -/
theorem DecHeader.loadRiff_bytes (h : DecHeader) (v : Word) :
    h.loadRiff (tagRiff ++ bytesLe32 v ++ tagWave) =
      { h with riffIdent := 0x46464952#32, riffSize := v, riffType := 0x45564157#32 } := by
  simp only [DecHeader.loadRiff, slice_riff_ident, slice_riff_size, slice_riff_type,
    le32_bytesLe32, BitVec.ofNat_toNat, BitVec.setWidth_eq]
  rfl

/-- The format registers from the format record's bytes (R92). -/
theorem DecHeader.loadFormat_bytes (h : DecHeader) (f : EncFormat) :
    h.loadFormat (formatRecord f) =
      { h with
        fmtLen := f.fmtLen
        audioFormat := f.audioFormat
        numChannels := f.numChannels
        sampleRate := f.sampleRate
        bytesPerSec := f.bytesPerSec
        blockAlign := f.blockAlign
        bitsPerSample := f.bitsPerSample } := by
  have s0 : slice (formatRecord f) 0 4 = bytesLe32 f.fmtLen := rfl
  have s1 : slice (formatRecord f) 4 2 = bytesLe16 f.audioFormat := rfl
  have s2 : slice (formatRecord f) 6 2 = bytesLe16 f.numChannels := rfl
  have s3 : slice (formatRecord f) 8 4 = bytesLe32 f.sampleRate := rfl
  have s4 : slice (formatRecord f) 12 4 = bytesLe32 f.bytesPerSec := rfl
  have s5 : slice (formatRecord f) 16 2 = bytesLe16 f.blockAlign := rfl
  have s6 : slice (formatRecord f) 18 2 = bytesLe16 f.bitsPerSample := rfl
  simp [DecHeader.loadFormat, s0, s1, s2, s3, s4, s5, s6, -BitVec.toNat_setWidth]

/-! ### The chunk scan -/

/-- What the chunk scan reads: the chunks, then the data chunk's header (R94, R95). -/
def scanBytes (cs : List Chunk) (d : Word) : List Byte :=
  cs.flatMap Chunk.bytes ++ (tagData ++ bytesLe32 d)

theorem scanBytes_nil (d : Word) : scanBytes [] d = tagData ++ bytesLe32 d := rfl

theorem scanBytes_cons (c : Chunk) (cs : List Chunk) (d : Word) :
    scanBytes (c :: cs) d =
      (c.tag ++ bytesLe32 (BitVec.ofNat 32 c.body.length)) ++ (c.body ++ scanBytes cs d) := by
  simp [scanBytes, Chunk.bytes]

/-- The unit with the data chunk found (R172 step 6). -/
def DecUnit.found (u : DecUnit) (d : Word) : DecUnit :=
  { u with hdr := { u.hdr with dataSize := d }, hdrValid := true }.setPhase .dataChunkFound

theorem DecUnit.found_consume (u : DecUnit) (d : Word) (n : Nat) :
    (u.consume n).found d = (u.found d).consume n := rfl

/-- The scan skips any number of chunks and stops at "data" (R181, R189). -/
theorem DecUnit.steps_scan (u : DecUnit) (r : DecRun) (cs : List Chunk) (hcs : ∀ c ∈ cs, c.Ok)
    (d : Word) (rest : List Byte) (hb : u.inp.ready = scanBytes cs d ++ rest) :
    (u.goto r (.reading .chunkHeader 8 [])).Steps
      (((u.found d).consume (scanBytes cs d).length).goto r .parsed) := by
  induction cs generalizing u with
  | nil =>
    refine (DecUnit.steps_read u r .chunkHeader 8 (tagData ++ bytesLe32 d) rest [] hb
      (by simp [tagData]) rfl).trans ?_
    simp only [DecUnit.afterRead, List.nil_append, DecUnit.afterChunkHeader,
      slice_chunk_tag (t := tagData) rfl, if_true, DecHeader.loadDataSize,
      slice_chunk_size (t := tagData) rfl, le32_bytesLe32, BitVec.ofNat_toNat, BitVec.setWidth_eq]
    exact .refl _
  | cons c cs ih =>
    obtain ⟨htag, hne, hlen⟩ := hcs c (by simp)
    rw [scanBytes_cons, List.append_assoc] at hb
    refine (DecUnit.steps_read u r .chunkHeader 8 (c.tag ++ bytesLe32 (BitVec.ofNat 32 c.body.length))
      _ [] hb (by simp [bytesLe32]) (by simp [htag])).trans ?_
    have hb1 := DecUnit.consume_ready u hb
    rw [List.append_assoc] at hb1
    simp only [DecUnit.afterRead, List.nil_append, DecUnit.afterChunkHeader,
      slice_chunk_tag htag, if_neg hne, slice_chunk_size htag, le32_bytesLe32,
      toNat_ofNat32 _ hlen]
    refine (DecUnit.steps_startSkip _ r .chunk c.body _ hb1).trans ?_
    simp only [DecUnit.afterSkip]
    have := ih _ (fun c' hc' => hcs c' (by simp [hc'])) (DecUnit.consume_ready _ hb1)
    simp only [DecUnit.found_consume, DecUnit.consume_consume] at this ⊢
    rw [scanBytes_cons, List.length_append (as := c.tag ++ _), List.length_append (as := c.body),
      ← Nat.add_assoc]
    exact this

/-- Where a decode command stands inside the read or skip of stage `st`, with the bytes `got` of the
`need` it asks for (R67, R68). -/
def DecPos.Inside (p : DecPos) (st : Stage) (need : Nat) (got : List Byte) : Prop :=
  (∃ what, p = .reading what need got ∧ what.stage = st) ∨
    ∃ what, p = .skipping what need got.length ∧ what.stage = st

/-- A terminator cuts a read or skip short at its stage (R67, R68, R187). -/
theorem DecUnit.advance_inside_stop (u : DecUnit) (r : DecRun) {p : DecPos} {st : Stage} {need : Nat}
    {got : List Byte} {t : Term} (hp : p.Inside st need got) (hb : u.inp.ready = [])
    (ht : u.inp.term = some t) :
    (u.goto r p).advance = some (u.fail r t.errKind st got.length need) := by
  obtain ⟨what, rfl, rfl⟩ | ⟨what, rfl, rfl⟩ := hp
  · exact DecUnit.advance_read_stop u r what need t got hb ht
  · exact DecUnit.advance_skip_stop u r what need t got.length hb ht

/-- A read or skip with nothing ready and no terminator waits (R66). -/
theorem DecUnit.advance_inside_wait (u : DecUnit) (r : DecRun) {p : DecPos} {st : Stage} {need : Nat}
    {got : List Byte} (hp : p.Inside st need got) (hb : u.inp.ready = []) (ht : u.inp.term = none) :
    (u.goto r p).advance = none := by
  obtain ⟨what, rfl, rfl⟩ | ⟨what, rfl, rfl⟩ := hp
  · exact DecUnit.advance_read_wait u r what need got hb ht
  · exact DecUnit.advance_skip_wait u r what need got.length hb ht

/-- A chunk scan of the first `n` bytes of its stream stands inside the read or skip they end in, with
the bytes that read got (R181, R187). -/
theorem DecUnit.steps_scan_part (u : DecUnit) (r : DecRun) (cs : List Chunk) (hcs : ∀ c ∈ cs, c.Ok)
    (d : Word) (n : Nat) (hn : n < (scanBytes cs d).length)
    (hb : u.inp.ready = (scanBytes cs d).take n) :
    ∃ st got need p, cutAt (scanReads cs) n = some (st, got, need) ∧ got ≤ n ∧
      p.Inside st need (u.inp.ready.drop (n - got)) ∧ (st = .chunkHeader ∨ st = .chunkSkip) ∧
      (u.goto r (.reading .chunkHeader 8 [])).Steps ((u.consume n).goto r p) := by
  have hl : u.inp.ready.length = n := by rw [hb]; simp; omega
  have cut8 : n < 8 → (u.goto r (.reading .chunkHeader 8 [])).Steps
      ((u.consume n).goto r (.reading .chunkHeader 8 (u.inp.ready.drop (n - n)))) := by
    intro hn8
    have := DecUnit.steps_read_part u r .chunkHeader 8 u.inp.ready [] [] (by simp) (by simpa [hl] using hn8)
    simpa [hl] using this
  induction cs generalizing u n with
  | nil =>
    have h8 : n < 8 := hn
    exact ⟨.chunkHeader, n, 8, _, by simp [scanReads, cutAt, h8], le_refl _, .inl ⟨_, rfl, rfl⟩,
      .inl rfl, cut8 h8⟩
  | cons c cs ih =>
    obtain ⟨htag, hne, hlen⟩ := hcs c (by simp)
    by_cases hn8 : n < 8
    · exact ⟨.chunkHeader, n, 8, _, by simp [scanReads, cutAt, hn8], le_refl _, .inl ⟨_, rfl, rfl⟩,
        .inl rfl, cut8 hn8⟩
    rw [scanBytes_cons] at hb hn
    have hh8 : (c.tag ++ bytesLe32 (BitVec.ofNat 32 c.body.length)).length = 8 := by simp [htag]
    rw [List.take_append, List.take_of_length_le (by omega), hh8] at hb
    have sr := DecUnit.steps_read u r .chunkHeader 8 _ _ [] hb (by simp [bytesLe32]) (by rw [hh8]; rfl)
    have hb1 := DecUnit.consume_ready u hb
    rw [hh8] at hb1 sr
    simp only [DecUnit.afterRead, List.nil_append, DecUnit.afterChunkHeader,
      slice_chunk_tag htag, if_neg hne, slice_chunk_size htag, le32_bytesLe32,
      toNat_ofNat32 _ hlen] at sr
    have hl1 : (u.consume 8).inp.ready.length = n - 8 := by simp [DecUnit.consume, hl]
    have hd1 : ∀ k, (u.consume 8).inp.ready.drop k = u.inp.ready.drop (8 + k) := by
      simp [DecUnit.consume, List.drop_drop]
    by_cases hnb : n - 8 < c.body.length
    · refine ⟨.chunkSkip, n - 8, c.body.length, _, by simp [scanReads, cutAt, hn8, hnb], by omega,
        .inr ⟨.chunk, rfl, rfl⟩, .inr rfl, ?_⟩
      rw [DecUnit.startSkip, if_neg (by omega)] at sr
      have := DecUnit.steps_skip_part (u.consume 8) r .chunk c.body.length _ [] 0 (List.append_nil _).symm
        (by rw [hl1]; simpa using hnb)
      rw [hl1, DecUnit.consume_consume, show 8 + (n - 8) = n by omega] at this
      refine sr.trans ?_
      simpa [hl, show n - (n - (n - 8)) = n - 8 by omega] using this
    · rw [List.take_append, List.take_of_length_le (by omega)] at hb1
      have s2 := DecUnit.steps_startSkip _ r .chunk c.body _ hb1
      have hb2 := DecUnit.consume_ready _ hb1
      rw [DecUnit.consume_consume] at hb2 s2
      have hn2 : n - 8 - c.body.length < (scanBytes cs d).length := by simp [htag] at hn; omega
      have hl2 : (u.consume (8 + c.body.length)).inp.ready.length = n - 8 - c.body.length := by
        simp [DecUnit.consume, hl]; omega
      obtain ⟨st, got, need, p, hcut, hgot, hp, hst, hs⟩ := ih (u.consume (8 + c.body.length))
        (fun c' hc' => hcs c' (by simp [hc'])) (n - 8 - c.body.length) hn2 hb2 hl2
        (fun h8 => by
          have := DecUnit.steps_read_part (u.consume (8 + c.body.length)) r .chunkHeader 8 _ [] []
            (List.append_nil _).symm (by rw [hl2]; simpa using h8)
          simpa [hl2] using this)
      refine ⟨st, got, need, p, by simp [scanReads, cutAt, hn8, hnb, hcut], by omega, ?_, hst, ?_⟩
      · have : (u.consume (8 + c.body.length)).inp.ready.drop (n - 8 - c.body.length - got) =
            u.inp.ready.drop (n - got) := by
          simp only [DecUnit.consume, List.drop_drop]
          congr 1; omega
        rwa [this] at hp
      · rw [DecUnit.consume_consume, show 8 + c.body.length + (n - 8 - c.body.length) = n by omega] at hs
        exact sr.trans (s2.trans hs)

/-! ### The whole parse -/

/-- The unit after a successful header parse (R171, R172, R188). -/
def DecUnit.parsedAs (u : DecUnit) (h : WavHead) : DecUnit :=
  { u.consume h.bytes.length with
    hdr := h.registers
    hdrValid := true }.setPhase .dataChunkFound

theorem WavHead.bytes_eq (h : WavHead) :
    h.bytes = (tagRiff ++ bytesLe32 h.riffSize ++ tagWave) ++ (tagFmt ++ (formatRecord h.fmt ++
      (h.extBytes ++ scanBytes h.chunks h.dataSize))) := by
  simp [WavHead.bytes, scanBytes]

theorem WavHead.bytes_length (h : WavHead) :
    h.bytes.length = 36 + (h.extBytes.length + (scanBytes h.chunks h.dataSize).length) := by
  rw [WavHead.bytes_eq]
  simp only [List.length_append, tagRiff_length, bytesLe32_length, tagWave_length, tagFmt_length,
    show (formatRecord h.fmt).length = 20 from rfl]
  omega

/-- The unit after the RiffHeader and the format record have been read and checked (R172 steps 1 to
4). -/
def DecUnit.formatted (u : DecUnit) (h : WavHead) : DecUnit :=
  { u with
    hdr := { u.hdr with
      riffIdent := 0x46464952#32
      riffSize := h.riffSize
      riffType := 0x45564157#32
      fmtLen := h.fmt.fmtLen
      audioFormat := h.fmt.audioFormat
      numChannels := h.fmt.numChannels
      sampleRate := h.fmt.sampleRate
      bytesPerSec := h.fmt.bytesPerSec
      blockAlign := h.fmt.blockAlign
      bitsPerSample := h.fmt.bitsPerSample } }.setPhase .formatValidated

/-- Steps 1 to 4 of the parse (R172): 36 bytes. -/
theorem DecUnit.steps_formatted (u : DecUnit) (r : DecRun) (h : WavHead)
    (hfmt : h.fmt.audioFormat ∈ recognizedFormats) (rest : List Byte)
    (hb : u.inp.ready = (tagRiff ++ bytesLe32 h.riffSize ++ tagWave) ++ (tagFmt ++
      (formatRecord h.fmt ++ rest))) :
    (u.goto r (.reading .riff 12 [])).Steps
      (if h.fmt.fmtLen ≠ 16#32 then
        ((u.formatted h).consume 36).goto r (.reading .extraSize 2 [])
      else ((u.formatted h).consume 36).goto r .scanning) := by
  refine (DecUnit.steps_read u r .riff 12 (tagRiff ++ bytesLe32 h.riffSize ++ tagWave) _ [] hb
    (by simp [tagRiff]) rfl).trans ?_
  have hb1 := DecUnit.consume_ready u hb
  simp only [DecUnit.afterRead, List.nil_append, DecUnit.afterRiff, slice_riff_ident, slice_riff_type,
    ne_eq, not_true_eq_false, if_false, DecHeader.loadRiff_bytes]
  set s1 : DecUnit := DecUnit.setPhase _ .riffVerified with hs1
  refine (DecUnit.steps_read s1 r .fmtTag 4 tagFmt _ [] hb1 (by simp [tagFmt]) rfl).trans ?_
  have hb2 := DecUnit.consume_ready s1 hb1
  simp only [DecUnit.afterRead, List.nil_append, DecUnit.afterFmtTag, ne_eq, not_true_eq_false,
    if_false]
  set s2 : DecUnit := DecUnit.setPhase _ .fmtVerified with hs2
  refine (DecUnit.steps_read s2 r .fmtRecord 20 (formatRecord h.fmt) _ [] hb2
    (by simp [formatRecord, bytesLe32]) rfl).trans ?_
  simp only [DecUnit.afterRead, List.nil_append, DecUnit.afterFmtRecord, DecHeader.loadFormat_bytes,
    hfmt, not_true_eq_false, if_false]
  have hs : s2 = ({ u with hdr := { u.hdr with
      riffIdent := 0x46464952#32, riffSize := h.riffSize, riffType := 0x45564157#32 } }.setPhase
        .fmtVerified).consume 16 := by
    rw [hs2, hs1]
    simp [DecUnit.consume, DecUnit.setPhase, Ctl.setPhase, List.drop_drop, BitVec.add_assoc,
      List.take_add (i := 12) (j := 4)]
  rw [hs, DecUnit.consume_consume]
  exact .refl _

/-- The header parse of a header of R98's grammar (R172, R188). -/
theorem DecUnit.steps_parse (u : DecUnit) (cmd : DecCmd) (h : WavHead) (hok : h.Ok)
    (rest : List Byte) (hb : u.inp.ready = h.bytes ++ rest) :
    (u.begin cmd).Steps
      ((u.started.parsedAs h).goto ⟨cmd, u.ctl.sampleBo, .releasing⟩ .parsed) := by
  obtain ⟨hfmt, hext, hcs⟩ := hok
  generalize hr : (⟨cmd, u.ctl.sampleBo, .releasing⟩ : DecRun) = r
  rw [DecUnit.begin_eq, hr]
  have hb0 : u.started.inp.ready = (tagRiff ++ bytesLe32 h.riffSize ++ tagWave) ++ (tagFmt ++
      (formatRecord h.fmt ++ (h.extBytes ++ (scanBytes h.chunks h.dataSize ++ rest)))) := by
    rw [show u.started.inp = u.inp from rfl, hb, WavHead.bytes_eq]
    simp only [List.append_assoc]
  refine (DecUnit.steps_formatted _ r h hfmt _ hb0).trans ?_
  have hb3 : ((u.started.formatted h).consume 36).inp.ready =
      h.extBytes ++ (scanBytes h.chunks h.dataSize ++ rest) := by
    have : u.started.inp.ready = (tagRiff ++ bytesLe32 h.riffSize ++ tagWave ++ tagFmt ++
        formatRecord h.fmt) ++ (h.extBytes ++ (scanBytes h.chunks h.dataSize ++ rest)) := by
      simpa only [List.append_assoc] using hb0
    exact DecUnit.consume_ready (u.started.formatted h) this
  by_cases hlen : h.fmt.fmtLen = 16#32
  · have hx : h.extBytes = [] := by simp [WavHead.extBytes, hlen]
    rw [if_neg (by simpa using hlen)]
    refine (DecUnit.Steps.single (v := (DecUnit.setPhase _ .chunkScanning).goto r _) rfl).trans ?_
    refine (DecUnit.steps_scan _ r h.chunks hcs h.dataSize rest (by simpa [hx] using hb3)).trans ?_
    convert DecUnit.Steps.refl _ using 1
    have hl := h.bytes_length
    rw [hx, List.length_nil, Nat.zero_add] at hl
    simp only [DecUnit.parsedAs, hl, ← DecUnit.consume_consume]
    simp [DecUnit.consume, DecUnit.found, DecUnit.formatted, DecUnit.setPhase, Ctl.setPhase,
      DecUnit.goto, DecUnit.started, WavHead.registers, hlen, DecHeader.zero]
  · have hx : h.extBytes = bytesLe16 (BitVec.ofNat 16 h.ext.length) ++ h.ext := by
      simp [WavHead.extBytes, hlen]
    rw [if_pos hlen]
    rw [hx, List.append_assoc] at hb3
    refine (DecUnit.steps_read _ r .extraSize 2 _ _ [] hb3 (by simp [bytesLe16]) rfl).trans ?_
    have hb4 := DecUnit.consume_ready _ hb3
    have hcb : (BitVec.ofNat 16 h.ext.length).toNat = h.ext.length := by
      simpa using Nat.mod_eq_of_lt hext
    simp only [DecUnit.afterRead, List.nil_append, DecUnit.afterExtraSize, DecHeader.loadExtraSize,
      le16_bytesLe16, hcb]
    set s3 : DecUnit := { DecUnit.consume _ _ with hdr := _ } with hs3
    refine (DecUnit.steps_startSkip s3 r .extension h.ext _ hb4).trans ?_
    simp only [DecUnit.afterSkip]
    refine (DecUnit.Steps.single (v := (DecUnit.setPhase _ .chunkScanning).goto r _) rfl).trans ?_
    refine (DecUnit.steps_scan _ r h.chunks hcs h.dataSize rest
      (by exact DecUnit.consume_ready s3 hb4)).trans ?_
    convert DecUnit.Steps.refl _ using 1
    have hl : h.bytes.length = 36 + (2 + (h.ext.length + (scanBytes h.chunks h.dataSize).length)) := by
      rw [h.bytes_length, hx]; simp; omega
    simp only [DecUnit.parsedAs, hl, ← DecUnit.consume_consume]
    simp [hs3, DecUnit.consume, DecUnit.found, DecUnit.formatted, DecUnit.setPhase, Ctl.setPhase,
      DecUnit.goto, DecUnit.started, WavHead.registers, hlen, DecHeader.zero]

/-- PHASE inside the read or skip of each stage of a header parse (R27, R172). -/
def parsePhase : Stage → Phase
  | .riffRecord => .start
  | .fmtTag => .riffVerified
  | .fmtRecord => .fmtVerified
  | .extraSize => .formatValidated
  | .extraSkip => .formatValidated
  | _ => .chunkScanning

/-- A decoder inside the read or skip of stage `st`, `n` bytes into the header `h` (R34, R172). -/
def DecUnit.parsing (u : DecUnit) (h : WavHead) (n : Nat) (st : Stage) : DecUnit :=
  ({ u.started with hdr := h.loaded n }.setPhase (parsePhase st)).consume n

/-- A header parse of the first `n` bytes of its header stands inside the read or skip they end in, with
the bytes that read got and the registers of the records before it (R34, R172, R187). -/
theorem DecUnit.steps_parse_part (u : DecUnit) (cmd : DecCmd) (h : WavHead) (hok : h.Ok) (n : Nat)
    (hn : n < h.bytes.length) (hb : u.inp.ready = h.bytes.take n) :
    ∃ st got need p, cutAt h.reads n = some (st, got, need) ∧ got ≤ n ∧
      p.Inside st need (u.inp.ready.drop (n - got)) ∧
      (u.begin cmd).Steps ((u.parsing h n st).goto ⟨cmd, u.ctl.sampleBo, .releasing⟩ p) := by
  obtain ⟨hfmt, hext, hcs⟩ := hok
  have hl : u.inp.ready.length = n := by rw [hb]; simp; omega
  rw [DecUnit.begin_eq]
  generalize (⟨cmd, u.ctl.sampleBo, .releasing⟩ : DecRun) = r
  rw [WavHead.bytes_eq] at hb
  have hi : u.started.inp = u.inp := rfl
  by_cases h12 : n < 12
  · refine ⟨.riffRecord, n, 12, _, by simp [WavHead.reads, cutAt, h12], le_refl _,
      .inl ⟨.riff, rfl, rfl⟩, ?_⟩
    have := DecUnit.steps_read_part u.started r .riff 12 _ [] [] (List.append_nil _).symm
      (by rw [hi, hl]; simpa using h12)
    rw [hi, hl] at this
    simpa [DecUnit.parsing, parsePhase, WavHead.loaded, h12, show n < 36 by omega, show n < 38 by omega,
      DecUnit.setPhase, Ctl.setPhase, DecUnit.started, DecHeader.zero] using this
  rw [List.take_append, List.take_of_length_le (by simpa using h12)] at hb
  have sr := DecUnit.steps_read u.started r .riff 12 (tagRiff ++ bytesLe32 h.riffSize ++ tagWave) _ []
    hb (by simp [tagRiff]) rfl
  have hb1 := DecUnit.consume_ready u.started hb
  simp only [DecUnit.afterRead, List.nil_append, DecUnit.afterRiff, slice_riff_ident, slice_riff_type,
    ne_eq, not_true_eq_false, if_false, DecHeader.loadRiff_bytes] at sr
  set v : DecUnit := DecUnit.setPhase _ .riffVerified with hv
  have hve : v = ({ u.started with hdr := { DecHeader.zero with
      riffIdent := 0x46464952#32, riffSize := h.riffSize, riffType := 0x45564157#32 } }.setPhase
        .riffVerified).consume 12 := rfl
  have hvl : v.inp.ready.length = n - 12 := by simp [hve, DecUnit.consume, hi, hl]
  have hvd : ∀ k, v.inp.ready.drop k = u.inp.ready.drop (12 + k) := by
    simp [hve, DecUnit.consume, hi, List.drop_drop]
  by_cases h16 : n < 16
  · refine ⟨.fmtTag, n - 12, 4, _, by simp [WavHead.reads, cutAt, h12]; omega, by omega,
      .inl ⟨.fmtTag, rfl, rfl⟩, ?_⟩
    have := DecUnit.steps_read_part v r .fmtTag 4 _ [] [] (List.append_nil _).symm (by rw [hvl]; simp; omega)
    rw [hvl, hve, DecUnit.consume_consume, ← hve, show 12 + (n - 12) = n by omega] at this
    refine sr.trans ?_
    have e := hvd 0
    rw [List.drop_zero] at e
    rw [show n - (n - 12) = 12 + 0 by omega, ← e]
    simpa [DecUnit.parsing, parsePhase, WavHead.loaded, h12, show n < 36 by omega, show n < 38 by omega,
      DecUnit.setPhase, Ctl.setPhase, DecUnit.started, DecHeader.zero] using this
  rw [List.take_append, List.take_of_length_le (by simp; omega),
    show n - (tagRiff ++ bytesLe32 h.riffSize ++ tagWave).length = n - 12 from rfl] at hb1
  have sr2 := DecUnit.steps_read v r .fmtTag 4 tagFmt _ [] hb1 (by simp [tagFmt]) rfl
  simp only [DecUnit.afterRead, List.nil_append, DecUnit.afterFmtTag, ne_eq, not_true_eq_false,
    if_false] at sr2
  set v2 : DecUnit := DecUnit.setPhase _ .fmtVerified with hv2
  have hv2e : v2 = ({ u.started with hdr := { DecHeader.zero with
      riffIdent := 0x46464952#32, riffSize := h.riffSize, riffType := 0x45564157#32 } }.setPhase
        .fmtVerified).consume 16 := by
    rw [hv2, hve]
    show DecUnit.setPhase ((DecUnit.consume _ 12).consume 4) _ = _
    rw [DecUnit.consume_consume]; rfl
  have hvl2 : v2.inp.ready.length = n - 16 := by simp [hv2e, DecUnit.consume, hi, hl]
  by_cases h36 : n < 36
  · refine ⟨.fmtRecord, n - 16, 20, _, ?_, by omega, .inl ⟨.fmtRecord, rfl, rfl⟩, ?_⟩
    · simp [WavHead.reads, cutAt, h12, show ¬ (n - 12 < 4) by omega, show n - 12 - 4 < 20 by omega]
      omega
    have := DecUnit.steps_read_part v2 r .fmtRecord 20 _ [] [] (List.append_nil _).symm (by rw [hvl2]; simp; omega)
    rw [hvl2, hv2e, DecUnit.consume_consume, ← hv2e, show 16 + (n - 16) = n by omega] at this
    refine sr.trans (sr2.trans ?_)
    have e : v2.inp.ready = u.inp.ready.drop 16 := by rw [hv2e]; rfl
    rw [show n - (n - 16) = 16 by omega, ← e]
    simpa [DecUnit.parsing, parsePhase, WavHead.loaded, h12, h36, show n < 38 by omega,
      DecUnit.setPhase, Ctl.setPhase, DecUnit.started, DecHeader.zero] using this
  clear sr sr2 hb1
  have hbF : u.started.inp.ready = (tagRiff ++ bytesLe32 h.riffSize ++ tagWave) ++ (tagFmt ++
      (formatRecord h.fmt ++ (h.extBytes ++ scanBytes h.chunks h.dataSize).take (n - 36))) := by
    rw [hi, hb, List.take_append, List.take_of_length_le (l := tagFmt) (by simp; omega),
      List.take_append, List.take_of_length_le (l := formatRecord h.fmt) (by simp [formatRecord]; omega)]
    simp only [List.append_assoc, List.length_append, tagRiff_length, bytesLe32_length, tagWave_length,
      tagFmt_length, show (formatRecord h.fmt).length = 20 from rfl]
    simp [Nat.sub_sub]
  have sf := DecUnit.steps_formatted u.started r h hfmt _ hbF
  set w := ((u.started.formatted h).consume 36) with hw
  have hwr : w.inp.ready = (h.extBytes ++ scanBytes h.chunks h.dataSize).take (n - 36) :=
    DecUnit.consume_ready (u.started.formatted h) (bs := tagRiff ++ bytesLe32 h.riffSize ++ tagWave ++
      tagFmt ++ formatRecord h.fmt) (by simpa only [List.append_assoc] using
        (show (u.started.formatted h).inp.ready = _ from hbF))
  have hwl : w.inp.ready.length = n - 36 := by
    simp [hw, DecUnit.consume, DecUnit.formatted, hi, hl]
  have hwd : ∀ k, w.inp.ready.drop k = u.inp.ready.drop (36 + k) := by
    simp [hw, DecUnit.consume, DecUnit.formatted, hi, List.drop_drop]
  have hn' : n - 36 < (h.extBytes ++ scanBytes h.chunks h.dataSize).length := by
    rw [WavHead.bytes_length] at hn; simp; omega
  have cut36 : cutAt h.reads n = cutAt (if h.fmt.fmtLen = 16#32 then scanReads h.chunks
      else (.extraSize, 2) :: (.extraSkip, h.ext.length) :: scanReads h.chunks) (n - 36) := by
    simp only [WavHead.reads, cutAt, if_neg h12, if_neg (show ¬ n - 12 < 4 by omega),
      if_neg (show ¬ n - 12 - 4 < 20 by omega), show n - 12 - 4 - 20 = n - 36 by omega]
  by_cases hlen : h.fmt.fmtLen = 16#32
  · have hx : h.extBytes = [] := by simp [WavHead.extBytes, hlen]
    rw [if_neg (by simpa using hlen)] at sf
    rw [hx, List.nil_append] at hwr hn'
    rw [if_pos hlen] at cut36
    obtain ⟨st, got, need, p, hcut, hgot, hp, hst, hs⟩ := DecUnit.steps_scan_part
      (w.setPhase .chunkScanning) r h.chunks hcs h.dataSize (n - 36) hn' hwr
    refine ⟨st, got, need, p, cut36.trans hcut, by omega, ?_,
      sf.trans (.head (v := (w.setPhase .chunkScanning).goto r _) rfl ?_)⟩
    · have := hwd (n - 36 - got)
      rw [show 36 + (n - 36 - got) = n - got by omega] at this
      rw [← this]; exact hp
    · convert hs using 1
      rw [show w.setPhase .chunkScanning = ((u.started.formatted h).setPhase .chunkScanning).consume 36
        from rfl, DecUnit.consume_consume, show 36 + (n - 36) = n by omega]
      rcases hst with rfl | rfl <;>
        simp [DecUnit.parsing, parsePhase, WavHead.loaded, DecUnit.formatted, h12, h36, hlen,
          DecUnit.setPhase, Ctl.setPhase, DecUnit.started, DecHeader.zero]
  · have hx : h.extBytes = bytesLe16 (BitVec.ofNat 16 h.ext.length) ++ h.ext := by
      simp [WavHead.extBytes, hlen]
    rw [if_pos hlen] at sf
    rw [if_neg hlen] at cut36
    by_cases h38 : n < 38
    · refine ⟨.extraSize, n - 36, 2, _, by rw [cut36]; simp [cutAt]; omega, by omega,
        .inl ⟨.extraSize, rfl, rfl⟩, ?_⟩
      have := DecUnit.steps_read_part w r .extraSize 2 _ [] [] (List.append_nil _).symm (by rw [hwl]; simp; omega)
      rw [hwl, hw, DecUnit.consume_consume, ← hw, show 36 + (n - 36) = n by omega] at this
      refine sf.trans ?_
      have e := hwd 0
      rw [List.drop_zero] at e
      rw [show n - (n - 36) = 36 + 0 by omega, ← e]
      convert this using 1
      simp [DecUnit.parsing, parsePhase, WavHead.loaded, DecUnit.formatted, h12, h36, h38,
          DecUnit.setPhase, Ctl.setPhase, DecUnit.started, DecHeader.zero]
    have hcb : (BitVec.ofNat 16 h.ext.length).toNat = h.ext.length := by
      simpa using Nat.mod_eq_of_lt hext
    rw [hx, List.append_assoc] at hwr hn'
    have b2 : (bytesLe16 (BitVec.ofNat 16 h.ext.length)).length = 2 := rfl
    rw [List.take_append, List.take_of_length_le (by rw [b2]; omega), b2] at hwr
    have s3 := DecUnit.steps_read w r .extraSize 2 _ _ [] hwr (by simp [bytesLe16]) rfl
    have hb5 := DecUnit.consume_ready _ hwr
    rw [b2] at hb5 s3
    simp only [DecUnit.afterRead, List.nil_append, DecUnit.afterExtraSize, DecHeader.loadExtraSize,
      le16_bytesLe16, hcb] at s3
    set x : DecUnit := { DecUnit.consume _ _ with hdr := _ } with hxd
    set y : DecUnit := { u.started.formatted h with
      hdr := { (u.started.formatted h).hdr with extraSize := BitVec.ofNat 16 h.ext.length } } with hy
    have hxe : x = y.consume 38 := by
      rw [hxd, hw, DecUnit.consume_consume]; rfl
    have hxl : x.inp.ready.length = n - 38 := by
      rw [hxe]; simp [hy, DecUnit.consume, DecUnit.formatted, hi, hl]
    have hxd : ∀ k, x.inp.ready.drop k = u.inp.ready.drop (38 + k) := by
      rw [hxe]; simp [hy, DecUnit.consume, DecUnit.formatted, hi, List.drop_drop]
    replace hb5 : x.inp.ready = _ := hb5
    by_cases hskip : n - 38 < h.ext.length
    · refine ⟨.extraSkip, n - 38, h.ext.length, _, ?_, by omega, .inr ⟨.extension, rfl, rfl⟩, ?_⟩
      · rw [cut36]; simp [cutAt, show ¬ n - 36 < 2 by omega, show n - 36 - 2 < h.ext.length by omega]
        omega
      · rw [DecUnit.startSkip, if_neg (by omega)] at s3
        have := DecUnit.steps_skip_part x r .extension h.ext.length _ [] 0 (List.append_nil _).symm
          (by rw [hxl]; simpa using hskip)
        rw [hxl, hxe, DecUnit.consume_consume, ← hxe, show 38 + (n - 38) = n by omega] at this
        refine sf.trans (s3.trans ?_)
        convert this using 1
        simp [DecUnit.parsing, parsePhase, WavHead.loaded, DecUnit.formatted, h12, h36, h38, hlen, hl, hy,
          show n - (n - (n - 38)) = n - 38 by omega,
          DecUnit.setPhase, Ctl.setPhase, DecUnit.started, DecHeader.zero]
    · rw [show n - 36 - 2 = n - 38 by omega, List.take_append,
        List.take_of_length_le (l := h.ext) (by omega)] at hb5
      have s4 := DecUnit.steps_startSkip x r .extension h.ext _ hb5
      set z : DecUnit := ((x.consume h.ext.length).setPhase .extraParamsSkipped).setPhase .chunkScanning
        with hz
      have hze : z = (y.setPhase .chunkScanning).consume (38 + h.ext.length) := by
        rw [hz, hxe, DecUnit.consume_consume]; rfl
      obtain ⟨st, got, need, p, hcut, hgot, hp, hst, hs⟩ := DecUnit.steps_scan_part z r h.chunks hcs
        h.dataSize (n - 38 - h.ext.length) (by rw [List.length_append, b2, List.length_append] at hn'; omega) (DecUnit.consume_ready x hb5)
      refine ⟨st, got, need, p, ?_, by omega, ?_, sf.trans (s3.trans (s4.trans (.head (v := z.goto r _) rfl ?_)))⟩
      · rw [cut36]
        simp only [cutAt, if_neg (show ¬ n - 36 < 2 by omega),
          show n - 36 - 2 = n - 38 by omega, if_neg hskip, hcut]
      · have : z.inp.ready.drop (n - 38 - h.ext.length - got) = u.inp.ready.drop (n - got) := by
          rw [hze]
          simp only [DecUnit.consume, DecUnit.setPhase, hy, DecUnit.formatted, hi, List.drop_drop]
          congr 1; omega
        rwa [this] at hp
      · convert hs using 1
        rw [hze, DecUnit.consume_consume,
          show 38 + h.ext.length + (n - 38 - h.ext.length) = n by omega]
        rcases hst with rfl | rfl <;>
          simp [DecUnit.parsing, parsePhase, WavHead.loaded, DecUnit.formatted, h12, h36, h38, hlen, hy,
            DecUnit.setPhase, Ctl.setPhase, DecUnit.started, DecHeader.zero]
/-! ### Commands as wholes -/

/-- A decode command is its job started on the selected decoder. -/
theorem exec_decCmd (cmd : DecCmd) (s : State) : exec cmd.instr s = s.startDec cmd := by
  cases cmd with
  | header => rfl
  | samples kind => cases kind <;> rfl

/-- A decode command that reaches a unit which can take no more steps ends there (R283). -/
theorem State.startDec_eq {s : State} {u v : DecUnit} {cmd : DecCmd} (hu : s.decs[s.sel]? = some u)
    (hp : s.pace = none) (h : (u.begin cmd).Steps v) (hv : v.advance = none) :
    s.startDec cmd = .next (s.setDec s.sel v) := by
  simp only [State.startDec, hu, State.turn, hp, Option.getD_none]
  rw [h.runFor_eq hv (le_refl _)]

/-- A sample command on a header of its format code, its first elements all there, decodable, and taken
by the sink (R210, R220). -/
theorem DecUnit.steps_payload (u : DecUnit) (kind : SampleKind) (h : WavHead) (hok : h.Ok)
    (hcode : h.fmt.audioFormat = kind.formatCode) (es : List (List Byte)) (rest : List Byte)
    (hlen : ∀ e ∈ es, e.length = kind.size)
    (hdec : ∀ e ∈ es, decodable kind (elementWord kind u.ctl.sampleBo e) = true)
    (hroom : es.length ≤ u.sout.room) (left : Nat)
    (hsize : h.dataSize.toNat / kind.size = es.length + left)
    (hb : u.inp.ready = h.bytes ++ (es.flatten ++ rest)) :
    (u.begin (.samples kind)).Steps
      (((((u.started.parsedAs h).setPhase .samplesDecoding).consume es.flatten.length).emit
        (es.map (elementWord kind u.ctl.sampleBo))).nextElement
          ⟨.samples kind, u.ctl.sampleBo, .releasing⟩ kind left) := by
  refine (DecUnit.steps_parse u (.samples kind) h hok _ hb).trans ?_
  have step : ((u.started.parsedAs h).goto ⟨.samples kind, u.ctl.sampleBo, .releasing⟩ .parsed).advance
      = some (((u.started.parsedAs h).setPhase .samplesDecoding).nextElement
        ⟨.samples kind, u.ctl.sampleBo, .releasing⟩ kind (es.length + left)) := by
    have hc : ((u.started.parsedAs h)).hdr.audioFormat = kind.formatCode := hcode
    have hd : (u.started.parsedAs h).hdr.dataSize = h.dataSize := rfl
    simp only [DecUnit.advance, DecUnit.goto, DecUnit.afterParse, hc, hd, hsize]
    simp only [ne_eq, not_true_eq_false, if_false]
    cases es.length + left <;> rfl
  refine .head step ?_
  refine DecUnit.steps_elements ((u.started.parsedAs h).setPhase .samplesDecoding)
    ⟨.samples kind, u.ctl.sampleBo, .releasing⟩ kind es rest ?_ hlen hdec hroom left
  exact DecUnit.consume_ready u.started hb

end Sys2Proof.Machine
end

