-- ==== Sys2Proof/Laws/Frame.lean ====
section
/-! SUPPORT. Frames: what the steps of a running command leave alone, and how they move the streams and the counters. -/

set_option linter.unusedSimpArgs false

namespace Sys2Proof.Machine

open Sys2Proof.Config (Params)

/-- What steps of a decoder leave alone, and how its streams and counters move (R31, R32, R66, R71). -/
structure DecUnit.StreamFrame (u v : DecUnit) : Prop where
  bo : v.ctl.sampleBo = u.ctl.sampleBo
  ovr : v.ctl.ovr = u.ctl.ovr
  st : u.ctl.stickyErr = true → v.ctl.stickyErr = true
  past : v.inp.past = u.inp.past ∧ v.sout.removed = u.sout.removed ∧ v.sout.past = u.sout.past
  ex : ∃ got new, u.inp.ready = got ++ v.inp.ready ∧ v.inp.term = u.inp.term ∧
      v.inp.taken = u.inp.taken ++ got ∧
      v.ctl.ioCount = u.ctl.ioCount + BitVec.ofNat 32 got.length ∧
      v.sout.words = u.sout.words ++ new ∧ v.sout.room + new.length = u.sout.room ∧
      v.ctl.sampleCount = u.ctl.sampleCount + BitVec.ofNat 32 new.length

/-- No step. -/
theorem DecUnit.StreamFrame.refl (u : DecUnit) : DecUnit.StreamFrame u u :=
  ⟨rfl, rfl, id, ⟨rfl, rfl, rfl⟩, [], [], by simp⟩

/-- Some steps, then some more. -/
theorem DecUnit.StreamFrame.trans {u v w : DecUnit} (a : DecUnit.StreamFrame u v) (b : DecUnit.StreamFrame v w) : DecUnit.StreamFrame u w := by
  obtain ⟨g, n, h1, h2, h3, h4, h5, h6, h7⟩ := a.ex
  obtain ⟨g', n', k1, k2, k3, k4, k5, k6, k7⟩ := b.ex
  refine ⟨b.bo.trans a.bo, b.ovr.trans a.ovr, fun h => b.st (a.st h),
    ⟨b.past.1.trans a.past.1, b.past.2.1.trans a.past.2.1, b.past.2.2.trans a.past.2.2⟩, g ++ g', n ++ n', ?_, k2.trans h2, ?_, ?_, ?_, ?_, ?_⟩
  · rw [h1, k1]; simp
  · rw [k3, h3]; simp
  · rw [k4, h4]; simp [BitVec.ofNat_add, BitVec.add_assoc]
  · rw [k5, h5]; simp
  · simp; omega
  · rw [k7, h7]; simp [BitVec.ofNat_add, BitVec.add_assoc]

/-- A change of nothing the frame speaks of. -/
theorem DecUnit.StreamFrame.same {u v : DecUnit} (h : v.inp = u.inp) (h' : v.sout = u.sout) (h1 : v.ctl.sampleBo = u.ctl.sampleBo) (h2 : v.ctl.ovr = u.ctl.ovr) (h3 : v.ctl.ioCount = u.ctl.ioCount) (h4 : v.ctl.sampleCount = u.ctl.sampleCount) (h5 : u.ctl.stickyErr = true → v.ctl.stickyErr = true) : DecUnit.StreamFrame u v :=
  ⟨h1, h2, h5, by simp [h, h'], [], [], by simp [h, h', h3, h4]⟩

/-- A byte of IN. -/
theorem DecUnit.StreamFrame.consume1 {u : DecUnit} {b bs} (h : u.inp.ready = b :: bs) : DecUnit.StreamFrame u (u.consume 1) :=
  ⟨rfl, rfl, id, ⟨rfl, rfl, rfl⟩, [b], [], by simp [DecUnit.consume, h]⟩

/-- A word of SOUT. -/
theorem DecUnit.StreamFrame.emit1 {u : DecUnit} {w} (h : 0 < u.sout.room) : DecUnit.StreamFrame u (u.emit [w]) :=
  ⟨rfl, rfl, id, ⟨rfl, rfl, rfl⟩, [], [w], by simp [DecUnit.emit]; omega⟩

/-- Starting a skip moves no stream. -/
theorem DecUnit.startSkip_frame (u : DecUnit) (r k n) : DecUnit.StreamFrame u (u.startSkip r k n) := by
  unfold DecUnit.startSkip; split
  · cases k <;> exact DecUnit.StreamFrame.same rfl rfl rfl rfl rfl rfl id
  · exact DecUnit.StreamFrame.same rfl rfl rfl rfl rfl rfl id

/-- Going on to the next element moves no stream. -/
theorem DecUnit.nextElement_frame (u : DecUnit) (r k n) : DecUnit.StreamFrame u (u.nextElement r k n) := by
  unfold DecUnit.nextElement; split
  · exact DecUnit.StreamFrame.same rfl rfl rfl rfl rfl rfl id
  · split <;> exact DecUnit.StreamFrame.same rfl rfl rfl rfl rfl rfl id

/-- What follows a complete read moves no stream. -/
theorem DecUnit.afterRead_frame (u : DecUnit) (r w b) : DecUnit.StreamFrame u (u.afterRead r w b) := by
  cases w
  · simp only [DecUnit.afterRead, DecUnit.afterRiff]; split
    · exact DecUnit.StreamFrame.same rfl rfl rfl rfl rfl rfl id
    · split <;> exact DecUnit.StreamFrame.same rfl rfl rfl rfl rfl rfl id
  · simp only [DecUnit.afterRead, DecUnit.afterFmtTag]; split <;> exact DecUnit.StreamFrame.same rfl rfl rfl rfl rfl rfl id
  · simp only [DecUnit.afterRead, DecUnit.afterFmtRecord]; split
    · exact DecUnit.StreamFrame.same rfl rfl rfl rfl rfl rfl id
    · split <;> exact DecUnit.StreamFrame.same rfl rfl rfl rfl rfl rfl id
  · exact DecUnit.StreamFrame.trans (v := { u with hdr := u.hdr.loadExtraSize b }) (DecUnit.StreamFrame.same rfl rfl rfl rfl rfl rfl id) (DecUnit.startSkip_frame ..)
  · simp only [DecUnit.afterRead, DecUnit.afterChunkHeader]; split
    · exact DecUnit.StreamFrame.same rfl rfl rfl rfl rfl rfl id
    · exact DecUnit.startSkip_frame ..
  · simp only [DecUnit.afterRead, DecUnit.afterElement]; split <;> exact DecUnit.StreamFrame.same rfl rfl rfl rfl rfl rfl id
  · exact DecUnit.StreamFrame.same rfl rfl rfl rfl rfl rfl id

/-- One step. -/
theorem DecUnit.StreamFrame.adv {u v : DecUnit} (h : u.advance = some v) : DecUnit.StreamFrame u v := by
  obtain ⟨r, hr, hs⟩ := DecUnit.advance_step h
  cases hs with
  | readByte hp hready => exact (DecUnit.StreamFrame.consume1 hready).trans (DecUnit.StreamFrame.same rfl rfl rfl rfl rfl rfl id)
  | readLast hp hready => exact (DecUnit.StreamFrame.consume1 hready).trans (DecUnit.afterRead_frame ..)
  | readStop => exact DecUnit.StreamFrame.same rfl rfl rfl rfl rfl rfl id
  | skipByte hp hready => exact (DecUnit.StreamFrame.consume1 hready).trans (DecUnit.StreamFrame.same rfl rfl rfl rfl rfl rfl id)
  | @skipLast what need got b bs hp hready => exact (DecUnit.StreamFrame.consume1 hready).trans (by cases what <;> exact DecUnit.StreamFrame.same rfl rfl rfl rfl rfl rfl id)
  | skipStop => exact DecUnit.StreamFrame.same rfl rfl rfl rfl rfl rfl id
  | scan => exact DecUnit.StreamFrame.same rfl rfl rfl rfl rfl rfl id
  | parse =>
    simp only [DecUnit.afterParse]
    split
    · exact DecUnit.StreamFrame.same rfl rfl rfl rfl rfl rfl id
    · split
      · exact DecUnit.StreamFrame.same rfl rfl rfl rfl rfl rfl id
      · exact DecUnit.StreamFrame.trans (v := u.setPhase .samplesDecoding) (DecUnit.StreamFrame.same rfl rfl rfl rfl rfl rfl id) (DecUnit.nextElement_frame ..)
  | append hp hroom => exact (DecUnit.StreamFrame.emit1 hroom).trans (DecUnit.nextElement_frame ..)
  | @record e hp => cases e
                    · exact DecUnit.StreamFrame.same rfl rfl rfl rfl rfl rfl id
                    · exact DecUnit.StreamFrame.same rfl rfl rfl rfl rfl rfl (fun _ => rfl)
  | release => exact DecUnit.StreamFrame.same rfl rfl rfl rfl rfl rfl id

/-- Any number of steps. -/
theorem DecUnit.StreamFrame.steps {u v : DecUnit} (h : u.Steps v) : DecUnit.StreamFrame u v := by
  induction h with
  | refl => exact DecUnit.StreamFrame.refl _
  | head a _ ih => exact (DecUnit.StreamFrame.adv a).trans ih

/-- exec of a decode command, when it answers a next state. -/
theorem exec_decCmd_next {s t : State} {u} {cmd : DecCmd} (hu : s.decs[s.sel]? = some u) (h : exec cmd.instr s = .next t) :
    ∃ n, t = s.setDec s.sel ((u.begin cmd).runFor n) := by
  rw [exec_decCmd] at h
  simp only [State.startDec, hu] at h
  cases h; exact ⟨_, rfl⟩

/-- An encoder whose command has nothing left to do but end. -/
def EncUnit.Closing (v : EncUnit) : Prop := v.run = none ∨ ∃ r, v.run = some r ∧ (r.pos = .releasing ∨ ∃ e, r.pos = .ending e)

/-- What one step of an encoder does to its streams, its byte count and the registers no command writes (R69, R70). -/
theorem EncUnit.advance_streams {p} {u v : EncUnit} (h : u.advance p = some v) : v.ctl.sampleBo = u.ctl.sampleBo ∧ v.ctl.ovr = u.ctl.ovr ∧ (u.ctl.stickyErr = true → v.ctl.stickyErr = true) ∧
   ∃ new used got, v.out.bytes = u.out.bytes ++ new ∧ u.out.answers = used ++ v.out.answers ∧
      (used = List.replicate new.length Answer.ack ∨ new = [] ∧ used = [.fail] ∧ EncUnit.Closing v) ∧
      (EncUnit.Closing u → EncUnit.Closing v ∧ new = [] ∧ used = []) ∧
      v.ctl.ioCount = u.ctl.ioCount + BitVec.ofNat 32 new.length ∧
      u.sin.ready = got ++ v.sin.ready ∧ v.sin.taken = u.sin.taken ++ got := by
  obtain ⟨r, hr, hs⟩ := EncUnit.advance_step h
  have hdead : EncUnit.Closing u → (r.pos = .releasing ∨ ∃ e, r.pos = .ending e) := by
    rintro (h | ⟨r', hr', h⟩)
    · rw [h] at hr; cases hr
    · rw [hr'] at hr; cases hr; exact h
  cases hs with
  | constructed hp => exact ⟨rfl, rfl, id, [], [], [], by simp, by simp, by simp, (fun hd => by rcases hdead hd with h | ⟨e, h⟩ <;> rw [hp] at h <;> cases h), by simp, by simp, by simp⟩
  | construct hp => exact ⟨rfl, rfl, id, [], [], [], by simp, by simp, by simp, (fun hd => by rcases hdead hd with h | ⟨e, h⟩ <;> rw [hp] at h <;> cases h), by simp, by simp, by simp⟩
  | @headerDone sent next hp =>
    rcases next with _ | ⟨k, n | n⟩ <;> exact ⟨rfl, rfl, id, [], [], [], by simp [EncUnit.afterHeader, EncUnit.nextSample], by simp [EncUnit.afterHeader, EncUnit.nextSample], by simp, (fun hd => by rcases hdead hd with h | ⟨e, h⟩ <;> rw [hp] at h <;> cases h), by simp [EncUnit.afterHeader, EncUnit.nextSample], by simp [EncUnit.afterHeader, EncUnit.nextSample], by simp [EncUnit.afterHeader, EncUnit.nextSample]⟩
  | @headerByte b bs sent next as hp ha => exact ⟨rfl, rfl, id, [b], [.ack], [], by simp [EncUnit.send], by simp [EncUnit.send, ha], by simp, (fun hd => by rcases hdead hd with h | ⟨e, h⟩ <;> rw [hp] at h <;> cases h), by simp [EncUnit.send], by simp [EncUnit.send], by simp [EncUnit.send]⟩
  | @headerFail b bs sent next as hp ha => exact ⟨rfl, rfl, id, [], [.fail], [], by simp [EncUnit.refused], by simp [EncUnit.refused, ha], .inr ⟨rfl, rfl, .inr ⟨_, rfl, .inr ⟨_, rfl⟩⟩⟩, (fun hd => by rcases hdead hd with h | ⟨e, h⟩ <;> rw [hp] at h <;> cases h), by simp [EncUnit.refused], by simp [EncUnit.refused], by simp [EncUnit.refused]⟩
  | @take kind left w ws hp hready => exact ⟨rfl, rfl, id, [], [], [w], by simp [EncUnit.takeWords], by simp [EncUnit.takeWords], by simp, (fun hd => by rcases hdead hd with h | ⟨e, h⟩ <;> rw [hp] at h <;> cases h), by simp [EncUnit.takeWords], by simp [EncUnit.takeWords, hready], by simp [EncUnit.takeWords, hready]⟩
  | @takeBad kind left w ws hp hready => exact ⟨rfl, rfl, id, [], [], [w], by simp [EncUnit.takeWords], by simp [EncUnit.takeWords], by simp, (fun hd => by rcases hdead hd with h | ⟨e, h⟩ <;> rw [hp] at h <;> cases h), by simp [EncUnit.takeWords], by simp [EncUnit.takeWords, hready], by simp [EncUnit.takeWords, hready]⟩
  | @elementDone sent kind left hp => cases left <;> exact ⟨rfl, rfl, id, [], [], [], by simp [EncUnit.countSamples, EncUnit.nextSample], by simp [EncUnit.countSamples, EncUnit.nextSample], by simp, (fun hd => by rcases hdead hd with h | ⟨e, h⟩ <;> rw [hp] at h <;> cases h), by simp [EncUnit.countSamples, EncUnit.nextSample], by simp [EncUnit.countSamples, EncUnit.nextSample], by simp [EncUnit.countSamples, EncUnit.nextSample]⟩
  | @elementByte b bs sent kind left as hp ha => exact ⟨rfl, rfl, id, [b], [.ack], [], by simp [EncUnit.send], by simp [EncUnit.send, ha], by simp, (fun hd => by rcases hdead hd with h | ⟨e, h⟩ <;> rw [hp] at h <;> cases h), by simp [EncUnit.send], by simp [EncUnit.send], by simp [EncUnit.send]⟩
  | @elementFail b bs sent kind left as hp ha => exact ⟨rfl, rfl, id, [], [.fail], [], by simp [EncUnit.refused], by simp [EncUnit.refused, ha], .inr ⟨rfl, rfl, .inr ⟨_, rfl, .inr ⟨_, rfl⟩⟩⟩, (fun hd => by rcases hdead hd with h | ⟨e, h⟩ <;> rw [hp] at h <;> cases h), by simp [EncUnit.refused], by simp [EncUnit.refused], by simp [EncUnit.refused]⟩
  | @record e hp => cases e
                    · exact ⟨rfl, rfl, id, [], [], [], by simp, by simp, by simp, fun _ => ⟨.inr ⟨_, rfl, .inl rfl⟩, rfl, rfl⟩, by simp, by simp, by simp⟩
                    · exact ⟨rfl, rfl, fun _ => rfl, [], [], [], by simp, by simp, by simp, fun _ => ⟨.inr ⟨_, rfl, .inl rfl⟩, rfl, rfl⟩, by simp, by simp, by simp⟩
  | release hp => exact ⟨rfl, rfl, id, [], [], [], by simp, by simp, by simp, fun _ => ⟨.inl rfl, rfl, rfl⟩, by simp [Ctl.release], by simp, by simp⟩

/-- A step of an encoder leaves the record of its earlier streams alone (R284). -/
theorem EncUnit.advance_past {p} {u v : EncUnit} (h : u.advance p = some v) :
    v.out.past = u.out.past ∧ v.sin.past = u.sin.past := by
  obtain ⟨r, hr, hs⟩ := EncUnit.advance_step h
  cases hs with
  | @headerDone sent next => rcases next with _ | ⟨k, n | n⟩ <;> exact ⟨rfl, rfl⟩
  | @elementDone sent kind left => cases left <;> exact ⟨rfl, rfl⟩
  | _ => exact ⟨rfl, rfl⟩

/-- The same of any number of steps. -/
theorem EncUnit.steps_past {p} {u v : EncUnit} (h : u.Steps p v) :
    v.out.past = u.out.past ∧ v.sin.past = u.sin.past := by
  induction h with
  | refl => exact ⟨rfl, rfl⟩
  | head a _ ih => exact ⟨ih.1.trans (advance_past a).1, ih.2.trans (advance_past a).2⟩

/-- The same of any number of steps. -/
theorem EncUnit.steps_streams {p} {u v : EncUnit} (h : u.Steps p v) : v.ctl.sampleBo = u.ctl.sampleBo ∧ v.ctl.ovr = u.ctl.ovr ∧ (u.ctl.stickyErr = true → v.ctl.stickyErr = true) ∧
   ∃ new used got, v.out.bytes = u.out.bytes ++ new ∧ u.out.answers = used ++ v.out.answers ∧
      (used = List.replicate new.length Answer.ack ∨ used = List.replicate new.length Answer.ack ++ [.fail]) ∧ (EncUnit.Closing u → new = [] ∧ used = []) ∧
      v.ctl.ioCount = u.ctl.ioCount + BitVec.ofNat 32 new.length ∧
      u.sin.ready = got ++ v.sin.ready ∧ v.sin.taken = u.sin.taken ++ got := by
  induction h with
  | refl => exact ⟨rfl, rfl, id, [], [], [], by simp⟩
  | head a _ ih =>
    obtain ⟨a1, a2, a3, n, us, g, b1, b2, b3, b4, b5, b6, b7⟩ := EncUnit.advance_streams a
    obtain ⟨c1, c2, c3, n', us', g', d1, d2, d3, d4, d5, d6, d7⟩ := ih
    refine ⟨c1.trans a1, c2.trans a2, fun h => c3 (a3 h), n ++ n', us ++ us', g ++ g', ?_, ?_, ?_, ?_, ?_, ?_, ?_⟩
    · rw [d1, b1]; simp
    · rw [b2, d2]; simp
    · rcases b3 with rfl | ⟨rfl, rfl, hd⟩
      · rcases d3 with rfl | rfl
        · left; simp
        · right; simp [← List.append_assoc]
      · obtain ⟨rfl, rfl⟩ := d4 hd
        right; simp
    · intro hd
      obtain ⟨e1, rfl, rfl⟩ := b4 hd
      obtain ⟨rfl, rfl⟩ := d4 e1
      simp
    · rw [d5, b5]; simp [BitVec.ofNat_add, BitVec.add_assoc]
    · rw [b6, d6]; simp
    · rw [d7, b7]; simp

/-- The job of an encoder command. -/
def Instr.job (i : Instr) : EncJob := match i with
  | .fmtNewPcm ch rate bits => .construct ⟨1#16, ch, rate, bits⟩
  | .fmtNewFloat ch rate bits => .construct ⟨3#16, ch, rate, bits⟩
  | .encInt16 n => .samples .int16 n
  | .encFloat32 n => .samples .float32 n
  | _ => .header

/-- exec of an encoder command, when it answers a next state. -/
theorem exec_encCmd_next {s t : State} {u} {i : Instr} (hi : i.unitKind = .enc) (hu : s.encs[s.sel]? = some u) (h : exec i s = .next t) :
    ∃ n, t = s.setEnc s.sel ((u.begin s.params (Instr.job i)).runFor s.params n) := by
  have : exec i s = s.startEnc (Instr.job i) := by cases i <;> first | rfl | (exact absurd hi (by decide))
  rw [this] at h
  simp only [State.startEnc, hu] at h
  cases h; exact ⟨_, rfl⟩

/-- An encoder that does not run a constructor. -/
def EncUnit.NotConstructing (u : EncUnit) : Prop := ∀ r, u.run = some r → ∀ a todo, r.pos ≠ .constructing a todo

/-- Away from a constructor no step writes a format register (R151). -/
theorem EncUnit.advance_notConstructing {p} {u v : EncUnit} (hn : EncUnit.NotConstructing u) (h : u.advance p = some v) : EncUnit.NotConstructing v ∧ v.fmt = u.fmt := by
  obtain ⟨r, hr, hs⟩ := EncUnit.advance_step h
  cases hs with
  | constructed hp => exact absurd hp (hn _ hr _ _)
  | construct hp => exact absurd hp (hn _ hr _ _)
  | @headerDone sent next hp => rcases next with _ | ⟨k, n | n⟩ <;> exact ⟨(fun r hr a todo hp => by cases hr; cases hp), rfl⟩
  | @elementDone sent kind left hp => cases left <;> exact ⟨(fun r hr a todo hp => by cases hr; cases hp), rfl⟩
  | release => exact ⟨(fun r hr a todo hp => by cases hr), rfl⟩
  | _ => exact ⟨(fun r hr a todo hp => by cases hr; cases hp), rfl⟩

/-- The same of any number of steps. -/
theorem EncUnit.steps_notConstructing {p} {u v : EncUnit} (h : u.Steps p v) (hn : EncUnit.NotConstructing u) : EncUnit.NotConstructing v ∧ v.fmt = u.fmt := by
  induction h with
  | refl => exact ⟨hn, rfl⟩
  | head a _ ih => obtain ⟨h1, h2⟩ := EncUnit.advance_notConstructing hn a; obtain ⟨h3, h4⟩ := ih h1; exact ⟨h3, h4.trans h2⟩

/-- An encoder that runs a constructor, or is ending one. -/
def EncUnit.Constructing (u : EncUnit) : Prop := EncUnit.Closing u ∨ ∃ r, u.run = some r ∧ ∃ a todo, r.pos = .constructing a todo

/-- A step of a constructor touches no stream, counter or size register (R125). -/
theorem EncUnit.advance_constructing {p} {u v : EncUnit} (hn : EncUnit.Constructing u) (h : u.advance p = some v) : EncUnit.Constructing v ∧ v.out = u.out ∧ v.sin = u.sin ∧ v.riffSize = u.riffSize ∧ v.dataSize = u.dataSize ∧ v.ctl.sampleCount = u.ctl.sampleCount ∧ v.ctl.ioCount = u.ctl.ioCount := by
  obtain ⟨r, hr, hs⟩ := EncUnit.advance_step h
  have hd : (r.pos = .releasing ∨ ∃ e, r.pos = .ending e) ∨ ∃ a todo, r.pos = .constructing a todo := by
    rcases hn with (h | ⟨r', hr', h⟩) | ⟨r', hr', h⟩
    · rw [h] at hr; cases hr
    · rw [hr'] at hr; cases hr; exact .inl h
    · rw [hr'] at hr; cases hr; exact .inr h
  cases hs with
  | constructed hp => exact ⟨.inl (.inr ⟨_, rfl, .inr ⟨_, rfl⟩⟩), rfl, rfl, rfl, rfl, rfl, rfl⟩
  | construct hp => exact ⟨.inr ⟨_, rfl, _, _, rfl⟩, rfl, rfl, rfl, rfl, rfl, rfl⟩
  | @record e hp => cases e <;> exact ⟨.inl (.inr ⟨_, rfl, .inl rfl⟩), rfl, rfl, rfl, rfl, rfl, rfl⟩
  | release => exact ⟨.inl (.inl rfl), rfl, rfl, rfl, rfl, rfl, rfl⟩
  | headerDone hp => rw [hp] at hd; simp at hd
  | headerByte hp => rw [hp] at hd; simp at hd
  | headerFail hp => rw [hp] at hd; simp at hd
  | take hp => rw [hp] at hd; simp at hd
  | takeBad hp => rw [hp] at hd; simp at hd
  | elementDone hp => rw [hp] at hd; simp at hd
  | elementByte hp => rw [hp] at hd; simp at hd
  | elementFail hp => rw [hp] at hd; simp at hd

/-- The same of any number of steps. -/
theorem EncUnit.steps_constructing {p} {u v : EncUnit} (h : u.Steps p v) (hn : EncUnit.Constructing u) : v.out = u.out ∧ v.sin = u.sin ∧ v.riffSize = u.riffSize ∧ v.dataSize = u.dataSize ∧ v.ctl.sampleCount = u.ctl.sampleCount ∧ v.ctl.ioCount = u.ctl.ioCount := by
  induction h with
  | refl => exact ⟨rfl, rfl, rfl, rfl, rfl, rfl⟩
  | head a _ ih => obtain ⟨h1, h2, h3, h4, h5, h6, h7⟩ := EncUnit.advance_constructing hn a; obtain ⟨k2, k3, k4, k5, k6, k7⟩ := ih h1; exact ⟨k2.trans h2, k3.trans h3, k4.trans h4, k5.trans h5, k6.trans h6, k7.trans h7⟩

/-- An encoder that writes the header of ENC_HEADER, or is ending it. -/
def EncUnit.WritingHeader (u : EncUnit) : Prop := EncUnit.Closing u ∨ ∃ r, u.run = some r ∧ ∃ a b, r.pos = .header a b none

/-- A step of ENC_HEADER takes no sample (R143). -/
theorem EncUnit.advance_writingHeader {p} {u v : EncUnit} (hn : EncUnit.WritingHeader u) (h : u.advance p = some v) : EncUnit.WritingHeader v ∧ v.sin = u.sin ∧ v.ctl.sampleCount = u.ctl.sampleCount := by
  obtain ⟨r, hr, hs⟩ := EncUnit.advance_step h
  have hd : (r.pos = .releasing ∨ ∃ e, r.pos = .ending e) ∨ ∃ a b, r.pos = .header a b none := by
    rcases hn with (h | ⟨r', hr', h⟩) | ⟨r', hr', h⟩
    · rw [h] at hr; cases hr
    · rw [hr'] at hr; cases hr; exact .inl h
    · rw [hr'] at hr; cases hr; exact .inr h
  cases hs with
  | constructed hp => rw [hp] at hd; simp at hd
  | construct hp => rw [hp] at hd; simp at hd
  | @record e hp => cases e <;> exact ⟨.inl (.inr ⟨_, rfl, .inl rfl⟩), rfl, rfl⟩
  | release => exact ⟨.inl (.inl rfl), rfl, rfl⟩
  | headerDone hp => rw [hp] at hd; simp at hd; subst hd; exact ⟨.inl (.inr ⟨_, rfl, .inr ⟨_, rfl⟩⟩), rfl, rfl⟩
  | headerByte hp => rw [hp] at hd; simp at hd; subst hd; exact ⟨.inr ⟨_, rfl, _, _, rfl⟩, rfl, rfl⟩
  | headerFail hp => exact ⟨.inl (.inr ⟨_, rfl, .inr ⟨_, rfl⟩⟩), rfl, rfl⟩
  | take hp => rw [hp] at hd; simp at hd
  | takeBad hp => rw [hp] at hd; simp at hd
  | elementDone hp => rw [hp] at hd; simp at hd
  | elementByte hp => rw [hp] at hd; simp at hd
  | elementFail hp => rw [hp] at hd; simp at hd

/-- The same of any number of steps. -/
theorem EncUnit.steps_writingHeader {p} {u v : EncUnit} (h : u.Steps p v) (hn : EncUnit.WritingHeader u) : v.sin = u.sin ∧ v.ctl.sampleCount = u.ctl.sampleCount := by
  induction h with
  | refl => exact ⟨rfl, rfl⟩
  | head a _ ih => obtain ⟨h1, h2, h3⟩ := EncUnit.advance_writingHeader hn a; obtain ⟨k2, k3⟩ := ih h1; exact ⟨k2.trans h2, k3.trans h3⟩

/-- Execution start leaves the streams, the format and the counters as they are (R241). -/
theorem EncUnit.begin_frame (p : Params) (u : EncUnit) (j : EncJob) : (u.begin p j).ctl.sampleBo = u.ctl.sampleBo ∧ (u.begin p j).ctl.ovr = u.ctl.ovr ∧ (u.begin p j).ctl.stickyErr = u.ctl.stickyErr ∧ (u.begin p j).out = u.out ∧ (u.begin p j).sin = u.sin ∧ (u.begin p j).ctl.ioCount = u.ctl.ioCount ∧ (u.begin p j).ctl.sampleCount = u.ctl.sampleCount ∧ (u.begin p j).fmt = u.fmt ∧ (u.begin p j).ctl.err = u.ctl.err := by
  cases j with
  | construct a => exact ⟨rfl, rfl, rfl, rfl, rfl, rfl, rfl, rfl, rfl⟩
  | header => rw [EncUnit.begin_header]; exact ⟨rfl, rfl, rfl, rfl, rfl, rfl, rfl, rfl, rfl⟩
  | samples k n =>
    by_cases hn : n.toNat ≤ nMax p k
    · rw [EncUnit.begin_samples _ _ _ _ hn]; exact ⟨rfl, rfl, rfl, rfl, rfl, rfl, rfl, rfl, rfl⟩
    · simp only [EncUnit.begin, EncUnit.prologue, gt_iff_lt, Nat.lt_of_not_le hn, if_true]; exact ⟨rfl, rfl, rfl, rfl, rfl, rfl, rfl, rfl, rfl⟩

/-- Only a constructor starts at a constructor position. -/
theorem EncUnit.begin_notConstructing (p : Params) (u : EncUnit) (j : EncJob) (hj : ∀ a, j ≠ .construct a) : EncUnit.NotConstructing (u.begin p j) := by
  cases j with
  | construct a => exact absurd rfl (hj a)
  | header => rw [EncUnit.begin_header]; intro r hr a t h; cases hr; cases h
  | samples k n =>
    by_cases hn : n.toNat ≤ nMax p k
    · rw [EncUnit.begin_samples _ _ _ _ hn]; intro r hr a t h; cases hr; cases h
    · simp only [EncUnit.begin, EncUnit.prologue, gt_iff_lt, Nat.lt_of_not_le hn, if_true]; intro r hr a t h; cases hr; cases h

end Sys2Proof.Machine
end

