-- ==== Sys2Proof/Laws/Window.lean ====
section
/-! SUPPORT. Command words bit by bit, and what a step that reads or writes a window does. -/

set_option linter.unusedSimpArgs false
set_option maxRecDepth 100000

namespace Sys2Proof.Machine

open Sys2Proof.Config (Params)

/-- OPC as a field and as a number (R101). -/
theorem opcField_toNat (w : Word) : (w.extractLsb' 0 8).toNat = opc w := by
  simp [opc, BitVec.extractLsb'_toNat]

/-- RSV as a field and as a number (R101). -/
theorem rsvField_toNat (w : Word) : (w.extractLsb' 8 8).toNat = rsv w := by
  simp [rsv, BitVec.extractLsb'_toNat, Nat.shiftRight_eq_div_pow]

/-- The high half of a word as a field and as a number (R101, R102). -/
theorem highField_toNat (w : Word) : (w.extractLsb' 16 16).toNat = imm16 w := by
  have := w.isLt
  simp [imm16, BitVec.extractLsb'_toNat, Nat.shiftRight_eq_div_pow]
  omega

/-- An opcode field has a value when its number has (R101). -/
theorem opcField_eq_iff (w : Word) (n : Nat) (h : n < 256) : w.extractLsb' 0 8 = BitVec.ofNat 8 n ↔ opc w = n := by
  rw [← BitVec.toNat_inj, opcField_toNat]; simp; omega

/-- RSV is 0 as a field when it is 0 as a number. -/
theorem rsvField_eq_zero (w : Word) : w.extractLsb' 8 8 = 0#8 ↔ rsv w = 0 := by
  rw [← BitVec.toNat_inj, rsvField_toNat]; simp

/-- The high half is 0 as a field when it is 0 as a number. -/
theorem highField_eq_zero (w : Word) : w.extractLsb' 16 16 = 0#16 ↔ imm16 w = 0 := by
  rw [← BitVec.toNat_inj, highField_toNat]; simp

/-- The decoder rejects word 0 exactly when R105 (a) to (c) call it illegal. -/
theorem rejectWord0_none_iff (k : UnitKind) (w : Word) : rejectWord0 k w = none ↔ ¬ IllegalWord0 k w := by
  unfold IllegalWord0 opcField rsvField highField
  simp only [ne_eq, rsvField_eq_zero, highField_eq_zero]
  cases k <;> simp only [unitOpcodes, List.mem_cons, List.not_mem_nil, or_false, opcField_eq_iff _ 0x11 (by decide), opcField_eq_iff _ 0x12 (by decide), opcField_eq_iff _ 0x13 (by decide), opcField_eq_iff _ 0x21 (by decide), opcField_eq_iff _ 0x22 (by decide), opcField_eq_iff _ 0x23 (by decide), opcField_eq_iff _ 0x24 (by decide), opcField_eq_iff _ 0x25 (by decide)]
  · unfold rejectWord0
    by_cases h : opc w = 0x11 ∨ opc w = 0x12 ∨ opc w = 0x13
    · have : opcUnit (opc w) = some .dec := by simp [opcUnit, h]
      have h2 : opcHasImm (opc w) = false := by rcases h with h | h | h <;> simp [opcHasImm, h]
      have h3 : ¬ (opc w = 33 ∨ opc w = 34) := by omega
      simp [this, h, h2, h3]
      by_cases hr : rsv w = 0 <;> by_cases hi : imm16 w = 0 <;> simp [hr, hi]
    · by_cases h' : opc w = 0x21 ∨ opc w = 0x22 ∨ opc w = 0x23 ∨ opc w = 0x24 ∨ opc w = 0x25
      · simp [opcUnit, h, h']
      · simp [opcUnit, h, h']
  · unfold rejectWord0
    by_cases h : opc w = 0x21 ∨ opc w = 0x22 ∨ opc w = 0x23 ∨ opc w = 0x24 ∨ opc w = 0x25
    · have : opcUnit (opc w) = some .enc := by 
        have : ¬ (opc w = 0x11 ∨ opc w = 0x12 ∨ opc w = 0x13) := by omega
        simp [opcUnit, h, this]
      have h2 : opcHasImm (opc w) = false ↔ ¬ (opc w = 33 ∨ opc w = 34) := by simp [opcHasImm]
      simp only [this, ne_eq, not_true_eq_false, if_false, h, h2]
      by_cases hr : rsv w = 0 <;> by_cases hi : imm16 w = 0 <;> by_cases ho : (opc w = 33 ∨ opc w = 34) <;> simp [hr, hi, ho]
    · by_cases h' : opc w = 0x11 ∨ opc w = 0x12 ∨ opc w = 0x13
      · simp [opcUnit, h, h']
      · simp [opcUnit, h, h']

/-- An illegal word 0 is rejected for some reason (R105). -/
theorem rejectWord0_some_of_illegal {k w} (h : IllegalWord0 k w) : ∃ r, rejectWord0 k w = some r := by
  cases hh : rejectWord0 k w with
  | none => exact absurd h ((rejectWord0_none_iff _ _).1 hh)
  | some r => exact ⟨r, rfl⟩

/-- The opcodes of the constructors (R103). -/
theorem opc_of_ctorField {w : Word} (h : opcField w ∈ [0x21#8, 0x22#8]) : opc w = 0x21 ∨ opc w = 0x22 := by
  unfold opcField at h
  simpa only [List.mem_cons, List.not_mem_nil, or_false, opcField_eq_iff _ 0x21 (by decide), opcField_eq_iff _ 0x22 (by decide)] using h

/-- An aligned 32-bit access inside the window is accepted (R61, R62). -/
theorem accessProblem_none {off : Nat} (h : off % 4 = 0) (h2 : off < 0x100) : accessProblem 4 off = none := by
  simp [accessProblem, h]; omega

/-- A step performs the script's head. -/
theorem step_of_script {s : State} {e rest} (h : s.script = e :: rest) : step s = ({ s with script := rest } : State).perform e := by
  simp [step, State.stepOnce, h]

/-- A step that writes to a decoder's window (R64). -/
theorem step_write_dec {s : State} {rest d u off w} (h : s.script = .write (.dec d) 4 off w :: rest) (hu : s.decs[d]? = some u) (h4 : off % 4 = 0) (hl : off < 0x100) :
   step s = if off = 8 then ({ s with script := rest } : State).cmdDec d u w else .next (({ s with script := rest } : State).setDec d (u.writeAt off w)) := by
  rw [step_of_script h]; simp [State.perform, State.mmioWrite, accessProblem_none h4 hl, hu]

/-- A step that writes to an encoder's window (R64). -/
theorem step_write_enc {s : State} {rest d u off w} (h : s.script = .write (.enc d) 4 off w :: rest) (hu : s.encs[d]? = some u) (h4 : off % 4 = 0) (hl : off < 0x100) :
   step s = if off = 8 then ({ s with script := rest } : State).cmdEnc d u w else .next (({ s with script := rest } : State).setEnc d (u.writeAt off w)) := by
  rw [step_of_script h]; simp [State.perform, State.mmioWrite, accessProblem_none h4 hl, hu]

/-- A step that reads a decoder's window (R63). -/
theorem step_read_dec {s : State} {rest d u off} (h : s.script = .read (.dec d) 4 off :: rest) (hu : s.decs[d]? = some u) (h4 : off % 4 = 0) (hl : off < 0x100) :
   step s = .next { s with script := rest, rdata := u.readAt s.draws off, draws := s.draws + 1 } := by
  rw [step_of_script h]; simp [State.perform, State.mmioRead, accessProblem_none h4 hl, hu]

/-- A step that reads an encoder's window (R63). -/
theorem step_read_enc {s : State} {rest d u off} (h : s.script = .read (.enc d) 4 off :: rest) (hu : s.encs[d]? = some u) (h4 : off % 4 = 0) (hl : off < 0x100) :
   step s = .next { s with script := rest, rdata := u.readAt s.draws off, draws := s.draws + 1 } := by
  rw [step_of_script h]; simp [State.perform, State.mmioRead, accessProblem_none h4 hl, hu]

/-- STATUS as its fields side by side (R26). -/
theorem statusWord_eq (b d h : Bool) (p : Phase) (e : Option ErrKind) (st o : Bool) : statusWord b d h p e st o =
  0#18 ++ BitVec.ofBool o ++ BitVec.ofBool st ++ BitVec.ofNat 4 (errCode e) ++ BitVec.ofNat 4 p.code ++ 0#1 ++ BitVec.ofBool h ++ BitVec.ofBool d ++ BitVec.ofBool b := by
  cases b <;> cases d <;> cases h <;> cases st <;> cases o <;> cases p <;> rcases e with _ | e <;> try cases e
  all_goals rfl

/-- CFG by byte order (R25). -/
theorem Ctl.cfg_eq (c : Ctl) : c.cfg = if c.sampleBo = .big then 1#32 else 0#32 := by
  unfold Ctl.cfg; cases c.sampleBo <;> rfl

/-- A 16-bit register as read: zeros above it (R24). -/
theorem setWidth32_eq_append (v : Half) : BitVec.setWidth 32 v = 0#16 ++ v := by
  apply BitVec.eq_of_toNat_eq
  rw [BitVec.toNat_append]; simp; omega

/-- Bits [15:0] of a written value (R36). -/
theorem low16_eq_setWidth (v : Word) : v.extractLsb' 0 16 = v.setWidth 16 := by
  apply BitVec.eq_of_toNat_eq; simp

/-- Putting a decoder back changes nothing. -/
theorem State.setDec_self {s : State} {d u} (h : s.decs[d]? = some u) : s.setDec d u = s := by
  obtain ⟨hd, rfl⟩ := List.getElem?_eq_some_iff.1 h
  simp [State.setDec]

/-- Putting an encoder back changes nothing. -/
theorem State.setEnc_self {s : State} {d u} (h : s.encs[d]? = some u) : s.setEnc d u = s := by
  obtain ⟨hd, rfl⟩ := List.getElem?_eq_some_iff.1 h
  simp [State.setEnc]

/-- The W1C write in one equation (R29). -/
theorem Ctl.clearStatus_eq (c : Ctl) (v : Word) : c.clearStatus v = { c with stickyErr := c.stickyErr && !v.getLsbD 12, ovr := c.ovr && !v.getLsbD 13 } := by
  unfold Ctl.clearStatus
  cases v.getLsbD 12 <;> cases v.getLsbD 13 <;> simp

/-- A write to a read-only or unmapped offset of a decoder does nothing (R39). -/
theorem DecUnit.writeAt_other (u : DecUnit) (off v) (hl : off < 0x100) (h : off ∉ [0x000, 0x004, 0x008]) : u.writeAt off v = u := by
  have : ∀ o < 256, o ∉ [0x000, 0x004, 0x008] → regAt .dec o ≠ some .status ∧ regAt .dec o ≠ some .cfg := by decide
  have := this off hl h
  unfold DecUnit.writeAt
  split <;> simp_all

/-- A write to a read-only or unmapped offset of an encoder does nothing (R39). -/
theorem EncUnit.writeAt_other (u : EncUnit) (off v) (hl : off < 0x100) (h : off ∉ [0x000, 0x004, 0x008, 0x04C, 0x050, 0x054, 0x058, 0x05C, 0x060, 0x064]) : u.writeAt off v = u := by
  have : ∀ o < 256, o ∉ [0x000, 0x004, 0x008, 0x04C, 0x050, 0x054, 0x058, 0x05C, 0x060, 0x064] → regAt .enc o ≠ some .status ∧ regAt .enc o ≠ some .cfg ∧ ((regAt .enc o).bind Reg.fmt? = none) := by decide
  have := this off hl h
  unfold EncUnit.writeAt
  split <;> simp_all

end Sys2Proof.Machine
end

