-- ==== Sys2Proof/Laws/Turns.lean ====
section
/-! SUPPORT. The turns of the units (R283): what a turn, a wait and an empty script can do, and that every run
comes, unless it ends in a fault or a refusal, to a state where no unit can take a step. -/

namespace Sys2Proof.Machine

open Sys2Proof.Config (Params)

/-! ### The state after a turn -/

/-- The turn of a decoder. -/
theorem State.turnTaken_dec {s : State} {d : Nat} {u : DecUnit} (h : s.decs[d]? = some u) :
    s.turnTaken (.dec d) = s.setDec d (u.runFor (max 1 (s.pace.getD u.work))) := by
  simp [State.turnTaken, h]

/-- The turn of an encoder. -/
theorem State.turnTaken_enc {s : State} {e : Nat} {u : EncUnit} (h : s.encs[e]? = some u) :
    s.turnTaken (.enc e) = s.setEnc e (u.runFor s.params (max 1 (s.pace.getD u.work))) := by
  simp [State.turnTaken, h]

/-- No such decoder. -/
theorem State.turnTaken_of_noDec {s : State} {d : Nat} (h : s.decs[d]? = none) :
    s.turnTaken (.dec d) = s := by
  simp [State.turnTaken, h]

/-- No such encoder. -/
theorem State.turnTaken_of_noEnc {s : State} {e : Nat} (h : s.encs[e]? = none) :
    s.turnTaken (.enc e) = s := by
  simp [State.turnTaken, h]

@[simp] theorem State.turnTaken_params (s : State) (x : UnitId) :
    (s.turnTaken x).params = s.params := by
  cases x <;> (unfold State.turnTaken; dsimp only; split <;> rfl)
@[simp] theorem State.turnTaken_pace (s : State) (x : UnitId) : (s.turnTaken x).pace = s.pace := by
  cases x <;> (unfold State.turnTaken; dsimp only; split <;> rfl)
@[simp] theorem State.turnTaken_script (s : State) (x : UnitId) :
    (s.turnTaken x).script = s.script := by
  cases x <;> (unfold State.turnTaken; dsimp only; split <;> rfl)
@[simp] theorem State.turnTaken_loop (s : State) (x : UnitId) : (s.turnTaken x).loop = s.loop := by
  cases x <;> (unfold State.turnTaken; dsimp only; split <;> rfl)

/-- A turn of another unit leaves a decoder alone. -/
theorem State.turnTaken_decs_ne {s : State} {x : UnitId} {d : Nat} (h : x ≠ .dec d) :
    (s.turnTaken x).decs[d]? = s.decs[d]? := by
  cases x with
  | dec k =>
    cases hk : s.decs[k]? with
    | none => rw [State.turnTaken_of_noDec hk]
    | some u =>
      rw [State.turnTaken_dec hk]
      exact List.getElem?_set_ne (by rintro rfl; exact h rfl)
  | enc k =>
    cases hk : s.encs[k]? with
    | none => rw [State.turnTaken_of_noEnc hk]
    | some u => rw [State.turnTaken_enc hk]; rfl

/-- A turn does not look at the host's pending actions. -/
theorem State.turnTaken_withScript (s : State) (l : List HostEvent) (x : UnitId) :
    ({ s with script := l } : State).turnTaken x = { s.turnTaken x with script := l } := by
  cases x with
  | dec d => cases h : s.decs[d]? <;> simp [State.turnTaken, h, State.setDec]
  | enc e => cases h : s.encs[e]? <;> simp [State.turnTaken, h, State.setEnc]

/-- A forced turn happens exactly for a unit that can take a step, and is its turn. -/
theorem State.push_eq_some_iff {s t : State} {x : UnitId} :
    s.push x = some t ↔ s.CanStep x ∧ s.turnTaken x = t := by
  have hmax (n : Nat) : max 1 n = (n - 1) + 1 := by omega
  cases x with
  | dec d =>
    cases hu : s.decs[d]? with
    | none => simp [State.push, State.CanStep, hu]
    | some u =>
      cases ha : u.advance with
      | none => simp [State.push, State.CanStep, hu, ha]
      | some v =>
        simp [State.push, State.CanStep, State.turnTaken_dec hu, hu, ha, hmax, DecUnit.runFor_of_some ha,
          State.turn]
  | enc e =>
    cases hu : s.encs[e]? with
    | none => simp [State.push, State.CanStep, hu]
    | some u =>
      cases ha : u.advance s.params with
      | none => simp [State.push, State.CanStep, hu, ha]
      | some v =>
        simp [State.push, State.CanStep, State.turnTaken_enc hu, hu, ha, hmax, EncUnit.runFor_of_some ha,
          State.turn]

/-- A unit that can take a step is pushed. -/
theorem State.push_of_canStep {s : State} {x : UnitId} (h : s.CanStep x) :
    s.push x = some (s.turnTaken x) :=
  State.push_eq_some_iff.2 ⟨h, rfl⟩

/-- A unit that cannot take a step is not. -/
theorem State.push_eq_none_iff {s : State} {x : UnitId} : s.push x = none ↔ ¬ s.CanStep x := by
  refine ⟨fun h hc => ?_, fun h => ?_⟩
  · rw [State.push_of_canStep hc] at h; cases h
  · cases hp : s.push x with
    | none => rfl
    | some t => exact absurd (State.push_eq_some_iff.1 hp).1 h

/-- A unit that can take a step is one of the machine's. -/
theorem State.CanStep.mem_units {s : State} {x : UnitId} (h : s.CanStep x) : x ∈ s.units := by
  cases x <;> (obtain ⟨u, hu, -⟩ := h; simp [State.units, (List.getElem?_eq_some_iff.1 hu).1])

/-- Looking for a unit to push finds none exactly when no unit can take a step. -/
theorem State.findSome?_push_none {s : State} {l : List UnitId} (hl : ∀ x, s.CanStep x → x ∈ l) :
    l.findSome? s.push = none ↔ s.Quiet := by
  rw [List.findSome?_eq_none_iff]
  refine ⟨fun h x hc => ?_, fun h x _ => State.push_eq_none_iff.2 (h x)⟩
  exact State.push_eq_none_iff.1 (h x (hl x hc)) hc

/-- What quiet means for the units themselves. -/
theorem State.quiet_iff {s : State} :
    s.Quiet ↔ (∀ u ∈ s.decs, u.advance = none) ∧ ∀ u ∈ s.encs, u.advance s.params = none := by
  refine ⟨fun h => ⟨fun u hu => ?_, fun u hu => ?_⟩, fun h x hc => ?_⟩
  · obtain ⟨d, hd⟩ := List.mem_iff_getElem?.1 hu
    by_contra ha
    exact h (.dec d) ⟨u, hd, ha⟩
  · obtain ⟨d, hd⟩ := List.mem_iff_getElem?.1 hu
    by_contra ha
    exact h (.enc d) ⟨u, hd, ha⟩
  · cases x <;> obtain ⟨u, hu, ha⟩ := hc
    · exact ha (h.1 u (List.mem_of_getElem? hu))
    · exact ha (h.2 u (List.mem_of_getElem? hu))

/-! ### With no host action pending -/

/-- A step when nothing is pending. -/
theorem step_of_done {s : State} (h : s.script = []) : step s = s.settle := by
  simp [step, State.stepOnce, h]

/-- Some unit that can take a step takes its turn. -/
theorem State.settle_of_not_quiet {s : State} (h : ¬ s.Quiet) :
    ∃ x, s.CanStep x ∧ s.settle = .next (s.turnTaken x) := by
  unfold State.settle
  cases hf : s.units.findSome? s.push with
  | none => exact absurd ((State.findSome?_push_none fun _ => State.CanStep.mem_units).1 hf) h
  | some t =>
    obtain ⟨x, -, hx⟩ := List.exists_of_findSome?_eq_some hf
    obtain ⟨hc, rfl⟩ := State.push_eq_some_iff.1 hx
    exact ⟨x, hc, rfl⟩

/-- When no unit can take a step the host goes on, or the run ends. -/
theorem State.settle_of_quiet {s : State} (h : s.Quiet) :
    s.settle = if s.idle || s.loop.any s.helps then .next { s with script := s.loop } else .fault .stuck := by
  unfold State.settle
  rw [(State.findSome?_push_none fun _ => State.CanStep.mem_units).2 h]

/-- What happens when nothing is pending. -/
theorem State.settle_next {s t : State} (h : s.settle = .next t) :
    (∃ x, s.CanStep x ∧ t = s.turnTaken x) ∨ (s.Quiet ∧ t = { s with script := s.loop }) := by
  by_cases hq : s.Quiet
  · rw [State.settle_of_quiet hq] at h
    split at h <;> cases h
    exact .inr ⟨hq, rfl⟩
  · obtain ⟨x, hx, e⟩ := State.settle_of_not_quiet hq
    rw [e] at h; cases h
    exact .inl ⟨x, hx, rfl⟩

/-! ### Waiting -/

/-- The machine after a read that returned `v`. -/
def State.polled (s : State) (v : Word) : State := { s with rdata := v, draws := s.draws + 1 }

@[simp] theorem State.polled_params (s : State) (v : Word) : (s.polled v).params = s.params := rfl
@[simp] theorem State.polled_decs (s : State) (v : Word) : (s.polled v).decs = s.decs := rfl
@[simp] theorem State.polled_encs (s : State) (v : Word) : (s.polled v).encs = s.encs := rfl
@[simp] theorem State.polled_script (s : State) (v : Word) : (s.polled v).script = s.script := rfl
@[simp] theorem State.polled_loop (s : State) (v : Word) : (s.polled v).loop = s.loop := rfl

/-- A read changes nothing but the value read. -/
theorem State.mmioRead_next {s t : State} {x : UnitId} {w o : Nat} (h : s.mmioRead x w o = .next t) :
    ∃ v, t = s.polled v := by
  unfold State.mmioRead at h
  split at h
  · rename_i o' ho
    unfold accessProblem at ho
    split at ho
    · cases ho; cases h
    · split at ho <;> cases ho; cases h
  · split at h <;> split at h <;> cases h <;> exact ⟨_, rfl⟩

/-- Bit 0 of a STATUS word is BUSY (R26). -/
theorem statusWord_busy (b d h : Bool) (p : Phase) (e : Option ErrKind) (st o : Bool) :
    (statusWord b d h p e st o).getLsbD 0 = b := by
  rw [statusWord_eq, BitVec.getLsbD_append]
  cases b <;> rfl

/-- STATUS of a BUSY unit reads with BUSY set (R277). -/
theorem State.poll_busy {s : State} {x : UnitId} (hb : s.busy x = true) :
    ∃ v, v.getLsbD 0 = true ∧ s.mmioRead x 4 0x004 = .next (s.polled v) := by
  cases x with
  | dec d =>
    cases hu : s.decs[d]? with
    | none => simp [State.busy, hu] at hb
    | some u =>
      have hb : u.ctl.busy = true := by simpa [State.busy, hu] using hb
      refine ⟨u.readAt s.draws 0x004, ?_, by simp [State.mmioRead, accessProblem, hu, State.polled]⟩
      have hr : regAt .dec 0x004 = some .status := by decide
      simp only [DecUnit.readAt, hr, hb, if_true, DecUnit.peekBusy, Ctl.busyStatus]
      exact statusWord_busy ..
  | enc e =>
    cases hu : s.encs[e]? with
    | none => simp [State.busy, hu] at hb
    | some u =>
      have hb : u.ctl.busy = true := by simpa [State.busy, hu] using hb
      refine ⟨u.readAt s.draws 0x004, ?_, by simp [State.mmioRead, accessProblem, hu, State.polled]⟩
      have hr : regAt .enc 0x004 = some .status := by decide
      simp only [EncUnit.readAt, hr, hb, if_true, EncUnit.peekBusy, Ctl.busyStatus]
      exact statusWord_busy ..

/-- A wait for a BUSY unit: its turn, or else another unit's, or else what the loop supplies, or else stuck. -/
theorem State.waitFor_busy {s : State} {u : UnitId} (hb : s.busy u = true) : ∃ v, v.getLsbD 0 = true ∧
    ((∃ x, s.CanStep x ∧ (s.CanStep u → x = u) ∧
        s.waitFor u = .next { (s.polled v).turnTaken x with script := .wait u :: s.script }) ∨
      (s.Quiet ∧ s.loop.filter s.supplies = [] ∧ s.waitFor u = .fault .stuck) ∨
      (s.Quiet ∧ s.loop.filter s.supplies ≠ [] ∧
        s.waitFor u = .next { s.polled v with
          script := s.loop.filter s.supplies ++ .wait u :: s.script })) := by
  obtain ⟨v, hv, hr⟩ := State.poll_busy hb
  refine ⟨v, hv, ?_⟩
  rw [State.waitFor, hr]
  simp only [hb, if_true]
  have hl : ∀ x, (s.polled v).CanStep x → x ∈ u :: (s.polled v).units :=
    fun x h => List.mem_cons_of_mem _ (State.CanStep.mem_units h)
  cases hf : (u :: (s.polled v).units).findSome? (s.polled v).push with
  | none =>
    have hq : s.Quiet := (State.findSome?_push_none hl).1 hf
    cases he : s.loop.filter s.supplies with
    | nil =>
      refine .inr (.inl ⟨hq, rfl, ?_⟩)
      rw [show (s.polled v).loop.filter (s.polled v).supplies = [] from he]
    | cons e es =>
      refine .inr (.inr ⟨hq, by simp, ?_⟩)
      rw [show (s.polled v).loop.filter (s.polled v).supplies = e :: es from he]
      rfl
  | some t =>
    refine .inl ?_
    by_cases hc : (s.polled v).CanStep u
    · rw [List.findSome?_cons, State.push_of_canStep hc] at hf
      cases hf
      exact ⟨u, hc, fun _ => rfl, by simp⟩
    · obtain ⟨x, -, hp⟩ := List.exists_of_findSome?_eq_some hf
      obtain ⟨hx, rfl⟩ := State.push_eq_some_iff.1 hp
      exact ⟨x, hx, fun h => absurd h hc, by simp⟩

/-- What a wait that answers a next state does. -/
theorem State.waitFor_next {s t : State} {u : UnitId} (h : s.waitFor u = .next t) : ∃ v,
    (s.busy u = false ∧ t = s.polled v) ∨
    (s.busy u = true ∧ ∃ x, s.CanStep x ∧
      t = { (s.polled v).turnTaken x with script := .wait u :: s.script }) ∨
    (s.busy u = true ∧ s.Quiet ∧ ∃ es, es ≠ [] ∧ es = s.loop.filter s.supplies ∧
      t = { s.polled v with script := es ++ .wait u :: s.script }) := by
  cases hb : s.busy u with
  | false =>
    cases hr : s.mmioRead u 4 0x004 with
    | next r =>
      obtain ⟨v, rfl⟩ := State.mmioRead_next hr
      rw [State.waitFor, hr] at h
      simp only [hb] at h
      cases h
      exact ⟨v, .inl ⟨rfl, rfl⟩⟩
    | fault r => rw [State.waitFor, hr] at h; cases h
    | refused r => rw [State.waitFor, hr] at h; cases h
  | true =>
    obtain ⟨v, -, ⟨x, hx, -, e⟩ | ⟨-, -, e⟩ | ⟨hq, hne, e⟩⟩ := State.waitFor_busy hb <;> rw [e] at h <;> cases h
    · exact ⟨v, .inr (.inl ⟨rfl, x, hx, rfl⟩)⟩
    · exact ⟨v, .inr (.inr ⟨rfl, hq, _, hne, rfl, rfl⟩)⟩

/-! ### Runs of several steps -/

/-- The first step of a run. -/
theorem run_succ {s t : State} (h : step s = .next t) (n : Nat) :
    Sys2Proof.core.run (n + 1) s = Sys2Proof.core.run n t := by
  change Sys2Proof.core.step s = _ at h
  simp only [Host.Core.run]
  rw [h]

/-- One run after another. -/
theorem run_add {n : Nat} {s t : State} (h : Sys2Proof.core.run n s = .next t) (m : Nat) :
    Sys2Proof.core.run (n + m) s = Sys2Proof.core.run m t := by
  induction n generalizing s with
  | zero => cases h; simp
  | succ n ih =>
    cases hs : Sys2Proof.core.step s with
    | next r =>
      simp only [Host.Core.run, hs] at h
      rw [Nat.add_right_comm, run_succ hs]
      exact ih h
    | fault r => simp only [Host.Core.run, hs] at h; cases h
    | refused r => simp only [Host.Core.run, hs] at h; cases h

/-! ### Every run becomes quiet -/

/-- The steps of all units that are still to come without their host. -/
def State.work (s : State) : Nat :=
  (s.decs.map DecUnit.work).sum + (s.encs.map EncUnit.work).sum

/-- Replacing an element by a smaller one lowers the sum. -/
theorem sum_map_set_lt {α : Type} (f : α → Nat) {l : List α} {i : Nat} {a b : α} (h : l[i]? = some a)
    (hlt : f b < f a) : ((l.set i b).map f).sum < (l.map f).sum := by
  induction l generalizing i with
  | nil => simp at h
  | cons x l ih =>
    cases i with
    | zero => simp at h; subst h; simpa using hlt
    | succ i => simpa using ih (by simpa using h)

/-- No step of a decoder adds to its work. -/
theorem DecUnit.Steps.work_le {u v : DecUnit} (h : u.Steps v) : v.work ≤ u.work := by
  induction h with
  | refl => exact le_refl _
  | head a _ ih => exact ih.trans (Nat.le_of_lt (DecUnit.advance_work_lt a))

/-- No step of an encoder adds to its work. -/
theorem EncUnit.Steps.work_le {p : Params} {u v : EncUnit} (h : u.Steps p v) : v.work ≤ u.work := by
  induction h with
  | refl => exact le_refl _
  | head a _ ih => exact ih.trans (Nat.le_of_lt (EncUnit.advance_work_lt a))

/-- A turn lowers the work left. -/
theorem State.CanStep.work_lt {s : State} {x : UnitId} (h : s.CanStep x) : (s.turnTaken x).work < s.work := by
  have hmax (n : Nat) : max 1 n = (n - 1) + 1 := by omega
  cases x with
  | dec d =>
    obtain ⟨u, hu, ha⟩ := h
    obtain ⟨v, hv⟩ := Option.ne_none_iff_exists'.1 ha
    rw [State.turnTaken_dec hu, hmax, DecUnit.runFor_of_some hv]
    have h1 := (DecUnit.runFor_steps (s.pace.getD u.work - 1) v).work_le
    have h2 := sum_map_set_lt DecUnit.work hu (Nat.lt_of_le_of_lt h1 (DecUnit.advance_work_lt hv))
    simp only [State.work, State.setDec_decs, State.setDec_encs]
    omega
  | enc e =>
    obtain ⟨u, hu, ha⟩ := h
    obtain ⟨v, hv⟩ := Option.ne_none_iff_exists'.1 ha
    rw [State.turnTaken_enc hu, hmax, EncUnit.runFor_of_some hv]
    have h1 := (EncUnit.runFor_steps s.params (s.pace.getD u.work - 1) v).work_le
    have h2 := sum_map_set_lt EncUnit.work hu (Nat.lt_of_le_of_lt h1 (EncUnit.advance_work_lt hv))
    simp only [State.work, State.setEnc_encs, State.setEnc_decs]
    omega

/-- A turn changes the machine. -/
theorem State.CanStep.turnTaken_ne {s : State} {x : UnitId} (h : s.CanStep x) : s.turnTaken x ≠ s := by
  intro e
  have := h.work_lt
  rw [e] at this
  exact Nat.lt_irrefl _ this

/-- A host action other than a wait leaves the rest of the script as it is. -/
theorem State.perform_script {s t : State} {e : HostEvent} (hw : ∀ u, e ≠ .wait u)
    (h : s.perform e = .next t) : t.script = s.script := by
  have dec {d f} (h : s.onDec d f = .next t) : t.script = s.script := by
    unfold State.onDec at h
    split at h
    · cases h
    · split at h <;> cases h; rfl
  have enc {d f} (h : s.onEnc d f = .next t) : t.script = s.script := by
    unfold State.onEnc at h
    split at h
    · cases h
    · split at h <;> cases h; rfl
  cases e with
  | wait u => exact absurd rfl (hw u)
  | read x w o => obtain ⟨v, rfl⟩ := State.mmioRead_next h; rfl
  | write x w o v =>
    simp only [State.perform, State.mmioWrite] at h
    split at h
    · rename_i o' ho
      unfold accessProblem at ho
      split at ho
      · cases ho; cases h
      · split at ho <;> cases ho; cases h
    · split at h <;> split at h
      · cases h
      · rename_i u _
        split at h
        · unfold State.cmdDec at h
          cases hi : (u.ctl.takeWord .dec v).2 with
          | none => simp only [hi] at h; cases h; rfl
          | some i =>
            simp only [hi] at h
            obtain ⟨c, hc⟩ := exec_of_dec (Ctl.takeWord_unitKind hi) { s.setDec _ _ with sel := _ }
            rw [hc] at h
            unfold State.startDec at h
            split at h <;> cases h
            rfl
        · cases h; rfl
      · cases h
      · rename_i u _
        split at h
        · unfold State.cmdEnc at h
          cases hi : (u.ctl.takeWord .enc v).2 with
          | none => simp only [hi] at h; cases h; rfl
          | some i =>
            simp only [hi] at h
            obtain ⟨c, hc⟩ := exec_of_enc (Ctl.takeWord_unitKind hi) { s.setEnc _ _ with sel := _ }
            rw [hc] at h
            unfold State.startEnc at h
            split at h <;> cases h
            rfl
        · cases h; rfl
  | resetUnit x =>
    cases x with
    | dec => simp only [State.perform] at h; exact dec h
    | enc => simp only [State.perform] at h; exact enc h
  | run x =>
    cases x with
    | dec => simp only [State.perform, State.turnOf] at h; exact dec h
    | enc => simp only [State.perform, State.turnOf] at h; exact enc h
  | setPace => cases h; rfl
  | inEvent => exact dec h
  | attachIn => exact dec h
  | soutRoom => simp only [State.perform] at h; exact dec h
  | soutTake => simp only [State.perform] at h; exact dec h
  | attachSout => exact dec h
  | outAnswer => simp only [State.perform] at h; exact enc h
  | attachOut => exact enc h
  | sinWord => simp only [State.perform] at h; exact enc h
  | attachSin => exact enc h
  | copyOut e d =>
    simp only [State.perform, State.copyOut] at h
    split at h
    · cases h
    · exact dec h
  | share =>
    simp only [State.perform] at h
    split at h <;> cases h
    rfl

/-- Progress is fair (R283): a step from a state where a unit can take one shortens the script, or leaves it
as long and the units with less to do. -/
theorem step_progress {s t : State} (hq : ¬ s.Quiet) (h : step s = .next t) :
    t.script.length < s.script.length ∨ (t.script.length = s.script.length ∧ t.work < s.work) := by
  cases hs : s.script with
  | nil =>
    rw [step_of_done hs] at h
    obtain ⟨x, hx, rfl⟩ | ⟨h0, -⟩ := State.settle_next h
    · exact .inr ⟨by simp [hs], hx.work_lt⟩
    · exact absurd h0 hq
  | cons e rest =>
    rw [step_of_script hs] at h
    by_cases hw : ∃ u, e = .wait u
    · obtain ⟨u, rfl⟩ := hw
      obtain ⟨v, ⟨-, rfl⟩ | ⟨-, x, hx, rfl⟩ | ⟨-, h0, -⟩⟩ := State.waitFor_next h
      · exact .inl (by simp)
      · exact .inr ⟨by simp, State.CanStep.work_lt (s := ({ s with script := rest } : State).polled v) hx⟩
      · exact absurd h0 hq
    · have := State.perform_script (fun u hu => hw ⟨u, hu⟩) h
      exact .inl (by rw [this]; simp)

/-- From every state the machine comes to one where no unit can take a step, unless its run ends (R283). -/
theorem run_quiet (s : State) : ∃ n, (∃ t, Sys2Proof.core.run n s = .next t ∧ t.Quiet) ∨
    ∀ t, Sys2Proof.core.run n s ≠ .next t := by
  suffices H : ∀ k w (s : State), s.script.length = k → s.work = w →
      ∃ n, (∃ t, Sys2Proof.core.run n s = .next t ∧ t.Quiet) ∨ ∀ t, Sys2Proof.core.run n s ≠ .next t from
    H _ _ s rfl rfl
  intro k
  induction k using Nat.strong_induction_on with
  | _ k ihk =>
    intro w
    induction w using Nat.strong_induction_on with
    | _ w ihw =>
      intro s hk hw
      by_cases hq : s.Quiet
      · exact ⟨0, .inl ⟨s, rfl, hq⟩⟩
      · cases hs : step s with
        | next t =>
          have ht : ∃ n, (∃ r, Sys2Proof.core.run n t = .next r ∧ r.Quiet) ∨
              ∀ r, Sys2Proof.core.run n t ≠ .next r := by
            obtain h | ⟨h1, h2⟩ := step_progress hq hs
            · exact ihk _ (by omega) _ t rfl rfl
            · exact ihw _ (by omega) t (by omega) rfl
          obtain ⟨n, hn⟩ := ht
          refine ⟨n + 1, ?_⟩
          rw [run_succ hs]
          exact hn
        | fault r =>
          refine ⟨1, .inr fun t => ?_⟩
          change Sys2Proof.core.step s = _ at hs
          simp [Host.Core.run, hs]
        | refused r =>
          refine ⟨1, .inr fun t => ?_⟩
          change Sys2Proof.core.step s = _ at hs
          simp [Host.Core.run, hs]

end Sys2Proof.Machine
end

