-- ==== Sys2Proof/Laws/StepFrame.lean ====
section
/-! SUPPORT. What one step of the machine can change, host action by host action. -/

set_option linter.unusedSimpArgs false

namespace Sys2Proof.Machine

open Sys2Proof.Config (Params)

/-- What host action `ev` can do to CFG, OVR and STICKY_ERR of decoder `d`: nothing but set the sticky bits; the W1C write; another byte order when it is not BUSY; its reset (R25, R26, R276). -/
inductive DecUnit.Change (ev : Option HostEvent) (d : Nat) (u v : DecUnit) : Prop where
  | same (h : v.ctl.sampleBo = u.ctl.sampleBo) (h2 : u.ctl.ovr = true → v.ctl.ovr = true) (h3 : u.ctl.stickyErr = true → v.ctl.stickyErr = true)
  | status (w : Word) (h : ev = some (.write (.dec d) 4 0x004 w)) (hv : v = { u with ctl := u.ctl.clearStatus w })
  | cfg (h1 : u.ctl.busy = false) (h2 : v.ctl.ovr = u.ctl.ovr) (h3 : v.ctl.stickyErr = u.ctl.stickyErr)
  | reset (h : ev = some (.resetUnit (.dec d)))

/-- Encoder `d` is BUSY and host action `ev` starts no command on it: it runs a command that is no constructor, or it collects operands and `ev` does not complete them (R276). -/
def EncUnit.FormatHeld (ev : Option HostEvent) (d : Nat) (u : EncUnit) : Prop :=
  u.ctl.busy = true ∧ ((u.ctl.asm = [] ∧ EncUnit.NotConstructing u) ∨
    (u.ctl.asm ≠ [] ∧ u.run = none ∧ ∀ w, ev = some (.write (.enc d) 4 0x008 w) →
      ∀ i, decodeFor .enc (u.ctl.asm ++ [w]) ≠ .ok i))

/-- What host action `ev` can do to CFG, OVR, STICKY_ERR and the format registers of encoder `d`. -/
inductive EncUnit.Change (ev : Option HostEvent) (d : Nat) (u v : EncUnit) : Prop where
  | same (h : v.ctl.sampleBo = u.ctl.sampleBo) (h2 : u.ctl.ovr = true → v.ctl.ovr = true) (h3 : u.ctl.stickyErr = true → v.ctl.stickyErr = true) (h4 : EncUnit.FormatHeld ev d u → v.fmt = u.fmt)
  | status (w : Word) (h : ev = some (.write (.enc d) 4 0x004 w)) (hv : v = { u with ctl := u.ctl.clearStatus w })
  | cfg (h1 : u.ctl.busy = false) (h2 : v.ctl.ovr = u.ctl.ovr) (h3 : v.ctl.stickyErr = u.ctl.stickyErr)
  | reset (h : ev = some (.resetUnit (.enc d)))

/-- No change. -/
theorem DecUnit.Change.refl {ev d u} : DecUnit.Change ev d u u := .same rfl id id

/-- No change. -/
theorem EncUnit.Change.refl {ev d u} : EncUnit.Change ev d u u := .same rfl id id (fun _ => rfl)

/-- A CMD word never changes CFG and never clears a sticky bit (R240). -/
theorem Ctl.takeWord_frame (k w) (c : Ctl) : (c.takeWord k w).1.sampleBo = c.sampleBo ∧ (c.ovr = true → (c.takeWord k w).1.ovr = true) ∧ (c.stickyErr = true → (c.takeWord k w).1.stickyErr = true) := by
  unfold Ctl.takeWord
  split
  · split
    · exact ⟨rfl, fun _ => rfl, id⟩
    · split
      · exact ⟨rfl, id, fun _ => rfl⟩
      · split <;> exact ⟨rfl, id, id⟩
  · split
    · exact ⟨rfl, id, id⟩
    · exact ⟨rfl, id, fun _ => rfl⟩
    · exact ⟨rfl, id, id⟩

/-- Every unit but `x`, and the parameters, are as before (R23). -/
structure State.OthersSame (s t : State) (x : Option UnitId) : Prop where
  params : t.params = s.params
  decs : ∀ d, x ≠ some (.dec d) → t.decs[d]? = s.decs[d]?
  encs : ∀ d, x ≠ some (.enc d) → t.encs[d]? = s.encs[d]?

/-- Another decoder `d`. -/
theorem State.OthersSame.setDec (s : State) (d v) : State.OthersSame s (s.setDec d v) (some (.dec d)) :=
  ⟨rfl, fun d' h => List.getElem?_set_ne (by rintro rfl; exact h rfl), fun _ _ => rfl⟩

/-- Another encoder `d`. -/
theorem State.OthersSame.setEnc (s : State) (d v) : State.OthersSame s (s.setEnc d v) (some (.enc d)) :=
  ⟨rfl, fun _ _ => rfl, fun d' h => List.getElem?_set_ne (by rintro rfl; exact h rfl)⟩

/-- Two changes of one unit. -/
theorem State.OthersSame.trans {s t r : State} {x} (a : State.OthersSame s t x) (b : State.OthersSame t r x) : State.OthersSame s r x :=
  ⟨b.params.trans a.params, fun d h => (b.decs d h).trans (a.decs d h), fun d h => (b.encs d h).trans (a.encs d h)⟩

/-- What a CMD write to a decoder changes. -/
theorem State.cmdDec_frame {s t : State} {d u w} (hu : s.decs[d]? = some u) (h : s.cmdDec d u w = .next t) : State.OthersSame s t (some (.dec d)) ∧ ∃ v, t.decs[d]? = some v ∧ ∀ ev, DecUnit.Change ev d u v := by
  have hl := (List.getElem?_eq_some_iff.1 hu).1
  obtain ⟨f1, f2, f3⟩ := Ctl.takeWord_frame .dec w u.ctl
  unfold State.cmdDec at h
  cases hi : (u.ctl.takeWord .dec w).2 with
  | none =>
    simp only [hi] at h; cases h
    exact ⟨⟨rfl, (State.OthersSame.setDec s d _).decs, fun _ _ => rfl⟩, _, List.getElem?_set_self hl, fun ev => .same f1 f2 f3⟩
  | some i =>
    simp only [hi] at h
    obtain ⟨cmd, hc⟩ := exec_of_dec (Ctl.takeWord_unitKind hi) { s.setDec d { u with ctl := (u.ctl.takeWord .dec w).1 } with sel := d }
    rw [hc] at h
    set u' : DecUnit := { u with ctl := (u.ctl.takeWord .dec w).1 } with hu'
    have hget : (s.decs.set d u')[d]? = some u' := List.getElem?_set_self hl
    simp only [State.startDec, State.setDec, hget, List.set_set] at h
    cases h
    have df := DecUnit.StreamFrame.trans (v := u'.begin cmd) (DecUnit.StreamFrame.same rfl rfl rfl rfl rfl rfl id) (DecUnit.StreamFrame.steps (DecUnit.runFor_steps (State.turn { s.setDec d u' with sel := d } (u'.begin cmd).work) (u'.begin cmd)))
    refine ⟨⟨rfl, (State.OthersSame.setDec s d _).decs, fun _ _ => rfl⟩, _, List.getElem?_set_self hl, fun ev => .same (df.bo.trans f1) (fun h => df.ovr.trans (f2 h)) (fun h => df.st (f3 h))⟩

/-- A CMD word for an encoder that runs a command (R275). -/
theorem EncUnit.takeWord_busy {u : EncUnit} {w} (hb : u.ctl.busy = true) (ha : u.ctl.asm = []) : (u.ctl.takeWord .enc w) = ({ u.ctl with ovr := true }, none) := Ctl.takeWord_busy hb ha _ _

/-- What a CMD write to an encoder changes. -/
theorem State.cmdEnc_frame {s t : State} {d u w} (hu : s.encs[d]? = some u) (h : s.cmdEnc d u w = .next t) : State.OthersSame s t (some (.enc d)) ∧ ∃ v, t.encs[d]? = some v ∧ EncUnit.Change (some (.write (.enc d) 4 0x008 w)) d u v := by
  have hl := (List.getElem?_eq_some_iff.1 hu).1
  obtain ⟨f1, f2, f3⟩ := Ctl.takeWord_frame .enc w u.ctl
  unfold State.cmdEnc at h
  cases hi : (u.ctl.takeWord .enc w).2 with
  | none =>
    simp only [hi] at h; cases h
    exact ⟨⟨rfl, fun _ _ => rfl, (State.OthersSame.setEnc s d _).encs⟩, _, List.getElem?_set_self hl, .same f1 f2 f3 (fun _ => rfl)⟩
  | some i =>
    simp only [hi] at h
    obtain ⟨cmd, hc⟩ := exec_of_enc (Ctl.takeWord_unitKind hi) { s.setEnc d { u with ctl := (u.ctl.takeWord .enc w).1 } with sel := d }
    rw [hc] at h
    set u' : EncUnit := { u with ctl := (u.ctl.takeWord .enc w).1 } with hu'
    have hget : (s.encs.set d u')[d]? = some u' := List.getElem?_set_self hl
    simp only [State.startEnc, State.setEnc, hget, List.set_set] at h
    cases h
    obtain ⟨g1, g2, g3, -⟩ := EncUnit.begin_frame s.params u' cmd
    obtain ⟨a1, a2, a3, -⟩ := EncUnit.steps_streams (EncUnit.runFor_steps s.params (State.turn { s.setEnc d u' with sel := d } (u'.begin s.params cmd).work) (u'.begin s.params cmd))
    refine ⟨⟨rfl, fun _ _ => rfl, (State.OthersSame.setEnc s d _).encs⟩, _, List.getElem?_set_self hl, .same (a1.trans (g1.trans f1)) (fun h => a2.trans (g2.trans (f2 h))) (fun h => a3 (g3.trans (f3 h))) (fun hf => ?_)⟩
    rcases hf.2 with ⟨ha, -⟩ | ⟨ha, -, hw⟩
    · rw [EncUnit.takeWord_busy hf.1 ha] at hi; cases hi
    · obtain ⟨w0, ops, ha⟩ := List.exists_cons_of_ne_nil ha
      cases hd : decodeFor .enc (w0 :: ops ++ [w]) with
      | ok j => exact absurd (by rw [ha]; exact hd) (hw w rfl j)
      | error e => by_cases he : e = .word2High
                   · subst he; rw [Ctl.takeWord_word2 ha hd] at hi; cases hi
                   · rw [Ctl.takeWord_operand ha hd he] at hi; cases hi

/-- An action on a decoder changes no other unit. -/
theorem State.onDec_frame {s t : State} {d f} (h : s.onDec d f = .next t) : State.OthersSame s t (some (.dec d)) ∧ ∀ u, s.decs[d]? = some u → ∃ v, f u = .next v ∧ t.decs[d]? = some v := by
  unfold State.onDec at h
  split at h
  · cases h
  · rename_i u hu
    split at h <;> cases h
    rename_i v hv
    refine ⟨State.OthersSame.setDec .., fun u' hu' => ?_⟩
    rw [hu] at hu'; cases hu'
    exact ⟨v, hv, List.getElem?_set_self (List.getElem?_eq_some_iff.1 hu).1⟩

/-- An action on an encoder changes no other unit. -/
theorem State.onEnc_frame {s t : State} {d f} (h : s.onEnc d f = .next t) : State.OthersSame s t (some (.enc d)) ∧ ∀ u, s.encs[d]? = some u → ∃ v, f u = .next v ∧ t.encs[d]? = some v := by
  unfold State.onEnc at h
  split at h
  · cases h
  · rename_i u hu
    split at h <;> cases h
    rename_i v hv
    refine ⟨State.OthersSame.setEnc .., fun u' hu' => ?_⟩
    rw [hu] at hu'; cases hu'
    exact ⟨v, hv, List.getElem?_set_self (List.getElem?_eq_some_iff.1 hu).1⟩

/-- A turn of a decoder. -/
theorem DecUnit.runFor_change {ev d n} {u : DecUnit} : DecUnit.Change ev d u (u.runFor n) := by
  have df := DecUnit.StreamFrame.steps (DecUnit.runFor_steps n u)
  exact .same df.bo (fun h => df.ovr.trans h) df.st

/-- A turn of an encoder. -/
theorem EncUnit.runFor_change {ev d p n} {u : EncUnit} : EncUnit.Change ev d u (u.runFor p n) := by
  obtain ⟨a1, a2, a3, -⟩ := EncUnit.steps_streams (EncUnit.runFor_steps p n u)
  exact .same a1 (fun h => a2.trans h) a3 (fun hf => by
    rcases hf.2 with ⟨-, hn⟩ | ⟨-, hr, -⟩
    · exact (EncUnit.steps_notConstructing (EncUnit.runFor_steps p n u) hn).2
    · rw [EncUnit.runFor_of_none (EncUnit.advance_of_idle hr)])

/-- Host action `ev` changes unit `x` only, and that as `Change` allows. -/
def State.ChangesOnly (s t : State) (ev : Option HostEvent) (x : Option UnitId) : Prop :=
  State.OthersSame s t x ∧ (∀ d u, s.decs[d]? = some u → ∃ v, t.decs[d]? = some v ∧ DecUnit.Change ev d u v) ∧ (∀ d u, s.encs[d]? = some u → ∃ v, t.encs[d]? = some v ∧ EncUnit.Change ev d u v)

/-- No unit changes. -/
theorem State.ChangesOnly.none {s t : State} {ev x} (h1 : t.params = s.params) (h2 : t.decs = s.decs) (h3 : t.encs = s.encs) : State.ChangesOnly s t ev x :=
  ⟨⟨h1, fun _ _ => by rw [h2], fun _ _ => by rw [h3]⟩, fun d u hu => ⟨u, by rw [h2]; exact hu, DecUnit.Change.refl⟩, fun d u hu => ⟨u, by rw [h3]; exact hu, EncUnit.Change.refl⟩⟩

/-- From a state with the same units. -/
theorem State.ChangesOnly.relabel {s s' t : State} {ev x} (h : State.ChangesOnly s t ev x) (h1 : s'.params = s.params) (h2 : s'.decs = s.decs) (h3 : s'.encs = s.encs) : State.ChangesOnly s' t ev x :=
  ⟨⟨h.1.params.trans h1.symm, fun d hd => by rw [h2]; exact h.1.decs d hd, fun d hd => by rw [h3]; exact h.1.encs d hd⟩, by rw [h2]; exact h.2.1, by rw [h3]; exact h.2.2⟩

/-- To a state with the same units. -/
theorem State.ChangesOnly.relabelR {s t' t : State} {ev x} (h : State.ChangesOnly s t ev x) (h1 : t'.params = t.params) (h2 : t'.decs = t.decs) (h3 : t'.encs = t.encs) : State.ChangesOnly s t' ev x :=
  ⟨⟨h1.trans h.1.params, fun d hd => by rw [h2]; exact h.1.decs d hd, fun d hd => by rw [h3]; exact h.1.encs d hd⟩, by rw [h2]; exact h.2.1, by rw [h3]; exact h.2.2⟩

/-- A decoder changes. -/
theorem State.ChangesOnly.dec {s t : State} {ev d} (f : State.OthersSame s t (some (.dec d))) (h : ∀ u, s.decs[d]? = some u → ∃ v, t.decs[d]? = some v ∧ DecUnit.Change ev d u v) : State.ChangesOnly s t ev (some (.dec d)) := by
  refine ⟨f, fun d' u hu => ?_, fun d' u hu => ⟨u, (f.encs d' (by simp)).trans hu, EncUnit.Change.refl⟩⟩
  by_cases hd : d' = d
  · subst hd; exact h u hu
  · exact ⟨u, (f.decs d' (by simpa using fun h => hd h.symm)).trans hu, DecUnit.Change.refl⟩

/-- An encoder changes. -/
theorem State.ChangesOnly.enc {s t : State} {ev d} (f : State.OthersSame s t (some (.enc d))) (h : ∀ u, s.encs[d]? = some u → ∃ v, t.encs[d]? = some v ∧ EncUnit.Change ev d u v) : State.ChangesOnly s t ev (some (.enc d)) := by
  refine ⟨f, fun d' u hu => ⟨u, (f.decs d' (by simp)).trans hu, DecUnit.Change.refl⟩, fun d' u hu => ?_⟩
  by_cases hd : d' = d
  · subst hd; exact h u hu
  · exact ⟨u, (f.encs d' (by simpa using fun h => hd h.symm)).trans hu, EncUnit.Change.refl⟩

/-- A new stream is attached to an idle unit only. -/
theorem whenIdle_next {α} {b : Bool} {u v : α} (h : whenIdle b u = .next v) : v = u := by
  unfold whenIdle at h; split at h <;> cases h; rfl

/-- A turn changes its unit only. -/
theorem State.turnTaken_changes (s : State) {ev} (x : UnitId) : State.ChangesOnly s (s.turnTaken x) ev (some x) := by
  cases x with
  | dec d =>
    cases hu : s.decs[d]? with
    | none => rw [State.turnTaken_of_noDec hu]; exact State.ChangesOnly.none rfl rfl rfl
    | some u =>
      rw [State.turnTaken_dec hu]
      refine State.ChangesOnly.dec (State.OthersSame.setDec ..) fun u' hu' => ?_
      cases hu.symm.trans hu'
      exact ⟨_, List.getElem?_set_self (List.getElem?_eq_some_iff.1 hu).1, DecUnit.runFor_change⟩
  | enc d =>
    cases hu : s.encs[d]? with
    | none => rw [State.turnTaken_of_noEnc hu]; exact State.ChangesOnly.none rfl rfl rfl
    | some u =>
      rw [State.turnTaken_enc hu]
      refine State.ChangesOnly.enc (State.OthersSame.setEnc ..) fun u' hu' => ?_
      cases hu.symm.trans hu'
      exact ⟨_, List.getElem?_set_self (List.getElem?_eq_some_iff.1 hu).1, EncUnit.runFor_change⟩

/-- A read changes no unit (R63). -/
theorem State.mmioRead_changes {s t : State} {u w o ev x} (h : s.mmioRead u w o = .next t) : State.ChangesOnly s t ev x := by
  obtain ⟨v, rfl⟩ := State.mmioRead_next h
  exact State.ChangesOnly.none rfl rfl rfl

/-- A wait changes at most one unit, by a turn of its own. -/
theorem State.waitFor_changes {s t : State} {u ev} (h : s.waitFor u = .next t) : ∃ x, State.ChangesOnly s t ev x := by
  obtain ⟨v, ⟨-, rfl⟩ | ⟨-, x, -, rfl⟩ | ⟨-, -, es, -, -, rfl⟩⟩ := State.waitFor_next h
  · exact ⟨none, State.ChangesOnly.none rfl rfl rfl⟩
  · exact ⟨some x, State.ChangesOnly.relabelR (t := (s.polled v).turnTaken x) (State.ChangesOnly.relabel (s := s.polled v) (State.turnTaken_changes _ x) rfl rfl rfl) rfl rfl rfl⟩
  · exact ⟨none, State.ChangesOnly.none rfl rfl rfl⟩

/-- A register write to a decoder. -/
theorem DecUnit.writeAt_change (u : DecUnit) (off v d) : DecUnit.Change (some (.write (.dec d) 4 off v)) d u (u.writeAt off v) := by
  unfold DecUnit.writeAt
  split
  · rename_i h
    have : off = 4 := by
      simp only [regAt, commonMap, decOnlyMap, List.cons_append, List.nil_append, List.lookup_cons] at h
      by_contra hne
      have h1 : (off == 0x004) = false := by simpa using hne
      simp only [h1] at h
      revert h
      repeat' split
      all_goals (intro h; cases h)
    subst this
    exact .status v rfl rfl
  · unfold Ctl.writeCfg
    cases hb : u.ctl.busy
    · exact .cfg hb rfl rfl
    · exact .same (by simp) (by simp) (by simp)
  · exact DecUnit.Change.refl

/-- A register write to an encoder. -/
theorem EncUnit.writeAt_change (u : EncUnit) (off v d) : EncUnit.Change (some (.write (.enc d) 4 off v)) d u (u.writeAt off v) := by
  unfold EncUnit.writeAt
  split
  · exact EncUnit.Change.refl
  · rename_i h
    have : off = 4 := by
      simp only [regAt, commonMap, List.lookup_cons] at h
      by_contra hne
      have h1 : (off == 0x004) = false := by simpa using hne
      simp only [h1] at h
      revert h
      repeat' split
      all_goals (intro h; cases h)
    subst this
    exact .status v rfl rfl
  · unfold Ctl.writeCfg
    cases hb : u.ctl.busy
    · exact .cfg hb rfl rfl
    · exact .same (by simp) (by simp) (by simp) (fun _ => rfl)
  · split
    · unfold EncUnit.writeFmt
      cases hb : u.ctl.busy
      · exact .cfg hb rfl rfl
      · exact .same rfl (fun _ => rfl) id (fun _ => rfl)
    · exact EncUnit.Change.refl

/-- A write changes the unit it addresses only. -/
theorem State.mmioWrite_changes {s t : State} {u w o v} (h : s.mmioWrite u w o v = .next t) : State.ChangesOnly s t (some (.write u w o v)) (some u) := by
  unfold State.mmioWrite at h
  split at h
  · rename_i o hx
    unfold accessProblem at hx
    split at hx
    · cases hx; cases h
    · split at hx
      · cases hx; cases h
      · cases hx
  · rename_i hx
    have hw : w = 4 := by
      unfold accessProblem at hx
      split at hx
      · cases hx
      · omega
    subst hw
    split at h
    · split at h
      · cases h
      · rename_i u hu
        split at h
        · obtain ⟨f, v', hv, hdc⟩ := State.cmdDec_frame hu h
          exact State.ChangesOnly.dec f fun u' hu' => by rw [hu] at hu'; cases hu'; exact ⟨v', hv, hdc _⟩
        · cases h
          exact State.ChangesOnly.dec (State.OthersSame.setDec ..) fun u' hu' => by rw [hu] at hu'; cases hu'; exact ⟨_, List.getElem?_set_self (List.getElem?_eq_some_iff.1 hu).1, DecUnit.writeAt_change ..⟩
    · split at h
      · cases h
      · rename_i u hu
        split at h
        · rename_i ho
          subst ho
          obtain ⟨f, v', hv, hdc⟩ := State.cmdEnc_frame hu h
          exact State.ChangesOnly.enc f fun u' hu' => by rw [hu] at hu'; cases hu'; exact ⟨v', hv, hdc⟩
        · cases h
          exact State.ChangesOnly.enc (State.OthersSame.setEnc ..) fun u' hu' => by rw [hu] at hu'; cases hu'; exact ⟨_, List.getElem?_set_self (List.getElem?_eq_some_iff.1 hu).1, EncUnit.writeAt_change ..⟩

/-- An action on a decoder, by what it does to the unit. -/
theorem State.onDec_changes {s t : State} {d f ev} (h : s.onDec d f = .next t) (hf : ∀ u v, f u = .next v → DecUnit.Change ev d u v) : State.ChangesOnly s t ev (some (.dec d)) := by
  obtain ⟨a, b⟩ := State.onDec_frame h
  exact State.ChangesOnly.dec a fun u hu => by obtain ⟨v, h1, h2⟩ := b u hu; exact ⟨v, h2, hf u v h1⟩

/-- An action on an encoder, by what it does to the unit. -/
theorem State.onEnc_changes {s t : State} {d f ev} (h : s.onEnc d f = .next t) (hf : ∀ u v, f u = .next v → EncUnit.Change ev d u v) : State.ChangesOnly s t ev (some (.enc d)) := by
  obtain ⟨a, b⟩ := State.onEnc_frame h
  exact State.ChangesOnly.enc a fun u hu => by obtain ⟨v, h1, h2⟩ := b u hu; exact ⟨v, h2, hf u v h1⟩

/-- A host action changes the unit it is addressed to only; a wait, during which the units take turns, changes at most one. -/
theorem State.perform_changes {s t : State} {e : HostEvent} (h : s.perform e = .next t) : ∃ x, (x = e.target ∨ ∃ u, e = .wait u) ∧ State.ChangesOnly s t (some e) x := by
  by_cases hw : ∃ u, e = .wait u
  · obtain ⟨u, rfl⟩ := hw
    obtain ⟨x, g⟩ := State.waitFor_changes h
    exact ⟨x, .inr ⟨u, rfl⟩, g⟩
  refine ⟨_, .inl rfl, ?_⟩
  cases e with
  | wait u => exact absurd ⟨u, rfl⟩ hw
  | read u w o => exact State.mmioRead_changes h
  | write u w o v => exact State.mmioWrite_changes h
  | resetUnit x => cases x with
    | dec d =>
      simp only [State.perform, State.turnOf] at h; exact State.onDec_changes h fun u v hv => .reset rfl
    | enc d =>
      simp only [State.perform, State.turnOf] at h; exact State.onEnc_changes h fun u v hv => .reset rfl
  | run x => cases x with
    | dec d =>
      simp only [State.perform, State.turnOf] at h; exact State.onDec_changes h fun u v hv => by cases hv; exact DecUnit.runFor_change
    | enc d =>
      simp only [State.perform, State.turnOf] at h; exact State.onEnc_changes h fun u v hv => by cases hv; exact EncUnit.runFor_change
  | setPace p => cases h; exact State.ChangesOnly.none rfl rfl rfl
  | inEvent d e =>
    refine State.onDec_changes (show s.onDec d _ = _ from h) fun u v hv => ?_
    change u.deliver e = _ at hv
    unfold DecUnit.deliver at hv
    split at hv
    · cases hv
    · split at hv <;> cases hv <;> exact .same rfl id id
  | attachIn d r t => simp only [State.perform, State.turnOf] at h; exact State.onDec_changes h fun u v hv => by rw [whenIdle_next hv]; exact .same rfl id id
  | soutRoom d n => simp only [State.perform, State.turnOf] at h; exact State.onDec_changes h fun u v hv => by cases hv; exact .same rfl id id
  | soutTake d n => simp only [State.perform, State.turnOf] at h; exact State.onDec_changes h fun u v hv => by cases hv; exact .same rfl id id
  | attachSout d r => simp only [State.perform, State.turnOf] at h; exact State.onDec_changes h fun u v hv => by rw [whenIdle_next hv]; exact .same rfl id id
  | outAnswer d n => simp only [State.perform, State.turnOf] at h; exact State.onEnc_changes h fun u v hv => by cases hv; exact .same rfl id id (fun _ => rfl)
  | attachOut d r => simp only [State.perform, State.turnOf] at h; exact State.onEnc_changes h fun u v hv => by rw [whenIdle_next hv]; exact .same rfl id id (fun _ => rfl)
  | sinWord d n => simp only [State.perform, State.turnOf] at h; exact State.onEnc_changes h fun u v hv => by cases hv; exact .same rfl id id (fun _ => rfl)
  | attachSin d r => simp only [State.perform, State.turnOf] at h; exact State.onEnc_changes h fun u v hv => by rw [whenIdle_next hv]; exact .same rfl id id (fun _ => rfl)
  | copyOut e d =>
    simp only [State.perform, State.copyOut] at h
    split at h
    · cases h
    · exact State.onDec_changes (show s.onDec d _ = _ from h) fun u v hv => by rw [whenIdle_next hv]; exact .same rfl id id
  | share =>
    simp only [State.perform] at h
    split at h <;> cases h
    exact State.ChangesOnly.none rfl rfl rfl

/-- What a step changes. -/
theorem step_changes {s t : State} (h : step s = .next t) : ∃ x, State.ChangesOnly s t s.script.head? x ∧
    ∀ e rest, s.script = e :: rest → x = e.target ∨ ∃ u, e = .wait u := by
  cases hs : s.script with
  | nil =>
    rw [step_of_done hs] at h
    obtain ⟨x, -, rfl⟩ | ⟨-, rfl⟩ := State.settle_next h
    · exact ⟨_, State.turnTaken_changes s x, fun _ _ h => by cases h⟩
    · exact ⟨none, State.ChangesOnly.none rfl rfl rfl, fun _ _ h => by cases h⟩
  | cons e rest =>
    rw [step_of_script hs] at h
    obtain ⟨x, hx, g⟩ := State.perform_changes h
    exact ⟨x, g.relabel (s' := s) rfl rfl rfl, fun e' r' he => by cases he; exact hx⟩

end Sys2Proof.Machine
end

