-- ==== Sys2Proof/Laws/Endless.lean ====
section
/-! SUPPORT. The chunk scan of a stream that never ends (R190): what a decoder in the scan and the host that feeds
it keep from step to step, whatever the other units do. -/

namespace Sys2Proof.Machine

/-! ### A decoder in the chunk scan -/

/-- A BUSY decoder in the chunk scan, on a stream without terminator whose unconsumed bytes, followed by the
`bs` still to be delivered, are the rest of the chunk it is in and then whole chunks other than "data". -/
def DecUnit.Scanning (u : DecUnit) (bs : List Byte) : Prop :=
  u.ctl.busy = true ∧ u.inp.term = none ∧ ∃ (r : DecRun) (cs : List Chunk), u.run = some r ∧
    (∀ c ∈ cs, Chunk.Ok c) ∧
    ((∃ got, r.pos = .reading .chunkHeader 8 got ∧ got.length < 8 ∧
        got ++ (u.inp.ready ++ bs) = cs.flatMap Chunk.bytes) ∨
      ∃ need got body, r.pos = .skipping .chunk need got ∧ got < need ∧ got + body.length = need ∧
        u.inp.ready ++ bs = body ++ cs.flatMap Chunk.bytes)

/-- A byte of the stream is delivered. -/
theorem DecUnit.Scanning.deliver {u : DecUnit} {b : Byte} {bs : List Byte} (h : u.Scanning (b :: bs)) :
    ({ u with inp := { u.inp with ready := u.inp.ready ++ [b] } } : DecUnit).Scanning bs := by
  obtain ⟨h1, h2, r, cs, h3, h4, h5⟩ := h
  refine ⟨h1, h2, r, cs, h3, h4, ?_⟩
  simpa only [List.append_assoc, List.cons_append, List.nil_append] using h5

/-- The bytes of a chunk are its tag and size, then its body. -/
theorem Chunk.Ok.split {c : Chunk} (h : c.Ok) :
    (c.tag ++ bytesLe32 (BitVec.ofNat 32 c.body.length)).length = 8 := by
  simp [h.1]

/-- A skip of a chunk's body, or the next header when there is none. -/
theorem DecUnit.Scanning.startSkip {u : DecUnit} {r : DecRun} {bs body : List Byte} {cs : List Chunk}
    (hb : u.ctl.busy = true) (ht : u.inp.term = none) (hcs : ∀ c ∈ cs, Chunk.Ok c)
    (hr : u.inp.ready ++ bs = body ++ cs.flatMap Chunk.bytes) :
    (u.startSkip r .chunk body.length).Scanning bs := by
  unfold DecUnit.startSkip
  split
  · rename_i h0
    obtain rfl := List.length_eq_zero_iff.1 h0
    exact ⟨hb, ht, _, cs, rfl, hcs, .inl ⟨[], rfl, by decide, hr⟩⟩
  · exact ⟨hb, ht, _, cs, rfl, hcs, .inr ⟨_, 0, body, rfl, by omega, by simp, hr⟩⟩

/-- A step of the scan consumes a byte and stays in the scan: no chunk of the stream ends it (R181, R190). -/
theorem DecUnit.Scanning.advance {u v : DecUnit} {bs : List Byte} (h : u.Scanning bs)
    (ha : u.advance = some v) :
    v.Scanning bs ∧ v.inp.taken.length = u.inp.taken.length + 1 := by
  obtain ⟨hb, ht, r, cs, hr, hcs, hpos⟩ := h
  obtain ⟨r', hr', hs⟩ := DecUnit.advance_step ha
  obtain rfl : r = r' := Option.some.inj (hr.symm.trans hr')
  have taken {b t} (hq : u.inp.ready = b :: t) :
      (u.consume 1).inp.taken.length = u.inp.taken.length + 1 := by simp [DecUnit.consume, hq]
  obtain ⟨got, hp, hl, hq⟩ | ⟨need, got, body, hp, hl, hn, hq⟩ := hpos
  · cases hs with
    | readByte hp' hready hlt =>
      cases hp.symm.trans hp'
      refine ⟨⟨hb, ht, _, cs, rfl, hcs, .inl ⟨_, rfl, by simpa using hlt, ?_⟩⟩, taken hready⟩
      simpa [DecUnit.consume, hready] using hq
    | @readLast what need got' b t hp' hready hlt =>
      cases hp.symm.trans hp'
      cases cs with
      | nil => simp [hready] at hq
      | cons c cs =>
        have ok := hcs c (by simp)
        have hq' : (got ++ [b]) ++ (t ++ bs) =
            (c.tag ++ bytesLe32 (BitVec.ofNat 32 c.body.length)) ++
              (c.body ++ cs.flatMap Chunk.bytes) := by
          simpa [Chunk.bytes, hready] using hq
        obtain ⟨e1, e2⟩ := List.append_inj hq' (by rw [ok.split]; simp; omega)
        have hskip : (u.consume 1).afterRead r .chunkHeader (got ++ [b]) =
            (u.consume 1).startSkip r .chunk c.body.length := by
          rw [DecUnit.afterRead, DecUnit.afterChunkHeader, e1, slice_chunk_tag ok.1, if_neg ok.2.1,
            slice_chunk_size ok.1, le32_bytesLe32, toNat_ofNat32 _ ok.2.2]
        rw [hskip]
        refine ⟨.startSkip (cs := cs) hb ht (fun c' hc' => hcs c' (by simp [hc'])) ?_, ?_⟩
        · simpa [DecUnit.consume, hready] using e2
        · rw [show ((u.consume 1).startSkip r .chunk c.body.length).inp = (u.consume 1).inp by
            unfold DecUnit.startSkip; split <;> rfl]
          exact taken hready
    | readStop hp' hready hterm => simp [ht] at hterm
    | skipByte hp' => cases hp.symm.trans hp'
    | skipLast hp' => cases hp.symm.trans hp'
    | skipStop hp' => cases hp.symm.trans hp'
    | scan hp' => cases hp.symm.trans hp'
    | parse hp' => cases hp.symm.trans hp'
    | append hp' => cases hp.symm.trans hp'
    | record hp' => cases hp.symm.trans hp'
    | release hp' => cases hp.symm.trans hp'
  · obtain ⟨x, xs, rfl⟩ : ∃ x xs, body = x :: xs :=
      List.exists_cons_of_ne_nil (by rintro rfl; simp at hn; omega)
    cases hs with
    | skipByte hp' hready hlt =>
      cases hp.symm.trans hp'
      rw [hready, List.cons_append, List.cons_append, List.cons.injEq] at hq
      refine ⟨⟨hb, ht, _, cs, rfl, hcs, .inr ⟨_, _, xs, rfl, hlt, ?_, ?_⟩⟩, taken hready⟩
      · simp only [List.length_cons] at hn; omega
      · simpa [DecUnit.consume, hready] using hq.2
    | skipLast hp' hready hlt =>
      cases hp.symm.trans hp'
      obtain rfl : xs = [] := List.length_eq_zero_iff.1 (by simp only [List.length_cons] at hn; omega)
      rw [hready, List.cons_append, List.cons_append, List.cons.injEq] at hq
      refine ⟨⟨hb, ht, _, cs, rfl, hcs, .inl ⟨[], rfl, by decide, ?_⟩⟩, taken hready⟩
      simpa [DecUnit.afterSkip, DecUnit.consume, hready] using hq.2
    | skipStop hp' hready hterm => simp [ht] at hterm
    | readByte hp' => cases hp.symm.trans hp'
    | readLast hp' => cases hp.symm.trans hp'
    | readStop hp' => cases hp.symm.trans hp'
    | scan hp' => cases hp.symm.trans hp'
    | parse hp' => cases hp.symm.trans hp'
    | append hp' => cases hp.symm.trans hp'
    | record hp' => cases hp.symm.trans hp'
    | release hp' => cases hp.symm.trans hp'

/-- The same of any number of steps. -/
theorem DecUnit.Scanning.steps {u v : DecUnit} {bs : List Byte} (h : u.Scanning bs) (hs : u.Steps v) :
    v.Scanning bs ∧ u.inp.taken.length ≤ v.inp.taken.length := by
  induction hs with
  | refl => exact ⟨h, le_refl _⟩
  | head a _ ih =>
    obtain ⟨h1, h2⟩ := h.advance a
    obtain ⟨h3, h4⟩ := ih h1
    exact ⟨h3, by omega⟩

/-- A scan with a byte ready can take a step. -/
theorem DecUnit.Scanning.ready_of_none {u : DecUnit} {bs : List Byte} (h : u.Scanning bs)
    (ha : u.advance = none) : u.inp.ready = [] := by
  obtain ⟨-, -, r, cs, hr, -, hpos⟩ := h
  cases hq : u.inp.ready with
  | nil => rfl
  | cons b t =>
    obtain ⟨got, hp, -⟩ | ⟨need, got, body, hp, -⟩ := hpos
    · simp only [DecUnit.advance, hr, hp, DecUnit.stepRead, InStream.next, hq] at ha
      split at ha <;> cases ha
    · simp only [DecUnit.advance, hr, hp, DecUnit.stepSkip, InStream.next, hq] at ha
      split at ha <;> cases ha

/-- With everything delivered and consumed the scan is between two chunks, and more chunks may follow. -/
theorem DecUnit.Scanning.more {u : DecUnit} (h : u.Scanning []) (hready : u.inp.ready = [])
    {cs : List Chunk} (hcs : ∀ c ∈ cs, Chunk.Ok c) : u.Scanning (cs.flatMap Chunk.bytes) := by
  obtain ⟨hb, ht, r, cs', hr, hcs', hpos⟩ := h
  refine ⟨hb, ht, r, cs, hr, hcs, ?_⟩
  rw [hready, List.append_nil] at hpos
  rw [hready, List.nil_append]
  obtain ⟨got, hp, hl, hq⟩ | ⟨need, got, body, hp, hl, hn, hq⟩ := hpos
  · rw [List.append_nil] at hq
    cases cs' with
    | nil => rw [List.flatMap_nil] at hq; subst hq; exact .inl ⟨[], hp, hl, rfl⟩
    | cons c cs' =>
      have := (hcs' c (by simp)).split
      rw [hq, List.flatMap_cons, Chunk.bytes, List.length_append, List.length_append, this] at hl
      omega
  · obtain ⟨rfl, -⟩ := List.append_eq_nil_iff.1 hq.symm
    simp at hn; omega

/-- A delivery to a scan that waits lets it go on. -/
theorem DecUnit.Scanning.deliver_advance {u : DecUnit} {bs : List Byte} (h : u.Scanning bs) (b : Byte) :
    ({ u with inp := { u.inp with ready := u.inp.ready ++ [b] } } : DecUnit).advance ≠ none := by
  obtain ⟨-, -, r, cs, hr, -, hpos⟩ := h
  cases hq : u.inp.ready ++ [b] with
  | nil => simp at hq
  | cons c t =>
    obtain ⟨got, hp, -⟩ | ⟨need, got, body, hp, -⟩ := hpos
    · simp only [DecUnit.advance, hr, hp, DecUnit.stepRead, InStream.next]
      split <;> simp
    · simp only [DecUnit.advance, hr, hp, DecUnit.stepSkip, InStream.next]
      split <;> simp

/-- The bytes consumed and those ready are together what has been delivered. -/
theorem DecUnit.Steps.delivered {u v : DecUnit} (h : u.Steps v) :
    v.inp.taken.length + v.inp.ready.length = u.inp.taken.length + u.inp.ready.length := by
  obtain ⟨got, new, h1, -, h2, -⟩ := (DecUnit.StreamFrame.steps h).ex
  rw [h1, h2]
  simp only [List.length_append]
  omega

/-! ### The machine that feeds it -/

/-- The host's delivery of the bytes `bs` to decoder `d`. -/
def feed (d : Nat) (bs : List Byte) : List HostEvent := bs.map fun b => .inEvent d (.byte b)

/-- Decoder `d` is in the chunk scan of what the host is delivering, after which the host does nothing or waits
for `d`, and delivers the chunks `cs` over and over (R190). -/
structure State.Feeding (s : State) (d : Nat) (cs : List Chunk) (u : DecUnit) (bs : List Byte) : Prop where
  unit : s.decs[d]? = some u
  script : ∃ rest, s.script = feed d bs ++ rest ∧ (rest = [] ∨ ∃ more, rest = .wait (.dec d) :: more)
  scanning : u.Scanning bs
  loop : s.loop = feed d (cs.flatMap Chunk.bytes)

/-- A delivery. -/
theorem State.Feeding.step_deliver {s : State} {d : Nat} {cs : List Chunk} {u : DecUnit} {b : Byte}
    {bs : List Byte} (h : s.Feeding d cs u (b :: bs)) :
    ∃ t, step s = .next t ∧
      t.Feeding d cs { u with inp := { u.inp with ready := u.inp.ready ++ [b] } } bs := by
  obtain ⟨rest, hs, hr⟩ := h.script
  refine ⟨({ s with script := feed d bs ++ rest } : State).setDec d
    { u with inp := { u.inp with ready := u.inp.ready ++ [b] } }, ?_, ?_, ⟨rest, rfl, hr⟩, h.scanning.deliver, h.loop⟩
  · rw [step_of_script hs]
    simp [State.perform, State.onDec, h.unit, DecUnit.deliver, h.scanning.2.1, feed]
  · exact List.getElem?_set_self (List.getElem?_eq_some_iff.1 h.unit).1

/-- With everything delivered, a turn of any unit keeps the decoder in the scan, and with it what has been
delivered. -/
theorem State.Feeding.turnTaken {s : State} {d : Nat} {cs : List Chunk} {u : DecUnit}
    (h : s.Feeding d cs u []) (x : UnitId) : ∃ v, (s.turnTaken x).Feeding d cs v [] ∧
      v.inp.taken.length + v.inp.ready.length = u.inp.taken.length + u.inp.ready.length := by
  by_cases hx : x = .dec d
  · subst hx
    have hs := DecUnit.runFor_steps (max 1 (s.pace.getD u.work)) u
    refine ⟨_, ⟨?_, by simpa using h.script, (h.scanning.steps hs).1, by simpa using h.loop⟩, hs.delivered⟩
    rw [State.turnTaken_dec h.unit]
    exact List.getElem?_set_self (List.getElem?_eq_some_iff.1 h.unit).1
  · exact ⟨u, ⟨(State.turnTaken_decs_ne hx).trans h.unit, by simpa using h.script, h.scanning,
      by simpa using h.loop⟩, rfl⟩

/-- The unit the host waits for is BUSY. -/
theorem State.Feeding.busy {s : State} {d : Nat} {cs : List Chunk} {u : DecUnit} {bs : List Byte}
    (h : s.Feeding d cs u bs) : s.busy (.dec d) = true := by
  simp [State.busy, h.unit, h.scanning.1]

/-- A decoder that waits in the scan is one that every byte of the loop helps. -/
theorem State.Feeding.supplies {s : State} {d : Nat} {cs : List Chunk} {u : DecUnit} {bs : List Byte}
    (h : s.Feeding d cs u bs) : ∀ e ∈ s.loop, s.supplies e = true := by
  intro e he
  rw [h.loop, feed, List.mem_map] at he
  obtain ⟨b, -, rfl⟩ := he
  have := h.scanning.deliver_advance b
  simpa [State.supplies, h.unit, DecUnit.deliver, h.scanning.2.1, Option.isSome_iff_ne_none] using this

/-- With everything delivered, some unit that can take a step takes its turn. -/
theorem State.Feeding.step_turn {s : State} {d : Nat} {cs : List Chunk} {u : DecUnit}
    (h : s.Feeding d cs u []) (hq : ¬ s.Quiet) : ∃ t v, step s = .next t ∧ t.Feeding d cs v [] ∧
      t.work < s.work ∧
      v.inp.taken.length + v.inp.ready.length = u.inp.taken.length + u.inp.ready.length := by
  obtain ⟨rest, hs, hr⟩ := h.script
  rw [feed, List.map_nil, List.nil_append] at hs
  obtain rfl | ⟨more, rfl⟩ := hr
  · obtain ⟨x, hx, e⟩ := State.settle_of_not_quiet hq
    obtain ⟨v, hv, hl⟩ := h.turnTaken x
    exact ⟨_, v, (step_of_done hs).trans e, hv, hx.work_lt, hl⟩
  · obtain ⟨w, -, ⟨x, hx, -, e⟩ | ⟨hq', -⟩ | ⟨hq', -⟩⟩ :=
      State.waitFor_busy (s := { s with script := more }) (u := .dec d) h.busy
    · have hp : State.Feeding (s.polled w) d cs u [] := ⟨h.unit, h.script, h.scanning, h.loop⟩
      obtain ⟨v, hv, hl⟩ := hp.turnTaken x
      refine ⟨_, v, (step_of_script hs).trans e, ⟨?_, ⟨_, rfl, .inr ⟨more, rfl⟩⟩, hv.scanning, ?_⟩, ?_, hl⟩
      · rw [show ({ s with script := more } : State).polled w = { s.polled w with script := more } from rfl,
          State.turnTaken_withScript]
        exact hv.unit
      · simpa using h.loop
      · exact State.CanStep.work_lt (s := ({ s with script := more } : State).polled w) hx
    · exact absurd hq' hq
    · exact absurd hq' hq

/-- Where no unit can take a step, the host goes on with its chunks. -/
theorem State.Feeding.step_again {s : State} {d : Nat} {cs : List Chunk} {u : DecUnit}
    (h : s.Feeding d cs u []) (hq : s.Quiet) (hne : cs ≠ []) (hcs : ∀ c ∈ cs, Chunk.Ok c) :
    ∃ t, step s = .next t ∧ t.Feeding d cs u (cs.flatMap Chunk.bytes) := by
  have hready : u.inp.ready = [] := h.scanning.ready_of_none (by
    by_contra ha; exact hq (.dec d) ⟨u, h.unit, ha⟩)
  have hbytes : cs.flatMap Chunk.bytes ≠ [] := by
    obtain ⟨c, cs, rfl⟩ := List.exists_cons_of_ne_nil hne
    have := (hcs c (by simp)).split
    intro h0
    rw [List.flatMap_cons, Chunk.bytes, List.append_eq_nil_iff, List.append_eq_nil_iff] at h0
    rw [h0.1.1] at this
    cases this
  have hl : s.loop ≠ [] := by rw [h.loop, feed, ne_eq, List.map_eq_nil_iff]; exact hbytes
  have hscan := h.scanning.more hready hcs
  obtain ⟨rest, hs, hr⟩ := h.script
  rw [feed, List.map_nil, List.nil_append] at hs
  obtain rfl | ⟨more, rfl⟩ := hr
  · refine ⟨{ s with script := s.loop }, ?_, h.unit, ⟨[], by simp [h.loop], .inl rfl⟩, hscan, h.loop⟩
    rw [step_of_done hs, State.settle_of_quiet hq]
    obtain ⟨e, es, he⟩ := List.exists_cons_of_ne_nil hl
    have := h.supplies e (by simp [he])
    simp [State.helps, he, this]
  · have hf : s.loop.filter s.supplies = s.loop := List.filter_eq_self.2 h.supplies
    obtain ⟨w, -, ⟨x, hx, -⟩ | ⟨-, h0, -⟩ | ⟨-, -, e⟩⟩ :=
      State.waitFor_busy (s := { s with script := more }) (u := .dec d) h.busy
    · exact absurd hx (hq x)
    · exact absurd (hf.symm.trans h0) hl
    · refine ⟨_, (step_of_script hs).trans e, h.unit, ⟨.wait (.dec d) :: more, ?_, .inr ⟨more, rfl⟩⟩, hscan,
        h.loop⟩
      change s.loop.filter s.supplies ++ _ = _
      rw [hf, h.loop]

/-- The machine comes to a state where no unit can take a step, with everything delivered consumed. -/
theorem State.Feeding.quiesce {s : State} {d : Nat} {cs : List Chunk} {u : DecUnit} {bs : List Byte}
    (h : s.Feeding d cs u bs) : ∃ n t v, Sys2Proof.core.run n s = .next t ∧ t.Feeding d cs v [] ∧ t.Quiet ∧
      v.inp.taken.length = u.inp.taken.length + u.inp.ready.length + bs.length := by
  induction bs generalizing s u with
  | cons b bs ih =>
    obtain ⟨t, h1, h2⟩ := h.step_deliver
    obtain ⟨n, t', v, h3, h4, h5, h6⟩ := ih h2
    refine ⟨n + 1, t', v, by rw [run_succ h1]; exact h3, h4, h5, ?_⟩
    simp only [List.length_append, List.length_cons, List.length_nil] at h6 ⊢
    omega
  | nil =>
    generalize hw : s.work = w
    induction w using Nat.strong_induction_on generalizing s u with
    | _ w ih =>
      by_cases hq : s.Quiet
      · refine ⟨0, s, u, rfl, h, hq, ?_⟩
        have := h.scanning.ready_of_none (by by_contra ha; exact hq (.dec d) ⟨u, h.unit, ha⟩)
        simp [this]
      · obtain ⟨t, v, h1, h2, h3, h4⟩ := h.step_turn hq
        obtain ⟨n, t', v', h5, h6, h7, h8⟩ := ih t.work (by omega) h2 rfl
        exact ⟨n + 1, t', v', by rw [run_succ h1]; exact h5, h6, h7, by omega⟩

end Sys2Proof.Machine
end

