-- ==== Sys2Proof/Laws/Invariant.lean ====
section
/-! SUPPORT. The invariants of the units: every single step keeps them, and execution start of an
accepted command meets them. -/

set_option linter.unusedSimpArgs false

namespace Sys2Proof.Machine

open Sys2Proof.Config (Params)

/-- A byte more of a read is a byte more of IO_COUNT (R31). -/
theorem DecRead.counted_succ {u : DecUnit} {what : DecRead} {got : List Byte}
    (h : what.Counted u got.length) (b : Byte) : what.Counted (u.consume 1) (got ++ [b]).length := by
  cases what <;> simp_all [DecRead.Counted, DecUnit.consume, BitVec.ofNat_add, BitVec.add_assoc]

/-- A byte more of a skip is a byte more of IO_COUNT (R31). -/
theorem DecSkip.ok_succ {u : DecUnit} {k : DecSkip} {need got : Nat} (h : k.Ok u need got) :
    k.Ok (u.consume 1) need (got + 1) := by
  cases k <;> simp_all [DecSkip.Ok, DecUnit.consume, BitVec.ofNat_add, BitVec.add_assoc]

/-- Starting a skip keeps the invariant (R68). -/
theorem DecUnit.startSkip_ok (u : DecUnit) (r : DecRun) (k : DecSkip) (n : Nat)
    (h1 : u.ctl.asm = []) (h2 : u.ctl.busy = true ∧ u.ctl.done = false) (h3 : r.bo = u.ctl.sampleBo)
    (hc : u.ctl.Clean) (hp : u.ctl.phase = k.phase) (hv : u.hdrValid = false) (hs : u.ctl.sampleCount = 0#32)
    (hf : u.hdr.FormatOk) (hk : k.Ok u n 0) : (u.startSkip r k n).Ok := by
  unfold DecUnit.startSkip
  split
  · rename_i hn
    cases k with
    | extension =>
      obtain ⟨hx, hl, hio⟩ := hk
      refine ⟨h1, fun _ => hf, h2.1, h2.2, h3, hc, List.mem_cons_of_mem _ (List.mem_singleton_self _), hv, hs, hf, ?_⟩
      have hl : u.hdr.extraSize.toNat = 0 := by omega
      simpa [DecUnit.afterSkip, DecUnit.goto, DecUnit.setPhase, Ctl.setPhase, hx, hl] using hio
    | chunk => exact ⟨h1, fun _ => hf, h2.1, h2.2, h3, hc, hp, rfl, by simp, ⟨hv, hs, hf⟩, trivial⟩
  · exact ⟨h1, fun _ => hf, h2.1, h2.2, h3, hc, hp, by omega, hv, hs, hf, hk⟩

/-- Going on to the next payload element keeps the invariant (R210, R212, R220). -/
theorem DecUnit.nextElement_ok (u : DecUnit) (r : DecRun) (k : SampleKind) (left : Nat)
    (h1 : u.ctl.asm = []) (h2 : u.ctl.busy = true ∧ u.ctl.done = false) (h3 : r.bo = u.ctl.sampleBo)
    (hc : u.ctl.Clean) (hp : u.ctl.phase = .samplesDecoding) (hf : u.hdr.FormatOk)
    (hi : u.InPayload r.cmd k left) : (u.nextElement r k left).Ok := by
  unfold DecUnit.nextElement
  split
  · have := k.size_pos
    have := hi.1
    simp_all [DecUnit.Ok, Ctl.Clean, DecHeader.RiffOk, DecHeader.FormatOk, DecPos.Ok, DecUnit.goto, DecRead.need, DecRead.Ok, DecRead.Counted, DecRead.phase, DecUnit.InPayload]
  · have := k.size_pos
    have := hi.1
    split
    · simp_all [DecUnit.Ok, Ctl.Clean, DecHeader.RiffOk, DecHeader.FormatOk, DecPos.Ok, DecUnit.goto, DecRead.need, DecRead.Ok, DecRead.Counted, DecRead.phase, DecUnit.InPayload]
      omega
    · simp_all [DecUnit.Ok, Ctl.Clean, DecHeader.RiffOk, DecHeader.FormatOk, DecPos.Ok, DecUnit.goto, DecUnit.SuccessOk, DecUnit.InPayload]

/-- Every step of a decoder keeps its invariant. -/
theorem DecUnit.advance_ok {u v : DecUnit} (hok : u.Ok) (h : u.advance = some v) : v.Ok := by
  obtain ⟨r, hr, hs⟩ := DecUnit.advance_step h
  obtain ⟨ha, hval, hrest⟩ := hok
  simp only [hr] at hrest
  obtain ⟨hb, hd, hbo, hpos⟩ := hrest
  cases hs with
  | @readByte what need got b bs hp hready hlt =>
    rw [hp] at hpos
    obtain ⟨hc, hph, hneed, hg, hw⟩ := hpos
    obtain ⟨hw, hn⟩ := hw
    refine ⟨ha, hval, hb, hd, hbo, hc, hph, hneed, by simpa using hlt, ?_, DecRead.counted_succ hn b⟩
    cases what <;> exact hw
  | @readLast what need got b bs hp hready hlt =>
    rw [hp] at hpos
    obtain ⟨hc, hph, hneed, hg, hw, hn⟩ := hpos
    have hn := DecRead.counted_succ hn b
    have hlen : (got ++ [b]).length = what.need u.hdr := by simp; omega
    rw [hlen] at hn
    cases what with
    | riff =>
      obtain ⟨hv, hs⟩ := hw
      simp only [DecUnit.afterRead, DecUnit.afterRiff]
      split
      · simp_all [DecUnit.Ok, Ctl.Clean, DecHeader.RiffOk, DecHeader.FormatOk, DecUnit.fail, DecUnit.goto, DecPos.Ok, DecUnit.consume, decErrors, parseErrors, parseCuts, parseStages]
        cases r.cmd with
        | header => simp [decErrors, parseErrors, parseCuts, parseStages]
        | samples k => cases k <;> simp [decErrors, parseErrors, parseCuts, parseStages]
      · rename_i h4
        split
        · simp_all [DecUnit.Ok, Ctl.Clean, DecHeader.RiffOk, DecHeader.FormatOk, DecUnit.fail, DecUnit.goto, DecPos.Ok, DecUnit.consume, decErrors, parseErrors, parseCuts, parseStages]
          cases r.cmd with
          | header => simp [decErrors, parseErrors, parseCuts, parseStages]
          | samples k => cases k <;> simp [decErrors, parseErrors, parseCuts, parseStages]
        · rename_i h8
          have h4' : slice (got ++ [b]) 0 4 = tagRiff := by simpa using h4
          have h8' : slice (got ++ [b]) 8 4 = tagWave := by simpa using h8
          have e1 : BitVec.ofNat 32 (pack32 tagRiff) = 0x46464952#32 := by decide
          have e2 : BitVec.ofNat 32 (pack32 tagWave) = 0x45564157#32 := by decide
          simp_all [DecUnit.Ok, Ctl.Clean, DecHeader.RiffOk, DecHeader.FormatOk, DecUnit.setPhase, DecUnit.goto, DecPos.Ok, DecUnit.consume, Ctl.setPhase, DecRead.phase, DecRead.need, DecRead.Ok, DecRead.Counted, DecHeader.loadRiff]
    | fmtTag =>
      obtain ⟨hv, hs, hf⟩ := hw
      simp only [DecUnit.afterRead, DecUnit.afterFmtTag]
      split
      · simp_all [DecUnit.Ok, Ctl.Clean, DecHeader.RiffOk, DecHeader.FormatOk, DecUnit.fail, DecUnit.goto, DecPos.Ok, DecUnit.consume, decErrors, parseErrors, parseCuts, parseStages]
        cases r.cmd with
        | header => simp [decErrors, parseErrors, parseCuts, parseStages]
        | samples k => cases k <;> simp [decErrors, parseErrors, parseCuts, parseStages]
      · simp_all [DecUnit.Ok, Ctl.Clean, DecHeader.RiffOk, DecHeader.FormatOk, DecUnit.setPhase, DecUnit.goto, DecPos.Ok, DecUnit.consume, Ctl.setPhase, DecRead.phase, DecRead.need, DecRead.Ok, DecRead.Counted]
    | fmtRecord =>
      obtain ⟨hv, hs, hf⟩ := hw
      simp only [DecUnit.afterRead, DecUnit.afterFmtRecord]
      split
      · simp_all [DecUnit.Ok, Ctl.Clean, DecHeader.RiffOk, DecHeader.FormatOk, DecUnit.fail, DecUnit.goto, DecPos.Ok, DecUnit.consume, decErrors, parseErrors, parseCuts, parseStages]
        cases r.cmd with
        | header => simp [decErrors, parseErrors, parseCuts, parseStages]
        | samples k => cases k <;> simp [decErrors, parseErrors, parseCuts, parseStages]
      · rename_i hm
        split
        · simp_all [DecUnit.Ok, Ctl.Clean, DecHeader.RiffOk, DecHeader.FormatOk, DecUnit.setPhase, DecUnit.goto, DecPos.Ok, DecUnit.consume, Ctl.setPhase, DecRead.phase, DecRead.need, DecRead.Ok, DecRead.Counted, DecHeader.loadFormat]
        · simp_all [DecUnit.Ok, Ctl.Clean, DecHeader.RiffOk, DecHeader.FormatOk, DecUnit.setPhase, DecUnit.goto, DecPos.Ok, DecUnit.consume, Ctl.setPhase, DecRead.phase, DecRead.need, DecRead.Ok, DecRead.Counted, DecHeader.loadFormat]
    | extraSize =>
      obtain ⟨hv, hs, hf, hx⟩ := hw
      simp only [DecUnit.afterRead, DecUnit.afterExtraSize]
      exact DecUnit.startSkip_ok _ _ _ _ ha ⟨hb, hd⟩ hbo hc hph hv hs hf ⟨hx, rfl, hn⟩
    | chunkHeader =>
      obtain ⟨hv, hs, hf⟩ := hw
      simp only [DecUnit.afterRead, DecUnit.afterChunkHeader]
      split
      · simp_all [DecUnit.Ok, Ctl.Clean, DecHeader.RiffOk, DecHeader.FormatOk, DecUnit.setPhase, DecUnit.goto, DecPos.Ok, DecUnit.consume, Ctl.setPhase, DecHeader.loadDataSize]
      · exact DecUnit.startSkip_ok _ _ _ _ ha ⟨hb, hd⟩ hbo hc hph hv hs hf trivial
    | element k left =>
      simp only [DecUnit.afterRead, DecUnit.afterElement]
      split
      · obtain ⟨h1, h2, h3, h4⟩ := hw
        exact ⟨ha, hval, hb, hd, hbo, hc, hph, h1, h2, h3, h4⟩
      · rename_i hdec
        obtain ⟨h1, h2, h3, h4⟩ := hw
        refine ⟨ha, hval, hb, hd, hbo, hc, ?_⟩
        rw [h1]
        cases k with
        | int16 => simp [decodable] at hdec
        | float32 => simp [decErrors]
    | residual k =>
      obtain ⟨h1, h2, h3, h4⟩ := hw
      refine ⟨ha, hval, hb, hd, hbo, hc, ?_⟩
      rw [h1]; cases k <;> simp [decErrors]
  | @readStop what need got t hp hready hterm =>
    rw [hp] at hpos
    obtain ⟨hc, hph, hneed, hg, hw, -⟩ := hpos
    refine ⟨ha, hval, hb, hd, hbo, hc, ?_⟩
    cases what <;> (try (obtain ⟨h1, -⟩ := hw)) <;> cases t <;> (first | (cases hcmd : r.cmd with
      | header => simp_all [decErrors, parseErrors, parseCuts, parseStages, DecRead.stage, Term.errKind]
      | samples k => cases k <;> simp_all [decErrors, parseErrors, parseCuts, parseStages, DecRead.stage, Term.errKind]))
  | @skipByte what need got b bs hp hready hlt =>
    rw [hp] at hpos
    obtain ⟨hc, hph, hg, hv, hs, hf, hk⟩ := hpos
    exact ⟨ha, hval, hb, hd, hbo, hc, hph, hlt, hv, hs, hf, DecSkip.ok_succ hk⟩
  | @skipLast what need got b bs hp hready hlt =>
    rw [hp] at hpos
    obtain ⟨hc, hph, hg, hv, hs, hf, hk⟩ := hpos
    have hk := DecSkip.ok_succ hk
    have hgn : got + 1 = need := by omega
    rw [hgn] at hk
    cases what <;> simp_all [DecUnit.Ok, DecSkip.Ok, DecRead.Counted, Ctl.Clean, DecHeader.RiffOk, DecHeader.FormatOk, DecUnit.afterSkip, DecPos.Ok, DecSkip.phase, DecRead.need, DecRead.Ok, DecRead.phase, DecUnit.setPhase, Ctl.setPhase, DecUnit.goto, DecUnit.consume]
  | @skipStop what need got t hp hready hterm =>
    rw [hp] at hpos
    obtain ⟨hc, -⟩ := hpos
    refine ⟨ha, hval, hb, hd, hbo, hc, ?_⟩
    cases what <;> cases t <;> cases r.cmd with
      | header => simp_all [decErrors, parseErrors, parseCuts, parseStages, DecSkip.stage, Term.errKind]
      | samples k => cases k <;> simp_all [decErrors, parseErrors, parseCuts, parseStages, DecSkip.stage, Term.errKind]
  | scan hp =>
    rw [hp] at hpos
    obtain ⟨hc, -, hv, hs, hf, -⟩ := hpos
    simp_all [DecUnit.Ok, DecRead.Counted, Ctl.Clean, DecHeader.RiffOk, DecHeader.FormatOk, DecUnit.setPhase, DecUnit.goto, DecPos.Ok, Ctl.setPhase, DecRead.phase, DecRead.need, DecRead.Ok]
  | parse hp =>
    rw [hp] at hpos
    obtain ⟨hc, hph, hv, hs⟩ := hpos
    simp only [DecUnit.afterParse]
    split
    · rename_i hcmd
      simp_all [DecUnit.Ok, Ctl.Clean, DecHeader.RiffOk, DecHeader.FormatOk, DecUnit.goto, DecPos.Ok, DecUnit.SuccessOk]
    · rename_i k hcmd
      split
      · refine ⟨ha, hval, hb, hd, hbo, hc, ?_⟩
        rw [hcmd]; cases k <;> simp [decErrors]
      · rename_i haf
        exact DecUnit.nextElement_ok _ _ _ _ ha ⟨hb, hd⟩ hbo hc rfl (hval hv)
          ⟨hcmd, hv, by simpa using haf, by simp [hs]⟩
  | @append k w left hp hroom =>
    rw [hp] at hpos
    obtain ⟨hc, hph, h1, h2, h3, h4⟩ := hpos
    refine DecUnit.nextElement_ok _ _ _ _ ha ⟨hb, hd⟩ hbo hc hph (hval h2) ⟨h1, h2, h3, ?_⟩
    have hlt : u.hdr.dataSize.toNat / k.size < 2 ^ 32 := by
      have := u.hdr.dataSize.isLt
      exact lt_of_le_of_lt (Nat.div_le_self _ _) this
    simp only [DecUnit.emit, List.length_singleton, BitVec.toNat_add, BitVec.toNat_ofNat]
    omega
  | @record e hp =>
    rw [hp] at hpos
    cases e with
    | ok p =>
      obtain ⟨hc, hs⟩ := hpos
      refine ⟨ha, hval, hb, hd, hbo, .inl ⟨hc, ?_⟩⟩
      change DecUnit.SuccessOk _ r.cmd _
      unfold DecUnit.SuccessOk at hs ⊢
      cases hcmd : r.cmd <;> simp only [hcmd] at hs ⊢ <;> exact hs
    | error k st a x =>
      obtain ⟨hc, he⟩ := hpos
      exact ⟨ha, hval, hb, hd, hbo, .inr ⟨k, st, rfl, rfl, he, rfl⟩⟩
  | release hp =>
    rw [hp] at hpos
    refine ⟨rfl, hval, rfl, .inr ⟨rfl, ?_⟩⟩
    obtain ⟨hc, hs⟩ | ⟨k, st, h1, h2, h3, h4⟩ := hpos
    · refine .inl ⟨hc, ?_⟩
      unfold DecUnit.SuccessOk at hs
      split at hs <;> simp [hs.1]
    · refine .inr ⟨k, st, h1, h2, ?_, h4⟩
      refine List.mem_cons_of_mem _ ?_
      revert h3
      cases r.cmd with
      | header => intro h; simp only [decErrors] at h; simp only [decErrors, List.mem_append]; exact .inl h
      | samples kk => cases kk <;> intro h <;> simp_all [decErrors] <;> tauto

/-- Every run of a decoder keeps its invariant. -/
theorem DecUnit.steps_ok {u v : DecUnit} (h : u.Steps v) (hok : u.Ok) : v.Ok := by
  induction h with
  | refl => exact hok
  | head a _ ih => exact ih (DecUnit.advance_ok hok a)

/-- Going on to the next sample keeps the invariant (R142). -/
theorem EncUnit.nextSample_ok (p : Params) (u : EncUnit) (bo : ByteOrder) (k : SampleKind) (left : Nat)
    (h1 : u.ctl.asm = []) (h2 : u.ctl.busy = true ∧ u.ctl.done = false) (h3 : bo = u.ctl.sampleBo)
    (hi : u.InSamples p k left 0) : (u.nextSample bo k left).Ok p := by
  cases left with
  | zero => exact ⟨h1, h2.1, h2.2, h3, hi.1, rfl⟩
  | succ n => exact ⟨h1, h2.1, h2.2, h3, hi⟩

/-- Every step of an encoder keeps its invariant. -/
theorem EncUnit.advance_ok {p : Params} {u v : EncUnit} (hok : u.Ok p) (h : u.advance p = some v) : v.Ok p := by
  obtain ⟨r, hr, hs⟩ := EncUnit.advance_step h
  simp only [EncUnit.Ok, hr] at hok
  obtain ⟨ha, hb, hd, hbo, hpos⟩ := hok
  cases hs with
  | @constructed a hp =>
    rw [hp] at hpos; exact ⟨ha, hb, hd, hbo, hpos.1, rfl⟩
  | @construct a f fs hp =>
    rw [hp] at hpos
    obtain ⟨h1, h2, h3, h4⟩ := hpos
    exact ⟨ha, hb, hd, hbo, h1, h2, h3, (List.suffix_cons f fs).trans h4⟩
  | @headerDone sent next hp =>
    rw [hp] at hpos
    obtain ⟨h1, h2, h3, h4, h5, h6, h7, h8⟩ := hpos
    have hs44 : sent = 44 := by
      have := congrArg List.length h5
      simp [headerBytes_length] at this; omega
    cases next with
    | none => exact ⟨ha, hb, hd, hbo, h1, rfl⟩
    | some kn =>
      obtain ⟨k, n⟩ := kn
      refine EncUnit.nextSample_ok p _ _ k n ha ⟨hb, hd⟩ hbo ⟨h1, rfl, h3, ?_, ?_⟩
      · simp [EncUnit.setPhase, Ctl.setPhase, h7, h8]
      · simp [EncUnit.setPhase, Ctl.setPhase, h7, h6, hs44]
  | @headerByte b bs sent next as hp hans =>
    rw [hp] at hpos
    obtain ⟨h1, h2, h3, h4, h5, h6, h7, h8⟩ := hpos
    have hl := congrArg List.length h5
    simp [headerBytes_length] at hl
    refine ⟨ha, hb, hd, hbo, h1, h2, h3, by omega, ?_, ?_, h7, h8⟩
    · have := congrArg List.tail h5
      simpa [List.tail_drop, EncUnit.send] using this
    · simp [EncUnit.send, EncUnit.goto, h6, BitVec.ofNat_add]
  | @headerFail b bs sent next as hp hans =>
    rw [hp] at hpos
    exact ⟨ha, hb, hd, hbo, hpos.1, by simp [anyEncError, encErrors]⟩
  | @take k left w ws hp hrd hok2 =>
    rw [hp] at hpos
    exact ⟨ha, hb, hd, hbo, hpos, by simp⟩
  | @takeBad k left w ws hp hrd hbad =>
    rw [hp] at hpos
    refine ⟨ha, hb, hd, hbo, hpos.1, ?_⟩
    cases k with
    | int16 => simp [encodable] at hbad
    | float32 =>
      simp [encodable] at hbad
      simp [anyEncError, encErrors, hbad.1]
  | @elementDone sent k left hp =>
    rw [hp] at hpos
    obtain ⟨⟨h1, h2, h3, h4, h5⟩, h6⟩ := hpos
    have hk : sent = k.size := by simpa using h6
    have hlt : u.ctl.sampleCount.toNat + 1 < 2 ^ 32 := by
      have h7 := u.dataSize.isLt
      have h8 := k.two_le_size
      rw [h4] at h7
      generalize u.ctl.sampleCount.toNat = c at *
      have h9 : (c + (left+1)) * 2 ≤ (c + (left+1)) * k.size := Nat.mul_le_mul_left _ h8
      omega
    have hc : (u.ctl.sampleCount + 1#32).toNat = u.ctl.sampleCount.toNat + 1 := by
      rw [BitVec.toNat_add]; exact Nat.mod_eq_of_lt hlt
    refine EncUnit.nextSample_ok p _ _ k left ha ⟨hb, hd⟩ hbo ⟨h1, h2, h3, ?_, ?_⟩
    · simp only [EncUnit.countSamples, hc, h4]; congr 1; omega
    · simp only [EncUnit.countSamples, hc, h5, hk]; congr 1; rw [Nat.add_mul]; omega
  | @elementByte b bs sent k left as hp hans =>
    rw [hp] at hpos
    obtain ⟨⟨h1, h2, h3, h4, h5⟩, h6⟩ := hpos
    refine ⟨ha, hb, hd, hbo, ⟨h1, h2, h3, h4, ?_⟩, ?_⟩
    · simp only [EncUnit.send, h5, EncUnit.goto, List.length_singleton, ← BitVec.ofNat_add]; congr 1
    · simp at h6; omega
  | @elementFail b bs sent k left as hp hans =>
    rw [hp] at hpos
    exact ⟨ha, hb, hd, hbo, hpos.1.1, by simp [anyEncError, encErrors]⟩
  | @record e hp =>
    rw [hp] at hpos
    cases e with
    | ok ph => exact ⟨ha, hb, hd, hbo, .inl ⟨hpos.1, by simp [Ctl.record, EncUnit.goto, hpos.2]⟩⟩
    | error k st a x => exact ⟨ha, hb, hd, hbo, .inr ⟨k, st, rfl, rfl, hpos.2, rfl⟩⟩
  | release hp =>
    rw [hp] at hpos
    exact .inl ⟨rfl, rfl, .inr ⟨rfl, hpos⟩⟩

/-- Every run of an encoder keeps its invariant. -/
theorem EncUnit.steps_ok {p : Params} {u v : EncUnit} (h : u.Steps p v) (hok : u.Ok p) : v.Ok p := by
  induction h with
  | refl => exact hok
  | head a _ ih => exact ih (EncUnit.advance_ok hok a)

/-- Execution start of an accepted decode command meets the invariant (R241). -/
theorem DecUnit.begin_ok (u : DecUnit) (cmd : DecCmd) (hc : u.ctl.Accepted) : (u.begin cmd).Ok := by
  obtain ⟨h1,h2,h3,h4,h5,h6,h7,h8,h9⟩ := hc
  refine ⟨rfl, by simp [DecUnit.begin], h1, h2, rfl, ⟨h3,h4,h5,h6⟩, rfl, rfl, by simp, ⟨rfl, h8⟩, h7⟩

/-- A sample count that passes the operand check has exact size fields (R140). -/
theorem riffSize_bound (p : Params) (k : SampleKind) (n : Nat) (h : ¬ n > nMax p k) :
    p.riffSizeBias.toNat + n * k.size < 2 ^ 32 := by
  have h1 : n ≤ (2 ^ 32 - 1 - p.riffSizeBias.toNat) / k.size := by simpa [nMax] using h
  rw [Nat.le_div_iff_mul_le k.size_pos] at h1
  have := p.riffSizeBias.isLt
  omega

/-- The operand check and the start of the header meet the invariant (R140, R141). -/
theorem EncUnit.prologue_ok (p : Params) (u : EncUnit) (k : SampleKind) (n : Nat) (next : Option (SampleKind × Nat))
    (hc : u.ctl.Accepted) (hn : match next with | none => n = 0 | some (k', n') => k' = k ∧ n' = n) :
    (u.prologue p u.ctl.sampleBo k n next).Ok p := by
  obtain ⟨h1,h2,h3,h4,h5,h6,h7,h8,h9⟩ := hc
  unfold EncUnit.prologue
  split
  · exact ⟨h9, h1, h2, rfl, ⟨h3,h4,h5,h6⟩, by simp [anyEncError, encErrors]⟩
  · rename_i hb
    have := riffSize_bound p k n hb
    have e1 : (BitVec.ofNat 32 (n * k.size)).toNat = n * k.size := toNat_ofNat32 _ (by omega)
    have e2 : (BitVec.ofNat 32 (p.riffSizeBias.toNat + n * k.size)).toNat = p.riffSizeBias.toNat + n * k.size := toNat_ofNat32 _ (by omega)
    refine ⟨h9, h1, h2, rfl, ⟨h3,h4,h5,h6⟩, rfl, ?_, by omega, rfl, h7, h8, ?_⟩
    · simp only [EncUnit.SizesOk]
      show (BitVec.ofNat 32 (p.riffSizeBias.toNat + n * k.size)).toNat = _ + (BitVec.ofNat 32 (n * k.size)).toNat
      rw [e1, e2]
    · cases next with
      | none => 
        show BitVec.ofNat 32 (n * k.size) = 0#32
        simp only at hn; rw [hn]; simp
      | some q => 
        obtain ⟨rfl, rfl⟩ := hn
        exact e1

/-- Execution start of an accepted encoder command meets the invariant (R241). -/
theorem EncUnit.begin_ok (p : Params) (u : EncUnit) (job : EncJob) (hc : u.ctl.Accepted) : (u.begin p job).Ok p := by
  have hc' := hc
  obtain ⟨h1,h2,h3,h4,h5,h6,h7,h8,h9⟩ := hc
  cases job with
  | construct a => exact ⟨rfl, h1, h2, rfl, ⟨h3,h4,h5,h6⟩, h7, h8, List.suffix_refl _⟩
  | header => exact EncUnit.prologue_ok p { u with ctl := { u.ctl with asm := [] } } .int16 0 none ⟨h1,h2,h3,h4,h5,h6,h7,h8,rfl⟩ rfl
  | samples k n => exact EncUnit.prologue_ok p { u with ctl := { u.ctl with asm := [] } } k n.toNat (some (k, n.toNat)) ⟨h1,h2,h3,h4,h5,h6,h7,h8,rfl⟩ ⟨rfl, rfl⟩

/-- What acceptance leaves (R240). -/
theorem Ctl.accept_accepted (c : Ctl) (h : c.asm = []) : c.accept.Accepted := ⟨rfl,rfl,rfl,rfl,rfl,rfl,rfl,rfl,h⟩

/-- A decoder that is not BUSY runs nothing (R26). -/
theorem DecUnit.Ok.idle {u : DecUnit} (h : u.Ok) (hb : u.ctl.busy = false) : u.run = none := by
  obtain ⟨_, _, h⟩ := h
  cases hr : u.run with
  | none => rfl
  | some r => simp [hr, hb] at h

/-- An encoder that is not BUSY runs nothing and collects nothing (R26, R280). -/
theorem EncUnit.Ok.idle {p} {u : EncUnit} (h : u.Ok p) (hb : u.ctl.busy = false) : u.run = none ∧ u.ctl.asm = [] := by
  unfold EncUnit.Ok at h
  cases hr : u.run with
  | none => simp [hr, hb] at h; exact ⟨rfl, h.1⟩
  | some r => simp [hr, hb] at h

end Sys2Proof.Machine
end

