-- ==== Sys2Proof/Laws/PerInstr.lean ====
section
/-! SUPPORT. Facts about every command as syntax, one lemma per constructor. -/

namespace Sys2Proof.Laws.EncodeLength

/-- R103, R107: a command is encoded in as many words as its length, and its first word decides that. -/
def Statement (i : Instr) : Prop :=
  (encode i).length = i.length ∧ ∀ w ∈ (encode i).head?, commandLength i.unitKind w = i.length

theorem decHeader : Statement .decHeader := ⟨rfl, by simp [encode]; decide⟩

theorem decInt16 : Statement .decInt16 := ⟨rfl, by simp [encode]; decide⟩

theorem decFloat32 : Statement .decFloat32 := ⟨rfl, by simp [encode]; decide⟩

/-- Word 0 of a constructor (R102): its opcode, with RSV = 0. -/
theorem opc_word0 (ch : Half) {o : Nat} (h : o < 2 ^ 8) :
    opc (word0 ch o) = o ∧ rsv (word0 ch o) = 0 := by
  have := ch.isLt
  simp only [opc, rsv, word0, BitVec.toNat_ofNat]
  omega

theorem fmtNewPcm (ch : Half) (rate : Word) (bits : Half) : Statement (.fmtNewPcm ch rate bits) := by
  obtain ⟨ho, hr⟩ := opc_word0 ch (o := 0x21) (by decide)
  refine ⟨rfl, ?_⟩
  simp [encode, commandLength, rejectWord0, ho, hr, opcUnit, opcHasImm, opcLength, Instr.unitKind,
    Instr.length]

theorem fmtNewFloat (ch : Half) (rate : Word) (bits : Half) : Statement (.fmtNewFloat ch rate bits) := by
  obtain ⟨ho, hr⟩ := opc_word0 ch (o := 0x22) (by decide)
  refine ⟨rfl, ?_⟩
  simp [encode, commandLength, rejectWord0, ho, hr, opcUnit, opcHasImm, opcLength, Instr.unitKind,
    Instr.length]

theorem encHeader : Statement .encHeader := ⟨rfl, by simp [encode]; decide⟩

theorem encInt16 (n : Word) : Statement (.encInt16 n) := ⟨rfl, by simp [encode, Instr.unitKind, Instr.length]; decide⟩

theorem encFloat32 (n : Word) : Statement (.encFloat32 n) := ⟨rfl, by simp [encode, Instr.unitKind, Instr.length]; decide⟩

end Sys2Proof.Laws.EncodeLength
end

