-- ==== Sys2Proof/Laws/Records.lean ====
section
/-! SUPPORT. What the streams carried stays on record (R284): every host action and every turn of a unit adds
to the records of the ports, and removes nothing from them. -/

namespace Sys2Proof.Machine

open Sys2Proof.Config (Params)

/-- More of the last stream. -/
theorem RecordGrows.more {α : Type} (past : List (List α)) (last more : List α) :
    RecordGrows (past ++ [last]) (past ++ [last ++ more]) :=
  ⟨past, last, more, [], rfl, by simp⟩

/-- A new stream after the last. -/
theorem RecordGrows.attach {α : Type} (past : List (List α)) (last new : List α) :
    RecordGrows (past ++ [last]) (past ++ [last] ++ [new]) :=
  ⟨past, last, [], [new], rfl, by simp⟩

/-- Nothing new. -/
theorem RecordGrows.same {α : Type} (past : List (List α)) (last : List α) :
    RecordGrows (past ++ [last]) (past ++ [last]) :=
  ⟨past, last, [], [], rfl, by simp⟩

/-- The records of both ports of a decoder grow. -/
def DecUnit.Records (u v : DecUnit) : Prop :=
  RecordGrows u.inp.consumed v.inp.consumed ∧ RecordGrows u.sout.appended v.sout.appended

/-- The records of both ports of an encoder grow. -/
def EncUnit.Records (u v : EncUnit) : Prop :=
  RecordGrows u.out.accepted v.out.accepted ∧ RecordGrows u.sin.consumed v.sin.consumed

/-- The same streams, the same records. -/
theorem DecUnit.Records.of_eq {u v : DecUnit} (h : v.inp = u.inp) (k : v.sout = u.sout) :
    u.Records v := by
  rw [DecUnit.Records, h, k]; exact ⟨.same _ _, .same _ _⟩

/-- The same streams, the same records. -/
theorem EncUnit.Records.of_eq {u v : EncUnit} (h : v.out = u.out) (k : v.sin = u.sin) :
    u.Records v := by
  rw [EncUnit.Records, h, k]; exact ⟨.same _ _, .same _ _⟩

/-- The steps of a decoder add to the records. -/
theorem DecUnit.Steps.records {u v : DecUnit} (h : u.Steps v) : u.Records v := by
  have f := DecUnit.StreamFrame.steps h
  obtain ⟨got, new, -, -, ht, -, hw, -, -⟩ := f.ex
  obtain ⟨p1, p2, p3⟩ := f.past
  constructor
  · rw [InStream.consumed, InStream.consumed, p1, ht]; exact .more _ _ _
  · rw [SampleSink.appended, SampleSink.appended, p2, p3, hw, ← List.append_assoc]; exact .more _ _ _

/-- The steps of an encoder add to the records. -/
theorem EncUnit.Steps.records {p : Params} {u v : EncUnit} (h : u.Steps p v) : u.Records v := by
  obtain ⟨-, -, -, new, used, got, hb, -, -, -, -, -, ht⟩ := EncUnit.steps_streams h
  obtain ⟨p1, p2⟩ := EncUnit.steps_past h
  constructor
  · rw [OutSink.accepted, OutSink.accepted, p1, hb]; exact .more _ _ _
  · rw [SampleSource.consumed, SampleSource.consumed, p2, ht]; exact .more _ _ _

/-- Removing words of SOUT loses none of the record (R279, R284). -/
theorem SampleSink.appended_remove (s : SampleSink) (n : Nat) :
    (s.remove n).appended = s.appended := by
  simp [SampleSink.appended, SampleSink.remove]

/-- The records of every unit grow. -/
def State.Records (s t : State) : Prop :=
  (∀ (d : Nat) u, s.decs[d]? = some u → ∃ v, t.decs[d]? = some v ∧ u.Records v) ∧
    ∀ (e : Nat) u, s.encs[e]? = some u → ∃ v, t.encs[e]? = some v ∧ u.Records v

/-- The same units, the same records. -/
theorem State.Records.of_eq {s t : State} (h : t.decs = s.decs) (k : t.encs = s.encs) :
    s.Records t :=
  ⟨fun _ u hu => ⟨u, by rw [h]; exact hu, .of_eq rfl rfl⟩,
    fun _ u hu => ⟨u, by rw [k]; exact hu, .of_eq rfl rfl⟩⟩

/-- One decoder changes. -/
theorem State.Records.dec {s t : State} {d : Nat} {u v : DecUnit} (hu : s.decs[d]? = some u)
    (h : t.decs = s.decs.set d v) (k : t.encs = s.encs) (hv : u.Records v) : s.Records t := by
  refine ⟨fun i x hx => ?_, fun _ x hx => ⟨x, by rw [k]; exact hx, .of_eq rfl rfl⟩⟩
  rw [h]
  by_cases hi : i = d
  · subst hi
    cases hu.symm.trans hx
    exact ⟨v, List.getElem?_set_self (List.getElem?_eq_some_iff.1 hu).1, hv⟩
  · exact ⟨x, by rw [List.getElem?_set_ne (Ne.symm hi)]; exact hx, .of_eq rfl rfl⟩

/-- One encoder changes. -/
theorem State.Records.enc {s t : State} {e : Nat} {u v : EncUnit} (hu : s.encs[e]? = some u)
    (h : t.encs = s.encs.set e v) (k : t.decs = s.decs) (hv : u.Records v) : s.Records t := by
  refine ⟨fun _ x hx => ⟨x, by rw [k]; exact hx, .of_eq rfl rfl⟩, fun i x hx => ?_⟩
  rw [h]
  by_cases hi : i = e
  · subst hi
    cases hu.symm.trans hx
    exact ⟨v, List.getElem?_set_self (List.getElem?_eq_some_iff.1 hu).1, hv⟩
  · exact ⟨x, by rw [List.getElem?_set_ne (Ne.symm hi)]; exact hx, .of_eq rfl rfl⟩

/-- A host action on a decoder that keeps its records. -/
theorem State.onDec_records {s t : State} {d : Nat} {f} (h : s.onDec d f = .next t)
    (hf : ∀ u v, f u = .next v → u.Records v) : s.Records t := by
  unfold State.onDec at h
  split at h
  · cases h
  · rename_i u hu
    split at h <;> cases h
    rename_i v hv
    exact .dec hu rfl rfl (hf u v hv)

/-- A host action on an encoder that keeps its records. -/
theorem State.onEnc_records {s t : State} {e : Nat} {f} (h : s.onEnc e f = .next t)
    (hf : ∀ u v, f u = .next v → u.Records v) : s.Records t := by
  unfold State.onEnc at h
  split at h
  · cases h
  · rename_i u hu
    split at h <;> cases h
    rename_i v hv
    exact .enc hu rfl rfl (hf u v hv)

/-- A turn keeps the records. -/
theorem State.turnTaken_records (s : State) (x : UnitId) : s.Records (s.turnTaken x) := by
  cases x with
  | dec d =>
    cases hu : s.decs[d]? with
    | none => rw [State.turnTaken_of_noDec hu]; exact .of_eq rfl rfl
    | some u =>
      rw [State.turnTaken_dec hu]
      exact .dec hu rfl rfl (DecUnit.runFor_steps _ _).records
  | enc d =>
    cases hu : s.encs[d]? with
    | none => rw [State.turnTaken_of_noEnc hu]; exact .of_eq rfl rfl
    | some u =>
      rw [State.turnTaken_enc hu]
      exact .enc hu rfl rfl (EncUnit.runFor_steps _ _ _).records

/-- A CMD write to a decoder keeps its records. -/
theorem State.cmdDec_records {s t : State} {d : Nat} {u : DecUnit} {w : Word}
    (hu : s.decs[d]? = some u) (h : s.cmdDec d u w = .next t) : s.Records t := by
  unfold State.cmdDec at h
  cases hi : (u.ctl.takeWord .dec w).2 with
  | none => simp only [hi] at h; cases h; exact .dec hu rfl rfl (.of_eq rfl rfl)
  | some i =>
    simp only [hi] at h
    obtain ⟨cmd, hc⟩ := exec_of_dec (Ctl.takeWord_unitKind hi)
      { s.setDec d { u with ctl := (u.ctl.takeWord .dec w).1 } with sel := d }
    rw [hc] at h
    have hget := List.getElem?_set_self (a := { u with ctl := (u.ctl.takeWord .dec w).1 })
      (List.getElem?_eq_some_iff.1 hu).1
    simp only [State.startDec, State.setDec, hget, List.set_set] at h
    cases h
    exact .dec hu rfl rfl (DecUnit.runFor_steps _
      (DecUnit.begin { u with ctl := (u.ctl.takeWord .dec w).1 } cmd)).records

/-- A CMD write to an encoder keeps its records. -/
theorem State.cmdEnc_records {s t : State} {e : Nat} {u : EncUnit} {w : Word}
    (hu : s.encs[e]? = some u) (h : s.cmdEnc e u w = .next t) : s.Records t := by
  unfold State.cmdEnc at h
  cases hi : (u.ctl.takeWord .enc w).2 with
  | none => simp only [hi] at h; cases h; exact .enc hu rfl rfl (.of_eq rfl rfl)
  | some i =>
    simp only [hi] at h
    obtain ⟨job, hc⟩ := exec_of_enc (Ctl.takeWord_unitKind hi)
      { s.setEnc e { u with ctl := (u.ctl.takeWord .enc w).1 } with sel := e }
    rw [hc] at h
    have hget := List.getElem?_set_self (a := { u with ctl := (u.ctl.takeWord .enc w).1 })
      (List.getElem?_eq_some_iff.1 hu).1
    simp only [State.startEnc, State.setEnc, hget, List.set_set] at h
    cases h
    obtain ⟨-, -, -, f4, f5, -⟩ := EncUnit.begin_frame s.params { u with ctl := (u.ctl.takeWord .enc w).1 } job
    have r n : u.Records (EncUnit.runFor s.params n
        (EncUnit.begin s.params { u with ctl := (u.ctl.takeWord .enc w).1 } job)) := by
      have := (EncUnit.runFor_steps s.params n
        (EncUnit.begin s.params { u with ctl := (u.ctl.takeWord .enc w).1 } job)).records
      rwa [EncUnit.Records, f4, f5] at this
    exact .enc hu rfl rfl (r _)

/-- A write keeps the records. -/
theorem State.mmioWrite_records {s t : State} {x : UnitId} {w o : Nat} {v : Word}
    (h : s.mmioWrite x w o v = .next t) : s.Records t := by
  unfold State.mmioWrite at h
  split at h
  · rename_i o' ho
    unfold accessProblem at ho
    split at ho
    · cases ho; cases h
    · split at ho <;> cases ho; cases h
  · split at h <;> split at h
    · cases h
    · rename_i u hu
      split at h
      · exact State.cmdDec_records hu h
      · cases h
        refine .dec hu rfl rfl (.of_eq ?_ ?_) <;> (unfold DecUnit.writeAt; split <;> rfl)
    · cases h
    · rename_i u hu
      split at h
      · exact State.cmdEnc_records hu h
      · cases h
        refine .enc hu rfl rfl (.of_eq ?_ ?_) <;>
          (unfold EncUnit.writeAt EncUnit.writeFmt; repeat' split) <;> rfl

/-- A wait keeps the records. -/
theorem State.waitFor_records {s t : State} {x : UnitId} (h : s.waitFor x = .next t) : s.Records t := by
  obtain ⟨v, ⟨-, rfl⟩ | ⟨-, y, -, rfl⟩ | ⟨-, -, es, -, -, rfl⟩⟩ := State.waitFor_next h
  · exact .of_eq rfl rfl
  · exact State.turnTaken_records (State.polled s v) y
  · exact .of_eq rfl rfl

/-- A host action keeps the records (R284). -/
theorem State.perform_records {s t : State} {e : HostEvent} (h : s.perform e = .next t) :
    s.Records t := by
  cases e with
  | read => obtain ⟨v, rfl⟩ := State.mmioRead_next h; exact .of_eq rfl rfl
  | write => exact State.mmioWrite_records h
  | wait => exact State.waitFor_records h
  | resetUnit x =>
    cases x with
    | dec =>
      simp only [State.perform] at h
      exact State.onDec_records h fun u v hv => by cases hv; exact .of_eq rfl rfl
    | enc =>
      simp only [State.perform] at h
      exact State.onEnc_records h fun u v hv => by cases hv; exact .of_eq rfl rfl
  | run x =>
    cases x with
    | dec =>
      simp only [State.perform, State.turnOf] at h
      exact State.onDec_records h fun u v hv => by cases hv; exact (DecUnit.runFor_steps _ _).records
    | enc =>
      simp only [State.perform, State.turnOf] at h
      exact State.onEnc_records h fun u v hv => by cases hv; exact (EncUnit.runFor_steps _ _ _).records
  | setPace => cases h; exact .of_eq rfl rfl
  | inEvent d e =>
    refine State.onDec_records h fun u v hv => ?_
    unfold DecUnit.deliver at hv
    split at hv
    · cases hv
    · split at hv <;> cases hv <;> exact ⟨.same _ _, .same _ _⟩
  | attachIn =>
    exact State.onDec_records h fun u v hv => by rw [whenIdle_next hv]; exact ⟨.attach _ _ _, .same _ _⟩
  | soutRoom =>
    simp only [State.perform] at h
    exact State.onDec_records h fun u v hv => by cases hv; exact ⟨.same _ _, .same _ _⟩
  | soutTake d n =>
    simp only [State.perform] at h
    refine State.onDec_records h fun u v hv => ?_
    cases hv
    exact ⟨.same _ _, by rw [SampleSink.appended_remove]; exact .same _ _⟩
  | attachSout =>
    exact State.onDec_records h fun u v hv => by rw [whenIdle_next hv]; exact ⟨.same _ _, .attach _ _ _⟩
  | outAnswer =>
    simp only [State.perform] at h
    exact State.onEnc_records h fun u v hv => by cases hv; exact ⟨.same _ _, .same _ _⟩
  | attachOut =>
    exact State.onEnc_records h fun u v hv => by rw [whenIdle_next hv]; exact ⟨.attach _ _ _, .same _ _⟩
  | sinWord =>
    simp only [State.perform] at h
    exact State.onEnc_records h fun u v hv => by cases hv; exact ⟨.same _ _, .same _ _⟩
  | attachSin =>
    exact State.onEnc_records h fun u v hv => by rw [whenIdle_next hv]; exact ⟨.same _ _, .attach _ _ _⟩
  | copyOut e d =>
    simp only [State.perform, State.copyOut] at h
    split at h
    · cases h
    · exact State.onDec_records h fun u v hv => by rw [whenIdle_next hv]; exact ⟨.attach _ _ _, .same _ _⟩
  | share =>
    simp only [State.perform] at h
    split at h <;> cases h
    exact .of_eq rfl rfl

end Sys2Proof.Machine
end

