-- ==== Sys2Proof/Laws/StepInvariant.lean ====
section
/-! SUPPORT. Every host action keeps the invariant of the machine. -/

set_option linter.unusedSimpArgs false

namespace Sys2Proof.Machine

open Sys2Proof.Config (Params)

/-- Another decoder that meets its invariant. -/
theorem State.Inv.setDec {s : State} (h : s.Inv) (i : Nat) {v : DecUnit} (hv : v.Ok) : (s.setDec i v).Inv := by
  obtain ⟨h1, h2, h3, h4⟩ := h
  refine ⟨by simpa [State.setDec] using h1, h2, ?_, h4⟩
  intro u hu
  rcases List.mem_or_eq_of_mem_set hu with hu | rfl
  · exact h3 u hu
  · exact hv

/-- Another encoder that meets its invariant. -/
theorem State.Inv.setEnc {s : State} (h : s.Inv) (i : Nat) {v : EncUnit} (hv : v.Ok s.params) : (s.setEnc i v).Inv := by
  obtain ⟨h1, h2, h3, h4⟩ := h
  refine ⟨h1, by simpa [State.setEnc] using h2, h3, ?_⟩
  intro u hu
  rcases List.mem_or_eq_of_mem_set hu with hu | rfl
  · exact h4 u hu
  · exact hv

/-- Execution start and turn of a decode command accepted by the selected decoder. -/
theorem State.startDec_inv {s t : State} {c : DecCmd} (hl : s.decs.length = s.params.numDec ∧ s.encs.length = s.params.numEnc)
    (hd : ∀ j u, s.decs[j]? = some u → j ≠ s.sel → u.Ok) (he : ∀ u ∈ s.encs, u.Ok s.params)
    (ha : ∀ u, s.decs[s.sel]? = some u → u.ctl.Accepted) (h : s.startDec c = .next t) : t.Inv := by
  unfold State.startDec at h
  split at h
  · cases h
  · rename_i u hu
    cases h
    refine ⟨by simpa [State.setDec] using hl.1, hl.2, ?_, he⟩
    intro v hv
    obtain ⟨j, hj, rfl⟩ := List.getElem_of_mem hv
    by_cases hjs : j = s.sel
    · subst hjs
      have : ((u.begin c).runFor (s.turn (u.begin c).work)).Ok := DecUnit.steps_ok (DecUnit.runFor_steps _ _) (DecUnit.begin_ok u c (ha u hu))
      simpa [State.setDec] using this
    · have hj' : j < s.decs.length := by simpa [State.setDec] using hj
      have := hd j (s.decs[j]) (by simp) hjs
      have hne : ¬ s.sel = j := fun hh => hjs hh.symm
      simp only [State.setDec, List.getElem_set, hne, if_false]; exact this

/-- Execution start and turn of an encoder command accepted by the selected encoder. -/
theorem State.startEnc_inv {s t : State} {c : EncJob} (hl : s.decs.length = s.params.numDec ∧ s.encs.length = s.params.numEnc)
    (hd : ∀ j u, s.encs[j]? = some u → j ≠ s.sel → u.Ok s.params) (he : ∀ u ∈ s.decs, u.Ok)
    (ha : ∀ u, s.encs[s.sel]? = some u → u.ctl.Accepted) (h : s.startEnc c = .next t) : t.Inv := by
  unfold State.startEnc at h
  split at h
  · cases h
  · rename_i u hu
    cases h
    refine ⟨hl.1, by simpa [State.setEnc] using hl.2, he, ?_⟩
    intro v hv
    obtain ⟨j, hj, rfl⟩ := List.getElem_of_mem hv
    by_cases hjs : j = s.sel
    · subst hjs
      have : ((u.begin s.params c).runFor s.params (s.turn (u.begin s.params c).work)).Ok s.params := EncUnit.steps_ok (EncUnit.runFor_steps _ _ _) (EncUnit.begin_ok s.params u c (ha u hu))
      simpa [State.setEnc] using this
    · have hj' : j < s.encs.length := by simpa [State.setEnc] using hj
      have := hd j (s.encs[j]) (by simp) hjs
      have hne : ¬ s.sel = j := fun hh => hjs hh.symm
      simp only [State.setEnc, List.getElem_set, hne, if_false]; exact this

/-- A legal word 0 on a decoder is a whole command (R107). -/
theorem decodeFor_dec_of_legal {w : Word} (hr : rejectWord0 .dec w = none) : ∃ i, decodeFor .dec [w] = .ok i := by
  rcases opc_cases (opcUnit_of_legal hr) with ⟨_, ho⟩ | ⟨hk, ho⟩
  · rcases ho with ho | ho | ho <;> simp [decodeFor, hr, decodeOne, ho]
  · cases hk

/-- The invariant of a decoder says nothing of OVR and STICKY_ERR. -/
theorem DecUnit.Ok.flags {u : DecUnit} (hok : u.Ok) (o st : Bool) : ({ u with ctl := { u.ctl with ovr := o, stickyErr := st } } : DecUnit).Ok := by
    obtain ⟨h1, h2, h3⟩ := hok
    refine ⟨h1, h2, ?_⟩
    cases hr : u.run with
    | none => simp only [hr] at h3 ⊢; exact h3
    | some r => 
      obtain ⟨cmd, bo, pos⟩ := r
      simp only [hr] at h3 ⊢
      obtain ⟨a1,a2,a3,a4⟩ := h3
      refine ⟨a1,a2,a3,?_⟩
      cases pos with
      | ending e => cases e with
        | ok p => obtain ⟨b1, b2⟩ := a4
                  refine ⟨b1, ?_⟩
                  cases cmd <;> exact b2
        | error k st a b => exact a4
      | releasing => 
        rcases a4 with ⟨b1, b2⟩ | b
        · refine .inl ⟨b1, ?_⟩
          cases cmd <;> exact b2
        · exact .inr b
      | reading what need got => cases what <;> exact a4
      | _ => exact a4

/-- The invariant of an encoder says nothing of OVR and STICKY_ERR. -/
theorem EncUnit.Ok.flags {p : Params} {u : EncUnit} (hok : u.Ok p) (o st : Bool) : ({ u with ctl := { u.ctl with ovr := o, stickyErr := st } } : EncUnit).Ok p := by
      unfold EncUnit.Ok at hok ⊢
      cases hr : u.run with
      | none => simp only [hr] at hok ⊢; exact hok
      | some r => 
        simp only [hr] at hok ⊢
        obtain ⟨a1,a2,a3,a4,a5⟩ := hok
        refine ⟨a1,a2,a3,a4,?_⟩
        obtain ⟨bo, pos⟩ := r
        cases pos with
        | ending e => cases e <;> exact a5
        | _ => exact a5

/-- The invariant of a decoder says nothing of the streams. -/
theorem DecUnit.Ok.streams {u : DecUnit} (hok : u.Ok) (i : InStream) (o : SampleSink) : ({ u with inp := i, sout := o } : DecUnit).Ok := by
    obtain ⟨h1, h2, h3⟩ := hok
    refine ⟨h1, h2, ?_⟩
    cases hr : u.run with
    | none => simp only [hr] at h3 ⊢; exact h3
    | some r => 
      obtain ⟨cmd, bo, pos⟩ := r
      simp only [hr] at h3 ⊢
      obtain ⟨a1,a2,a3,a4⟩ := h3
      refine ⟨a1,a2,a3,?_⟩
      cases pos with
      | ending e => cases e with
        | ok p => obtain ⟨b1, b2⟩ := a4
                  refine ⟨b1, ?_⟩
                  cases cmd <;> exact b2
        | error k st a b => exact a4
      | releasing => 
        rcases a4 with ⟨b1, b2⟩ | b
        · refine .inl ⟨b1, ?_⟩
          cases cmd <;> exact b2
        · exact .inr b
      | reading what need got => cases what <;> exact a4
      | _ => exact a4

/-- The invariant of an encoder says nothing of the streams. -/
theorem EncUnit.Ok.streams {p : Params} {u : EncUnit} (hok : u.Ok p) (i : OutSink) (o : SampleSource) : ({ u with out := i, sin := o } : EncUnit).Ok p := by
      unfold EncUnit.Ok at hok ⊢
      cases hr : u.run with
      | none => simp only [hr] at hok ⊢; exact hok
      | some r => 
        simp only [hr] at hok ⊢
        obtain ⟨a1,a2,a3,a4,a5⟩ := hok
        refine ⟨a1,a2,a3,a4,?_⟩
        obtain ⟨bo, pos⟩ := r
        cases pos with
        | ending e => cases e <;> exact a5
        | _ => exact a5

/-- A CMD write to a decoder keeps the invariant (R240). -/
theorem State.cmdDec_inv {s t : State} {d : Nat} {u : DecUnit} {w : Word} (hi : s.Inv) (hu : s.decs[d]? = some u) (h : s.cmdDec d u w = .next t) : t.Inv := by
  have hok : u.Ok := hi.2.2.1 u (List.mem_of_getElem? hu)
  have hasm : u.ctl.asm = [] := hok.1
  have hd : d < s.decs.length := by
    obtain ⟨hd, _⟩ := List.getElem?_eq_some_iff.1 hu; exact hd
  by_cases hb : u.ctl.busy = true
  · rw [State.cmdDec_of_none (Ctl.takeWord_busy hb hasm .dec w)] at h
    cases h
    refine State.Inv.setDec (s := { s with sel := d }) hi d ?_
    exact DecUnit.Ok.flags hok true u.ctl.stickyErr
  · have hbf : u.ctl.busy = false := by simpa using hb
    have hrun := hok.idle hbf
    cases hr : rejectWord0 .dec w with
    | some r =>
      rw [State.cmdDec_of_none (Ctl.takeWord_illegal hbf hasm hr)] at h
      cases h
      refine State.Inv.setDec (s := { s with sel := d }) hi d ?_
      refine ⟨rfl, hok.2.1, ?_⟩
      simp only [hrun]
      exact ⟨rfl, .inr ⟨rfl, .inr ⟨_, _, rfl, rfl, by simp [anyDecError, commandError], rfl⟩⟩⟩
    | none =>
      obtain ⟨i, hdi⟩ := decodeFor_dec_of_legal hr
      rw [State.cmdDec_of_some (Ctl.takeWord_start hbf hasm hdi)] at h
      obtain ⟨c, hc⟩ := exec_of_dec (decodeFor_unitKind hdi) ({ s.setDec d { u with ctl := u.ctl.accept } with sel := d })
      rw [hc] at h
      refine State.startDec_inv ?_ ?_ ?_ ?_ h
      · exact ⟨by simpa [State.setDec] using hi.1, hi.2.1⟩
      · intro j v hv hj
        refine hi.2.2.1 v ?_
        have hne : ¬ d = j := fun hh => hj hh.symm
        simp [State.setDec, List.getElem?_set, hne] at hv
        exact List.mem_of_getElem? hv
      · exact hi.2.2.2
      · intro v hv
        simp [State.setDec, List.getElem?_set, hd] at hv
        subst hv
        exact Ctl.accept_accepted _ hasm

/-- A word collected is the next word of a longer command (R100). -/
theorem AsmOk.append {w0 : Word} {ops : List Word} {w : Word} {e : Reject} (h : AsmOk (w0 :: ops)) (hd : decodeFor .enc (w0 :: ops ++ [w]) = .error e) (hne : e ≠ .word2High) :
    AsmOk (w0 :: ops ++ [w]) := by
  match ops, h with
  | [], h =>
    obtain ⟨h1, h2⟩ := h
    have hu := opc_cases (opcUnit_of_legal h1)
    rcases hu with ⟨hk, _⟩ | ⟨_, ho⟩
    · cases hk
    · rcases ho with ho | ho | ho | ho | ho <;> simp [ho, opcLength] at h2 <;> simp [decodeFor, h1, decodeTwo, ho] at hd
      · exact ⟨h1, by simp [ho, opcLength]⟩
      · exact ⟨h1, by simp [ho, opcLength]⟩
  | [w1], h =>
    obtain ⟨h1, h2⟩ := h
    have hu := opc_cases (opcUnit_of_legal h1)
    rcases hu with ⟨hk, _⟩ | ⟨_, ho⟩
    · cases hk
    · rcases ho with ho | ho | ho | ho | ho <;> simp [ho, opcLength] at h2 <;> simp [decodeFor, h1, decodeThree, ho, opcLength] at hd
      · split at hd <;> simp_all
      · split at hd <;> simp_all

/-- exec of an encoder command that has just been accepted keeps the invariant. -/
theorem State.exec_enc_inv {s t : State} {d : Nat} {u : EncUnit} {c : Ctl} {i : Instr} (hi : s.Inv) (hd : d < s.encs.length) (hik : i.unitKind = .enc) (ha : c.Accepted)
   (h : exec i { s.setEnc d { u with ctl := c } with sel := d } = .next t) : t.Inv := by
  obtain ⟨j, hc⟩ := exec_of_enc hik ({ s.setEnc d { u with ctl := c } with sel := d })
  rw [hc] at h
  refine State.startEnc_inv ?_ ?_ ?_ ?_ h
  · exact ⟨hi.1, by simpa [State.setEnc] using hi.2.1⟩
  · intro j v hv hj
    refine hi.2.2.2 v ?_
    have hne : ¬ d = j := fun hh => hj hh.symm
    simp [State.setEnc, List.getElem?_set, hne] at hv
    exact List.mem_of_getElem? hv
  · exact hi.2.2.1
  · intro v hv
    simp [State.setEnc, List.getElem?_set, hd] at hv
    subst hv
    exact ha

/-- A CMD write to an encoder keeps the invariant (R240). -/
theorem State.cmdEnc_inv {s t : State} {d : Nat} {u : EncUnit} {w : Word} (hi : s.Inv) (hu : s.encs[d]? = some u) (h : s.cmdEnc d u w = .next t) : t.Inv := by
  have hok : u.Ok s.params := hi.2.2.2 u (List.mem_of_getElem? hu)
  have hd : d < s.encs.length := by
    obtain ⟨hd, _⟩ := List.getElem?_eq_some_iff.1 hu; exact hd
  cases hasm : u.ctl.asm with
  | nil =>
    by_cases hb : u.ctl.busy = true
    · rw [State.cmdEnc_of_none (Ctl.takeWord_busy hb hasm .enc w)] at h
      cases h
      refine State.Inv.setEnc (s := { s with sel := d }) hi d ?_
      exact EncUnit.Ok.flags hok true u.ctl.stickyErr
    · have hbf : u.ctl.busy = false := by simpa using hb
      have hrun := (hok.idle hbf).1
      cases hr : rejectWord0 .enc w with
      | some r =>
        rw [State.cmdEnc_of_none (Ctl.takeWord_illegal hbf hasm hr)] at h
        cases h
        refine State.Inv.setEnc (s := { s with sel := d }) hi d ?_
        simp only [EncUnit.Ok, hrun]
        exact .inl ⟨rfl, rfl, .inr ⟨rfl, .inr ⟨_, _, rfl, rfl, by simp [anyEncError, commandError], rfl⟩⟩⟩
      | none =>
        by_cases hl : opcLength (opc w) > 1
        · rw [State.cmdEnc_of_none (Ctl.takeWord_first hbf hasm hr hl)] at h
          cases h
          refine State.Inv.setEnc (s := { s with sel := d }) hi d ?_
          simp only [EncUnit.Ok, hrun]
          refine .inr ⟨⟨hr, hl⟩, ?_⟩
          exact ⟨rfl, rfl, trivial, ⟨rfl, rfl, rfl, rfl⟩, rfl, rfl⟩
        · cases hdi : decodeFor .enc [w] with
          | error e =>
            have hu' := opc_cases (opcUnit_of_legal hr)
            rcases hu' with ⟨hk, _⟩ | ⟨_, ho⟩
            · cases hk
            · rcases ho with ho | ho | ho | ho | ho <;> simp [decodeFor, hr, decodeOne, ho] at hdi <;> simp [opcLength, ho] at hl
          | ok i =>
            rw [State.cmdEnc_of_some (Ctl.takeWord_start hbf hasm hdi)] at h
            exact State.exec_enc_inv hi hd (decodeFor_unitKind hdi) (Ctl.accept_accepted _ hasm) h
  | cons w0 ops =>
    have hcol : u.run = none ∧ AsmOk (w0 :: ops) ∧ u.ctl.busy = true ∧ u.ctl.done = false ∧ u.ctl.phase = .operands ∧
        u.ctl.Clean ∧ u.ctl.ioCount = 0#32 ∧ u.ctl.sampleCount = 0#32 := by
      unfold EncUnit.Ok at hok
      cases hr : u.run with
      | none =>
        simp only [hr, hasm] at hok
        rcases hok with ⟨h1, _⟩ | h2
        · cases h1
        · exact ⟨rfl, h2⟩
      | some r => simp [hr, hasm] at hok
    obtain ⟨hrun, hasmok, c1, c2, c3, c4, c5, c6⟩ := hcol
    cases hdi : decodeFor .enc (w0 :: ops ++ [w]) with
    | ok i =>
      rw [State.cmdEnc_of_some (Ctl.takeWord_last hasm hdi)] at h
      exact State.exec_enc_inv (c := { u.ctl with asm := [] }) hi hd (decodeFor_unitKind hdi) ⟨c1, c2, c4.1, c4.2.1, c4.2.2.1, c4.2.2.2, c5, c6, rfl⟩ h
    | error e =>
      by_cases he : e = .word2High
      · subst he
        rw [State.cmdEnc_of_none (Ctl.takeWord_word2 hasm hdi)] at h
        cases h
        refine State.Inv.setEnc (s := { s with sel := d }) hi d ?_
        simp only [EncUnit.Ok, hrun]
        exact .inl ⟨rfl, rfl, .inr ⟨rfl, .inr ⟨_, _, rfl, rfl, by simp [anyEncError, commandError], rfl⟩⟩⟩
      · rw [State.cmdEnc_of_none (Ctl.takeWord_operand hasm hdi he)] at h
        cases h
        refine State.Inv.setEnc (s := { s with sel := d }) hi d ?_
        simp only [EncUnit.Ok, hrun]
        exact .inr ⟨AsmOk.append hasmok hdi he, c1, c2, c3, c4, c5, c6⟩

/-- A decoder after reset (R272). -/
theorem DecUnit.reset_ok (i : InStream) (o : SampleSink) : ({ DecUnit.initial with inp := i, sout := o } : DecUnit).Ok :=
  ⟨rfl, by simp [DecUnit.initial], rfl, .inl ⟨rfl, rfl, rfl, rfl, rfl, rfl⟩⟩

/-- An encoder after reset (R272). -/
theorem EncUnit.reset_ok (p : Params) (i : OutSink) (o : SampleSource) : ({ EncUnit.initial with out := i, sin := o } : EncUnit).Ok p :=
  .inl ⟨rfl, rfl, .inl ⟨rfl, rfl, rfl, rfl, rfl, rfl⟩⟩

/-- A write to CFG keeps the invariant (R276, R282). -/
theorem DecUnit.writeCfg_ok {u : DecUnit} (hok : u.Ok) (v : Word) : ({ u with ctl := u.ctl.writeCfg v } : DecUnit).Ok := by
  unfold Ctl.writeCfg
  split
  · exact hok.flags true u.ctl.stickyErr
  · rename_i hb
    have hbf : u.ctl.busy = false := by simpa using hb
    have hrun := hok.idle hbf
    obtain ⟨h1, h2, h3⟩ := hok
    refine ⟨h1, h2, ?_⟩
    simp only [hrun] at h3 ⊢
    exact h3

/-- A write to CFG keeps the invariant (R276, R282). -/
theorem EncUnit.writeCfg_ok {p} {u : EncUnit} (hok : u.Ok p) (v : Word) : ({ u with ctl := u.ctl.writeCfg v } : EncUnit).Ok p := by
  unfold Ctl.writeCfg
  split
  · exact hok.flags true u.ctl.stickyErr
  · rename_i hb
    have hbf : u.ctl.busy = false := by simpa using hb
    have hrun := (hok.idle hbf).1
    unfold EncUnit.Ok at hok ⊢
    simp only [hrun] at hok ⊢
    exact hok

/-- A register write keeps the invariant. -/
theorem DecUnit.writeAt_ok {u : DecUnit} (hok : u.Ok) (off : Nat) (v : Word) : (u.writeAt off v).Ok := by
  unfold DecUnit.writeAt
  split
  · exact hok.flags _ _
  · exact DecUnit.writeCfg_ok hok v
  · exact hok

/-- A register write keeps the invariant. -/
theorem EncUnit.writeAt_ok {p} {u : EncUnit} (hok : u.Ok p) (off : Nat) (v : Word) : (u.writeAt off v).Ok p := by
  unfold EncUnit.writeAt
  split
  · exact hok
  · exact hok.flags _ _
  · exact EncUnit.writeCfg_ok hok v
  · split
    · unfold EncUnit.writeFmt
      split
      · exact hok.flags true _
      · rename_i hb
        have hbf : u.ctl.busy = false := by simpa using hb
        have hrun := (hok.idle hbf).1
        unfold EncUnit.Ok at hok ⊢
        simp only [hrun] at hok ⊢
        exact hok
    · exact hok

/-- An action on a decoder that keeps its invariant. -/
theorem State.onDec_inv {s t : State} {d : Nat} {f} (hi : s.Inv) (hf : ∀ u v, u.Ok → f u = .next v → v.Ok) (h : s.onDec d f = .next t) : t.Inv := by
  unfold State.onDec at h
  split at h
  · cases h
  · rename_i u hu
    split at h
    · cases h
      exact State.Inv.setDec hi d (hf _ _ (hi.2.2.1 u (List.mem_of_getElem? hu)) (by assumption))
    · cases h
    · cases h

/-- An action on an encoder that keeps its invariant. -/
theorem State.onEnc_inv {s t : State} {d : Nat} {f} (hi : s.Inv) (hf : ∀ u v, u.Ok s.params → f u = .next v → v.Ok s.params) (h : s.onEnc d f = .next t) : t.Inv := by
  unfold State.onEnc at h
  split at h
  · cases h
  · rename_i u hu
    split at h
    · cases h
      exact State.Inv.setEnc hi d (hf _ _ (hi.2.2.2 u (List.mem_of_getElem? hu)) (by assumption))
    · cases h
    · cases h

/-- A turn keeps the invariant. -/
theorem State.turnTaken_inv {s : State} (hi : s.Inv) (x : UnitId) : (s.turnTaken x).Inv := by
  cases x with
  | dec d =>
    cases hu : s.decs[d]? with
    | none => rwa [State.turnTaken_of_noDec hu]
    | some u =>
      rw [State.turnTaken_dec hu]
      exact State.Inv.setDec hi _ (DecUnit.steps_ok (DecUnit.runFor_steps _ _) (hi.2.2.1 u (List.mem_of_getElem? hu)))
  | enc d =>
    cases hu : s.encs[d]? with
    | none => rwa [State.turnTaken_of_noEnc hu]
    | some u =>
      rw [State.turnTaken_enc hu]
      exact State.Inv.setEnc hi _ (EncUnit.steps_ok (EncUnit.runFor_steps _ _ _) (hi.2.2.2 u (List.mem_of_getElem? hu)))

/-- A read keeps the invariant. -/
theorem State.mmioRead_inv {s t : State} {u : UnitId} {w o} (hi : s.Inv) (h : s.mmioRead u w o = .next t) : t.Inv := by
  obtain ⟨v, rfl⟩ := State.mmioRead_next h
  exact hi

/-- A write keeps the invariant. -/
theorem State.mmioWrite_inv {s t : State} {u : UnitId} {wd o w} (hi : s.Inv) (h : s.mmioWrite u wd o w = .next t) : t.Inv := by
  unfold State.mmioWrite at h
  split at h
  · rename_i o' ho
    subst h
    unfold accessProblem at ho
    split at ho
    · cases ho
    · split at ho <;> cases ho
  · split at h
    · split at h
      · cases h
      · rename_i u hu
        split at h
        · exact State.cmdDec_inv hi hu h
        · cases h; exact State.Inv.setDec hi _ (DecUnit.writeAt_ok (hi.2.2.1 u (List.mem_of_getElem? hu)) _ _)
    · split at h
      · cases h
      · rename_i u hu
        split at h
        · exact State.cmdEnc_inv hi hu h
        · cases h; exact State.Inv.setEnc hi _ (EncUnit.writeAt_ok (hi.2.2.2 u (List.mem_of_getElem? hu)) _ _)

/-- A host action keeps the invariant. -/
theorem State.perform_inv {s t : State} {e : HostEvent} (hi : s.Inv) (h : s.perform e = .next t) : t.Inv := by
  cases e with
  | read => exact State.mmioRead_inv hi h
  | write => exact State.mmioWrite_inv hi h
  | wait u =>
    obtain ⟨v, ⟨-, rfl⟩ | ⟨-, x, -, rfl⟩ | ⟨-, -, es, -, -, rfl⟩⟩ := State.waitFor_next h
    · exact hi
    · exact State.turnTaken_inv (s := State.polled s v) hi x
    · exact hi
  | resetUnit u =>
    cases u with
    | dec d => (simp only [State.perform, State.turnOf] at h; refine State.onDec_inv hi ?_ h; intro u v hu hv; cases hv; exact DecUnit.reset_ok _ _)
    | enc d => (simp only [State.perform, State.turnOf] at h; refine State.onEnc_inv hi ?_ h; intro u v hu hv; cases hv; exact EncUnit.reset_ok _ _ _)
  | run u =>
    cases u with
    | dec d => (simp only [State.perform, State.turnOf] at h; refine State.onDec_inv hi ?_ h; intro u v hu hv; cases hv; exact DecUnit.steps_ok (DecUnit.runFor_steps _ _) hu)
    | enc d => (simp only [State.perform, State.turnOf] at h; refine State.onEnc_inv hi ?_ h; intro u v hu hv; cases hv; exact EncUnit.steps_ok (EncUnit.runFor_steps _ _ _) hu)
  | setPace p => cases h; exact hi
  | inEvent d e =>
    refine State.onDec_inv hi (fun u v hu hv => ?_) h
    unfold DecUnit.deliver at hv
    split at hv
    · cases hv
    · split at hv <;> cases hv
      · exact hu.streams _ u.sout
      · exact hu.streams _ u.sout
  | attachIn => (simp only [State.perform, State.turnOf] at h; refine State.onDec_inv hi ?_ h; intro u v hu hv; rw [whenIdle_next hv]; exact hu.streams _ u.sout)
  | soutRoom => (simp only [State.perform, State.turnOf] at h; refine State.onDec_inv hi ?_ h; intro u v hu hv; cases hv; exact hu.streams u.inp _)
  | soutTake => (simp only [State.perform, State.turnOf] at h; refine State.onDec_inv hi ?_ h; intro u v hu hv; cases hv; exact hu.streams u.inp _)
  | attachSout => (simp only [State.perform, State.turnOf] at h; refine State.onDec_inv hi ?_ h; intro u v hu hv; rw [whenIdle_next hv]; exact hu.streams u.inp _)
  | outAnswer => (simp only [State.perform, State.turnOf] at h; refine State.onEnc_inv hi ?_ h; intro u v hu hv; cases hv; exact hu.streams _ u.sin)
  | attachOut => (simp only [State.perform, State.turnOf] at h; refine State.onEnc_inv hi ?_ h; intro u v hu hv; rw [whenIdle_next hv]; exact hu.streams _ u.sin)
  | sinWord => (simp only [State.perform, State.turnOf] at h; refine State.onEnc_inv hi ?_ h; intro u v hu hv; cases hv; exact hu.streams u.out _)
  | attachSin => (simp only [State.perform, State.turnOf] at h; refine State.onEnc_inv hi ?_ h; intro u v hu hv; rw [whenIdle_next hv]; exact hu.streams u.out _)
  | copyOut e d =>
    simp only [State.perform, State.copyOut] at h
    split at h
    · cases h
    · ( refine State.onDec_inv hi ?_ h; intro u v hu hv; rw [whenIdle_next hv]; exact hu.streams _ u.sout)
  | share =>
    simp only [State.perform] at h
    split at h <;> cases h
    exact hi

end Sys2Proof.Machine
end

