-- ==== Sys2Proof/Tests/Slice0.lean ====
section
/-! SUPPORT. Tests: well-formedness, decoding, and one step of each command on small states, with results
taken from the spec's vectors (95_test_vectors.md, named V<n>); and for every statement with hypotheses a
concrete state and operands that meet them together (`witness_<Name>`). -/

set_option maxRecDepth 4096

namespace Sys2Proof.Tests

open Sys2Proof.Machine
open Sys2Proof.Config (Params)

/-! ### Small states -/

/-- Registers of a unit that has just accepted a command. -/
def accCtl (bo : ByteOrder := .little) : Ctl := { Ctl.reset with busy := true, sampleBo := bo }

/-- A decoder unit with given common registers and streams. -/
def decU (c : Ctl) (bs : List Byte) (t : Option Term) (room : Nat) : DecUnit :=
  { DecUnit.initial with ctl := c, inp := ⟨bs, t, [], []⟩, sout := ⟨room, [], [], []⟩ }

/-- An encoder unit with given common registers, format and streams. -/
def encU (c : Ctl) (f : EncFormat) (answers : List Answer) (ws : List Word) : EncUnit :=
  { EncUnit.initial with ctl := c, fmt := f, out := ⟨answers, [], []⟩, sin := ⟨ws, [], []⟩ }

/-- The reset machine with another decoder unit. -/
def withDec (u : DecUnit) : State := { State.reset with decs := [u] }

/-- The reset machine with another encoder unit. -/
def withEnc (u : EncUnit) : State := { State.reset with encs := [u] }

/-- The host's next action. -/
def host (e : HostEvent) (s : State) : State := { s with script := [e] }

/-- What the host sees of decoder 0 after one step. -/
def decAfter (s : State) : Option DecUnit :=
  match step s with
  | .next t => t.decs[0]?
  | _ => none

/-- What the host sees of encoder 0 after one step. -/
def encAfter (s : State) : Option EncUnit :=
  match step s with
  | .next t => t.encs[0]?
  | _ => none

/-- STATUS, ERR_STAGE, ERR_ACTUAL, ERR_EXPECTED, IO_COUNT and SAMPLE_COUNT of a decoder. -/
def decRegs (u : DecUnit) : List Word :=
  [u.peek .status, u.peek .errStage, u.peek .errActual, u.peek .errExpected, u.peek .ioCount,
   u.peek .sampleCount]

/-- STATUS, ERR_STAGE, ERR_ACTUAL, ERR_EXPECTED, IO_COUNT, SAMPLE_COUNT, RIFF_SIZE and DATA_SIZE of an
encoder. -/
def encRegs (u : EncUnit) : List Word :=
  [u.peek .status, u.peek .errStage, u.peek .errActual, u.peek .errExpected, u.peek .ioCount,
   u.peek .sampleCount, u.peek .riffSize, u.peek .dataSize]

/-- The common registers after reset, with a byte order. -/
def idleCtl (bo : ByteOrder := .little) : Ctl := { Ctl.reset with sampleBo := bo }

/-- An idle decoder whose next step runs the command word `w` on the stream `bs`. -/
def decRun (w : Nat) (bo : ByteOrder) (bs : List Byte) (t : Option Term) : Option DecUnit :=
  decAfter ((withDec (decU (idleCtl bo) bs t 16)).withFetchWord 32 w)

/-- An idle encoder whose next step runs the command `w` of `nbits` bits. -/
def encRun (nbits w : Nat) (bo : ByteOrder) (f : EncFormat) (answers : List Answer) (ws : List Word) :
    Option EncUnit :=
  encAfter ((withEnc (encU (idleCtl bo) f answers ws)).withFetchWord nbits w)

/-- The format registers FMT_NEW_PCM 1, 8000, 16 leaves (V5). -/
def fmtV5 : EncFormat := ⟨16#32, 1#16, 1#16, 8000#32, 16000#32, 2#16, 16#16⟩

/-- The format registers FMT_NEW_FLOAT 1, 48000, 32 leaves (V7). -/
def fmtV7 : EncFormat := ⟨16#32, 3#16, 1#16, 48000#32, 192000#32, 4#16, 32#16⟩

/-- The 44 header bytes of V1. -/
def v1Head : List Byte :=
  [0x52#8, 0x49#8, 0x46#8, 0x46#8, 0x42#8, 0#8, 0#8, 0#8, 0x57#8, 0x41#8, 0x56#8, 0x45#8, 0x66#8, 0x6D#8,
   0x74#8, 0x20#8, 0x10#8, 0#8, 0#8, 0#8, 1#8, 0#8, 1#8, 0#8, 0x40#8, 0x1F#8, 0#8, 0#8, 0x80#8, 0x3E#8,
   0#8, 0#8, 2#8, 0#8, 0x10#8, 0#8, 0x64#8, 0x61#8, 0x74#8, 0x61#8, 0x0E#8, 0#8, 0#8, 0#8]

/-- The 58 bytes of V1. -/
def v1 : List Byte :=
  v1Head ++ [1#8, 0xFF#8, 0#8, 0#8, 0xFF#8, 0#8, 0#8, 0#8, 1#8, 0xFF#8, 0#8, 0#8, 0xFF#8, 0#8]

/-- The V7 header with a payload of `d` bytes, d < 256 (95_test_vectors.md 2.5). -/
def fhdr (riff d : Byte) : List Byte :=
  [0x52#8, 0x49#8, 0x46#8, 0x46#8, riff, 0#8, 0#8, 0#8, 0x57#8, 0x41#8, 0x56#8, 0x45#8, 0x66#8, 0x6D#8,
   0x74#8, 0x20#8, 0x10#8, 0#8, 0#8, 0#8, 3#8, 0#8, 1#8, 0#8, 0x80#8, 0xBB#8, 0#8, 0#8, 0#8, 0xEE#8,
   2#8, 0#8, 4#8, 0#8, 0x20#8, 0#8, 0x64#8, 0x61#8, 0x74#8, 0x61#8, d, 0#8, 0#8, 0#8]

/-- `n` Acks. -/
abbrev acks (n : Nat) : List Answer := List.replicate n .ack

/-! ### Well-formedness (R104, R108) -/

/-- R104: each unit kind executes its own commands and no other. -/
theorem test_wellFormed : (Instr.decHeader.wellFormed .dec && Instr.decInt16.wellFormed .dec &&
    Instr.decFloat32.wellFormed .dec && (Instr.fmtNewPcm 1 8000 16).wellFormed .enc &&
    (Instr.fmtNewFloat 1 8000 32).wellFormed .enc && Instr.encHeader.wellFormed .enc &&
    (Instr.encInt16 7).wellFormed .enc && (Instr.encFloat32 7).wellFormed .enc) = true := by decide

/-- R104: a command on the other unit kind is refused. -/
theorem test_illFormed_unit : (Instr.decHeader.wellFormed .enc || Instr.decInt16.wellFormed .enc ||
    Instr.decFloat32.wellFormed .enc || (Instr.fmtNewPcm 1 8000 16).wellFormed .dec ||
    (Instr.fmtNewFloat 1 8000 32).wellFormed .dec || Instr.encHeader.wellFormed .dec ||
    (Instr.encInt16 7).wellFormed .dec || (Instr.encFloat32 7).wellFormed .dec) = false := by decide

theorem test_line_ok :
    (AsmLine.mk (.enc 0) .FMT_NEW_PCM [65535, 4294967295, 65535]).wellFormed = true := by decide

theorem test_line_unit : (AsmLine.mk (.dec 0) .FMT_NEW_PCM [1, 8000, 16]).wellFormed = false := by decide

theorem test_line_ch : (AsmLine.mk (.enc 0) .FMT_NEW_PCM [65536, 8000, 16]).wellFormed = false := by
  decide

theorem test_line_rate : (AsmLine.mk (.enc 0) .FMT_NEW_FLOAT [1, 4294967296, 32]).wellFormed = false := by
  decide

theorem test_line_bits : (AsmLine.mk (.enc 0) .FMT_NEW_FLOAT [1, 8000, 65536]).wellFormed = false := by
  decide

theorem test_line_count : (AsmLine.mk (.enc 0) .ENC_INT16 [4294967296]).wellFormed = false := by decide

theorem test_line_arity : (AsmLine.mk (.dec 0) .DEC_HEADER [0]).wellFormed = false := by decide

/-! ### Decoding, by words written out from R101 to R103 -/

/-- V5: {0x0001, 0x00, 0x21}, the rate, {0x0000, 0x0010}. -/
theorem test_decode_pcm :
    decode [0x00010021#32, 0x00001F40#32, 0x00000010#32] = .ok (.fmtNewPcm 1 8000 16) := rfl

/-- V7. -/
theorem test_decode_float :
    decode [0x00010022#32, 0x0000BB80#32, 0x00000020#32] = .ok (.fmtNewFloat 1 48000 32) := rfl

theorem test_decode_decoder : decode [0x00000011#32] = .ok .decHeader ∧
    decode [0x00000012#32] = .ok .decInt16 ∧ decode [0x00000013#32] = .ok .decFloat32 :=
  ⟨rfl, rfl, rfl⟩

theorem test_decode_encoder : decode [0x00000023#32] = .ok .encHeader ∧
    decode [0x00000024#32, 0x7FFFFFE5#32] = .ok (.encInt16 2147483621) ∧
    decode [0x00000025#32, 0x3FFFFFF2#32] = .ok (.encFloat32 1073741810) := ⟨rfl, rfl, rfl⟩

/-- V80 to V87: each word 0 that R105 calls illegal is rejected, by name. -/
theorem test_decode_illegal :
    ([0x00000000#32, 0x00000021#32, 0x00000014#32, 0x00000111#32, 0x00010011#32].map (rejectWord0 .dec),
      [0x00000011#32, 0x00010023#32, 0x00000026#32].map (rejectWord0 .enc)) =
    ([some .unassigned, some .wrongUnit, some .unassigned, some .rsvNonzero, some .immNonzero],
      [some .wrongUnit, some .immNonzero, some .unassigned]) := by decide

/-- V88: word 2 with a bit above 15. -/
theorem test_decode_word2 :
    decode [0x00010021#32, 0x00001F40#32, 0x00010010#32] = .error .word2High := rfl

/-- R100: too few words, and too many. -/
theorem test_decode_count : decode [0x00000024#32] = .error .operandMissing ∧
    decode [0x00000011#32, 0#32] = .error .trailingWords ∧ decode [] = .error .noWord :=
  ⟨rfl, rfl, rfl⟩

/-- The opcode table numbers V5's second word from bit 32 and its third from bit 64. -/
theorem test_decodeTableWord :
    decodeTableWord 96 0x00000010_00001F40_00010021 = some (.fmtNewPcm 1 8000 16) ∧
    decodeTableWord 32 0x00010021 = some (.fmtNewPcm 1 0 0) := by decide

/-- R109's expansion of `enc.pcm16 ENC, 1, 8000, 7`. -/
theorem test_pseudo : Pseudo.expand (.encPcm16 0 1 8000 7) =
    [.write (.enc 0) 4 0x008 0x00010021, .write (.enc 0) 4 0x008 0x00001F40,
     .write (.enc 0) 4 0x008 0x00000010, .wait (.enc 0), .write (.enc 0) 4 0x008 0x00000024,
     .write (.enc 0) 4 0x008 0x00000007] := by decide

/-! ### One step of each command -/

/-- V49: an extension of 22 bytes is skipped. -/
theorem test_decHeader : (decRun 0x11 .little
      (v1Head.take 16 ++ [40#8, 0#8, 0#8, 0#8] ++ (v1Head.drop 20).take 16 ++ [0x16#8, 0#8] ++
        List.replicate 22 7#8 ++ [0x64#8, 0x61#8, 0x74#8, 0x61#8, 0#8, 0#8, 0#8, 0#8]) none).map
      (fun u => (decRegs u, u.hdr.fmtLen, u.hdr.extraSize)) =
    some ([0x66#32, 0, 0, 0, 68, 0], 40#32, 22#16) := by decide

/-- V44: with both identifiers wrong the first is reported. -/
theorem test_decHeader_riff : (decRun 0x11 .little
      ([0x52#8, 0x49#8, 0x46#8, 0x58#8, 0x42#8, 0#8, 0#8, 0#8, 0x41#8, 0x56#8, 0x49#8, 0x20#8] ++ v1.drop 12)
      (some .eof)).map decRegs = some [0x11F2#32, 1, 0x58464952, 0x46464952, 12, 0] := by decide

/-- V63: the seven samples of V1 with SAMPLE_BO big-endian. -/
theorem test_decInt16 : (decRun 0x12 .big v1 (some .eof)).map (fun u => (decRegs u, u.sout.words)) =
    some ([0x86#32, 0, 0, 0, 58, 7],
      [0x1FF#32, 0#32, 0xFFFFFF00#32, 0#32, 0x1FF#32, 0#32, 0xFFFFFF00#32]) := by decide

/-- V65: a residual byte. -/
theorem test_decInt16_residual : (decRun 0x12 .little
      (v1Head.take 40 ++ [3#8, 0#8, 0#8, 0#8, 1#8, 0#8, 2#8]) (some .eof)).map
      (fun u => (decRegs u, u.sout.words)) =
    some ([0x13F6#32, 10, 1, 2, 47, 1], [1#32]) := by decide

/-- V73: big-endian elements, negative ones too. -/
theorem test_decFloat32 : (decRun 0x13 .big
      (fhdr 64 12 ++ [0x3F#8, 0x80#8, 0#8, 0#8, 0xBF#8, 0x80#8, 0#8, 0#8, 0x3F#8, 0#8, 0#8, 0#8])
      (some .eof)).map (fun u => (decRegs u, u.sout.words)) =
    some ([0x86#32, 0, 0, 0, 56, 3], [0x3F800000#32, 0xBF800000#32, 0x3F000000#32]) := by decide

/-- V34: the second of three samples is 1.5. -/
theorem test_decFloat32_range : (decRun 0x13 .little
      (fhdr 64 12 ++ [0#8, 0#8, 0#8, 0x3F#8, 0#8, 0#8, 0xC0#8, 0x3F#8, 0#8, 0#8, 0x80#8, 0x3E#8])
      (some .eof)).map (fun u => (decRegs u, u.sout.words)) =
    some ([0x14F6#32, 11, 0x3FC00000, 0x3F800000, 52, 1], [0x3F000000#32]) := by decide

/-- V10: bits that are not whole bytes. -/
theorem test_fmtNewPcm : (encRun 96 0x0000000C_00001F40_00010021 .little EncFormat.zero [] []).map
      (fun u => (encRegs u, u.fmt)) =
    some ([0xC2#32, 0, 0, 0, 0, 0, 0, 0], ⟨16, 1, 1, 8000, 12000, 1, 12⟩) := by decide

/-- V12: both products are truncated. -/
theorem test_fmtNewPcm_truncates :
    (encRun 96 0x0000FFFF_FFFFFFFF_FFFF0021 .little EncFormat.zero [] []).map (fun u => u.fmt) =
    some ⟨16, 1, 0xFFFF, 0xFFFFFFFF, 0x3FFF, 0xC000, 0xFFFF⟩ := by decide

/-- V8. -/
theorem test_fmtNewFloat : (encRun 96 0x00000020_00017700_00020022 .little EncFormat.zero [] []).map
      (fun u => (encRegs u, u.fmt)) =
    some ([0xC2#32, 0, 0, 0, 0, 0, 0, 0], ⟨16, 3, 2, 96000, 0xBB800, 8, 32⟩) := by decide

/-- V18. -/
theorem test_encHeader : (encRun 32 0x23 .little fmtV5 (acks 44) []).map
      (fun u => (encRegs u, u.out.bytes)) =
    some ([0xC2#32, 0, 0, 0, 44, 0, 0x34, 0],
      v1Head.take 4 ++ [0x34#8, 0#8, 0#8, 0#8] ++ (v1Head.drop 8).take 32 ++ [0#8, 0#8, 0#8, 0#8]) := by
  decide

/-- V30: a failure at byte 0. -/
theorem test_encHeader_fail : (encRun 32 0x23 .little fmtV5 [.fail] []).map
      (fun u => (encRegs u, u.out.bytes)) =
    some ([0x15F2#32, 17, 0, 44, 0, 0, 0x34, 0], []) := by decide

/-- V1, the encode side. -/
theorem test_encInt16 : (encRun 64 0x00000007_00000024 .little fmtV5 (acks 58)
      [0xFFFFFF01#32, 0#32, 0xFF#32, 0#32, 0xFFFFFF01#32, 0#32, 0xFF#32]).map
      (fun u => (encRegs u, u.out.bytes)) =
    some ([0xC2#32, 0, 0, 0, 58, 7, 0x42, 0xE], v1) := by decide

/-- V29: a failure at the second byte of sample 1. -/
theorem test_encInt16_fail : (encRun 64 0x00000002_00000024 .little fmtV5 (acks 47 ++ [.fail])
      [1#32, 2#32]).map (fun u => (encRegs u, u.out.bytes.drop 44)) =
    some ([0x15F2#32, 18, 1, 2, 47, 1, 0x38, 4], [1#8, 0#8, 2#8]) := by decide

/-- V21: a little-endian header and a big-endian payload. -/
theorem test_encFloat32 : (encRun 64 0x00000003_00000025 .big fmtV7 (acks 56)
      [0x3F800000#32, 0xBF800000#32, 0x3F000000#32]).map (fun u => (encRegs u, u.out.bytes)) =
    some ([0xC2#32, 0, 0, 0, 56, 3, 0x40, 0xC],
      fhdr 64 12 ++ [0x3F#8, 0x80#8, 0#8, 0#8, 0xBF#8, 0x80#8, 0#8, 0#8, 0x3F#8, 0#8, 0#8, 0#8]) := by
  decide

/-- V26: a sample count above NMAX. -/
theorem test_encFloat32_count : (encRun 64 0x3FFFFFF3_00000025 .little fmtV7 (acks 9) [1#32]).map
      (fun u => (encRegs u, u.out.bytes, u.sin.ready.length)) =
    some ([0x19F2#32, 16, 0x3FFFFFF3, 0x3FFFFFF2, 0, 0, 0, 0], [], 1) := by decide

/-! ### The window and the command port -/

/-- V88: the constructor's third word is illegal; the format registers stay 0. -/
theorem test_illegal_word2 : (encRun 96 0x00010010_00001F40_00010021 .little EncFormat.zero [] []).map
      (fun u => (u.peek .status, u.fmt)) = some (0x18F2#32, EncFormat.zero) := by decide

/-- V90: a command word for a BUSY decoder is lost and sets OVR, here seen as bit 13. -/
theorem test_busy_command : (decAfter (host (.write (.dec 0) 4 8 0x12) (withDec
      (decU (accCtl) [] none 0)))).map (fun u => (u.ctl.ovr, u.ctl.busy)) = some (true, true) := by decide

/-- V93: `clr.status` on STATUS 0x38F2. -/
theorem test_clr_status : (decAfter { withDec { DecUnit.initial with ctl := { Ctl.reset with
        done := true, phase := .error, err := some .illegalCommand, stickyErr := true, ovr := true } } with
      script := Pseudo.expand (.clrStatus (.dec 0)) }).map (fun u => u.peek .status) =
    some 0x8F2#32 := by decide

/-- V99: a 16-bit register takes bits [15:0]. -/
theorem test_write_fmt : (encAfter (host (.write (.enc 0) 4 0x054 0xFFFF0002) State.reset)).map
    (fun u => u.peek .numChannels) = some 2#32 := by decide

/-- R97, R122: an ENC unit has no HDR_VALID and a DEC unit's window has no more than R24's registers. -/
theorem test_unmapped : regAt .enc 0x040 = none ∧ regAt .dec 0x020 = none ∧ regAt .dec 0x06C = some .dataSize ∧
    regAt .enc 0x068 = none := by decide

/-- R27, R243, R245: the highest code of each table. -/
theorem test_codes : Phase.error.code = 15 ∧ Phase.encDone.code = 12 ∧ ErrKind.operandRange.code = 9 ∧
    ErrKind.ioFailure.code = 5 ∧ Stage.encSampleRange.code = 19 ∧ Stage.sampleRange.code = 11 := by decide

/-- What `withFetchWord` places runs in the very next step from reset. -/
theorem test_fetch : (decAfter (State.reset.withFetchWord 32 0x11)).map (fun u => u.run.isSome) = some true ∧
    (encAfter (State.reset.withFetchWord 32 0x21)).map (fun u => u.peek .status) = some 0xC2#32 := by
  decide

/-- R258: from reset, with nothing scheduled, the machine stays as it is. -/
theorem test_reset_stays : step State.reset = .next State.reset := rfl

/-- R284: a new IN and the removal of a word of SOUT leave what the old stream and the sink carried on record. -/
theorem test_record :
    (decAfter (host (.attachIn 0 [9] none) (withDec { decU idleCtl [3] none 0 with inp := ⟨[3], none, [1, 2], []⟩ }))).map
      (fun u => (u.inp.ready, u.inp.consumed)) = some ([9], [[1, 2], []]) ∧
    (decAfter (host (.soutTake 0 1) (withDec { decU idleCtl [] none 0 with sout := ⟨0, [7, 8], [6], []⟩ }))).map
      (fun u => (u.sout.words, u.sout.appended)) = some ([8], [[6, 7, 8]]) := by decide

/-- The registers of `accCtl` are those of an accepted command. -/
theorem accCtl_accepted (bo : ByteOrder) : (accCtl bo).Accepted :=
  ⟨rfl, rfl, rfl, rfl, rfl, rfl, rfl, rfl, rfl⟩

/-! ### Witnesses: command words and the command port -/

theorem witness_DecodeOfEncode : (Instr.decFloat32).wellFormed .dec = true ∧
    (Instr.encFloat32 0xFFFFFFFF).wellFormed .enc = true := by decide

theorem witness_EncodeOfDecode : decodeFor .dec [0x00000013#32] = .ok .decFloat32 ∧
    decodeFor .enc [0xFFFF0022#32, 0xFFFFFFFF#32, 0x0000FFFF#32] =
      .ok (.fmtNewFloat 0xFFFF 0xFFFFFFFF 0xFFFF) := ⟨rfl, rfl⟩

theorem witness_WordZeroDecidesLength :
    IllegalWord0 .dec 0x10#32 ∧ IllegalWord0 .enc 0x26#32 ∧ IllegalWord0 .enc 0x121#32 ∧
    IllegalWord0 .enc 0x10024#32 ∧
    (¬ IllegalWord0 .enc 0xFFFF0021#32 ∧ opcField 0xFFFF0021#32 ∈ [0x21#8, 0x22#8]) ∧
    (¬ IllegalWord0 .enc 0x25#32 ∧ opcField 0x25#32 ∈ [0x24#8, 0x25#8]) ∧
    (¬ IllegalWord0 .dec 0x13#32 ∧ opcField 0x13#32 ∈ [0x11#8, 0x12#8, 0x13#8, 0x23#8]) :=
  ⟨by decide, by decide, by decide, by decide, by decide, by decide, by decide⟩

/-- Both sides of each bound of R108; and the lines of a decoder and of an encoder on idle units, with more of
the script after them. -/
theorem witness_AssembledLinesDecode :
    (AsmLine.mk (.enc 0) .FMT_NEW_PCM [65535, 4294967295, 65535]).assemble =
      some [0xFFFF0021#32, 0xFFFFFFFF#32, 0x0000FFFF#32] ∧
    (AsmLine.mk (.enc 0) .FMT_NEW_PCM [65536, 0, 0]).assemble = none ∧
    (AsmLine.mk (.enc 0) .FMT_NEW_FLOAT [0, 4294967296, 0]).assemble = none ∧
    (AsmLine.mk (.enc 0) .FMT_NEW_FLOAT [0, 0, 65536]).assemble = none ∧
    (AsmLine.mk (.enc 0) .ENC_FLOAT32 [4294967295]).assemble = some [0x00000025#32, 0xFFFFFFFF#32] ∧
    (AsmLine.mk (.enc 0) .ENC_INT16 [4294967296]).assemble = none ∧
    (AsmLine.mk (.dec 0) .ENC_HEADER []).assemble = none ∧
    (∃ (s : State) (l : AsmLine) (es rest : List HostEvent) (d : Nat) (u : DecUnit), l.unit = .dec d ∧
      Machine.AsmLine.events l = some es ∧ s.decs[d]? = some u ∧ u.ctl.busy = false ∧ u.ctl.asm = [] ∧
      s.script = es ++ rest ∧ rest ≠ []) ∧
    ∃ (s : State) (l : AsmLine) (es rest : List HostEvent) (e : Nat) (u : EncUnit), l.unit = .enc e ∧
      Machine.AsmLine.events l = some es ∧ s.encs[e]? = some u ∧ u.ctl.busy = false ∧ u.ctl.asm = [] ∧
      s.script = es ++ rest ∧ es.length = 3 :=
  ⟨by decide, by decide, by decide, by decide, by decide, by decide, by decide,
   ⟨{ State.reset with script := [.write (.dec 0) 4 0x008 0x12, .wait (.dec 0)] }, ⟨.dec 0, .DEC_INT16, []⟩,
     [.write (.dec 0) 4 0x008 0x12], [.wait (.dec 0)], 0, _, rfl, rfl, rfl, rfl, rfl, rfl, by decide⟩,
   ⟨{ State.reset with script := [.write (.enc 0) 4 0x008 0x10021, .write (.enc 0) 4 0x008 8000,
       .write (.enc 0) 4 0x008 16] }, ⟨.enc 0, .FMT_NEW_PCM, [1, 8000, 16]⟩, _, [], 0, _, rfl, rfl, rfl, rfl,
     rfl, rfl, rfl⟩⟩

/-- A decoder whose host writes `w` to CMD next. -/
def cmdDec (c : Ctl) (w : Word) : State := host (.write (.dec 0) 4 0x008 w) (withDec (decU c v1 (some .eof) 8))

/-- An encoder whose host writes `w` to CMD next. -/
def cmdEnc (c : Ctl) (w : Word) : State := host (.write (.enc 0) 4 0x008 w) (withEnc (encU c fmtV5 (acks 58) []))

/-- The registers while the words `ws` are collected. -/
def asmCtl (ws : List Word) : Ctl := { accCtl with phase := .operands, asm := ws }

theorem witness_StepRunsDecodedCommand :
    (∃ s rest d u w i, State.script s = .write (.dec d) 4 0x008 w :: rest ∧ s.decs[d]? = some u ∧
      u.ctl.busy = false ∧ u.ctl.asm = [] ∧ decodeFor .dec [w] = .ok i) ∧
    (∃ s rest e u w i, State.script s = .write (.enc e) 4 0x008 w :: rest ∧ s.encs[e]? = some u ∧
      u.ctl.busy = false ∧ u.ctl.asm = [] ∧ decodeFor .enc [w] = .ok i) ∧
    (∃ s rest e u w w0 ops i, State.script s = .write (.enc e) 4 0x008 w :: rest ∧ s.encs[e]? = some u ∧
      u.ctl.asm = w0 :: ops ∧ decodeFor .enc (w0 :: ops ++ [w]) = .ok i) ∧
    (∃ s rest e u w w0 ops i, State.script s = .write (.enc e) 4 0x008 w :: rest ∧ s.encs[e]? = some u ∧
      u.ctl.asm = w0 :: ops ∧ ops ≠ [] ∧ decodeFor .enc (w0 :: ops ++ [w]) = .ok i) :=
  ⟨⟨cmdDec idleCtl 0x12, [], 0, _, 0x12, .decInt16, rfl, rfl, rfl, rfl, rfl⟩,
   ⟨cmdEnc idleCtl 0x23, [], 0, _, 0x23, .encHeader, rfl, rfl, rfl, rfl, rfl⟩,
   ⟨cmdEnc (asmCtl [0x24]) 7, [], 0, _, 7, 0x24, [], .encInt16 7, rfl, rfl, rfl, rfl⟩,
   ⟨cmdEnc (asmCtl [0x10021, 8000]) 16, [], 0, _, 16, 0x10021, [8000], .fmtNewPcm 1 8000 16,
     rfl, rfl, rfl, by decide, rfl⟩⟩

theorem witness_OperandWordsCollect :
    (∃ s rest e u w, State.script s = .write (.enc e) 4 0x008 w :: rest ∧ s.encs[e]? = some u ∧
      u.ctl.busy = false ∧ u.ctl.asm = [] ∧ ¬ IllegalWord0 .enc w ∧ opcField w ≠ 0x23#8) ∧
    (∃ s rest e u w w0, State.script s = .write (.enc e) 4 0x008 w :: rest ∧ s.encs[e]? = some u ∧
      u.ctl.asm = [w0] ∧ ¬ IllegalWord0 .enc w0 ∧ opcField w0 ∈ [0x21#8, 0x22#8]) :=
  ⟨⟨cmdEnc idleCtl 0x25, [], 0, _, 0x25, rfl, rfl, rfl, rfl, by decide, by decide⟩,
   ⟨cmdEnc (asmCtl [0xFFFF0022]) 0xFFFFFFFF, [], 0, _, 0xFFFFFFFF, 0xFFFF0022, rfl, rfl, rfl, by decide,
     by decide⟩⟩

theorem witness_IllegalWordsEndCommand :
    (∃ s rest d u w, State.script s = .write (.dec d) 4 0x008 w :: rest ∧ s.decs[d]? = some u ∧
      u.ctl.busy = false ∧ u.ctl.asm = [] ∧ IllegalWord0 .dec w) ∧
    (∃ s rest e u w, State.script s = .write (.enc e) 4 0x008 w :: rest ∧ s.encs[e]? = some u ∧
      u.ctl.busy = false ∧ u.ctl.asm = [] ∧ IllegalWord0 .enc w) ∧
    (∃ s rest e u w w0 w1, State.script s = .write (.enc e) 4 0x008 w :: rest ∧ s.encs[e]? = some u ∧
      u.ctl.asm = [w0, w1] ∧ ¬ IllegalWord0 .enc w0 ∧ opcField w0 ∈ [0x21#8, 0x22#8] ∧
      highField w ≠ 0#16) :=
  ⟨⟨cmdDec idleCtl 0x14, [], 0, _, 0x14, rfl, rfl, rfl, rfl, by decide⟩,
   ⟨cmdEnc idleCtl 0x10023, [], 0, _, 0x10023, rfl, rfl, rfl, rfl, by decide⟩,
   ⟨cmdEnc (asmCtl [0x10021, 8000]) 0x10010, [], 0, _, 0x10010, 0x10021, 8000, rfl, rfl, rfl, by decide,
     by decide, by decide⟩⟩

theorem witness_CmdWordWhileBusy :
    (∃ s rest d u w, State.script s = .write (.dec d) 4 0x008 w :: rest ∧ s.decs[d]? = some u ∧
      u.ctl.busy = true ∧ u.ctl.asm = []) ∧
    (∃ s rest e u w, State.script s = .write (.enc e) 4 0x008 w :: rest ∧ s.encs[e]? = some u ∧
      u.ctl.busy = true ∧ u.ctl.asm = []) ∧
    (∃ s rest e u w, State.script s = .write (.enc e) 4 0x008 w :: rest ∧ s.encs[e]? = some u ∧
      AsmOk u.ctl.asm ∧ u.ctl.asm.length = 1) ∧
    (∃ s rest e u w, State.script s = .write (.enc e) 4 0x008 w :: rest ∧ s.encs[e]? = some u ∧
      AsmOk u.ctl.asm ∧ u.ctl.asm.length = 2) :=
  ⟨⟨cmdDec accCtl 0x12, [], 0, _, 0x12, rfl, rfl, rfl, rfl⟩,
   ⟨cmdEnc accCtl 0x23, [], 0, _, 0x23, rfl, rfl, rfl, rfl⟩,
   ⟨cmdEnc (asmCtl [0x24]) 0x23, [], 0, _, 0x23, rfl, rfl, ⟨by decide, by decide⟩, rfl⟩,
   ⟨cmdEnc (asmCtl [0x10021, 8000]) 0x10010, [], 0, _, 0x10010, rfl, rfl, ⟨by decide, by decide⟩, rfl⟩⟩

/-! ### Witnesses: the window -/

/-- The host reads offset `off` of a unit next. -/
def readNext (u : UnitId) (off : Nat) (s : State) : State := host (.read u 4 off) s

/-- The host writes `v` at offset `off` of a unit next. -/
def writeNext (u : UnitId) (off : Nat) (v : Word) (s : State) : State := host (.write u 4 off v) s

/-- A machine both of whose units run a command. -/
def busyBoth : State :=
  { State.reset with decs := [decU accCtl [] none 0], encs := [encU accCtl fmtV5 [] []] }

theorem witness_OnlyAlignedWordAccess :
    (∃ s rest u width off v, (width ≠ 4 ∨ off % 4 ≠ 0) ∧
      (State.script s = .read u width off :: rest ∨ s.script = .write u width off v :: rest) ∧ width = 2) ∧
    (∃ s rest u width off v, (width ≠ 4 ∨ off % 4 ≠ 0) ∧
      (State.script s = .read u width off :: rest ∨ s.script = .write u width off v :: rest) ∧
      width = 4 ∧ off = 0x0FE) ∧
    ∀ off ∈ [0x000, 0x0FC], ∀ u ∈ [UnitId.dec 0, .enc 0], ∃ s rest v, off % 4 = 0 ∧ off < 0x100 ∧
      u ∈ State.units s ∧ (s.script = .read u 4 off :: rest ∨ s.script = .write u 4 off v :: rest) :=
  ⟨⟨host (.read (.dec 0) 2 0x004) State.reset, [], .dec 0, 2, 0x004, 0, by decide, by decide, rfl⟩,
   ⟨host (.write (.enc 0) 4 0x0FE 0) State.reset, [], .enc 0, 4, 0x0FE, 0, by decide, by decide, rfl, rfl⟩,
   fun off ho u hu => ⟨readNext u off State.reset, [], 0, by
     revert off u; decide, by revert off u; decide, by revert off u; decide, .inl rfl⟩⟩

theorem witness_IdleReads :
    (∀ off ∈ [0x000, 0x06C], ∃ s rest d u v, State.script s = .read (.dec d) 4 off :: rest ∧
      s.decs[d]? = some u ∧ u.ctl.busy = false ∧ (off, v) ∈ u.idleMap) ∧
    (∀ off ∈ [0x000, 0x06C], ∃ s rest e u v, State.script s = .read (.enc e) 4 off :: rest ∧
      s.encs[e]? = some u ∧ u.ctl.busy = false ∧ (off, v) ∈ u.idleMap) ∧
    (∀ off ∈ [0x020, 0x03C, 0x070, 0x0FC], ∃ s rest d u, State.script s = .read (.dec d) 4 off :: rest ∧
      s.decs[d]? = some u ∧ off % 4 = 0 ∧ (0x020 ≤ off ∧ off < 0x040 ∨ 0x070 ≤ off ∧ off < 0x100)) ∧
    (∀ off ∈ [0x020, 0x040, 0x048, 0x068, 0x070, 0x0FC], ∃ s rest e u,
      State.script s = .read (.enc e) 4 off :: rest ∧ s.encs[e]? = some u ∧ off % 4 = 0 ∧
      (0x020 ≤ off ∧ off < 0x044 ∨ off = 0x048 ∨ off = 0x068 ∨ 0x070 ≤ off ∧ off < 0x100)) :=
  ⟨fun off ho => ⟨readNext (.dec 0) off State.reset, [], 0, DecUnit.initial, 0#32, rfl, rfl, rfl, by
     revert off; decide⟩,
   fun off ho => ⟨readNext (.enc 0) off State.reset, [], 0, EncUnit.initial, 0#32, rfl, rfl, rfl, by
     revert off; decide⟩,
   fun off ho => ⟨readNext (.dec 0) off State.reset, [], 0, DecUnit.initial, rfl, rfl, by
     revert off; decide, by revert off; decide⟩,
   fun off ho => ⟨readNext (.enc 0) off State.reset, [], 0, EncUnit.initial, rfl, rfl, by
     revert off; decide, by revert off; decide⟩⟩

theorem witness_BusyReads :
    (∀ off ∈ [0x000, 0x004, 0x008, 0x0FC], ∃ s rest d u, State.script s = .read (.dec d) 4 off :: rest ∧
      s.decs[d]? = some u ∧ u.ctl.busy = true ∧ off % 4 = 0 ∧ off < 0x100) ∧
    (∀ off ∈ [0x000, 0x004, 0x008, 0x04C, 0x064, 0x0FC], ∃ s rest e u,
      State.script s = .read (.enc e) 4 off :: rest ∧ s.encs[e]? = some u ∧ u.ctl.busy = true ∧
      off % 4 = 0 ∧ off < 0x100) :=
  ⟨fun off ho => ⟨readNext (.dec 0) off busyBoth, [], 0, _, rfl, rfl, rfl, by revert off; decide, by
     revert off; decide⟩,
   fun off ho => ⟨readNext (.enc 0) off busyBoth, [], 0, _, rfl, rfl, rfl, by revert off; decide, by
     revert off; decide⟩⟩

theorem witness_StatusWriteOneClears :
    (∃ s rest d u v, State.script s = .write (.dec d) 4 0x004 v :: rest ∧ s.decs[d]? = some u) ∧
    (∃ s rest e u v, State.script s = .write (.enc e) 4 0x004 v :: rest ∧ s.encs[e]? = some u) :=
  ⟨⟨writeNext (.dec 0) 4 0x3000 busyBoth, [], 0, _, 0x3000, rfl, rfl⟩,
   ⟨writeNext (.enc 0) 4 0x3000 State.reset, [], 0, _, 0x3000, rfl, rfl⟩⟩

theorem witness_IdleWrites :
    (∀ off ∈ [0x000, 0x00C, 0x0FC], ∃ s rest d u v, State.script s = .write (.dec d) 4 off v :: rest ∧
      s.decs[d]? = some u ∧ u.ctl.busy = false ∧ off % 4 = 0 ∧ off < 0x100 ∧
      (off = 0x000 ∨ off ∉ [0x000, 0x004, 0x008])) ∧
    (∀ off ∈ [0x000, 0x04C, 0x064, 0x00C, 0x0FC], ∃ s rest e u v,
      State.script s = .write (.enc e) 4 off v :: rest ∧ s.encs[e]? = some u ∧ u.ctl.busy = false ∧
      off % 4 = 0 ∧ off < 0x100 ∧
      (off = 0x000 ∨ off ∈ (u.formatWrites v).map (·.1) ∨
        off ∉ [0x000, 0x004, 0x008, 0x04C, 0x050, 0x054, 0x058, 0x05C, 0x060, 0x064])) :=
  ⟨fun off ho => ⟨writeNext (.dec 0) off 1 State.reset, [], 0, _, 1, rfl, rfl, rfl, by revert off; decide,
     by revert off; decide, by revert off; decide⟩,
   fun off ho => ⟨writeNext (.enc 0) off 1 State.reset, [], 0, _, 1, rfl, rfl, rfl, by revert off; decide,
     by revert off; decide, by revert off; decide⟩⟩

theorem witness_BusyWrites :
    (∀ off ∈ [0x000, 0x004, 0x00C, 0x0FC], ∃ s rest d u v,
      State.script s = .write (.dec d) 4 off v :: rest ∧ s.decs[d]? = some u ∧ u.ctl.busy = true ∧
      off % 4 = 0 ∧ off < 0x100) ∧
    (∀ off ∈ [0x000, 0x04C, 0x064, 0x004, 0x00C, 0x0FC], ∃ s rest e u v,
      State.script s = .write (.enc e) 4 off v :: rest ∧ s.encs[e]? = some u ∧ u.ctl.busy = true ∧
      off % 4 = 0 ∧ off < 0x100) :=
  ⟨fun off ho => ⟨writeNext (.dec 0) off 1 busyBoth, [], 0, _, 1, rfl, rfl, rfl, by revert off; decide,
     by revert off; decide⟩,
   fun off ho => ⟨writeNext (.enc 0) off 1 busyBoth, [], 0, _, 1, rfl, rfl, rfl, by revert off; decide,
     by revert off; decide⟩⟩

/-! ### Witnesses: the encoder -/

/-- An encoder that has just accepted a command. -/
def accEnc (answers : List Answer) (ws : List Word) : State := withEnc (encU accCtl fmtV5 answers ws)

theorem witness_FmtNewPcmCompletes : ∃ s u, (State.encs s)[s.sel]? = some u ∧ u.ctl.Accepted ∧
    s.pace = none := ⟨accEnc [] [], _, rfl, accCtl_accepted _, rfl⟩

theorem witness_FmtNewFloatCompletes : ∃ s u, (State.encs s)[s.sel]? = some u ∧ u.ctl.Accepted ∧
    s.pace = none := ⟨accEnc [] [], _, rfl, accCtl_accepted _, rfl⟩

theorem witness_ConstructedByteRate : ∃ (s t : State) (u : EncUnit) (ch : Half) (rate : Word) (bits : Half)
    (i : Instr) (scale : Nat), i ∈ [Instr.fmtNewPcm ch rate bits, .fmtNewFloat ch rate bits] ∧
    s.encs[s.sel]? = some u ∧ u.ctl.Accepted ∧ s.pace = none ∧ exec i s = .next t ∧
    scale = (if s.params.ctorChannelScaling then ch.toNat else 1) ∧ 8 ∣ scale * bits.toNat ∧
    scale * bits.toNat / 8 < 2 ^ 16 ∧ rate.toNat * scale * bits.toNat / 8 < 2 ^ 32 :=
  ⟨accEnc [] [], _, _, 2, 96000, 32, .fmtNewFloat 2 96000 32, 2, by decide, rfl, accCtl_accepted _, rfl, rfl, rfl,
    by decide, by decide, by decide⟩

theorem witness_EncHeaderCompletes : ∃ (s : State) (u : EncUnit) (as : List Answer),
    s.encs[s.sel]? = some u ∧ u.ctl.Accepted ∧ s.pace = none ∧ u.out.answers = acks 44 ++ as :=
  ⟨accEnc (acks 44) [], _, [], rfl, accCtl_accepted _, rfl, rfl⟩

theorem witness_EncInt16Completes : ∃ (s : State) (u : EncUnit) (n : Word) (ws rest : List Word)
    (as : List Answer), s.encs[s.sel]? = some u ∧ u.ctl.Accepted ∧ s.pace = none ∧
    n.toNat ≤ (2 ^ 32 - 1 - s.params.riffSizeBias.toNat) / 2 ∧ ws.length = n.toNat ∧
    u.sin.ready = ws ++ rest ∧ u.out.answers = acks (44 + 2 * n.toNat) ++ as :=
  ⟨accEnc (acks 46) [0xFFFF8000, 3], _, 1, [0xFFFF8000], [3], [], rfl, accCtl_accepted _, rfl, by decide, rfl,
    rfl, by decide⟩

theorem witness_EncFloat32Completes : ∃ (s : State) (u : EncUnit) (n : Word) (ws rest : List Word)
    (as : List Answer), s.encs[s.sel]? = some u ∧ u.ctl.Accepted ∧ s.pace = none ∧
    n.toNat ≤ (2 ^ 32 - 1 - s.params.riffSizeBias.toNat) / 4 ∧ ws.length = n.toNat ∧
    u.sin.ready = ws ++ rest ∧
    (s.params.encFloatRangeCheck = true → ∀ w ∈ ws, inRangeF32 w = true) ∧
    u.out.answers = acks (44 + 4 * n.toNat) ++ as :=
  ⟨accEnc (acks 48) [0x7FC00001, 3], _, 1, [0x7FC00001], [3], [], rfl, accCtl_accepted _, rfl, by decide, rfl,
    rfl, by decide, by decide⟩

/-- NMAX + 1 for both kinds (V25, V26). -/
theorem witness_SampleCountTooLarge : ∀ p ∈ [(SampleKind.int16, 0x7FFFFFE6#32), (.float32, 0x3FFFFFF3#32)],
    ∃ (s : State) (u : EncUnit), s.encs[s.sel]? = some u ∧ u.ctl.Accepted ∧ s.pace = none ∧
    (2 ^ 32 - 1 - s.params.riffSizeBias.toNat) / p.1.size < p.2.toNat :=
  fun p hp => ⟨accEnc [] [], _, rfl, accCtl_accepted _, rfl, by revert p; decide⟩

/-- At the first and the last byte of the header. -/
theorem witness_EncHeaderWriteFailure : ∀ m ∈ [0, 43], ∃ (s : State) (u : EncUnit) (as : List Answer),
    s.encs[s.sel]? = some u ∧ u.ctl.Accepted ∧ s.pace = none ∧ m < 44 ∧
    u.out.answers = acks m ++ Answer.fail :: as :=
  fun m hm => ⟨accEnc (acks m ++ [.fail]) [], _, [], rfl, accCtl_accepted _, rfl, by revert m; decide, rfl⟩

/-- At the last byte of the header and the first and the last of the samples. -/
theorem witness_EncSampleWriteFailure : ∀ m ∈ [43, 44, 47], ∃ (s : State) (u : EncUnit) (kind : SampleKind)
    (n : Word) (ws rest : List Word) (as : List Answer), s.encs[s.sel]? = some u ∧ u.ctl.Accepted ∧
    s.pace = none ∧ n.toNat ≤ (2 ^ 32 - 1 - s.params.riffSizeBias.toNat) / kind.size ∧
    ws.length = n.toNat ∧ u.sin.ready = ws ++ rest ∧ (∀ w ∈ ws, encodable s.params kind w = true) ∧
    m < 44 + n.toNat * kind.size ∧ u.out.answers = acks m ++ Answer.fail :: as := by
  intro m hm
  refine ⟨accEnc (acks m ++ [.fail]) [1, 2], encU accCtl fmtV5 (acks m ++ [.fail]) [1, 2], .int16, 2,
    [1, 2], [], [], rfl, accCtl_accepted _, rfl, ?_, rfl, rfl, fun _ _ => rfl, ?_, rfl⟩ <;> revert m <;> decide

theorem witness_EncRangeFailure : ∃ (s : State) (u : EncUnit) (n : Word) (ws : List Word) (w : Word)
    (rest : List Word) (as : List Answer), s.encs[s.sel]? = some u ∧ u.ctl.Accepted ∧ s.pace = none ∧
    s.params.encFloatRangeCheck = true ∧ n.toNat ≤ (2 ^ 32 - 1 - s.params.riffSizeBias.toNat) / 4 ∧
    ws.length < n.toNat ∧ u.sin.ready = ws ++ w :: rest ∧ (∀ x ∈ ws, inRangeF32 x = true) ∧
    inRangeF32 w = false ∧ u.out.answers = acks (44 + 4 * ws.length) ++ as := by
  refine ⟨{ accEnc (acks 48) [0x3F800000, 0x3F800001] with params := ⟨1, 1, 52, true, true⟩ },
    encU accCtl fmtV5 (acks 48) [0x3F800000, 0x3F800001], 2, [0x3F800000], 0x3F800001, [], [], rfl,
    accCtl_accepted _, rfl, rfl, by decide, by decide, rfl, ?_, by decide, by decide⟩
  exact List.forall_mem_singleton.2 (by decide)

/-- One word too few; a sink that stops at the first and the last byte of the header; one that stops at the last
byte of the header, at the first byte of the samples and inside the last sample. -/
theorem witness_EncWaitsForSamples :
    (∃ (s : State) (u : EncUnit) (kind : SampleKind) (n : Word)
      (as : List Answer), s.encs[s.sel]? = some u ∧ u.ctl.Accepted ∧ s.pace = none ∧
      n.toNat ≤ (2 ^ 32 - 1 - s.params.riffSizeBias.toNat) / kind.size ∧ u.sin.ready.length < n.toNat ∧
      (∀ w ∈ u.sin.ready, encodable s.params kind w = true) ∧
      u.out.answers = acks (44 + u.sin.ready.length * kind.size) ++ as) ∧
    (∀ m ∈ [0, 43], ∃ (s : State) (u : EncUnit), s.encs[s.sel]? = some u ∧ u.ctl.Accepted ∧ s.pace = none ∧
      m < 44 ∧ u.out.answers = acks m) ∧
    ∀ m ∈ [43, 44, 47], ∃ (s : State) (u : EncUnit) (kind : SampleKind) (n : Word) (ws rest : List Word),
      s.encs[s.sel]? = some u ∧ u.ctl.Accepted ∧ s.pace = none ∧
      n.toNat ≤ (2 ^ 32 - 1 - s.params.riffSizeBias.toNat) / kind.size ∧ ws.length = n.toNat ∧
      u.sin.ready = ws ++ rest ∧ (∀ w ∈ ws, encodable s.params kind w = true) ∧
      m < 44 + n.toNat * kind.size ∧ u.out.answers = acks m := by
  refine ⟨⟨accEnc (acks 46) [1], encU accCtl fmtV5 (acks 46) [1], .int16, 2, [], rfl, accCtl_accepted _, rfl,
    by decide, by decide, fun _ _ => rfl, by decide⟩, fun m hm => ⟨accEnc (acks m) [],
    encU accCtl fmtV5 (acks m) [], rfl, accCtl_accepted _, rfl, by revert m; decide, rfl⟩, fun m hm => ?_⟩
  refine ⟨accEnc (acks m) [1, 2], encU accCtl fmtV5 (acks m) [1, 2], .int16, 2,
    [1, 2], [], rfl, accCtl_accepted _, rfl, ?_, rfl, rfl, fun _ _ => rfl, ?_, rfl⟩ <;> revert m <;> decide

/-! ### Witnesses: the decoder -/

/-- A decoder that has just accepted a command. -/
def accDec (bs : List Byte) (t : Option Term) (room : Nat) : State := withDec (decU accCtl bs t room)

/-- A header of format code `code` for `d` payload bytes, with a LIST chunk of one byte before "data" and,
when `len` is not 16, an extension of two bytes. -/
def head (len : Word) (code : Half) (d : Word) : WavHead :=
  ⟨0x42, ⟨len, code, 1, 8000, 16000, 2, 16⟩, [9, 9], [⟨[0x4C#8, 0x49#8, 0x53#8, 0x54#8], [7]⟩], d⟩

theorem witness_DecHeaderCompletes : ∀ len ∈ [16#32, 18#32], ∃ (s : State) (u : DecUnit) (h : WavHead)
    (rest : List Byte), h.fmt.fmtLen = len ∧ s.decs[s.sel]? = some u ∧ u.ctl.Accepted ∧ s.pace = none ∧
    h.Ok ∧ u.inp.ready = h.bytes ++ rest := by
  intro len hl
  refine ⟨accDec ((head len 0xFFFE 4).bytes ++ [1]) none 0,
    decU accCtl ((head len 0xFFFE 4).bytes ++ [1]) none 0, head len 0xFFFE 4, [1], rfl, rfl,
    accCtl_accepted _, rfl, ?_, rfl⟩
  exact ⟨(by decide : (0xFFFE#16) ∈ recognizedFormats), (by decide : [9#8, 9#8].length < 2 ^ 16),
    (by decide : ∀ c ∈ (head 16 1 0).chunks, c.Ok)⟩

theorem witness_DecInt16Completes : ∃ (s : State) (u : DecUnit) (h : WavHead) (es : List (Byte × Byte))
    (rest : List Byte), s.decs[s.sel]? = some u ∧ u.ctl.Accepted ∧ s.pace = none ∧ h.Ok ∧
    h.fmt.audioFormat = 1#16 ∧ h.dataSize.toNat = 2 * es.length ∧ es.length ≤ u.sout.room ∧
    u.inp.ready = h.bytes ++ es.flatMap (fun e => [e.1, e.2]) ++ rest := by
  refine ⟨accDec ((head 16 1 4).bytes ++ [1, 0xFF, 0, 0x80] ++ [3]) none 2,
    decU accCtl ((head 16 1 4).bytes ++ [1, 0xFF, 0, 0x80] ++ [3]) none 2, head 16 1 4,
    [(1, 0xFF), (0, 0x80)], [3], rfl, accCtl_accepted _, rfl, ?_, rfl, rfl, ?_, ?_⟩ <;> decide

theorem witness_DecFloat32Completes : ∃ (s : State) (u : DecUnit) (h : WavHead)
    (es : List (Byte × Byte × Byte × Byte)) (rest : List Byte) (word : Byte × Byte × Byte × Byte → Word),
    s.decs[s.sel]? = some u ∧ u.ctl.Accepted ∧ s.pace = none ∧ h.Ok ∧ h.fmt.audioFormat = 3#16 ∧
    h.dataSize.toNat = 4 * es.length ∧ es.length ≤ u.sout.room ∧
    u.inp.ready = h.bytes ++ es.flatMap (fun e => [e.1, e.2.1, e.2.2.1, e.2.2.2]) ++ rest ∧
    (word = fun e => match u.ctl.sampleBo with
      | .little => e.2.2.2 ++ e.2.2.1 ++ e.2.1 ++ e.1
      | .big => e.1 ++ e.2.1 ++ e.2.2.1 ++ e.2.2.2) ∧
    (∀ e ∈ es, inRangeF32 (word e) = true) := by
  refine ⟨accDec ((head 18 3 4).bytes ++ [0, 0, 0x80, 0xBF]) none 1,
    decU accCtl ((head 18 3 4).bytes ++ [0, 0, 0x80, 0xBF]) none 1, head 18 3 4, [(0, 0, 0x80, 0xBF)], [],
    fun e => e.2.2.2 ++ e.2.2.1 ++ e.2.1 ++ e.1, rfl, accCtl_accepted _, rfl, by decide, rfl, rfl, by decide, rfl,
    rfl, List.forall_mem_singleton.2 (by decide)⟩

/-- Only the ident wrong, only the type wrong, and both. -/
theorem witness_WrongRiffHeader : ∀ p ∈ [(0x58#8, 0x57#8), (0x46#8, 0x41#8), (0x58#8, 0x41#8)],
    ∃ (s : State) (u : DecUnit) (size : Word) (rest : List Byte), s.decs[s.sel]? = some u ∧
    u.ctl.Accepted ∧ s.pace = none ∧
    u.inp.ready = [0x52#8, 0x49#8, 0x46#8, p.1] ++ bytesLe32 size ++ [p.2, 0x41#8, 0x56#8, 0x45#8] ++ rest ∧
    ([0x52#8, 0x49#8, 0x46#8, p.1] ≠ [0x52#8, 0x49#8, 0x46#8, 0x46#8] ∨
      [p.2, 0x41#8, 0x56#8, 0x45#8] ≠ [0x57#8, 0x41#8, 0x56#8, 0x45#8]) := by
  have key : ∀ a b : Byte, (a ≠ 0x46#8 ∨ b ≠ 0x57#8) → ∃ (s : State) (u : DecUnit) (size : Word)
      (rest : List Byte), s.decs[s.sel]? = some u ∧ u.ctl.Accepted ∧ s.pace = none ∧
      u.inp.ready = [0x52#8, 0x49#8, 0x46#8, a] ++ bytesLe32 size ++ [b, 0x41#8, 0x56#8, 0x45#8] ++ rest ∧
      ([0x52#8, 0x49#8, 0x46#8, a] ≠ [0x52#8, 0x49#8, 0x46#8, 0x46#8] ∨
        [b, 0x41#8, 0x56#8, 0x45#8] ≠ [0x57#8, 0x41#8, 0x56#8, 0x45#8]) := fun a b hab =>
    ⟨accDec _ none 0, decU accCtl _ none 0, 5, [], rfl, accCtl_accepted _, rfl, rfl, by simpa using hab⟩
  simp only [List.forall_mem_cons]
  exact ⟨key _ _ (by decide), key _ _ (by decide), key _ _ (by decide), by simp⟩

theorem witness_WrongFormatTag : ∃ (s : State) (u : DecUnit) (size : Word) (a0 a1 a2 a3 : Byte)
    (rest : List Byte), s.decs[s.sel]? = some u ∧ u.ctl.Accepted ∧ s.pace = none ∧
    u.inp.ready = [0x52#8, 0x49#8, 0x46#8, 0x46#8] ++ bytesLe32 size ++
      [0x57#8, 0x41#8, 0x56#8, 0x45#8] ++ [a0, a1, a2, a3] ++ rest ∧
    [a0, a1, a2, a3] ≠ [0x66#8, 0x6D#8, 0x74#8, 0x20#8] :=
  ⟨accDec ([0x52#8, 0x49#8, 0x46#8, 0x46#8] ++ bytesLe32 5 ++ [0x57#8, 0x41#8, 0x56#8, 0x45#8] ++
    [0x46#8, 0x4D#8, 0x54#8, 0x20#8] ++ []) none 0, _, 5, _, _, _, _, [], rfl, accCtl_accepted _, rfl, rfl,
    by decide⟩

theorem witness_UnrecognizedFormatCode : ∀ code ∈ [0#16, 2#16, 0xFFFF#16], ∃ (s : State) (u : DecUnit)
    (h : WavHead) (rest : List Byte), h.fmt.audioFormat = code ∧ s.decs[s.sel]? = some u ∧
    u.ctl.Accepted ∧ s.pace = none ∧ h.fmt.audioFormat ∉ [1#16, 3#16, 6#16, 7#16, 0xFFFE#16] ∧
    u.inp.ready = [0x52#8, 0x49#8, 0x46#8, 0x46#8] ++ bytesLe32 h.riffSize ++
      [0x57#8, 0x41#8, 0x56#8, 0x45#8] ++ [0x66#8, 0x6D#8, 0x74#8, 0x20#8] ++
      formatRecord h.fmt ++ rest := by
  have key : ∀ code : Half, code ∉ [1#16, 3#16, 6#16, 7#16, 0xFFFE#16] → ∃ (s : State) (u : DecUnit)
      (h : WavHead) (rest : List Byte), h.fmt.audioFormat = code ∧ s.decs[s.sel]? = some u ∧
      u.ctl.Accepted ∧ s.pace = none ∧ h.fmt.audioFormat ∉ [1#16, 3#16, 6#16, 7#16, 0xFFFE#16] ∧
      u.inp.ready = [0x52#8, 0x49#8, 0x46#8, 0x46#8] ++ bytesLe32 h.riffSize ++
        [0x57#8, 0x41#8, 0x56#8, 0x45#8] ++ [0x66#8, 0x6D#8, 0x74#8, 0x20#8] ++
        formatRecord h.fmt ++ rest := fun code hc =>
    ⟨accDec _ none 0, decU accCtl _ none 0, head 16 code 0, [], rfl, rfl, accCtl_accepted _, rfl, hc, rfl⟩
  simp only [List.forall_mem_cons]
  exact ⟨key _ (by decide), key _ (by decide), key _ (by decide), by simp⟩

/-- Cut before the first byte and before the last, by End and by Fail. -/
theorem witness_HeaderCutShort : ∀ n ∈ [0, 56], ∀ t ∈ [Term.eof, .fail], ∃ (s : State) (u : DecUnit)
    (h : WavHead), s.decs[s.sel]? = some u ∧ u.ctl.Accepted ∧ s.pace = none ∧ h.Ok ∧
    n < h.bytes.length ∧ u.inp.ready = h.bytes.take n ∧ u.inp.term = some t := by
  intro n hn t _
  refine ⟨accDec ((head 18 1 0).bytes.take n) (some t) 0, decU accCtl ((head 18 1 0).bytes.take n) (some t) 0,
    head 18 1 0, rfl, accCtl_accepted _, rfl, ?_, ?_, rfl, rfl⟩
  · decide
  · have h : (head 18 1 0).bytes.length = 57 := rfl
    rcases List.mem_pair.1 hn with rfl | rfl <;> omega

theorem witness_SampleKindMismatch : ∀ p ∈ [(SampleKind.int16, 3#16), (.float32, 1#16), (.int16, 0xFFFE#16)],
    ∃ (s : State) (u : DecUnit) (h : WavHead) (rest : List Byte), s.decs[s.sel]? = some u ∧
    u.ctl.Accepted ∧ s.pace = none ∧ h.Ok ∧ h.fmt.audioFormat ≠ p.1.formatCode ∧
    u.inp.ready = h.bytes ++ rest := by
  intro p hp
  refine ⟨accDec ((head 16 p.2 4).bytes ++ [1, 2, 3, 4]) none 1,
    decU accCtl ((head 16 p.2 4).bytes ++ [1, 2, 3, 4]) none 1, head 16 p.2 4, [1, 2, 3, 4], rfl,
    accCtl_accepted _, rfl, ?_, ?_, rfl⟩ <;> revert p <;> decide

/-- The residual bytes all there; cut short by End; cut short by Fail. -/
theorem witness_ResidualBytes : ∀ c ∈ [([1#8, 2#8, 3#8], [7#8], (none : Option Term), ErrKind.truncatedStream, 3, 4),
      ([1#8, 2#8], [], some .eof, .truncatedStream, 2, 3), ([], [], some .fail, .ioFailure, 0, 3)],
    ∃ (s : State) (u : DecUnit) (h : WavHead) (es : List (List Byte)) (rem : Nat),
    s.decs[s.sel]? = some u ∧ u.ctl.Accepted ∧ s.pace = none ∧ h.Ok ∧
    h.fmt.audioFormat = SampleKind.float32.formatCode ∧
    h.dataSize.toNat = es.length * SampleKind.float32.size + rem ∧ 0 < rem ∧ rem < SampleKind.float32.size ∧
    (∀ e ∈ es, e.length = SampleKind.float32.size) ∧
    (∀ e ∈ es, decodable .float32 (elementWord .float32 u.ctl.sampleBo e) = true) ∧
    es.length ≤ u.sout.room ∧ u.inp.ready = h.bytes ++ es.flatten ++ c.1 ++ c.2.1 ∧
    ((c.1.length = rem ∧ c.2.2.2.1 = .truncatedStream ∧ c.2.2.2.2.1 = rem ∧
        c.2.2.2.2.2 = SampleKind.float32.size) ∨
      (c.1.length < rem ∧ c.2.1 = [] ∧ c.2.2.2.2.1 = c.1.length ∧ c.2.2.2.2.2 = rem ∧
        (u.inp.term = some .eof ∧ c.2.2.2.1 = .truncatedStream ∨
          u.inp.term = some .fail ∧ c.2.2.2.1 = .ioFailure))) := by
  intro c hc
  let bs : List Byte := (head 16 3 7).bytes ++ [[0#8, 0#8, 0x80#8, 0x3E#8]].flatten ++ c.1 ++ c.2.1
  refine ⟨accDec bs c.2.2.1 1, decU accCtl bs c.2.2.1 1, head 16 3 7, [[0#8, 0#8, 0x80#8, 0x3E#8]], 3, rfl,
    accCtl_accepted _, rfl, by decide, rfl, by decide, by decide, by decide, by decide, ?_, ?_, rfl, ?_⟩ <;>
    revert c <;> decide

/-- One byte of a second element there, cut by End and by Fail. -/
theorem witness_PayloadCutShort : ∀ t ∈ [Term.eof, .fail], ∃ (s : State) (u : DecUnit) (kind : SampleKind)
    (h : WavHead) (es : List (List Byte)) (part : List Byte), s.decs[s.sel]? = some u ∧
    u.ctl.Accepted ∧ s.pace = none ∧ h.Ok ∧ h.fmt.audioFormat = kind.formatCode ∧
    (es.length + 1) * kind.size ≤ h.dataSize.toNat ∧ part.length < kind.size ∧
    (∀ e ∈ es, e.length = kind.size) ∧
    (∀ e ∈ es, decodable kind (elementWord kind u.ctl.sampleBo e) = true) ∧ es.length ≤ u.sout.room ∧
    u.inp.ready = h.bytes ++ es.flatten ++ part ∧ u.inp.term = some t := by
  intro t _
  let bs : List Byte := (head 16 1 4).bytes ++ [[1#8, 0#8]].flatten ++ [2]
  refine ⟨accDec bs (some t) 1, decU accCtl bs (some t) 1, .int16, head 16 1 4, [[1#8, 0#8]], [2], rfl,
    accCtl_accepted _, rfl, by decide, rfl, by decide, by decide, by decide, ?_, ?_, rfl, rfl⟩
  · exact fun _ _ => rfl
  · exact Nat.le_refl 1

theorem witness_FloatOutOfRange : ∃ (s : State) (u : DecUnit) (h : WavHead) (es : List (List Byte))
    (e rest : List Byte), s.decs[s.sel]? = some u ∧ u.ctl.Accepted ∧ s.pace = none ∧ h.Ok ∧
    h.fmt.audioFormat = 3#16 ∧ (es.length + 1) * 4 ≤ h.dataSize.toNat ∧ (∀ x ∈ es, x.length = 4) ∧
    e.length = 4 ∧ (∀ x ∈ es, inRangeF32 (elementWord .float32 u.ctl.sampleBo x) = true) ∧
    inRangeF32 (elementWord .float32 u.ctl.sampleBo e) = false ∧ es.length ≤ u.sout.room ∧
    u.inp.ready = h.bytes ++ es.flatten ++ e ++ rest := by
  let bs : List Byte :=
    (head 16 3 8).bytes ++ [[0#8, 0#8, 0x80#8, 0xBF#8]].flatten ++ [1, 0, 0x80, 0xBF] ++ []
  refine ⟨accDec bs none 1, decU accCtl bs none 1, head 16 3 8, [[0#8, 0#8, 0x80#8, 0xBF#8]],
    [1, 0, 0x80, 0xBF], [], rfl, accCtl_accepted _, rfl, ?_, rfl, ?_, ?_, rfl, ?_, ?_, ?_, rfl⟩ <;> decide

/-- A sink with room for one of two elements; nothing there of the header, and all of it but a byte; one byte
there of a second element, and of the residual bytes. -/
theorem witness_DecWaitsForSink :
    (∃ (s : State) (u : DecUnit) (kind : SampleKind) (h : WavHead)
      (es : List (List Byte)) (e rest : List Byte), s.decs[s.sel]? = some u ∧ u.ctl.Accepted ∧
      s.pace = none ∧ h.Ok ∧ h.fmt.audioFormat = kind.formatCode ∧
      (es.length + 1) * kind.size ≤ h.dataSize.toNat ∧ (∀ x ∈ es ++ [e], x.length = kind.size) ∧
      (∀ x ∈ es ++ [e], decodable kind (elementWord kind u.ctl.sampleBo x) = true) ∧
      es.length = u.sout.room ∧ u.inp.ready = h.bytes ++ es.flatten ++ e ++ rest) ∧
    (∀ n ∈ [0, 56], ∃ (s : State) (u : DecUnit) (h : WavHead), s.decs[s.sel]? = some u ∧ u.ctl.Accepted ∧
      s.pace = none ∧ h.Ok ∧ n < h.bytes.length ∧ u.inp.ready = h.bytes.take n ∧ u.inp.term = none) ∧
    ∀ c ∈ [(4#32, DecRead.element .int16 0, 2), (3#32, .residual .int16, 1)], ∃ (s : State) (u : DecUnit)
      (kind : SampleKind) (h : WavHead) (es : List (List Byte)) (part : List Byte),
      s.decs[s.sel]? = some u ∧ u.ctl.Accepted ∧ s.pace = none ∧ h.Ok ∧
      h.fmt.audioFormat = kind.formatCode ∧
      ((es.length < h.dataSize.toNat / kind.size ∧ c.2.2 = kind.size ∧
          c.2.1 = .element kind (h.dataSize.toNat / kind.size - es.length - 1)) ∨
        (es.length = h.dataSize.toNat / kind.size ∧ c.2.2 = h.dataSize.toNat % kind.size ∧
          c.2.1 = .residual kind)) ∧
      part.length < c.2.2 ∧ (∀ e ∈ es, e.length = kind.size) ∧
      (∀ e ∈ es, decodable kind (elementWord kind u.ctl.sampleBo e) = true) ∧
      es.length ≤ u.sout.room ∧ u.inp.ready = h.bytes ++ es.flatten ++ part ∧ u.inp.term = none := by
  refine ⟨?_, fun n hn => ?_, fun c hc => ?_⟩
  · let bs : List Byte := (head 16 1 4).bytes ++ [[1#8, 0#8]].flatten ++ [2, 0] ++ []
    refine ⟨accDec bs none 1, decU accCtl bs none 1, .int16, head 16 1 4, [[1#8, 0#8]], [2, 0], [], rfl,
      accCtl_accepted _, rfl, ?_, rfl, ?_, ?_, ?_, rfl, rfl⟩ <;> decide
  · refine ⟨accDec ((head 18 1 0).bytes.take n) none 0, decU accCtl ((head 18 1 0).bytes.take n) none 0,
      head 18 1 0, rfl, accCtl_accepted _, rfl, by decide, ?_, rfl, rfl⟩
    have h : (head 18 1 0).bytes.length = 57 := rfl
    rcases List.mem_pair.1 hn with rfl | rfl <;> omega
  · let bs : List Byte := (head 16 1 c.1).bytes ++ [[1#8, 0#8]].flatten ++ []
    refine ⟨accDec bs none 1, decU accCtl bs none 1, .int16, head 16 1 c.1, [[1#8, 0#8]], [], rfl,
      accCtl_accepted _, rfl, ?_, rfl, ?_, ?_, ?_, fun _ _ => rfl, Nat.le_refl 1, rfl, rfl⟩ <;>
      revert c <;> decide

theorem witness_FloatRangeVerdict : (0x807FFFFF#32).extractLsb' 23 8 = 0#8 ∧
    (0x7F800000#32).extractLsb' 23 8 = 255#8 := by decide

theorem witness_SkippedChunksLeaveNoTrace : ∃ (s : State) (u : DecUnit) (h : WavHead) (rest : List Byte),
    s.decs[s.sel]? = some u ∧ u.ctl.Accepted ∧ s.pace = none ∧ h.Ok ∧ u.inp.ready = h.bytes ++ rest ∧
    h.chunks ≠ [] := by
  refine ⟨accDec ((head 16 1 2).bytes ++ [1, 2]) none 1,
    decU accCtl ((head 16 1 2).bytes ++ [1, 2]) none 1, head 16 1 2, [1, 2], rfl, accCtl_accepted _, rfl, ?_,
    rfl, ?_⟩ <;> decide

theorem witness_DecodeAlwaysEnds : ∃ (s : State) (u : DecUnit) (t : Term), s.decs[s.sel]? = some u ∧
    s.pace = none ∧ u.inp.term = some t ∧ u.inp.ready.length ≤ u.sout.room :=
  ⟨accDec v1 (some .fail) 58, _, .fail, rfl, rfl, rfl, by decide⟩

/-- Both byte orders on the decoder's side. -/
theorem witness_RoundTrip : ∀ bo ∈ [ByteOrder.little, .big], ∃ (s : State) (u : EncUnit) (kind : SampleKind)
    (n : Word) (ws rest : List Word) (as : List Answer) (bytes : List Byte) (s' : State) (u' : DecUnit)
    (out : Word → Word), s.encs[s.sel]? = some u ∧ u.ctl.Accepted ∧ s.pace = none ∧
    n.toNat ≤ (2 ^ 32 - 1 - s.params.riffSizeBias.toNat) / kind.size ∧ ws.length = n.toNat ∧
    u.sin.ready = ws ++ rest ∧ (kind = .float32 → ∀ w ∈ ws, inRangeF32 w = true) ∧
    u.out.answers = acks (44 + n.toNat * kind.size) ++ as ∧ u.fmt.fmtLen = 16#32 ∧
    u.fmt.audioFormat = kind.formatCode ∧
    s'.decs[s'.sel]? = some u' ∧ u'.ctl.Accepted ∧ s'.pace = none ∧ u'.inp.ready = bytes ∧
    u'.inp.term = some .eof ∧ n.toNat ≤ u'.sout.room ∧ u'.ctl.sampleBo = bo ∧
    (u'.ctl.sampleBo = u.ctl.sampleBo → out = fun w => match kind with
      | .int16 => (w.extractLsb' 0 16).signExtend 32
      | .float32 => w) ∧
    (u'.ctl.sampleBo ≠ u.ctl.sampleBo → out = fun w => match kind with
      | .int16 => (w.extractLsb' 0 8 ++ w.extractLsb' 8 8).signExtend 32
      | .float32 =>
        w.extractLsb' 0 8 ++ w.extractLsb' 8 8 ++ w.extractLsb' 16 8 ++ w.extractLsb' 24 8) ∧
    (kind = .float32 → ∀ w ∈ ws, inRangeF32 (out w) = true) ∧
    ∃ t v, exec (kind.encode n) s = .next t ∧ t.encs[s.sel]? = some v ∧
      v.out.bytes = u.out.bytes ++ bytes := by
  intro bo hb
  let bs : List Byte := fhdr 56 4 ++ [0, 0, 0x80, 0x3F]
  refine ⟨withEnc (encU accCtl fmtV7 (acks 48) [0x3F800000#32]), encU accCtl fmtV7 (acks 48) [0x3F800000#32],
    .float32, 1, [0x3F800000#32], [], [], bs, withDec (decU (accCtl bo) bs (some .eof) 1),
    decU (accCtl bo) bs (some .eof) 1,
    if bo = .little then fun w => w else fun w =>
      w.extractLsb' 0 8 ++ w.extractLsb' 8 8 ++ w.extractLsb' 16 8 ++ w.extractLsb' 24 8,
    rfl, accCtl_accepted _, rfl, by decide, rfl, rfl, fun _ => List.forall_mem_singleton.2 (by decide),
    by decide, rfl, rfl, rfl, accCtl_accepted _,
    rfl, rfl, rfl, Nat.le_refl 1, rfl, ?_, ?_, ?_, ?_⟩
  · intro h
    rw [if_pos (show bo = .little from h)]
  · intro h
    rw [if_neg (show ¬ bo = .little from h)]
  · intro _
    cases bo <;> exact List.forall_mem_singleton.2 (by decide)
  · exact ⟨_, _, rfl, rfl, rfl⟩

theorem witness_DecodeFrame : ∃ (s t : State) (u : DecUnit), s.decs[s.sel]? = some u ∧
    exec DecCmd.header.instr s = .next t := ⟨accDec v1 none 1, _, _, rfl, rfl⟩

theorem witness_EncodeFrame : ∃ (s t : State) (u : EncUnit) (i : Instr), i.unitKind = .enc ∧
    s.encs[s.sel]? = some u ∧ exec i s = .next t :=
  ⟨accEnc (acks 9) [], _, _, .encInt16 3, rfl, rfl, rfl⟩

/-- An error of each unit kind. -/
theorem witness_ErrorsByCommand :
    (∃ (s t : State) (u v : DecUnit) (cmd : DecCmd) (k : ErrKind), s.decs[s.sel]? = some u ∧ u.ctl.Accepted ∧
      exec cmd.instr s = .next t ∧ t.decs[s.sel]? = some v ∧ v.ctl.err = some k) ∧
    (∃ (s t : State) (u v : EncUnit) (i : Instr) (k : ErrKind), i.unitKind = .enc ∧
      s.encs[s.sel]? = some u ∧ u.ctl.Accepted ∧ exec i s = .next t ∧ t.encs[s.sel]? = some v ∧
      v.ctl.err = some k) := ⟨
  ⟨accDec [0x52#8] (some .eof) 1, _, _, _, .samples .float32, .truncatedStream, rfl, accCtl_accepted _, rfl, rfl,
    by decide⟩,
  ⟨accEnc [.fail] [], _, _, _, .encHeader, .ioFailure, rfl, rfl, accCtl_accepted _, rfl, rfl, by decide⟩⟩

/-! ### Witnesses: resets, turns and the whole machine -/

/-- A decoder whose running command waits for the first byte of its stream. -/
def waitingDec : DecUnit := (decU accCtl [] none 0).begin .header

/-- An encoder whose running command waits for its sink. -/
def waitingEnc : EncUnit := (encU accCtl fmtV5 [] []).begin Params.default .header

/-- A machine whose decoder is `u` and whose encoder is idle. -/
theorem inv_withDec {u : DecUnit} (h : u.Ok) : (withDec u).Inv := by
  refine ⟨rfl, rfl, ?_, ?_⟩
  · exact List.forall_mem_singleton.2 h
  · refine List.forall_mem_singleton.2 (.inl ⟨rfl, rfl, .inl ⟨rfl, rfl, rfl, rfl, rfl, rfl⟩⟩)

theorem initial_ok : DecUnit.initial.Ok :=
  ⟨rfl, (fun h => nomatch h), rfl, .inl ⟨rfl, rfl, rfl, rfl, rfl, rfl⟩⟩

theorem reset_inv : State.reset.Inv := inv_withDec initial_ok

theorem witness_UnitResetKeepsStreams :
    (∃ s rest d u, State.script s = .resetUnit (.dec d) :: rest ∧ s.decs[d]? = some u ∧ u.ctl.busy = true) ∧
    (∃ s rest e u, State.script s = .resetUnit (.enc e) :: rest ∧ s.encs[e]? = some u ∧ u.ctl.busy = true) :=
  ⟨⟨host (.resetUnit (.dec 0)) busyBoth, [], 0, _, rfl, rfl, rfl⟩,
   ⟨host (.resetUnit (.enc 0)) busyBoth, [], 0, _, rfl, rfl, rfl⟩⟩

/-- Common registers with both sticky bits set. -/
def stickyCtl : Ctl := { Ctl.reset with stickyErr := true, ovr := true }

theorem witness_StickyBitsStay :
    (∃ s t d u, step s = .next t ∧ (State.decs s)[d]? = some u ∧
      s.script.head? ≠ some (.resetUnit (.dec d)) ∧ u.ctl.stickyErr = true ∧ u.ctl.ovr = true ∧
      ∀ w, s.script.head? = some (.write (.dec d) 4 0x004 w) → w.getLsbD 12 = false ∧ w.getLsbD 13 = false) ∧
    (∃ s t e u, step s = .next t ∧ (State.encs s)[e]? = some u ∧
      s.script.head? ≠ some (.resetUnit (.enc e)) ∧ u.ctl.stickyErr = true ∧ u.ctl.ovr = true ∧
      ∀ w, s.script.head? = some (.write (.enc e) 4 0x004 w) → w.getLsbD 12 = false ∧ w.getLsbD 13 = false) :=
  ⟨⟨host (.write (.dec 0) 4 0x004 0xFFFFCFFF) (withDec (decU stickyCtl [] none 0)), _, 0, _, rfl, rfl,
     by decide, rfl, rfl, fun w h => by
       obtain rfl : 0xFFFFCFFF = w := by simpa [host] using h
       decide⟩,
   ⟨host (.write (.enc 0) 4 0x008 0x23) (withEnc (encU stickyCtl fmtV5 [] [])), _, 0, _, rfl, rfl,
     by decide, rfl, rfl, fun w h => by simp [host] at h⟩⟩

theorem witness_ConfigStableWhileBusy :
    (∃ s t d u, step s = .next t ∧ (State.decs s)[d]? = some u ∧ u.ctl.busy = true ∧
      s.script.head? ≠ some (.resetUnit (.dec d))) ∧
    (∃ s t e u, step s = .next t ∧ (State.encs s)[e]? = some u ∧ u.ctl.busy = true ∧
      s.script.head? ≠ some (.resetUnit (.enc e)) ∧ u.ctl.asm = [] ∧
      ∀ r, u.run = some r → ∀ a todo, r.pos ≠ .constructing a todo) ∧
    (∃ s t e u, step s = .next t ∧ (State.encs s)[e]? = some u ∧ u.ctl.busy = true ∧
      s.script.head? ≠ some (.resetUnit (.enc e)) ∧ u.ctl.asm ≠ [] ∧ u.run = none ∧
      ∀ w, s.script.head? = some (.write (.enc e) 4 0x008 w) → ∀ i, decodeFor .enc (u.ctl.asm ++ [w]) ≠ .ok i) :=
  ⟨⟨writeNext (.dec 0) 0 1 (withDec waitingDec), _, 0, _, rfl, rfl, rfl, by decide⟩,
   ⟨writeNext (.enc 0) 0x04C 1 (withEnc waitingEnc), _, 0, _, rfl, rfl, rfl, by decide, rfl, fun r h => by
     obtain rfl : _ = r := Option.some.inj h
     exact fun _ _ h => nomatch h⟩,
   ⟨cmdEnc (asmCtl [0x10021]) 8000, _, 0, _, rfl, rfl, rfl, by decide, by decide, rfl, fun w h i => by
     obtain rfl : 8000 = w := by simpa [cmdEnc, host] using h
     exact fun h => nomatch h⟩⟩

/-- A decoder that needs its host, beside an encoder that can write the header. -/
def waitingBeside : State :=
  { withDec waitingDec with encs := [(encU accCtl fmtV5 (acks 44) []).begin Params.default .header] }

/-- R283, R284: with a decoder BUSY that no event reaches, a host that only polls for ever is stuck. -/
theorem test_polls_stuck : step { withDec waitingDec with loop := [.read (.dec 0) 4 0x004] } = .fault .stuck := rfl

/-- R283: while the host waits for a decoder that needs it, the encoder goes on: all 44 header bytes (R142). -/
theorem test_wait_fair : (encAfter (host (.wait (.dec 0)) waitingBeside)).map (fun u => (u.ctl.busy, u.ctl.ioCount)) =
    some (false, 44#32) := by decide

theorem witness_UnitsIndependent :
    (∃ s t e rest, State.script s = e :: rest ∧ (∀ u, e ≠ .wait u) ∧ step s = .next t ∧
      e.target ≠ some (.dec 0) ∧ e.target ≠ some (.enc 1)) ∧
    ∃ s t u rest, State.script s = .wait u :: rest ∧ step s = .next t ∧ t.encs ≠ s.encs :=
  ⟨⟨host (.write (.enc 0) 4 0x008 0x23) State.reset, _, _, _, rfl, (fun _ h => nomatch h), rfl, by decide, by decide⟩,
   ⟨host (.wait (.dec 0)) waitingBeside, _, .dec 0, [], rfl, rfl, by decide⟩⟩

theorem witness_TurnsCommute : ∃ (s t : State) (x y : UnitId) (rest : List HostEvent), x ≠ y ∧
    ∃ m, step { s with script := .run x :: .run y :: rest } = .next m ∧ step m = .next t :=
  ⟨{ withDec waitingDec with encs := [waitingEnc] }, _, .dec 0, .enc 0, [], by decide, _, rfl, rfl⟩

theorem witness_TurnsAddUp : (∃ (ns : List Nat) (u : DecUnit), u.work ≤ ns.sum ∧ ns.length = 2 ∧ u.run ≠ none) ∧
    (∃ (ns : List Nat) (u : EncUnit), u.work ≤ ns.sum ∧ ns.length = 2 ∧ u.run ≠ none) :=
  ⟨⟨[1, 3], waitingDec, by decide, rfl, by decide⟩, ⟨[1, 3], waitingEnc, by decide, rfl, by decide⟩⟩

theorem witness_LongTurnsSettle : (∃ n u, DecUnit.work u ≤ n ∧ u.run ≠ none) ∧
    (∃ n u, EncUnit.work u ≤ n ∧ u.run ≠ none) ∧ ∃ s : State, ¬ s.Quiet ∧ s.script ≠ [] :=
  ⟨⟨4, waitingDec, by decide, by decide⟩, ⟨4, waitingEnc, by decide, by decide⟩,
    ⟨host (.wait (.dec 0)) waitingBeside, fun h => h (.enc 0) ⟨_, rfl, by decide⟩, by decide⟩⟩

theorem waitingDec_ok : waitingDec.Ok := DecUnit.begin_ok _ _ (accCtl_accepted _)

/-- A machine whose host feeds decoder 0, at the start of the chunk scan, the chunks `cs` for ever. -/
def scanning (cs : List Chunk) : State :=
  { withDec ((decU accCtl [] none 0).goto ⟨.header, .little, .scanning⟩ (.reading .chunkHeader 8 [])) with
    loop := (cs.flatMap Chunk.bytes).map fun b => .inEvent 0 (.byte b) }

/-- A machine whose one BUSY unit is a decoder that needs its host. -/
theorem quiet_withDec {u : DecUnit} (h : u.advance = none) (l : List HostEvent) :
    State.Quiet { withDec u with loop := l } :=
  State.quiet_iff.2 ⟨List.forall_mem_singleton.2 h, List.forall_mem_singleton.2 rfl⟩

/-- All idle, a loop or none; a waiting decoder stuck with no loop and with polls only; each kind of action that
gets the machine further; the decoder able to go on; a stream of empty chunks without end, waited for or not; a
step that removes a word of SOUT. -/
theorem witness_EndOfRun :
    (∀ l ∈ [[], [HostEvent.setPace none]], ∃ s, State.script s = [] ∧ s.Inv ∧
      (∀ u ∈ s.decs, u.ctl.busy = false) ∧ (∀ u ∈ s.encs, u.ctl.busy = false) ∧ s.loop = l) ∧
    (∀ l ∈ [[], [HostEvent.read (.dec 0) 4 0x004]], ∃ s, State.script s = [] ∧ s.Inv ∧ s.Quiet ∧
      (∃ u ∈ s.decs, u.ctl.busy = true) ∧ s.loop = l ∧ ∀ e ∈ s.loop, s.helps e = false) ∧
    (∀ e ∈ [HostEvent.inEvent 0 (.byte 0x52), .inEvent 0 (.stop .eof), .write (.enc 0) 4 0x008 0x23,
      .resetUnit (.dec 0), .attachIn 0 [] none, .read (.dec 1) 4 0x004], ∃ s, State.script s = [] ∧ s.Inv ∧
      s.Quiet ∧ (∃ u ∈ s.decs, u.ctl.busy = true) ∧ s.loop = [e] ∧ s.helps e = true) ∧
    (∃ s, State.script s = [] ∧ s.Inv ∧ ¬ s.Quiet) ∧
    (∀ l ∈ [[], [HostEvent.wait (.dec 0)]], ∃ (s : State) (d : Nat) (u : DecUnit) (r : DecRun) (cs : List Chunk),
      s.decs[d]? = some u ∧ u.ctl.busy = true ∧ u.run = some r ∧ r.pos = .reading .chunkHeader 8 [] ∧
      u.inp.ready = [] ∧ u.inp.term = none ∧ cs ≠ [] ∧ (∀ c ∈ cs, c.Ok) ∧ s.script = l ∧
      s.loop = (cs.flatMap Chunk.bytes).map (fun b => .inEvent d (.byte b))) ∧
    ∃ s t : State, step s = .next t ∧ ∃ u, s.decs[0]? = some u ∧ u.sout.words ≠ [] ∧
      s.script = [.soutTake 0 1] := by
  have waiting (l : List HostEvent) : State.Inv { withDec waitingDec with loop := l } := inv_withDec waitingDec_ok
  refine ⟨fun l _ => ⟨{ State.reset with loop := l }, rfl, reset_inv, ?_, ?_, rfl⟩,
    fun l hl => ⟨{ withDec waitingDec with loop := l }, rfl, waiting l, quiet_withDec rfl l,
      ⟨waitingDec, List.mem_singleton.2 rfl, rfl⟩, rfl, ?_⟩,
    fun e he => ⟨{ withDec waitingDec with loop := [e] }, rfl, waiting [e], quiet_withDec rfl [e],
      ⟨waitingDec, List.mem_singleton.2 rfl, rfl⟩, rfl, ?_⟩,
    ⟨withDec ((decU accCtl v1 none 0).begin .header), rfl, inv_withDec (DecUnit.begin_ok _ _ (accCtl_accepted _)),
      fun h => h (.dec 0) ⟨_, rfl, by decide⟩⟩,
    fun l _ => ⟨{ scanning [⟨[0x4C#8, 0x49#8, 0x53#8, 0x54#8], []⟩] with script := l }, 0, _, _,
      [⟨[0x4C#8, 0x49#8, 0x53#8, 0x54#8], []⟩], rfl, rfl, rfl, rfl, rfl, rfl, by decide, by decide, rfl, rfl⟩,
    ⟨host (.soutTake 0 1) (withDec { decU idleCtl [] none 0 with sout := ⟨0, [7, 8], [], []⟩ }), _, rfl, _, rfl,
      by decide, rfl⟩⟩
  · exact List.forall_mem_singleton.2 rfl
  · exact List.forall_mem_singleton.2 rfl
  · simp only [List.mem_cons, List.not_mem_nil, or_false] at hl
    obtain rfl | rfl := hl
    · exact fun e he => nomatch he
    · exact List.forall_mem_singleton.2 rfl
  · simp only [List.mem_cons, List.not_mem_nil, or_false] at he
    obtain rfl | rfl | rfl | rfl | rfl | rfl := he <;> rfl

theorem witness_StreamDuties :
    (∃ s rest x y, x ≠ y ∧ State.script s = .share x y :: rest) ∧
    (∀ e ∈ [HostEvent.attachIn 0 [] none, .attachSout 0 4, .copyOut 0 0], ∃ s rest u v,
      (State.decs s)[0]? = some u ∧ u.ctl.busy = true ∧ s.encs[0]? = some v ∧ s.script = e :: rest) ∧
    (∀ e ∈ [HostEvent.attachOut 0 [], .attachSin 0 []], ∃ s rest u, (State.encs s)[0]? = some u ∧
      u.ctl.busy = true ∧ s.script = e :: rest) ∧
    (∀ e ∈ [HostEvent.attachIn 0 v1 (some .eof), .attachSout 0 8, .copyOut 0 0], ∃ s rest u v,
      (State.decs s)[0]? = some u ∧ u.ctl.busy = false ∧ s.encs[0]? = some v ∧ s.script = e :: rest) ∧
    (∀ e ∈ [HostEvent.attachOut 0 [.fail], .attachSin 0 [7]], ∃ s rest u, (State.encs s)[0]? = some u ∧
      u.ctl.busy = false ∧ s.script = e :: rest) ∧
    (∀ e ∈ [HostEvent.inEvent 0 (.byte 0x52), .inEvent 0 (.stop .fail), .soutRoom 0 2], ∃ s rest u,
      (State.decs s)[0]? = some u ∧ u.inp.term = none ∧ u.ctl.busy = true ∧ s.script = e :: rest) ∧
    (∃ s rest d u e t, (State.decs s)[d]? = some u ∧ u.inp.term = some t ∧ s.script = .inEvent d e :: rest) ∧
    (∃ s rest d u gone left, (State.decs s)[d]? = some u ∧ u.sout.words = gone ++ left ∧ gone ≠ [] ∧
      s.script = .soutTake d gone.length :: rest) ∧
    (∀ e ∈ [HostEvent.outAnswer 0 .fail, .sinWord 0 7], ∃ s rest u, (State.encs s)[0]? = some u ∧
      u.ctl.busy = true ∧ s.script = e :: rest) :=
  ⟨⟨host (.share (.dec 0) (.enc 0)) State.reset, [], _, _, by decide, rfl⟩,
   fun e _ => ⟨host e busyBoth, [], _, _, rfl, rfl, rfl, rfl⟩,
   fun e _ => ⟨host e busyBoth, [], _, rfl, rfl, rfl⟩,
   fun e _ => ⟨host e State.reset, [], _, _, rfl, rfl, rfl, rfl⟩,
   fun e _ => ⟨host e State.reset, [], _, rfl, rfl, rfl⟩,
   fun e _ => ⟨host e busyBoth, [], _, rfl, rfl, rfl, rfl⟩,
   ⟨host (.inEvent 0 (.byte 0x52)) (accDec [] (some .eof) 0), [], 0, _, _, .eof, rfl, rfl, rfl⟩,
   ⟨host (.soutTake 0 1) (withDec { decU idleCtl [] none 0 with sout := ⟨0, [7, 8], [], []⟩ }), [], 0, _, [7], [8],
     rfl, rfl, by decide, rfl⟩,
   fun e _ => ⟨host e busyBoth, [], _, rfl, rfl, rfl⟩⟩

/-- Waiting for an idle unit, and for a BUSY one: that can go on, with no pace and with the pace 0; that cannot,
beside one that can; where none can, with no loop, a loop of polls, and one that feeds the stream. -/
theorem witness_WaitUntilIdle :
    (∃ s rest d u, State.script s = .wait (.dec d) :: rest ∧ s.decs[d]? = some u ∧ u.ctl.busy = false) ∧
    (∃ s rest e u, State.script s = .wait (.enc e) :: rest ∧ s.encs[e]? = some u ∧ u.ctl.busy = false) ∧
    (∀ p ∈ [none, some 0], ∃ s rest u, State.script s = .wait u :: rest ∧ s.busy u = true ∧ s.CanStep u ∧
      s.pace = p) ∧
    (∃ s rest u, State.script s = .wait u :: rest ∧ s.busy u = true ∧ ¬ s.CanStep u ∧ ¬ s.Quiet) ∧
    (∀ l ∈ [[], [HostEvent.read (.dec 0) 4 0x004]], ∃ s rest u, State.script s = .wait u :: rest ∧
      s.busy u = true ∧ s.Quiet ∧ s.loop = l ∧ ∀ e ∈ s.loop, s.supplies e = false) ∧
    (∃ s rest u, State.script s = .wait u :: rest ∧ s.busy u = true ∧ s.Quiet ∧
      ∃ e ∈ s.loop, s.supplies e = true) := by
  refine ⟨⟨host (.wait (.dec 0)) State.reset, [], 0, _, rfl, rfl, rfl⟩,
    ⟨host (.wait (.enc 0)) State.reset, [], 0, _, rfl, rfl, rfl⟩,
    fun p _ => ⟨{ host (.wait (.dec 0)) (withDec ((decU accCtl v1 none 0).begin .header)) with pace := p }, [],
      .dec 0, rfl, rfl, ⟨_, rfl, by decide⟩, rfl⟩,
    ⟨host (.wait (.dec 0)) waitingBeside, [], .dec 0, rfl, rfl, ?_, fun h => h (.enc 0) ⟨_, rfl, by decide⟩⟩,
    fun l hl => ⟨host (.wait (.dec 0)) { withDec waitingDec with loop := l }, [], .dec 0, rfl, rfl,
      quiet_withDec (u := waitingDec) rfl l, rfl, ?_⟩,
    ⟨host (.wait (.dec 0)) { withDec waitingDec with loop := [.inEvent 0 (.byte 1)] }, [], .dec 0, rfl, rfl,
      quiet_withDec (u := waitingDec) rfl [.inEvent 0 (.byte 1)], .inEvent 0 (.byte 1), by decide, rfl⟩⟩
  · rintro ⟨u, hu, ha⟩
    obtain rfl : waitingDec = u := Option.some.inj hu
    exact ha rfl
  · simp only [List.mem_cons, List.not_mem_nil, or_false] at hl
    obtain rfl | rfl := hl
    · exact fun e he => nomatch he
    · exact List.forall_mem_singleton.2 rfl

theorem witness_StepKeepsRules : ∃ s t : State, s.Inv ∧ step s = .next t ∧ t ≠ s :=
  ⟨withDec ((decU accCtl v1 none 0).begin .header), _,
    inv_withDec (DecUnit.begin_ok _ _ (accCtl_accepted _)), rfl, by decide⟩

/-- A decoder that DEC_HEADER has left with a complete header. -/
def parsedDec : DecUnit :=
  { DecUnit.initial with
    ctl := { Ctl.reset with done := true, phase := .dataChunkFound }
    hdr := (head 16 1 4).registers
    hdrValid := true }

theorem parsedDec_ok : parsedDec.Ok :=
  ⟨rfl, fun _ => ⟨⟨rfl, rfl⟩, by decide⟩, rfl, .inr ⟨rfl, .inl ⟨⟨rfl, rfl, rfl, rfl⟩, by decide⟩⟩⟩

theorem witness_IdleUnitsExplained : ∃ s : State, s.Inv ∧ (∃ u ∈ s.decs, u.ctl.busy = false ∧
      u.hdrValid = true ∧ u.ctl.done = true) ∧ ∃ u ∈ s.encs, u.ctl.busy = false ∧ u.ctl.done = false :=
  ⟨withDec parsedDec, inv_withDec parsedDec_ok, ⟨parsedDec, List.mem_singleton.2 rfl, rfl, rfl, rfl⟩,
    EncUnit.initial, List.mem_singleton.2 rfl, rfl, rfl⟩

end Sys2Proof.Tests
end

section
/-! The byte conversions bit by bit (R11, R74). -/

namespace Sys2Proof.Machine

/-- Byte `k` of a bit vector's number is its bits [8k+7:8k] (R11). -/
theorem byteOf_toNat_eq_extractLsb' {n : Nat} (v : BitVec n) (k : Nat) :
    byteOf v.toNat k = v.extractLsb' (8 * k) 8 := by
  apply BitVec.eq_of_toNat_eq
  simp [byteOf_toNat, BitVec.extractLsb'_toNat, Nat.shiftRight_eq_div_pow]

theorem bytesLe32_eq_extractLsb' (v : Word) : bytesLe32 v =
    [v.extractLsb' 0 8, v.extractLsb' 8 8, v.extractLsb' 16 8, v.extractLsb' 24 8] := by
  simp only [bytesLe32, byteOf_toNat_eq_extractLsb']

theorem bytesLe16_eq_extractLsb' (v : Half) :
    bytesLe16 v = [v.extractLsb' 0 8, v.extractLsb' 8 8] := by
  simp only [bytesLe16, byteOf_toNat_eq_extractLsb']

theorem bytesBe32_eq_reverse (v : Word) : bytesBe32 v = (bytesLe32 v).reverse := rfl

theorem bytesBe16_eq_reverse (v : Half) : bytesBe16 v = (bytesLe16 v).reverse := rfl

/-- Settles O16: each byte is its eight bits of the number, and each conversion has its inverse in
Laws/Bytes. -/
theorem byteOrderConversions : Obligations.ByteOrderConversions :=
  ⟨fun v => ⟨bytesLe32_eq_extractLsb' v, bytesBe32_eq_reverse v, le32_bytesLe32 v, be32_bytesBe32 v⟩,
   fun v => ⟨bytesLe16_eq_extractLsb' v, bytesBe16_eq_reverse v, le16_bytesLe16 v, be16_bytesBe16 v⟩⟩

end Sys2Proof.Machine
end

section
/-! The units after power-on (R42, R272, R274). -/

namespace Sys2Proof.Machine

open Sys2Proof.Config (Params)

/-- R42: every register of a decoder reads 0 after power-on, STATUS with START and NONE among them. -/
@[simp] theorem DecUnit.initial_peek (r : Reg) : DecUnit.initial.peek r = 0#32 := by
  cases r <;> decide

/-- R42: every register of an encoder reads 0 after power-on. -/
@[simp] theorem EncUnit.initial_peek (r : Reg) : EncUnit.initial.peek r = 0#32 := by
  cases r <;> decide

@[simp] theorem DecUnit.initial_busy : DecUnit.initial.ctl.busy = false := rfl

@[simp] theorem EncUnit.initial_busy : EncUnit.initial.ctl.busy = false := rfl

/-- What an idle decoder's window reads at any offset: the register mapped there, or 0 (R39, R63). -/
theorem DecUnit.readAt_of_idle {u : DecUnit} (h : u.ctl.busy = false) (n off : Nat) :
    u.readAt n off = ((regAt .dec off).map u.peek).getD 0#32 := by
  unfold DecUnit.readAt
  cases regAt .dec off <;> simp [h]

/-- What an idle encoder's window reads at any offset: the register mapped there, or 0 (R39, R63). -/
theorem EncUnit.readAt_of_idle {u : EncUnit} (h : u.ctl.busy = false) (n off : Nat) :
    u.readAt n off = ((regAt .enc off).map u.peek).getD 0#32 := by
  unfold EncUnit.readAt
  cases regAt .enc off <;> simp [h]

theorem DecUnit.initial_readAt (n off : Nat) : DecUnit.initial.readAt n off = 0#32 := by
  rw [DecUnit.readAt_of_idle DecUnit.initial_busy]
  cases regAt .dec off <;> simp

theorem EncUnit.initial_readAt (n off : Nat) : EncUnit.initial.readAt n off = 0#32 := by
  rw [EncUnit.readAt_of_idle EncUnit.initial_busy]
  cases regAt .enc off <;> simp

/-- After power-on every decoder is the reset one, on empty streams. -/
theorem State.eq_initial_of_mem_decs {p : Params} {u : DecUnit} (h : u ∈ (State.initial p).decs) :
    u = DecUnit.initial :=
  List.eq_of_mem_replicate h

/-- After power-on every encoder is the reset one, on empty streams. -/
theorem State.eq_initial_of_mem_encs {p : Params} {u : EncUnit} (h : u ∈ (State.initial p).encs) :
    u = EncUnit.initial :=
  List.eq_of_mem_replicate h

/-- Settles O47: every unit is a copy of the reset one, all of whose registers read 0. -/
theorem resetRegistersZero : Obligations.ResetRegistersZero := by
  refine ⟨fun p => ⟨List.length_replicate, List.length_replicate, fun u hu => ?_, fun u hu => ?_⟩, rfl⟩
  · obtain rfl := State.eq_initial_of_mem_decs hu
    exact ⟨rfl, rfl, rfl, rfl, rfl, DecUnit.initial_readAt, rfl, rfl⟩
  · obtain rfl := State.eq_initial_of_mem_encs hu
    exact ⟨rfl, rfl, rfl, rfl, rfl, EncUnit.initial_readAt, rfl, rfl⟩

end Sys2Proof.Machine
end

section
/-! The invariant of the machine: it holds after power-on, every step keeps it, and what it tells a host of an
idle unit. -/

namespace Sys2Proof.Machine

open Sys2Proof.Config (Params)

/-- A turn of a unit, the host's loop or a host action: each keeps the invariant. -/
theorem step_keeps_inv {s t : State} (hi : s.Inv) (h : step s = .next t) : t.Inv := by
  cases hs : s.script with
  | nil =>
    rw [step_of_done hs] at h
    obtain ⟨x, -, rfl⟩ | ⟨-, rfl⟩ := State.settle_next h
    · exact State.turnTaken_inv hi x
    · exact hi
  | cons e rest =>
    rw [step_of_script hs] at h
    exact State.perform_inv (s := { s with script := rest }) hi h

/-- Settles O59, by the two kinds of step: a unit's turn and a host action. -/
theorem stepKeepsRules : Obligations.StepKeepsRules := fun _ _ => step_keeps_inv

/-- Settles O58: after power-on every unit is a copy of the reset one, which meets its invariant. -/
theorem initialStatesKeepRules : Obligations.InitialStatesKeepRules := by
  refine fun p => ⟨List.length_replicate, List.length_replicate, fun u hu => ?_, fun u hu => ?_⟩
  · obtain rfl := State.eq_initial_of_mem_decs hu
    exact DecUnit.reset_ok _ _
  · obtain rfl := State.eq_initial_of_mem_encs hu
    exact EncUnit.reset_ok _ _ _

/-- PHASE, ERR, ERR_STAGE and the context words of a unit that is idle agree (R243, R245, R246): each tells
whether the last command failed. -/
theorem Ctl.Idle.outcome {c : Ctl} {phases : List Phase} {errors : List (ErrKind × Stage)}
    (h : c.Idle phases errors) (hp : .error ∉ phases) :
    (c.done = false → c.phase = .start ∧ c.err = none) ∧
      (c.err = none ↔ c.phase ≠ .error) ∧ (c.err = none ↔ c.errStage = none) ∧
      (c.err = none → c.errActual = 0#32 ∧ c.errExpected = 0#32) := by
  obtain ⟨-, ⟨hd, hs, he, hst, ha, hx⟩ | ⟨hd, ⟨⟨he, hst, ha, hx⟩, hm⟩ | ⟨k, st, he, hst, -, hph⟩⟩⟩ := h
  · simp [hs, he, hst, ha, hx]
  · have hne : c.phase ≠ .error := fun h => hp (h ▸ hm)
    simp [hd, he, hst, ha, hx, hne]
  · simp [hd, he, hst, hph]

/-- A decoder that is not BUSY shows the reset values or an outcome of R244. -/
theorem DecUnit.Ok.ctl_idle {u : DecUnit} (h : u.Ok) (hb : u.ctl.busy = false) :
    u.ctl.Idle [.dataChunkFound, .samplesDone] anyDecError := by
  have hr := h.idle hb
  obtain ⟨-, -, h⟩ := h
  simpa only [hr] using h

/-- An encoder that is not BUSY shows the reset values or an outcome of R244. -/
theorem EncUnit.Ok.ctl_idle {p : Params} {u : EncUnit} (h : u.Ok p) (hb : u.ctl.busy = false) :
    u.ctl.Idle [.encDone] (anyEncError p) := by
  have hr := (h.idle hb).1
  simp only [EncUnit.Ok, hr] at h
  obtain ⟨-, hi⟩ | ⟨-, hb', -⟩ := h
  · exact hi
  · rw [hb] at hb'; cases hb'

/-- Settles O60, from the outcomes that the invariant leaves an idle unit. -/
theorem idleUnitsExplained : Obligations.IdleUnitsExplained := by
  rintro s ⟨-, -, hdec, henc⟩
  refine ⟨fun u hu hb => ?_, fun u hu hb => ?_⟩
  · have hok := hdec u hu
    obtain ⟨hdone, hphase, hstage, hctx⟩ := (hok.ctl_idle hb).outcome (by decide)
    refine ⟨hok.idle hb, hok.1, hdone, hphase, hstage, hctx, fun hv => ?_⟩
    obtain ⟨⟨hid, hty⟩, hfmt⟩ := hok.2.1 hv
    exact ⟨hid, hty, hfmt⟩
  · have hok := henc u hu
    obtain ⟨hrun, hasm⟩ := hok.idle hb
    exact ⟨hrun, hasm, (hok.ctl_idle hb).outcome (by decide)⟩

end Sys2Proof.Machine
end

section
/-! The frames of the commands: what a decode command and an encoder command leave alone, whatever the pace and
however they end. -/

namespace Sys2Proof.Machine

open Sys2Proof.Config (Params)

/-- A whole turn of a decode command, from its execution start (R241). -/
theorem DecUnit.begin_runFor_frame (u : DecUnit) (cmd : DecCmd) (n : Nat) :
    u.StreamFrame ((u.begin cmd).runFor n) :=
  .trans (v := u.begin cmd) (.same rfl rfl rfl rfl rfl rfl id) (.steps (DecUnit.runFor_steps n _))

/-- Settles O44, from the frame of a run of single steps. -/
theorem decodeFrame : Obligations.DecodeFrame := by
  intro s t u cmd hu h
  obtain ⟨n, rfl⟩ := exec_decCmd_next hu h
  obtain ⟨hbo, hovr, hst, ⟨hip, hrm, hsp⟩, got, new, hrd, htm, htk, hio, hwd, hrm', hsc⟩ :=
    u.begin_runFor_frame cmd n
  exact ⟨_, got, new, rfl, hbo, hovr, hst, hrd, htm, hip, htk, hio, hwd, hrm', hrm, hsp, hsc⟩

/-- A constructor starts at its first register and writes no size register (R120). -/
theorem EncUnit.begin_construct (p : Params) (u : EncUnit) (a : CtorArgs) :
    (u.begin p (.construct a)).Constructing ∧ (u.begin p (.construct a)).riffSize = u.riffSize ∧
      (u.begin p (.construct a)).dataSize = u.dataSize :=
  ⟨.inr ⟨_, rfl, _, _, rfl⟩, rfl, rfl⟩

/-- A whole turn of a constructor touches no stream, counter or size register (R125). -/
theorem EncUnit.begin_construct_runFor_frame (p : Params) (u : EncUnit) {j : EncJob} {a : CtorArgs}
    (hj : j = .construct a) (n : Nat) :
    let v := (u.begin p j).runFor p n
    v.out = u.out ∧ v.sin = u.sin ∧ v.riffSize = u.riffSize ∧ v.dataSize = u.dataSize ∧
      v.ctl.sampleCount = u.ctl.sampleCount := by
  subst hj
  obtain ⟨hc, hr, hd⟩ := u.begin_construct p a
  obtain ⟨-, -, -, ho, hs, -, hn, -⟩ := u.begin_frame p (.construct a)
  obtain ⟨ho', hs', hr', hd', hn', -⟩ := EncUnit.steps_constructing (EncUnit.runFor_steps p n _) hc
  exact ⟨ho'.trans ho, hs'.trans hs, hr'.trans hr, hd'.trans hd, hn'.trans hn⟩

/-- A whole turn of any other encoder command writes no format register (R151). -/
theorem EncUnit.begin_runFor_fmt (p : Params) (u : EncUnit) {j : EncJob} (hj : ∀ a, j ≠ .construct a) (n : Nat) :
    ((u.begin p j).runFor p n).fmt = u.fmt := by
  obtain ⟨-, -, -, -, -, -, -, hf, -⟩ := u.begin_frame p j
  exact (EncUnit.steps_notConstructing (EncUnit.runFor_steps p n _)
    (EncUnit.begin_notConstructing p u j hj)).2.trans hf

/-- A whole turn of ENC_HEADER takes and counts no sample (R143). -/
theorem EncUnit.begin_header_runFor_frame (p : Params) (u : EncUnit) (n : Nat) :
    ((u.begin p .header).runFor p n).sin = u.sin ∧
      ((u.begin p .header).runFor p n).ctl.sampleCount = u.ctl.sampleCount := by
  have hw : (u.begin p .header).WritingHeader := by
    rw [EncUnit.begin_header]; exact .inr ⟨_, rfl, _, _, rfl⟩
  obtain ⟨-, -, -, -, hs, -, hn, -⟩ := u.begin_frame p .header
  obtain ⟨hs', hn'⟩ := EncUnit.steps_writingHeader (EncUnit.runFor_steps p n _) hw
  exact ⟨hs'.trans hs, hn'.trans hn⟩

/-- The commands that write a header run no `CtorFormat` (R143 to R145). -/
theorem Instr.job_ne_construct {i : Instr} {n : Word}
    (h : i = .encHeader ∨ i = .encInt16 n ∨ i = .encFloat32 n) (a : CtorArgs) : Instr.job i ≠ .construct a := by
  obtain rfl | rfl | rfl := h <;> exact EncJob.noConfusion

/-- The constructors run `CtorFormat` (R121, R122). -/
theorem Instr.job_construct {i : Instr} {ch bits : Half} {rate : Word}
    (h : i = .fmtNewPcm ch rate bits ∨ i = .fmtNewFloat ch rate bits) : ∃ a, Instr.job i = .construct a := by
  obtain rfl | rfl := h <;> exact ⟨_, rfl⟩

/-- Settles O45, from the frame of a run of single steps and the frames of the kinds of command. -/
theorem encodeFrame : Obligations.EncodeFrame := by
  intro s t u i hi hu h
  obtain ⟨n, rfl⟩ := exec_encCmd_next hi hu h
  obtain ⟨hbo, hovr, hst, hout, hsin, hio, -⟩ := u.begin_frame s.params (Instr.job i)
  have hsteps := EncUnit.runFor_steps s.params n (u.begin s.params (Instr.job i))
  obtain ⟨hpo, hps⟩ := EncUnit.steps_past hsteps
  obtain ⟨hbo', hovr', hst', new, used, got, hby, hans, hused, -, hio', hrd, htk⟩ :=
    EncUnit.steps_streams hsteps
  rw [hout] at hby hans hpo
  rw [hsin] at hrd htk hps
  refine ⟨_, new, used, got, rfl, hbo'.trans hbo, hovr'.trans hovr, fun h => hst' (hst.trans h), hby, hans,
    hused, by rw [hio', hio], hpo, hps, hrd, htk, fun ch rate bits hc => ?_,
    fun m hm => u.begin_runFor_fmt s.params (Instr.job_ne_construct hm) n, fun he => ?_⟩
  · obtain ⟨a, ha⟩ := Instr.job_construct hc
    obtain ⟨ho, hs, hr, hd, hn⟩ := u.begin_construct_runFor_frame s.params ha n
    rw [ho] at hby hans
    rw [hs] at hrd
    exact ⟨by simpa using hby, by simpa using hans, by simpa using hrd, hr, hd, hn⟩
  · subst he
    obtain ⟨hs, hn⟩ := u.begin_header_runFor_frame s.params n
    refine ⟨?_, hn⟩
    rw [show Instr.job .encHeader = .header from rfl, hs] at hrd
    simpa using hrd

end Sys2Proof.Machine
end

section
/-! What one step of the machine leaves alone in every unit: the sticky bits, CFG and the format registers of a
BUSY unit, and the units that an action is not addressed to. -/

namespace Sys2Proof.Machine

/-- From registers `c` of unit `x` to `c'`, host action `ev` has cleared neither sticky bit, or has written 1 to
its bit of STATUS (R26, R29). -/
def Ctl.StickyKept (ev : Option HostEvent) (x : UnitId) (c c' : Ctl) : Prop :=
  (c.stickyErr = true → (∀ w, ev = some (.write x 4 0x004 w) → w.getLsbD 12 = false) →
    c'.stickyErr = true) ∧
  (c.ovr = true → (∀ w, ev = some (.write x 4 0x004 w) → w.getLsbD 13 = false) → c'.ovr = true)

theorem Ctl.StickyKept.of_imp {ev : Option HostEvent} {x : UnitId} {c c' : Ctl}
    (ho : c.ovr = true → c'.ovr = true) (hs : c.stickyErr = true → c'.stickyErr = true) :
    Ctl.StickyKept ev x c c' :=
  ⟨fun h _ => hs h, fun h _ => ho h⟩

/-- The W1C write clears a sticky bit only by writing 1 to it (R29). -/
theorem Ctl.StickyKept.clearStatus {x : UnitId} (c : Ctl) (w : Word) :
    Ctl.StickyKept (some (.write x 4 0x004 w)) x c (c.clearStatus w) := by
  rw [Ctl.clearStatus_eq]
  refine ⟨fun h hw => ?_, fun h hw => ?_⟩ <;> simp only [h, hw w rfl, Bool.not_false, Bool.and_true]

/-- A change of a decoder that is not its reset keeps the sticky bits, or is the W1C write (R26). -/
theorem DecUnit.Change.sticky {ev : Option HostEvent} {d : Nat} {u v : DecUnit} (h : DecUnit.Change ev d u v)
    (hr : ev ≠ some (.resetUnit (.dec d))) : Ctl.StickyKept ev (.dec d) u.ctl v.ctl := by
  cases h with
  | same _ ho hs => exact .of_imp ho hs
  | status w hev hv => rw [hev, hv]; exact .clearStatus u.ctl w
  | cfg _ ho hs => exact .of_imp ho.trans hs.trans
  | reset hev => exact absurd hev hr

/-- A change of an encoder that is not its reset keeps the sticky bits, or is the W1C write (R26). -/
theorem EncUnit.Change.sticky {ev : Option HostEvent} {e : Nat} {u v : EncUnit} (h : EncUnit.Change ev e u v)
    (hr : ev ≠ some (.resetUnit (.enc e))) : Ctl.StickyKept ev (.enc e) u.ctl v.ctl := by
  cases h with
  | same _ ho hs _ => exact .of_imp ho hs
  | status w hev hv => rw [hev, hv]; exact .clearStatus u.ctl w
  | cfg _ ho hs => exact .of_imp ho.trans hs.trans
  | reset hev => exact absurd hev hr

/-- Settles O49, from the changes that a step can make to each unit. -/
theorem stickyBitsStay : Obligations.StickyBitsStay := by
  refine ⟨fun s t d u h hu => ?_, fun s t e u h hu => ?_⟩
  · obtain ⟨x, ⟨-, hdec, -⟩, -⟩ := step_changes h
    obtain ⟨v, hv, hc⟩ := hdec d u hu
    exact ⟨v, hv, hc.sticky⟩
  · obtain ⟨x, ⟨-, -, henc⟩, -⟩ := step_changes h
    obtain ⟨v, hv, hc⟩ := henc e u hu
    exact ⟨v, hv, hc.sticky⟩

/-- CFG of a BUSY decoder changes by its reset only (R276, R282). -/
theorem DecUnit.Change.sampleBo_of_busy {ev : Option HostEvent} {d : Nat} {u v : DecUnit}
    (h : DecUnit.Change ev d u v) (hb : u.ctl.busy = true) (hr : ev ≠ some (.resetUnit (.dec d))) :
    v.ctl.sampleBo = u.ctl.sampleBo := by
  cases h with
  | same hbo => exact hbo
  | status w _ hv => rw [hv]; rfl
  | cfg hidle => rw [hb] at hidle; cases hidle
  | reset hev => exact absurd hev hr

/-- CFG of a BUSY encoder changes by its reset only, and so do the format registers while they are held
(R276, R282). -/
theorem EncUnit.Change.config_of_busy {ev : Option HostEvent} {e : Nat} {u v : EncUnit}
    (h : EncUnit.Change ev e u v) (hb : u.ctl.busy = true) (hr : ev ≠ some (.resetUnit (.enc e))) :
    v.ctl.sampleBo = u.ctl.sampleBo ∧ (EncUnit.FormatHeld ev e u → v.fmt = u.fmt) := by
  cases h with
  | same hbo _ _ hfmt => exact ⟨hbo, hfmt⟩
  | status w _ hv => rw [hv]; exact ⟨rfl, fun _ => rfl⟩
  | cfg hidle => rw [hb] at hidle; cases hidle
  | reset hev => exact absurd hev hr

/-- Settles O50: a BUSY unit that runs no constructor and starts none holds its configuration. -/
theorem configStableWhileBusy : Obligations.ConfigStableWhileBusy := by
  refine ⟨fun s t d u h hu hb hr => ?_, fun s t e u h hu hb hr => ?_⟩
  · obtain ⟨x, ⟨-, hdec, -⟩, -⟩ := step_changes h
    obtain ⟨v, hv, hc⟩ := hdec d u hu
    exact ⟨v, hv, hc.sampleBo_of_busy hb hr⟩
  · obtain ⟨x, ⟨-, -, henc⟩, -⟩ := step_changes h
    obtain ⟨v, hv, hc⟩ := henc e u hu
    obtain ⟨hbo, hfmt⟩ := hc.config_of_busy hb hr
    exact ⟨v, hv, hbo, fun ha hn => hfmt ⟨hb, .inl ⟨ha, hn⟩⟩,
      fun ha hrun hw => hfmt ⟨hb, .inr ⟨ha, hrun, hw⟩⟩⟩

/-- A turn of a decoder is some of its own single steps (R283). -/
theorem State.turnTaken_dec_runFor {s : State} {d : Nat} {u : DecUnit} (hu : s.decs[d]? = some u) :
    ∃ n, (s.turnTaken (.dec d)).decs[d]? = some (u.runFor n) := by
  rw [State.turnTaken_dec hu]
  exact ⟨_, List.getElem?_set_self (List.getElem?_eq_some_iff.1 hu).1⟩

/-- A turn of an encoder is some of its own single steps (R283). -/
theorem State.turnTaken_enc_runFor {s : State} {e : Nat} {u : EncUnit} (hu : s.encs[e]? = some u) :
    ∃ n, (s.turnTaken (.enc e)).encs[e]? = some (u.runFor s.params n) := by
  rw [State.turnTaken_enc hu]
  exact ⟨_, List.getElem?_set_self (List.getElem?_eq_some_iff.1 hu).1⟩

/-- Whatever a wait does, the machine's parameters stay and its units are as they were but for a turn of at
most one, here `x` (R283; log 12). -/
def State.TurnOnly (s t : State) (x : UnitId) : Prop :=
  (∀ d, x ≠ .dec d → t.decs[d]? = s.decs[d]?) ∧ (∀ k, x ≠ .enc k → t.encs[k]? = s.encs[k]?) ∧
    (∀ d v, x = .dec d → s.decs[d]? = some v → ∃ n, t.decs[d]? = some (v.runFor n)) ∧
    (∀ k v, x = .enc k → s.encs[k]? = some v → ∃ n, t.encs[k]? = some (v.runFor s.params n))

/-- No turn at all. -/
theorem State.TurnOnly.none {s t : State} (hd : t.decs = s.decs) (he : t.encs = s.encs) (x : UnitId) :
    s.TurnOnly t x :=
  ⟨fun _ _ => by rw [hd], fun _ _ => by rw [he], fun _ _ _ hv => ⟨0, by rw [hd]; exact hv⟩,
    fun _ _ _ hv => ⟨0, by rw [he]; exact hv⟩⟩

/-- A turn of `x`. -/
theorem State.TurnOnly.turnTaken (s : State) (x : UnitId) : s.TurnOnly (s.turnTaken x) x := by
  obtain ⟨hsame, -⟩ := State.turnTaken_changes s (ev := Option.none) x
  refine ⟨fun d h => hsame.decs d (by simpa using h), fun k h => hsame.encs k (by simpa using h), ?_, ?_⟩
  · rintro d v rfl hv
    exact State.turnTaken_dec_runFor hv
  · rintro k v rfl hv
    exact State.turnTaken_enc_runFor hv

/-- Settles O51, from the unit a host action is addressed to and from what a wait can do. -/
theorem unitsIndependent : Obligations.UnitsIndependent := by
  refine ⟨fun s t e rest hs hw h => ?_, fun s t u rest hs h => ?_⟩
  · obtain ⟨x, ⟨hsame, -⟩, hx⟩ := step_changes h
    obtain rfl | ⟨u, hu⟩ := hx e rest hs
    · exact ⟨hsame.params, hsame.decs, hsame.encs⟩
    · exact absurd hu (hw u)
  · rw [step_of_script hs] at h
    obtain ⟨v, ⟨-, rfl⟩ | ⟨-, x, -, rfl⟩ | ⟨-, -, es, -, -, rfl⟩⟩ := State.waitFor_next h
    · exact ⟨rfl, u, State.TurnOnly.none rfl rfl u⟩
    · exact ⟨State.turnTaken_params _ x, x,
        State.TurnOnly.turnTaken (({ s with script := rest } : State).polled v) x⟩
    · exact ⟨rfl, u, State.TurnOnly.none rfl rfl u⟩

end Sys2Proof.Machine
end

section
/-! A header cut short (R187). -/

namespace Sys2Proof.Machine

/-- A decode command on a header cut after `n` bytes by a terminator ends with the error of the read it cuts
(R34, R187). -/
theorem DecUnit.steps_header_cut (u : DecUnit) (cmd : DecCmd) (h : WavHead) (hok : h.Ok) (n : Nat) (t : Term)
    (hn : n < h.bytes.length) (hb : u.inp.ready = h.bytes.take n) (ht : u.inp.term = some t) :
    ∃ st got need, cutAt h.reads n = some (st, got, need) ∧
      (u.begin cmd).Steps ((u.parsing h n st).raised t.errKind st got need) := by
  obtain ⟨st, got, need, p, hcut, hgot, hp, hs⟩ := u.steps_parse_part cmd h hok n hn hb
  have hl : u.inp.ready.length = n := by rw [hb]; simp; omega
  have hlen : (u.inp.ready.drop (n - got)).length = got := by simp; omega
  have hrd : (u.parsing h n st).inp.ready = [] := List.drop_eq_nil_of_le hl.le
  have hstop := DecUnit.advance_inside_stop (u.parsing h n st) ⟨cmd, u.ctl.sampleBo, .releasing⟩ hp hrd ht
  rw [hlen] at hstop
  exact ⟨st, got, need, hcut, hs.trans (.head hstop (DecUnit.steps_raise ..))⟩

/-- Settles O34, from the position a parse of a part of a header reaches. -/
theorem headerCutShort : Obligations.HeaderCutShort := by
  intro s u cmd h n t hu hacc hpace hok hn hb ht
  obtain ⟨st, got, need, hcut, hs⟩ := u.steps_header_cut cmd h hok n t hn hb ht
  refine ⟨st, got, need, hcut, ?_⟩
  rw [exec_decCmd, State.startDec_eq hu hpace hs (DecUnit.advance_of_idle rfl)]
  obtain ⟨-, -, -, -, -, -, hio, -⟩ := hacc
  have hl : u.inp.ready.length = n := by rw [hb]; simp; omega
  cases t <;>
    simp [DecUnit.raised, DecUnit.parsing, DecUnit.consume, DecUnit.started, hio, ← hl, Ctl.record, Ctl.release,
      Term.errKind]

end Sys2Proof.Machine
end

section
/-! The MMIO window: what the registers mapped at its offsets read, and what writes to them do. -/

namespace Sys2Proof.Machine

/-! ### The map of a window -/

/-- The offsets of a window that map a register, in order, with the register (R24, R36). -/
def windowMap (k : UnitKind) : List (Nat × Reg) :=
  (List.range 64).filterMap fun i => (regAt k (4 * i)).map fun r => (4 * i, r)

/-- An offset of the map is aligned, in the window, and maps its register. -/
theorem mem_windowMap {k : UnitKind} {off : Nat} {r : Reg} (h : (off, r) ∈ windowMap k) :
    off % 4 = 0 ∧ off < 0x100 ∧ regAt k off = some r := by
  obtain ⟨i, hi, hr⟩ := List.mem_filterMap.1 h
  obtain ⟨r', hr', he⟩ := Option.map_eq_some_iff.1 hr
  cases he
  have := List.mem_range.1 hi
  exact ⟨by omega, by omega, hr'⟩

/-- R39: the offsets of a decoder's window that map nothing. -/
theorem regAt_dec_unmapped {off : Nat} (h : 0x020 ≤ off ∧ off < 0x040 ∨ 0x070 ≤ off ∧ off < 0x100) :
    regAt .dec off = none := by
  have hmap : ∀ p ∈ commonMap ++ decOnlyMap, ¬ (0x020 ≤ p.1 ∧ p.1 < 0x040 ∨ 0x070 ≤ p.1 ∧ p.1 < 0x100) := by
    decide
  exact List.lookup_eq_none_iff.2 fun p hp => bne_iff_ne.2 fun he => hmap p hp (he ▸ h)

/-- R39: the offsets of an encoder's window that map nothing. -/
theorem regAt_enc_unmapped {off : Nat}
    (h : 0x020 ≤ off ∧ off < 0x044 ∨ off = 0x048 ∨ off = 0x068 ∨ 0x070 ≤ off ∧ off < 0x100) :
    regAt .enc off = none := by
  have hmap : ∀ p ∈ commonMap, ¬ (0x020 ≤ p.1 ∧ p.1 < 0x044 ∨ p.1 = 0x048 ∨ p.1 = 0x068 ∨
      0x070 ≤ p.1 ∧ p.1 < 0x100) := by
    decide
  exact List.lookup_eq_none_iff.2 fun p hp => bne_iff_ne.2 fun he => hmap p hp (he ▸ h)

/-! ### Reads -/

/-- STATUS of an idle decoder as its fields side by side (R26). -/
theorem Ctl.status_of_idle {c : Ctl} (hb : c.busy = false) (hv : Bool) :
    c.status hv = 0#18 ++ BitVec.ofBool c.ovr ++ BitVec.ofBool c.stickyErr ++
      BitVec.ofNat 4 (errCode c.err) ++ BitVec.ofNat 4 c.phase.code ++ 0#1 ++ BitVec.ofBool hv ++
      BitVec.ofBool c.done ++ 0#1 := by
  rw [Ctl.status, statusWord_eq, hb]; rfl

/-- Two zero bits beside each other are a field of two. -/
theorem append_zero_append_zero {n : Nat} (x : BitVec n) : x ++ 0#1 ++ 0#1 = x ++ 0#2 := by
  rw [BitVec.append_assoc]; rfl

/-- The idle decoder's map of offsets and values is its registers' (R24, R25, R26, R38, R63). -/
theorem DecUnit.idleMap_eq {u : DecUnit} (hb : u.ctl.busy = false) :
    u.idleMap = (windowMap .dec).map fun p => (p.1, u.peek p.2) := by
  simp only [DecUnit.idleMap, ← setWidth32_eq_append, ← Ctl.cfg_eq, ← Ctl.status_of_idle hb]
  rfl

/-- The idle encoder's map of offsets and values is its registers' (R36, R25, R26, R38, R63). -/
theorem EncUnit.idleMap_eq {u : EncUnit} (hb : u.ctl.busy = false) :
    u.idleMap = (windowMap .enc).map fun p => (p.1, u.peek p.2) := by
  have hs := Ctl.status_of_idle hb false
  rw [show BitVec.ofBool false = 0#1 from rfl, append_zero_append_zero] at hs
  simp only [EncUnit.idleMap, ← setWidth32_eq_append, ← Ctl.cfg_eq, ← hs]
  rfl

/-- What an idle decoder's map says of an offset is what a read there returns. -/
theorem DecUnit.readAt_of_mem_idleMap {u : DecUnit} (hb : u.ctl.busy = false) {off : Nat} {v : Word}
    (h : (off, v) ∈ u.idleMap) (n : Nat) : off % 4 = 0 ∧ off < 0x100 ∧ u.readAt n off = v := by
  rw [DecUnit.idleMap_eq hb] at h
  obtain ⟨⟨o, r⟩, hm, he⟩ := List.mem_map.1 h
  cases he
  obtain ⟨h4, hl, hr⟩ := mem_windowMap hm
  exact ⟨h4, hl, by simp [DecUnit.readAt_of_idle hb, hr]⟩

/-- What an idle encoder's map says of an offset is what a read there returns. -/
theorem EncUnit.readAt_of_mem_idleMap {u : EncUnit} (hb : u.ctl.busy = false) {off : Nat} {v : Word}
    (h : (off, v) ∈ u.idleMap) (n : Nat) : off % 4 = 0 ∧ off < 0x100 ∧ u.readAt n off = v := by
  rw [EncUnit.idleMap_eq hb] at h
  obtain ⟨⟨o, r⟩, hm, he⟩ := List.mem_map.1 h
  cases he
  obtain ⟨h4, hl, hr⟩ := mem_windowMap hm
  exact ⟨h4, hl, by simp [EncUnit.readAt_of_idle hb, hr]⟩

/-- An unmapped offset reads 0, BUSY or not (R39). -/
theorem DecUnit.readAt_unmapped {off : Nat} (h : regAt .dec off = none) (u : DecUnit) (n : Nat) :
    u.readAt n off = 0#32 := by
  simp [DecUnit.readAt, h]

/-- An unmapped offset reads 0, BUSY or not (R39). -/
theorem EncUnit.readAt_unmapped {off : Nat} (h : regAt .enc off = none) (u : EncUnit) (n : Nat) :
    u.readAt n off = 0#32 := by
  simp [EncUnit.readAt, h]

/-- Settles O11: a read returns what the map of the window holds, and 0 where nothing is mapped. -/
theorem idleReads : Obligations.IdleReads := by
  refine ⟨fun s rest d u off v hs hu hb hm => ?_, fun s rest e u off v hs hu hb hm => ?_,
    fun s rest d u off hs hu h4 ho => ?_, fun s rest e u off hs hu h4 ho => ?_⟩
  · obtain ⟨h4, hl, hr⟩ := DecUnit.readAt_of_mem_idleMap hb hm s.draws
    rw [step_read_dec hs hu h4 hl, hr]
  · obtain ⟨h4, hl, hr⟩ := EncUnit.readAt_of_mem_idleMap hb hm s.draws
    rw [step_read_enc hs hu h4 hl, hr]
  · rw [step_read_dec hs hu h4 (by omega), DecUnit.readAt_unmapped (regAt_dec_unmapped ho)]
  · rw [step_read_enc hs hu h4 (by omega), EncUnit.readAt_unmapped (regAt_enc_unmapped ho)]

/-- A read of a BUSY decoder returns what the register mapped there shows while BUSY (R277). -/
theorem DecUnit.readAt_of_busy {u : DecUnit} (hb : u.ctl.busy = true) {off : Nat} {r : Reg}
    (hr : regAt .dec off = some r) (n : Nat) : u.readAt n off = u.peekBusy n r := by
  simp [DecUnit.readAt, hr, hb]

/-- A read of a BUSY encoder returns what the register mapped there shows while BUSY (R277). -/
theorem EncUnit.readAt_of_busy {u : EncUnit} (hb : u.ctl.busy = true) {off : Nat} {r : Reg}
    (hr : regAt .enc off = some r) (n : Nat) : u.readAt n off = u.peekBusy n r := by
  simp [EncUnit.readAt, hr, hb]

/-- The bits of STATUS that R277 binds while a unit is BUSY, and its reserved bits (R26). -/
theorem Ctl.busyStatus_bits (c : Ctl) (isDec : Bool) (n : Nat) :
    (c.busyStatus isDec n).getLsbD 0 = true ∧ (c.busyStatus isDec n).getLsbD 12 = c.stickyErr ∧
      (c.busyStatus isDec n).getLsbD 13 = c.ovr ∧ (c.busyStatus isDec n).getLsbD 3 = false ∧
      (c.busyStatus isDec n).extractLsb' 14 18 = 0#18 := by
  refine ⟨statusWord_busy .., ?_⟩
  rw [Ctl.busyStatus, statusWord_eq]
  refine ⟨?_, ?_, ?_, ?_⟩
  · simp only [BitVec.getLsbD_append]; simp
  · simp only [BitVec.getLsbD_append]; simp
  · simp only [BitVec.getLsbD_append]; simp
  · simp only [BitVec.extractLsb'_append_eq_of_le, Nat.reduceLeDiff, Nat.reduceSub]; simp

/-- HDR_VALID and the reserved bit above it read 0 in a BUSY encoder's STATUS (R26). -/
theorem Ctl.busyStatus_enc_bits (c : Ctl) (n : Nat) : (c.busyStatus false n).extractLsb' 2 2 = 0#2 := by
  rw [Ctl.busyStatus, statusWord_eq, Bool.false_and, show BitVec.ofBool false = 0#1 from rfl,
    append_zero_append_zero, BitVec.extractLsb'_append_eq_of_le (by decide),
    BitVec.extractLsb'_append_eq_of_le (by decide), BitVec.extractLsb'_append_eq_of_add_le (by decide)]
  rfl

/-- Settles O12: what R277 binds, register by register. -/
theorem busyReads : Obligations.BusyReads := by
  refine ⟨fun s rest d u off hs hu hb h4 hl => ⟨_, step_read_dec hs hu h4 hl, ?_, ?_, ?_⟩,
    fun s rest e u off hs hu hb h4 hl =>
      ⟨_, step_read_enc hs hu h4 hl, ?_, ?_, ?_, ?_, ?_, ?_, ?_, ?_, ?_, ?_⟩⟩ <;> rintro rfl
  · exact (DecUnit.readAt_of_busy hb (r := .cfg) rfl _).trans u.ctl.cfg_eq
  · exact DecUnit.readAt_of_busy hb (r := .cmd) rfl _
  · rw [DecUnit.readAt_of_busy hb (r := .status) rfl]
    exact u.ctl.busyStatus_bits true s.draws
  · exact (EncUnit.readAt_of_busy hb (r := .cfg) rfl _).trans u.ctl.cfg_eq
  · exact EncUnit.readAt_of_busy hb (r := .cmd) rfl _
  · rw [EncUnit.readAt_of_busy hb (r := .status) rfl]
    obtain ⟨h0, h12, h13, -, h14⟩ := u.ctl.busyStatus_bits false s.draws
    exact ⟨h0, h12, h13, u.ctl.busyStatus_enc_bits s.draws, h14⟩
  · exact EncUnit.readAt_of_busy hb (r := .fmtLen) rfl _
  · exact (EncUnit.readAt_of_busy hb (r := .audioFormat) rfl _).trans (setWidth32_eq_append _)
  · exact (EncUnit.readAt_of_busy hb (r := .numChannels) rfl _).trans (setWidth32_eq_append _)
  · exact EncUnit.readAt_of_busy hb (r := .sampleRate) rfl _
  · exact EncUnit.readAt_of_busy hb (r := .bytesPerSec) rfl _
  · exact (EncUnit.readAt_of_busy hb (r := .blockAlign) rfl _).trans (setWidth32_eq_append _)
  · exact (EncUnit.readAt_of_busy hb (r := .bitsPerSample) rfl _).trans (setWidth32_eq_append _)

/-! ### Writes -/

@[simp] theorem DecUnit.writeAt_cfg (u : DecUnit) (v : Word) :
    u.writeAt 0x000 v = { u with ctl := u.ctl.writeCfg v } := rfl

@[simp] theorem DecUnit.writeAt_status (u : DecUnit) (v : Word) :
    u.writeAt 0x004 v = { u with ctl := u.ctl.clearStatus v } := rfl

@[simp] theorem EncUnit.writeAt_cfg (u : EncUnit) (v : Word) :
    u.writeAt 0x000 v = { u with ctl := u.ctl.writeCfg v } := rfl

@[simp] theorem EncUnit.writeAt_status (u : EncUnit) (v : Word) :
    u.writeAt 0x004 v = { u with ctl := u.ctl.clearStatus v } := rfl

/-- A write to CFG of an idle unit (R25). -/
theorem Ctl.writeCfg_of_idle {c : Ctl} (hb : c.busy = false) (v : Word) :
    c.writeCfg v = { c with sampleBo := if v.getLsbD 0 then .big else .little } := by
  simp [Ctl.writeCfg, hb, ByteOrder.ofBit]

/-- A write to CFG of a BUSY unit (R276). -/
theorem Ctl.writeCfg_of_busy {c : Ctl} (hb : c.busy = true) (v : Word) :
    c.writeCfg v = { c with ovr := true } := by
  simp [Ctl.writeCfg, hb]

/-- The offsets of the format registers (R36). -/
def formatMap : List (Nat × FmtReg) :=
  (windowMap .enc).filterMap fun p => p.2.fmt?.map fun q => (p.1, q)

/-- An offset of a format register is aligned and in the window, and a write there goes to that register (R36,
R64). -/
theorem EncUnit.writeAt_of_mem_formatMap {off : Nat} {q : FmtReg} (h : (off, q) ∈ formatMap) (u : EncUnit)
    (v : Word) : off ≠ 0x008 ∧ u.writeAt off v = u.writeFmt q v := by
  obtain ⟨⟨o, r⟩, hm, hr⟩ := List.mem_filterMap.1 h
  obtain ⟨q', hq, he⟩ := Option.map_eq_some_iff.1 hr
  cases he
  obtain ⟨-, -, ho⟩ := mem_windowMap hm
  refine ⟨?_, ?_⟩
  · rintro rfl
    cases ho
    cases hq
  · cases r <;> simp_all [EncUnit.writeAt, Reg.fmt?]

/-- The format registers after a write are those of `EncFormat.put` (R36, R64). -/
theorem EncUnit.formatWrites_eq (u : EncUnit) (v : Word) :
    u.formatWrites v = formatMap.map fun p => (p.1, u.fmt.put p.2 v) := by
  simp only [EncUnit.formatWrites, low16_eq_setWidth]
  rfl

theorem EncUnit.writeFmt_of_idle {u : EncUnit} (hb : u.ctl.busy = false) (q : FmtReg) (v : Word) :
    u.writeFmt q v = { u with fmt := u.fmt.put q v } := by
  simp [EncUnit.writeFmt, hb]

theorem EncUnit.writeFmt_of_busy {u : EncUnit} (hb : u.ctl.busy = true) (q : FmtReg) (v : Word) :
    u.writeFmt q v = { u with ctl := { u.ctl with ovr := true } } := by
  simp [EncUnit.writeFmt, hb]

/-- A step that writes elsewhere than to CMD of a decoder (R64). -/
theorem step_writeAt_dec {s : State} {rest : List HostEvent} {d off : Nat} {u : DecUnit} {w : Word}
    (hs : s.script = .write (.dec d) 4 off w :: rest) (hu : s.decs[d]? = some u) (h4 : off % 4 = 0)
    (hl : off < 0x100) (h8 : off ≠ 0x008) :
    step s = .next ({ s with script := rest }.setDec d (u.writeAt off w)) := by
  rw [step_write_dec hs hu h4 hl, if_neg h8]

/-- A step that writes elsewhere than to CMD of an encoder (R64). -/
theorem step_writeAt_enc {s : State} {rest : List HostEvent} {e off : Nat} {u : EncUnit} {w : Word}
    (hs : s.script = .write (.enc e) 4 off w :: rest) (hu : s.encs[e]? = some u) (h4 : off % 4 = 0)
    (hl : off < 0x100) (h8 : off ≠ 0x008) :
    step s = .next ({ s with script := rest }.setEnc e (u.writeAt off w)) := by
  rw [step_write_enc hs hu h4 hl, if_neg h8]

/-- A write to an offset of a decoder's window that takes none changes nothing (R39, R64). -/
theorem step_write_dec_other {s : State} {rest : List HostEvent} {d off : Nat} {u : DecUnit} {w : Word}
    (hs : s.script = .write (.dec d) 4 off w :: rest) (hu : s.decs[d]? = some u) (h4 : off % 4 = 0)
    (hl : off < 0x100) (ho : off ∉ [0x000, 0x004, 0x008]) : step s = .next { s with script := rest } := by
  rw [step_writeAt_dec hs hu h4 hl (by rintro rfl; simp at ho), DecUnit.writeAt_other u off w hl ho,
    State.setDec_self (s := { s with script := rest }) hu]

/-- A write to an offset of an encoder's window that takes none changes nothing (R39, R64). -/
theorem step_write_enc_other {s : State} {rest : List HostEvent} {e off : Nat} {u : EncUnit} {w : Word}
    (hs : s.script = .write (.enc e) 4 off w :: rest) (hu : s.encs[e]? = some u) (h4 : off % 4 = 0)
    (hl : off < 0x100)
    (ho : off ∉ [0x000, 0x004, 0x008, 0x04C, 0x050, 0x054, 0x058, 0x05C, 0x060, 0x064]) :
    step s = .next { s with script := rest } := by
  rw [step_writeAt_enc hs hu h4 hl (by rintro rfl; simp at ho), EncUnit.writeAt_other u off w hl ho,
    State.setEnc_self (s := { s with script := rest }) hu]

/-- Settles O13: the W1C write of the offset of STATUS, BUSY or not. -/
theorem statusWriteOneClears : Obligations.StatusWriteOneClears := by
  refine ⟨fun s rest d u v hs hu => ?_, fun s rest e u v hs hu => ?_⟩
  · rw [step_writeAt_dec hs hu rfl (by decide) (by decide), DecUnit.writeAt_status, Ctl.clearStatus_eq]
  · rw [step_writeAt_enc hs hu rfl (by decide) (by decide), EncUnit.writeAt_status, Ctl.clearStatus_eq]

/-- Settles O14: CFG, the format registers by their map, and the offsets that take nothing. -/
theorem idleWrites : Obligations.IdleWrites := by
  refine ⟨fun s rest d u off v hs hu hb h4 hl => ⟨?_, step_write_dec_other hs hu h4 hl⟩,
    fun s rest e u off v hs hu hb h4 hl => ⟨?_, fun f hf => ?_, step_write_enc_other hs hu h4 hl⟩⟩
  · rintro rfl
    rw [step_writeAt_dec hs hu h4 hl (by decide), DecUnit.writeAt_cfg, Ctl.writeCfg_of_idle hb]
  · rintro rfl
    rw [step_writeAt_enc hs hu h4 hl (by decide), EncUnit.writeAt_cfg, Ctl.writeCfg_of_idle hb]
  · rw [EncUnit.formatWrites_eq] at hf
    obtain ⟨⟨o, q⟩, hm, he⟩ := List.mem_map.1 hf
    cases he
    obtain ⟨h8, hw⟩ := u.writeAt_of_mem_formatMap hm v
    rw [step_writeAt_enc hs hu h4 hl h8, hw, EncUnit.writeFmt_of_idle hb]

/-- Settles O15: a discarded write sets OVR; STATUS takes its write; the other offsets take nothing. -/
theorem busyWrites : Obligations.BusyWrites := by
  obtain ⟨hsd, hse⟩ := statusWriteOneClears
  refine ⟨fun s rest d u off v hs hu hb h4 hl => ⟨?_, ?_, step_write_dec_other hs hu h4 hl⟩,
    fun s rest e u off v hs hu hb h4 hl => ⟨fun ho => ?_, ?_, step_write_enc_other hs hu h4 hl⟩⟩
  · rintro rfl
    rw [step_writeAt_dec hs hu h4 hl (by decide), DecUnit.writeAt_cfg, Ctl.writeCfg_of_busy hb]
  · rintro rfl
    exact hsd s rest d u v hs hu
  · obtain rfl | ho := List.mem_cons.1 ho
    · rw [step_writeAt_enc hs hu h4 hl (by decide), EncUnit.writeAt_cfg, Ctl.writeCfg_of_busy hb]
    · obtain ⟨⟨o, q⟩, hm, rfl⟩ := List.mem_map.1 (show off ∈ formatMap.map Prod.fst from ho)
      obtain ⟨h8, hw⟩ := u.writeAt_of_mem_formatMap hm v
      rw [step_writeAt_enc hs hu h4 hl h8, hw, EncUnit.writeFmt_of_busy hb]
  · rintro rfl
    exact hse s rest e u v hs hu

end Sys2Proof.Machine
end

section
/-! Turns of the units, however they are cut and in whatever order they are taken (R79, R81, R283; log 4). -/

namespace Sys2Proof.Machine

open Sys2Proof.Config (Params)

/-! ### Turns that add up -/

/-- A turn cut in two (R79). -/
theorem DecUnit.runFor_add (m n : Nat) (u : DecUnit) : u.runFor (m + n) = (u.runFor m).runFor n := by
  induction m generalizing u with
  | zero => rw [Nat.zero_add, DecUnit.runFor_zero]
  | succ m ih =>
    cases h : u.advance with
    | none => simp only [DecUnit.runFor_of_none h]
    | some v => rw [Nat.add_right_comm, DecUnit.runFor_of_some h, DecUnit.runFor_of_some h, ih]

/-- A turn cut in two (R79). -/
theorem EncUnit.runFor_add (p : Params) (m n : Nat) (u : EncUnit) :
    u.runFor p (m + n) = (u.runFor p m).runFor p n := by
  induction m generalizing u with
  | zero => rw [Nat.zero_add, EncUnit.runFor_zero]
  | succ m ih =>
    cases h : u.advance p with
    | none => simp only [EncUnit.runFor_of_none h]
    | some v => rw [Nat.add_right_comm, EncUnit.runFor_of_some h, EncUnit.runFor_of_some h, ih]

/-- Turns one after the other are one turn of their sum. -/
theorem DecUnit.foldl_runFor (ns : List Nat) (u : DecUnit) :
    ns.foldl (fun v n => v.runFor n) u = u.runFor ns.sum := by
  induction ns generalizing u with
  | nil => rfl
  | cons n ns ih => rw [List.foldl_cons, ih, List.sum_cons, DecUnit.runFor_add]

/-- Turns one after the other are one turn of their sum. -/
theorem EncUnit.foldl_runFor (p : Params) (ns : List Nat) (u : EncUnit) :
    ns.foldl (fun v n => v.runFor p n) u = u.runFor p ns.sum := by
  induction ns generalizing u with
  | nil => rfl
  | cons n ns ih => rw [List.foldl_cons, ih, List.sum_cons, EncUnit.runFor_add]

/-- Settles O53: turns add up, and one as long as the unit's work settles it. -/
theorem turnsAddUp : Obligations.TurnsAddUp := by
  refine ⟨fun ns u hw => ?_, fun p ns u hw => ?_⟩
  · have hq := u.runFor_work_quiet (le_refl _)
    exact ⟨(u.foldl_runFor ns).trans ((DecUnit.runFor_steps u.work u).runFor_eq hq hw), hq⟩
  · have hq := u.runFor_work_quiet p (le_refl _)
    exact ⟨(u.foldl_runFor p ns).trans ((EncUnit.runFor_steps p u.work u).runFor_eq hq hw), hq⟩

/-! ### Turns in either order -/

/-- The machine after a turn of unit `x` as long as the pace says (log 4). -/
def State.tookTurn (s : State) : UnitId → State
  | .dec d => { s with decs := s.decs.modify d fun u => u.runFor (s.turn u.work) }
  | .enc e => { s with encs := s.encs.modify e fun u => u.runFor s.params (s.turn u.work) }

theorem State.mem_units_dec {s : State} {d : Nat} : .dec d ∈ s.units ↔ ∃ u, s.decs[d]? = some u := by
  simp [State.units, List.getElem?_eq_some_iff]

theorem State.mem_units_enc {s : State} {e : Nat} : .enc e ∈ s.units ↔ ∃ u, s.encs[e]? = some u := by
  simp [State.units, List.getElem?_eq_some_iff]

/-- A turn answers a next state exactly for a unit that exists (R283). -/
theorem State.turnOf_next_iff {s t : State} {x : UnitId} :
    s.turnOf x = .next t ↔ x ∈ s.units ∧ s.tookTurn x = t := by
  cases x with
  | dec d =>
    rw [State.mem_units_dec]
    cases hu : s.decs[d]? with
    | none => simp [State.turnOf, State.onDec, hu]
    | some u =>
      simp [State.turnOf, State.onDec, hu, State.tookTurn, State.setDec, List.modify_eq_set_getElem?]
  | enc e =>
    rw [State.mem_units_enc]
    cases hu : s.encs[e]? with
    | none => simp [State.turnOf, State.onEnc, hu]
    | some u =>
      simp [State.turnOf, State.onEnc, hu, State.tookTurn, State.setEnc, List.modify_eq_set_getElem?]

@[simp] theorem State.tookTurn_units (s : State) (x : UnitId) : (s.tookTurn x).units = s.units := by
  cases x <;> simp [State.tookTurn, State.units]

/-- Turns of two units change different places, and neither looks at the other's. -/
theorem State.tookTurn_comm (s : State) {x y : UnitId} (h : x ≠ y) :
    (s.tookTurn x).tookTurn y = (s.tookTurn y).tookTurn x := by
  cases x with
  | dec d =>
    cases y with
    | dec d' =>
      have hd : d ≠ d' := fun he => h (congrArg UnitId.dec he)
      exact congrArg (fun l => ({ s with decs := l } : State)) (List.modify_modify_ne _ _ s.decs hd)
    | enc e => rfl
  | enc e =>
    cases y with
    | dec d => rfl
    | enc e' =>
      have he : e ≠ e' := fun he => h (congrArg UnitId.enc he)
      exact congrArg (fun l => ({ s with encs := l } : State)) (List.modify_modify_ne _ _ s.encs he)

/-- A turn does not look at the host's pending actions. -/
theorem State.tookTurn_withScript (s : State) (l : List HostEvent) (x : UnitId) :
    ({ s with script := l } : State).tookTurn x = { s.tookTurn x with script := l } := by
  cases x <;> rfl

/-- A step that is a turn of a unit (R283). -/
theorem step_run_iff {s t : State} {x : UnitId} {rest : List HostEvent} :
    step { s with script := .run x :: rest } = .next t ↔
      x ∈ s.units ∧ { s.tookTurn x with script := rest } = t := by
  rw [step_of_script rfl, ← State.tookTurn_withScript]
  exact State.turnOf_next_iff

/-- Two steps that are turns of units (R283). -/
theorem step_run_run_iff {s t : State} {x y : UnitId} {rest : List HostEvent} :
    (∃ m, step { s with script := .run x :: .run y :: rest } = .next m ∧ step m = .next t) ↔
      x ∈ s.units ∧ y ∈ s.units ∧ { (s.tookTurn x).tookTurn y with script := rest } = t := by
  simp only [step_run_iff, and_assoc, exists_and_left, exists_eq_left', State.tookTurn_units]

/-- Settles O52: two turns are the same changes in either order. -/
theorem turnsCommute : Obligations.TurnsCommute := by
  intro s t x y rest hxy
  rw [step_run_run_iff, step_run_run_iff, State.tookTurn_comm s hxy, and_left_comm]

end Sys2Proof.Machine
end

section
/-! Host actions: which MMIO accesses are accepted (R62), and what each action on a stream does (R66 to R72, R255,
R279, R281). -/

namespace Sys2Proof.Machine

/-! ### Actions on a unit -/

/-- An action on a decoder that exists answers what it answers for the unit. -/
theorem State.onDec_next {s : State} {d : Nat} {u v : DecUnit} {f : DecUnit → Host.Outcome DecUnit Fault Refusal}
    (hu : s.decs[d]? = some u) (hf : f u = .next v) : s.onDec d f = .next (s.setDec d v) := by
  simp only [State.onDec, hu, hf]

/-- An action on a decoder that is never refused. -/
theorem State.onDec_update {s : State} {d : Nat} {u : DecUnit} (hu : s.decs[d]? = some u) (f : DecUnit → DecUnit) :
    s.onDec d (fun v => .next (f v)) = .next (s.setDec d (f u)) :=
  State.onDec_next hu rfl

theorem State.onDec_refused {s : State} {d : Nat} {u : DecUnit} {r : Refusal}
    {f : DecUnit → Host.Outcome DecUnit Fault Refusal} (hu : s.decs[d]? = some u) (hf : f u = .refused r) :
    s.onDec d f = .refused r := by
  simp only [State.onDec, hu, hf]

/-- An action on an encoder that exists answers what it answers for the unit. -/
theorem State.onEnc_next {s : State} {e : Nat} {u v : EncUnit} {f : EncUnit → Host.Outcome EncUnit Fault Refusal}
    (hu : s.encs[e]? = some u) (hf : f u = .next v) : s.onEnc e f = .next (s.setEnc e v) := by
  simp only [State.onEnc, hu, hf]

/-- An action on an encoder that is never refused. -/
theorem State.onEnc_update {s : State} {e : Nat} {u : EncUnit} (hu : s.encs[e]? = some u) (f : EncUnit → EncUnit) :
    s.onEnc e (fun v => .next (f v)) = .next (s.setEnc e (f u)) :=
  State.onEnc_next hu rfl

theorem State.onEnc_refused {s : State} {e : Nat} {u : EncUnit} {r : Refusal}
    {f : EncUnit → Host.Outcome EncUnit Fault Refusal} (hu : s.encs[e]? = some u) (hf : f u = .refused r) :
    s.onEnc e f = .refused r := by
  simp only [State.onEnc, hu, hf]

theorem whenIdle_of_idle {α : Type} {b : Bool} (h : b = false) (u : α) : whenIdle b u = .next u := by
  simp [whenIdle, h]

theorem whenIdle_of_busy {α : Type} {b : Bool} (h : b = true) (u : α) :
    whenIdle b u = .refused .busyStreamChange := by
  simp [whenIdle, h]

/-- A copy of an encoder's OUT is an action on the decoder (R255). -/
theorem step_copyOut {s : State} {rest : List HostEvent} {k d : Nat} {v : EncUnit}
    (hs : s.script = .copyOut k d :: rest) (hv : s.encs[k]? = some v) :
    step s =
      ({ s with script := rest } : State).onDec d fun u =>
        whenIdle u.ctl.busy { u with inp := u.inp.attach v.out.bytes (some .eof) } := by
  rw [step_of_script hs]
  simp only [State.perform, State.copyOut, hv]

theorem DecUnit.deliver_byte {u : DecUnit} (h : u.inp.term = none) (b : Byte) :
    u.deliver (.byte b) = .next { u with inp := { u.inp with ready := u.inp.ready ++ [b] } } := by
  simp only [DecUnit.deliver, h]

theorem DecUnit.deliver_stop {u : DecUnit} (h : u.inp.term = none) (t : Term) :
    u.deliver (.stop t) = .next { u with inp := { u.inp with term := some t } } := by
  simp only [DecUnit.deliver, h]

theorem DecUnit.deliver_of_terminated {u : DecUnit} {t : Term} (h : u.inp.term = some t) (e : InEvent) :
    u.deliver e = .refused .eventAfterTerminator := by
  simp only [DecUnit.deliver, h]

/-- The words the host removes are the first ones (R279). -/
theorem SampleSink.remove_append {s : SampleSink} {gone left : List Word} (h : s.words = gone ++ left) :
    s.remove gone.length = { s with words := left, removed := s.removed ++ gone } := by
  simp [SampleSink.remove, h]

/-- A new stream for a BUSY decoder is refused, whatever its port (R281). -/
theorem step_attach_busy_dec {s : State} {rest : List HostEvent} {d : Nat} {u : DecUnit} {e : HostEvent}
    (hu : s.decs[d]? = some u) (hb : u.ctl.busy = true)
    (he : (∃ ready term, e = .attachIn d ready term) ∨ (∃ room, e = .attachSout d room) ∨
      ∃ k v, s.encs[k]? = some v ∧ e = .copyOut k d)
    (hs : s.script = e :: rest) : step s = .refused .busyStreamChange := by
  obtain ⟨ready, term, rfl⟩ | ⟨room, rfl⟩ | ⟨k, v, hv, rfl⟩ := he
  · exact (step_of_script hs).trans (State.onDec_refused hu (whenIdle_of_busy hb _))
  · exact (step_of_script hs).trans (State.onDec_refused hu (whenIdle_of_busy hb _))
  · exact (step_copyOut hs hv).trans (State.onDec_refused hu (whenIdle_of_busy hb _))

/-- A new stream for a BUSY encoder is refused, whatever its port (R281). -/
theorem step_attach_busy_enc {s : State} {rest : List HostEvent} {k : Nat} {u : EncUnit} {e : HostEvent}
    (hu : s.encs[k]? = some u) (hb : u.ctl.busy = true)
    (he : (∃ answers, e = .attachOut k answers) ∨ ∃ ready, e = .attachSin k ready)
    (hs : s.script = e :: rest) : step s = .refused .busyStreamChange := by
  rw [step_of_script hs]
  obtain ⟨answers, rfl⟩ | ⟨ready, rfl⟩ := he <;>
    exact State.onEnc_refused hu (whenIdle_of_busy hb _)

/-- Settles O56: each action is one on the unit whose stream it is. -/
theorem streamDuties : Obligations.StreamDuties := by
  refine ⟨fun s rest x y hxy hs => ?share, fun s rest d u e => step_attach_busy_dec,
    fun s rest k u e => step_attach_busy_enc, fun s rest d u ready term hu hb hs => ?attachIn,
    fun s rest d u room hu hb hs => ?attachSout, fun s rest k u answers hu hb hs => ?attachOut,
    fun s rest k u ready hu hb hs => ?attachSin, fun s rest k v d u hv hu hb hs => ?copyOut,
    fun s rest d u b hu ht hs => ?inByte, fun s rest d u t hu ht hs => ?inStop,
    fun s rest d u e t hu ht hs => ?inAfterStop, fun s rest d u n hu hs => ?soutRoom,
    fun s rest d u gone left hu hw hs => ?soutTake, fun s rest k u a hu hs => ?outAnswer,
    fun s rest k u w hu hs => ?sinWord⟩
  case copyOut => exact (step_copyOut hs hv).trans (State.onDec_next hu (whenIdle_of_idle hb _))
  all_goals rw [step_of_script hs]
  case share => exact if_neg hxy
  case attachIn => exact State.onDec_next hu (whenIdle_of_idle hb _)
  case attachSout => exact State.onDec_next hu (whenIdle_of_idle hb _)
  case attachOut => exact State.onEnc_next hu (whenIdle_of_idle hb _)
  case attachSin => exact State.onEnc_next hu (whenIdle_of_idle hb _)
  case inByte => exact State.onDec_next hu (DecUnit.deliver_byte ht b)
  case inStop => exact State.onDec_next hu (DecUnit.deliver_stop ht t)
  case inAfterStop => exact State.onDec_refused hu (DecUnit.deliver_of_terminated ht e)
  case soutRoom => exact State.onDec_update (s := { s with script := rest }) hu (·.addRoom n)
  case soutTake =>
    rw [← SampleSink.remove_append hw]
    exact State.onDec_update (s := { s with script := rest }) hu fun v =>
      { v with sout := v.sout.remove gone.length }
  case outAnswer => exact State.onEnc_update (s := { s with script := rest }) hu (·.addAnswer a)
  case sinWord => exact State.onEnc_update (s := { s with script := rest }) hu (·.addWord w)

/-! ### Accepted accesses -/

/-- An access of another width, or that is not aligned, is refused (R62). -/
theorem accessProblem_bad {width off : Nat} (h : width ≠ 4 ∨ off % 4 ≠ 0) :
    accessProblem width off = some (.refused .badAccess) :=
  if_pos h

/-- A decode command on a decoder that exists has a next state. -/
theorem State.startDec_isNext {s : State} {u : DecUnit} (hu : s.decs[s.sel]? = some u) (cmd : DecCmd) :
    ∃ t, s.startDec cmd = .next t := by
  simp only [State.startDec, hu]
  exact ⟨_, rfl⟩

/-- An encoder command on an encoder that exists has a next state. -/
theorem State.startEnc_isNext {s : State} {u : EncUnit} (hu : s.encs[s.sel]? = some u) (job : EncJob) :
    ∃ t, s.startEnc job = .next t := by
  simp only [State.startEnc, hu]
  exact ⟨_, rfl⟩

/-- Every word written to a decoder's CMD is taken: the command it starts, if any, is a decode command (R104). -/
theorem State.cmdDec_isNext {s : State} {d : Nat} {u : DecUnit} (hu : s.decs[d]? = some u) (w : Word) :
    ∃ t, s.cmdDec d u w = .next t := by
  rcases hc : u.ctl.takeWord .dec w with ⟨c, _ | i⟩
  · exact ⟨_, State.cmdDec_of_none hc⟩
  · rw [State.cmdDec_of_some hc]
    obtain ⟨cmd, hi⟩ := exec_of_dec (Ctl.takeWord_unitKind (congrArg Prod.snd hc))
      { s.setDec d { u with ctl := c } with sel := d }
    rw [hi]
    exact State.startDec_isNext (List.getElem?_set_self (List.getElem?_eq_some_iff.1 hu).1) cmd

/-- Every word written to an encoder's CMD is taken: the command it starts, if any, is an encoder's (R104). -/
theorem State.cmdEnc_isNext {s : State} {e : Nat} {u : EncUnit} (hu : s.encs[e]? = some u) (w : Word) :
    ∃ t, s.cmdEnc e u w = .next t := by
  rcases hc : u.ctl.takeWord .enc w with ⟨c, _ | i⟩
  · exact ⟨_, State.cmdEnc_of_none hc⟩
  · rw [State.cmdEnc_of_some hc]
    obtain ⟨job, hi⟩ := exec_of_enc (Ctl.takeWord_unitKind (congrArg Prod.snd hc))
      { s.setEnc e { u with ctl := c } with sel := e }
    rw [hi]
    exact State.startEnc_isNext (List.getElem?_set_self (List.getElem?_eq_some_iff.1 hu).1) job

/-- A read or write of the window of a decoder that exists has a next state (R61, R62). -/
theorem step_access_dec_isNext {s : State} {rest : List HostEvent} {d off : Nat} {u : DecUnit} {v : Word}
    (hu : s.decs[d]? = some u) (h4 : off % 4 = 0) (hl : off < 0x100)
    (hs : s.script = .read (.dec d) 4 off :: rest ∨ s.script = .write (.dec d) 4 off v :: rest) :
    ∃ t, step s = .next t := by
  obtain hs | hs := hs
  · exact ⟨_, step_read_dec hs hu h4 hl⟩
  · rw [step_write_dec hs hu h4 hl]
    split
    · exact State.cmdDec_isNext (s := { s with script := rest }) hu v
    · exact ⟨_, rfl⟩

/-- A read or write of the window of an encoder that exists has a next state (R61, R62). -/
theorem step_access_enc_isNext {s : State} {rest : List HostEvent} {e off : Nat} {u : EncUnit} {v : Word}
    (hu : s.encs[e]? = some u) (h4 : off % 4 = 0) (hl : off < 0x100)
    (hs : s.script = .read (.enc e) 4 off :: rest ∨ s.script = .write (.enc e) 4 off v :: rest) :
    ∃ t, step s = .next t := by
  obtain hs | hs := hs
  · exact ⟨_, step_read_enc hs hu h4 hl⟩
  · rw [step_write_enc hs hu h4 hl]
    split
    · exact State.cmdEnc_isNext (s := { s with script := rest }) hu v
    · exact ⟨_, rfl⟩

/-- Settles O10: the check of width and alignment comes first, and a unit takes what passes it. -/
theorem onlyAlignedWordAccess : Obligations.OnlyAlignedWordAccess := by
  refine ⟨fun s rest u width off v h hs => ?_, fun s rest u off v h4 hl hu hs => ?_⟩
  · obtain hs | hs := hs <;> rw [step_of_script hs]
    · simp only [State.perform, State.mmioRead, accessProblem_bad h]
    · simp only [State.perform, State.mmioWrite, accessProblem_bad h]
  · cases u with
    | dec d =>
      obtain ⟨w, hw⟩ := State.mem_units_dec.1 hu
      exact step_access_dec_isNext hw h4 hl hs
    | enc e =>
      obtain ⟨w, hw⟩ := State.mem_units_enc.1 hu
      exact step_access_enc_isNext hw h4 hl hs

end Sys2Proof.Machine
end

section
/-! Encoder commands that write a header: all of their stream, or the part that a failure or a wait leaves (R69,
R70, R140 to R148). -/

namespace Sys2Proof.Machine

open Sys2Proof.Config (Params)

@[simp] theorem waveStream_length (p : Params) (f : EncFormat) (size : Nat) (payload : List Byte) :
    (waveStream p f size payload).length = 44 + payload.length := by
  rw [waveStream_eq, List.length_append, headerBytes_length]

/-! ### Commands that complete -/

/-- A sample command of the encoder with its words all there and encodable, and its stream all acknowledged,
completes (R144, R145, R150). -/
theorem exec_encSamples_completes {s : State} {u : EncUnit} {kind : SampleKind} {n : Word} {ws rest : List Word}
    {as : List Answer} {size : Nat} {payload : List Byte}
    (hu : s.encs[s.sel]? = some u) (hacc : u.ctl.Accepted) (hpace : s.pace = none)
    (hn : n.toNat ≤ nMax s.params kind) (hl : ws.length = n.toNat) (hs : u.sin.ready = ws ++ rest)
    (hok : ∀ w ∈ ws, encodable s.params kind w = true) (hsize : size = n.toNat * kind.size)
    (hpay : payload = ws.flatMap (elementBytes kind u.ctl.sampleBo))
    (ha : u.out.answers = List.replicate (44 + size) .ack ++ as) :
    exec (kind.encode n) s = .next (s.setEnc s.sel { u with
      ctl := { u.ctl with
        busy := false, done := true, phase := .encDone,
        ioCount := BitVec.ofNat 32 (44 + size), sampleCount := n, asm := [] }
      riffSize := BitVec.ofNat 32 (s.params.riffSizeBias.toNat + size)
      dataSize := BitVec.ofNat 32 size
      run := none
      out.answers := as
      out.bytes := u.out.bytes ++ waveStream s.params u.fmt size payload
      sin.ready := rest
      sin.taken := u.sin.taken ++ ws }) := by
  subst hsize hpay
  have hrun := EncUnit.steps_begin_samples s.params u kind n ws rest as 0 hn hl.symm hs hok (hl ▸ ha)
  rw [exec_encSamples, State.startEnc_eq hu hpace (hrun.trans (EncUnit.steps_finish ..))
    (EncUnit.advance_of_idle rfl)]
  obtain ⟨-, -, -, -, -, -, hio, hsc, -⟩ := hacc
  simp [EncUnit.finished, EncUnit.wrote, EncUnit.takeWords, EncUnit.send, EncUnit.countSamples,
    EncUnit.setPhase, EncUnit.sized, Ctl.setPhase, Ctl.record, Ctl.release, waveStream_eq, hio, hsc, hl, hs, ha,
    BitVec.ofNat_add]

/-- Settles O21: the completion of a sample command, with the bytes of an int16 element. -/
theorem encInt16Completes : Obligations.EncInt16Completes :=
  fun _ u n ws _ _ hu hacc hpace hn hl hs ha =>
    exec_encSamples_completes (kind := .int16) hu hacc hpace hn hl hs (fun _ _ => rfl) (Nat.mul_comm 2 n.toNat)
      (congrArg ws.flatMap (funext fun w => (elementBytes_int16 u.ctl.sampleBo w).symm)) ha

/-- With the range check off every float is encodable, with it on those in range (R146). -/
theorem encodable_float32 {p : Params} {w : Word} (h : p.encFloatRangeCheck = true → inRangeF32 w = true) :
    encodable p .float32 w = true := by
  cases hc : p.encFloatRangeCheck with
  | false => simp [encodable, hc]
  | true => simp [encodable, h hc]

/-- Settles O22: the completion of a sample command, with the bytes of a float32 element. -/
theorem encFloat32Completes : Obligations.EncFloat32Completes :=
  fun _ u n ws _ _ hu hacc hpace hn hl hs hrange ha =>
    exec_encSamples_completes (kind := .float32) hu hacc hpace hn hl hs
      (fun w hw => encodable_float32 fun hc => hrange hc w hw) (Nat.mul_comm 4 n.toNat)
      (congrArg ws.flatMap (funext fun w => (elementBytes_float32 u.ctl.sampleBo w).symm)) ha

/-! ### A byte offered to a sink that fails or does not answer -/

/-- An encoder that offers its sink byte number `sent` of the `size` bytes of a header or an element, whose stage
is `st` (R69, R148). -/
inductive EncUnit.Offering (u : EncUnit) : Stage → Nat → Nat → Prop where
  | header {bo : ByteOrder} {b : Byte} {bs : List Byte} {sent : Nat} {next : Option (SampleKind × Nat)}
      (run : u.run = some ⟨bo, .header (b :: bs) sent next⟩) :
      EncUnit.Offering u .encHeaderWrite sent (sent + (b :: bs).length)
  | element {bo : ByteOrder} {b : Byte} {bs : List Byte} {sent : Nat} {kind : SampleKind} {left : Nat}
      (run : u.run = some ⟨bo, .element (b :: bs) sent kind left⟩) :
      EncUnit.Offering u .encSampleWrite sent (sent + (b :: bs).length)

/-- A header of `size` bytes, `sent` of them sent, has a next byte. -/
theorem EncUnit.Offering.of_header {u : EncUnit} {bo : ByteOrder} {todo : List Byte} {sent size : Nat}
    {next : Option (SampleKind × Nat)} (run : u.run = some ⟨bo, .header todo sent next⟩) (h : sent < size)
    (hl : todo.length = size - sent) : u.Offering .encHeaderWrite sent size := by
  obtain ⟨b, bs, rfl⟩ := List.exists_cons_of_length_pos (hl ▸ Nat.sub_pos_of_lt h)
  rw [show size = sent + (b :: bs).length by omega]
  exact .header run

/-- An element of `size` bytes, `sent` of them sent, has a next byte. -/
theorem EncUnit.Offering.of_element {u : EncUnit} {bo : ByteOrder} {todo : List Byte} {sent size : Nat}
    {kind : SampleKind} {left : Nat} (run : u.run = some ⟨bo, .element todo sent kind left⟩) (h : sent < size)
    (hl : todo.length = size - sent) : u.Offering .encSampleWrite sent size := by
  obtain ⟨b, bs, rfl⟩ := List.exists_cons_of_length_pos (hl ▸ Nat.sub_pos_of_lt h)
  rw [show size = sent + (b :: bs).length by omega]
  exact .element run

/-- With no answer ready the unit waits (R69). -/
theorem EncUnit.Offering.advance_of_no_answer {u : EncUnit} {st : Stage} {sent size : Nat}
    (h : u.Offering st sent size) (ha : u.out.answers = []) (p : Params) : u.advance p = none := by
  cases h with
  | header run => simp only [EncUnit.advance, run, EncUnit.stepHeader, OutSink.offer, ha]
  | element run => simp only [EncUnit.advance, run, EncUnit.stepElement, OutSink.offer, ha]

/-- A Fail ends the command, with the bytes of that header or element accepted before it (R69, R148). -/
theorem EncUnit.Offering.steps_of_fail {u : EncUnit} {st : Stage} {sent size : Nat} (h : u.Offering st sent size)
    {as : List Answer} (ha : u.out.answers = .fail :: as) (p : Params) :
    u.Steps p (u.refused.raised .ioFailure st sent size) := by
  have hr := EncUnit.refused_eq u ha
  cases h with
  | @header bo b bs sent next run =>
    refine .head (v := u.refused.fail bo .ioFailure .encHeaderWrite sent (sent + (b :: bs).length)) ?_
      (EncUnit.steps_raise ..)
    simp only [EncUnit.advance, run, EncUnit.stepHeader, OutSink.offer, ha, hr]
  | @element bo b bs sent kind left run =>
    refine .head (v := u.refused.fail bo .ioFailure .encSampleWrite sent (sent + (b :: bs).length)) ?_
      (EncUnit.steps_raise ..)
    simp only [EncUnit.advance, run, EncUnit.stepElement, OutSink.offer, ha, hr]

/-! ### ENC_HEADER cut short -/

/-- ENC_HEADER with `m` bytes of its header in the sink (R143). -/
def EncUnit.midHeader (p : Params) (u : EncUnit) (m : Nat) : EncUnit :=
  ((u.sized p 0).send ((waveStream p u.fmt 0 []).take m)).goto u.ctl.sampleBo
    (.header ((waveStream p u.fmt 0 []).drop m) m none)

/-- ENC_HEADER whose sink acknowledges `m` bytes reaches byte `m` of its header (R69, R143). -/
theorem EncUnit.steps_midHeader (p : Params) (u : EncUnit) {m : Nat} (hm : m < 44) {as : List Answer}
    (ha : u.out.answers = List.replicate m .ack ++ as) : (u.begin p .header).Steps p (u.midHeader p m) := by
  have hlen : ((waveStream p u.fmt 0 []).take m).length = m := by simpa using hm.le
  have h := EncUnit.steps_header_part p (u.sized p 0) u.ctl.sampleBo ((waveStream p u.fmt 0 []).take m)
    ((waveStream p u.fmt 0 []).drop m) 0 none as (by rw [hlen]; exact ha)
  rw [hlen, List.take_append_drop, Nat.zero_add, waveStream_eq, List.append_nil, ← EncUnit.begin_header] at h
  rw [EncUnit.midHeader, waveStream_eq, List.append_nil]
  exact h

theorem EncUnit.midHeader_answers (p : Params) (u : EncUnit) {m : Nat} (hm : m < 44) :
    (u.midHeader p m).out.answers = u.out.answers.drop m := by
  simp [EncUnit.midHeader, EncUnit.send, EncUnit.sized, hm.le]

theorem EncUnit.midHeader_offering (p : Params) (u : EncUnit) {m : Nat} (hm : m < 44) :
    (u.midHeader p m).Offering .encHeaderWrite m 44 :=
  .of_header rfl hm (by simp)

/-- Settles O24: the header is written up to the failing byte, which ends the command. -/
theorem encHeaderWriteFailure : Obligations.EncHeaderWriteFailure := by
  intro s u m as hu hacc hpace hm ha
  have hfail := (EncUnit.midHeader_offering s.params u hm).steps_of_fail (as := as)
    (by rw [EncUnit.midHeader_answers _ _ hm, ha]; simp) s.params
  rw [show exec .encHeader s = s.startEnc .header from rfl,
    State.startEnc_eq hu hpace ((EncUnit.steps_midHeader _ _ hm ha).trans hfail) (EncUnit.advance_of_idle rfl)]
  obtain ⟨-, -, -, -, -, -, hio, -⟩ := hacc
  simp [EncUnit.raised, EncUnit.refused, EncUnit.midHeader, EncUnit.send, EncUnit.sized, EncUnit.setPhase,
    Ctl.setPhase, Ctl.record, Ctl.release, hio, ha, hm.le]

/-! ### A sample command cut short -/

theorem waveStream_samples_length (p : Params) (f : EncFormat) (kind : SampleKind) (bo : ByteOrder) {n : Word}
    {ws : List Word} (hl : ws.length = n.toNat) :
    (waveStream p f (n.toNat * kind.size) (ws.flatMap (elementBytes kind bo))).length = 44 + n.toNat * kind.size := by
  rw [waveStream_length, flatMap_elementBytes_length, hl]

theorem EncUnit.midway_answers (p : Params) (u : EncUnit) (kind : SampleKind) (n : Word) {stream : List Byte} {m : Nat}
    (hm : m ≤ stream.length) : (u.midway p kind n stream m).out.answers = u.out.answers.drop m := by
  have hlen : (stream.take m).length = m := by simpa using hm
  unfold EncUnit.midway
  split <;> simp only [EncUnit.goto, EncUnit.countSamples, EncUnit.takeWords, EncUnit.setPhase, EncUnit.send,
    EncUnit.sized, hlen]

theorem EncUnit.midway_offering (p : Params) (u : EncUnit) (kind : SampleKind) {n : Word} {stream : List Byte} {m : Nat}
    (hlen : stream.length = 44 + n.toNat * kind.size) (hm : m < stream.length) :
    (u.midway p kind n stream m).Offering (if m < 44 then .encHeaderWrite else .encSampleWrite)
      (if m < 44 then m else (m - 44) % kind.size) (if m < 44 then 44 else kind.size) := by
  unfold EncUnit.midway
  by_cases h44 : m < 44
  · simp only [if_pos h44]
    exact .of_header rfl h44 (by simp [hlen])
  · simp only [if_neg h44]
    refine .of_element rfl (Nat.mod_lt _ kind.size_pos) ?_
    rw [List.length_take, List.length_drop]
    cases kind <;> simp only [SampleKind.size] at hlen ⊢ <;> omega

/-- Settles O25: the stream is written up to the failing byte, which ends the command. -/
theorem encSampleWriteFailure : Obligations.EncSampleWriteFailure := by
  intro s u kind n ws rest m as hu hacc hpace hn hl hs hok hm ha
  have hrun := u.steps_midway s.params kind n ws rest m _ hn hl hs hok hm ha
  have hlen := waveStream_samples_length s.params u.fmt kind u.ctl.sampleBo hl
  generalize waveStream s.params u.fmt (n.toNat * kind.size)
    (ws.flatMap (elementBytes kind u.ctl.sampleBo)) = stream at hlen hrun ⊢
  have hms : m < stream.length := hlen ▸ hm
  have hfail := (u.midway_offering s.params kind hlen hms).steps_of_fail (as := as)
    (by rw [EncUnit.midway_answers _ _ _ _ hms.le, ha]; simp) s.params
  rw [exec_encSamples, State.startEnc_eq hu hpace (hrun.trans hfail) (EncUnit.advance_of_idle rfl)]
  obtain ⟨-, -, -, -, -, -, hio, hsc, -⟩ := hacc
  by_cases h44 : m < 44
  · simp [EncUnit.raised, EncUnit.refused, EncUnit.midway, h44, EncUnit.send, EncUnit.sized, EncUnit.setPhase,
      Ctl.setPhase, Ctl.record, Ctl.release, hio, hsc, ha, hms.le, Nat.sub_eq_zero_of_le h44.le]
  · simp [EncUnit.raised, EncUnit.refused, EncUnit.midway, h44, EncUnit.send, EncUnit.sized, EncUnit.setPhase,
      EncUnit.takeWords, EncUnit.countSamples, Ctl.setPhase, Ctl.record, Ctl.release, hio, hsc, ha, hms.le]

/-! ### Waits -/

/-- An encoder that has written all the words there are has none left (R70). -/
theorem EncUnit.wrote_all_ready {v : EncUnit} {ws : List Word} (h : v.sin.ready = ws) (kind : SampleKind)
    (bo : ByteOrder) : (v.wrote kind bo ws).sin.ready = [] := by
  rw [← h]
  exact List.drop_length

/-- Settles O27: the position each wait reaches, and that it takes no step there. -/
theorem encWaitsForSamples : Obligations.EncWaitsForSamples := by
  refine ⟨fun s u kind n as hu hacc hpace hn hlt hok ha => ?_, fun s u m hu hacc hpace hm ha => ?_,
    fun s u kind n ws rest m hu hacc hpace hn hl hs hok hm ha stream hst => ?_⟩
  · obtain ⟨left, hleft⟩ : ∃ left, n.toNat = u.sin.ready.length + (left + 1) :=
      ⟨n.toNat - u.sin.ready.length - 1, by omega⟩
    have hrun := EncUnit.steps_begin_samples s.params u kind n u.sin.ready [] as (left + 1) hn hleft
      (List.append_nil _).symm hok ha
    rw [exec_encSamples, State.startEnc_eq hu hpace hrun
      (EncUnit.advance_taking_wait _ _ _ _ _ (EncUnit.wrote_all_ready rfl _ _))]
    obtain ⟨-, -, -, -, -, -, hio, hsc, hasm⟩ := hacc
    have hpos : n.toNat - u.sin.ready.length - 1 = left := by omega
    simp [EncUnit.nextSample, EncUnit.goto, EncUnit.wrote, EncUnit.takeWords, EncUnit.send, EncUnit.countSamples,
      EncUnit.setPhase, EncUnit.sized, Ctl.setPhase, waveStream_eq, hio, hsc, hasm, ha, hpos, BitVec.ofNat_add]
  · have hwait := (EncUnit.midHeader_offering s.params u hm).advance_of_no_answer
      (by rw [EncUnit.midHeader_answers _ _ hm, ha]; simp) s.params
    rw [show exec .encHeader s = s.startEnc .header from rfl, State.startEnc_eq hu hpace
      (EncUnit.steps_midHeader s.params u hm (ha.trans (List.append_nil _).symm)) hwait]
    obtain ⟨-, -, -, -, -, -, hio, -, hasm⟩ := hacc
    simp [EncUnit.midHeader, EncUnit.goto, EncUnit.send, EncUnit.sized, EncUnit.setPhase, Ctl.setPhase, hio, hasm,
      ha, hm.le]
  · have hrun := u.steps_midway s.params kind n ws rest m [] hn hl hs hok hm (ha.trans (List.append_nil _).symm)
    have hlen := waveStream_samples_length s.params u.fmt kind u.ctl.sampleBo hl
    rw [← hst] at hlen hrun
    have hms : m < stream.length := hlen ▸ hm
    have hwait := (u.midway_offering s.params kind hlen hms).advance_of_no_answer
      (by rw [EncUnit.midway_answers _ _ _ _ hms.le, ha]; simp) s.params
    rw [exec_encSamples, State.startEnc_eq hu hpace hrun hwait]
    obtain ⟨-, -, -, -, -, -, hio, hsc, hasm⟩ := hacc
    by_cases h44 : m < 44
    · simp [EncUnit.midway, EncUnit.goto, h44, EncUnit.send, EncUnit.sized, EncUnit.setPhase, Ctl.setPhase, hio, hsc,
        hasm, ha, hms.le, Nat.sub_eq_zero_of_le h44.le]
    · simp [EncUnit.midway, EncUnit.goto, h44, EncUnit.send, EncUnit.sized, EncUnit.setPhase, EncUnit.takeWords,
        EncUnit.countSamples, Ctl.setPhase, hio, hsc, hasm, ha, hms.le]

end Sys2Proof.Machine
end

section
/-! Decode commands on headers of R98's grammar: all of the payload, or the part after which they wait (R66, R71,
R210 to R223). -/

namespace Sys2Proof.Machine

/-- A sample command that has parsed the header `h` and appended the elements `es` (R210, R220). -/
def DecUnit.decoded (u : DecUnit) (kind : SampleKind) (h : WavHead) (es : List (List Byte)) : DecUnit :=
  (((u.started.parsedAs h).setPhase .samplesDecoding).consume es.flatten.length).emit
    (es.map (elementWord kind u.ctl.sampleBo))

/-- What is left of IN is what follows the header and the elements. -/
theorem DecUnit.decoded_ready {u : DecUnit} {h : WavHead} {es : List (List Byte)} {rest : List Byte}
    (hb : u.inp.ready = h.bytes ++ (es.flatten ++ rest)) (kind : SampleKind) :
    (u.decoded kind h es).inp.ready = rest :=
  DecUnit.consume_ready ((u.started.parsedAs h).setPhase .samplesDecoding) (DecUnit.consume_ready u.started hb)

@[simp] theorem DecUnit.consume_sout (u : DecUnit) (n : Nat) : (u.consume n).sout = u.sout := rfl

theorem DecUnit.decoded_room (u : DecUnit) (kind : SampleKind) (h : WavHead) (es : List (List Byte)) :
    (u.decoded kind h es).sout.room = u.sout.room - es.length := by
  rw [← List.length_map (elementWord kind u.ctl.sampleBo)]
  rfl

/-! ### Commands that complete -/

/-- After the last element of a whole number of them, a sample command finishes (R210, R220). -/
theorem DecUnit.steps_nextElement_done (v : DecUnit) (r : DecRun) {kind : SampleKind}
    (hd : v.hdr.dataSize.toNat % kind.size = 0) : (v.nextElement r kind 0).Steps (v.finished .samplesDone) := by
  simpa only [DecUnit.nextElement, hd, ne_eq, not_true_eq_false, if_false] using v.steps_finish r .samplesDone

/-- A sample command on a header of its format code, with the bytes of all its elements there, their words decodable
and taken by the sink, completes (R210, R220). -/
theorem exec_decSamples_completes {α : Type} {s : State} {u : DecUnit} {kind : SampleKind} {h : WavHead} {es : List α}
    {bytes : α → List Byte} {word : α → Word} {rest : List Byte}
    (hu : s.decs[s.sel]? = some u) (hacc : u.ctl.Accepted) (hpace : s.pace = none) (hok : h.Ok)
    (hcode : h.fmt.audioFormat = kind.formatCode) (hsize : h.dataSize.toNat = kind.size * es.length)
    (hroom : es.length ≤ u.sout.room) (hb : u.inp.ready = h.bytes ++ es.flatMap bytes ++ rest)
    (hlen : ∀ e, (bytes e).length = kind.size) (hword : ∀ e, elementWord kind u.ctl.sampleBo (bytes e) = word e)
    (hdec : ∀ e ∈ es, decodable kind (word e) = true) :
    exec (DecCmd.samples kind).instr s = .next (s.setDec s.sel { u with
      ctl := { u.ctl with
        busy := false, done := true, phase := .samplesDone,
        ioCount := BitVec.ofNat 32 (h.bytes.length + kind.size * es.length),
        sampleCount := BitVec.ofNat 32 es.length, asm := [] }
      hdr := h.registers
      hdrValid := true
      run := none
      inp := { u.inp with ready := rest, taken := u.inp.taken ++ (h.bytes ++ es.flatMap bytes) }
      sout := { u.sout with
        room := u.sout.room - es.length, words := u.sout.words ++ es.map word } }) := by
  obtain rfl : (fun e => elementWord kind u.ctl.sampleBo (bytes e)) = word := funext hword
  have hbl : (es.flatMap bytes).length = kind.size * es.length := by
    simp [List.length_flatMap, hlen, Nat.mul_comm]
  rw [List.flatMap_def] at hb hbl ⊢
  have hcount : h.dataSize.toNat / kind.size = es.length := by rw [hsize, Nat.mul_div_cancel_left _ kind.size_pos]
  have hrun := u.steps_payload kind h hok hcode (es.map bytes) rest (by simp [hlen]) (by simpa using hdec)
    (by simpa using hroom) 0 (by simpa using hcount) (by simpa using hb)
  have hdone := DecUnit.steps_nextElement_done (u.decoded kind h (es.map bytes))
    ⟨.samples kind, u.ctl.sampleBo, .releasing⟩ (kind := kind)
    (show h.dataSize.toNat % kind.size = 0 by rw [hsize, Nat.mul_mod_right])
  rw [exec_decCmd, State.startDec_eq hu hpace (hrun.trans hdone) (DecUnit.advance_of_idle rfl)]
  obtain ⟨-, -, -, -, -, -, hio, hsc, -⟩ := hacc
  simp [DecUnit.finished, DecUnit.decoded, DecUnit.parsedAs, DecUnit.started, DecUnit.consume, DecUnit.emit,
    DecUnit.setPhase, Ctl.setPhase, Ctl.record, Ctl.release, hio, hsc, hb, hbl, BitVec.ofNat_add, Function.comp_def]

/-- Settles O29: the completion of a sample command, with the word of an int16 element. -/
theorem decInt16Completes : Obligations.DecInt16Completes :=
  fun _ u _ _ _ hu hacc hpace hok hcode hsize hroom hb =>
    exec_decSamples_completes (kind := .int16) hu hacc hpace hok hcode hsize hroom hb (fun _ => rfl)
      (fun e => elementWord_int16 u.ctl.sampleBo e.1 e.2) (fun _ _ => rfl)

/-- Settles O30: the completion of a sample command, with the word of a float32 element. -/
theorem decFloat32Completes : Obligations.DecFloat32Completes :=
  fun _ u _ _ _ hu hacc hpace hok hcode hsize hroom hb _ hword hdec =>
    exec_decSamples_completes (kind := .float32) hu hacc hpace hok hcode hsize hroom hb (fun _ => rfl)
      (fun e => (elementWord_float32 u.ctl.sampleBo e.1 e.2.1 e.2.2.1 e.2.2.2).trans (congrFun hword e).symm) hdec

/-! ### Waits -/

/-- The size of a payload is that of its elements (R210, R220). -/
theorem length_flatten_elements {kind : SampleKind} {es : List (List Byte)} (h : ∀ e ∈ es, e.length = kind.size) :
    es.flatten.length = es.length * kind.size := by
  rw [List.length_flatten, List.map_congr_left h, List.map_const', List.sum_replicate, smul_eq_mul]

/-- A decodable element that is there is read, and its word is the next to append (R210, R220). -/
theorem DecUnit.steps_read_element (v : DecUnit) (r : DecRun) {kind : SampleKind} {e rest : List Byte} (left : Nat)
    (hb : v.inp.ready = e ++ rest) (hlen : e.length = kind.size)
    (hdec : decodable kind (elementWord kind r.bo e) = true) :
    (v.nextElement r kind (left + 1)).Steps
      ((v.consume e.length).goto r (.appending kind (elementWord kind r.bo e) left)) := by
  have hne : e ≠ [] := List.ne_nil_of_length_pos (hlen ▸ kind.size_pos)
  have h := v.steps_read r (.element kind left) kind.size e rest [] hb hne (by simpa using hlen)
  simpa only [DecUnit.afterRead, List.nil_append, DecUnit.afterElement, hdec, if_true, DecUnit.nextElement] using h

/-- An append to a full sink waits (R71, R279). -/
theorem DecUnit.advance_appending_wait (v : DecUnit) (r : DecRun) (kind : SampleKind) (w : Word) (left : Nat)
    (hroom : v.sout.room = 0) : (v.goto r (.appending kind w left)).advance = none := by
  simp [DecUnit.advance, DecUnit.goto, DecUnit.stepAppend, SampleSink.append, hroom]

/-- The next read of a payload: an element where whole ones are left, else the residual bytes (R210, R212, R220). -/
theorem DecUnit.nextElement_eq_reading (v : DecUnit) (r : DecRun) {kind : SampleKind} {d k need : Nat} {what : DecRead}
    (hd : v.hdr.dataSize.toNat = d)
    (hw : (k < d / kind.size ∧ need = kind.size ∧ what = .element kind (d / kind.size - k - 1)) ∨
      (k = d / kind.size ∧ need = d % kind.size ∧ what = .residual kind))
    (hneed : 0 < need) : v.nextElement r kind (d / kind.size - k) = v.goto r (.reading what need []) := by
  obtain ⟨hk, rfl, rfl⟩ | ⟨rfl, rfl, rfl⟩ := hw
  · obtain ⟨left, hleft⟩ : ∃ left, d / kind.size - k = left + 1 := ⟨d / kind.size - k - 1, by omega⟩
    rw [hleft]; rfl
  · simp only [Nat.sub_self, DecUnit.nextElement, hd, hneed.ne', ne_eq, not_false_eq_true, if_true]

/-- A sample command reaches the append of the element `e` behind the elements `es` (R210, R220). -/
theorem DecUnit.steps_to_append (u : DecUnit) {kind : SampleKind} {h : WavHead} (hok : h.Ok)
    (hcode : h.fmt.audioFormat = kind.formatCode) {es : List (List Byte)} {e rest : List Byte}
    (hlen : ∀ x ∈ es ++ [e], x.length = kind.size)
    (hdec : ∀ x ∈ es ++ [e], decodable kind (elementWord kind u.ctl.sampleBo x) = true)
    (hroom : es.length ≤ u.sout.room) {left : Nat} (hleft : h.dataSize.toNat / kind.size = es.length + (left + 1))
    (hb : u.inp.ready = h.bytes ++ (es.flatten ++ (e ++ rest))) :
    (u.begin (.samples kind)).Steps (((u.decoded kind h es).consume e.length).goto
      ⟨.samples kind, u.ctl.sampleBo, .releasing⟩ (.appending kind (elementWord kind u.ctl.sampleBo e) left)) := by
  rw [List.forall_mem_append, List.forall_mem_singleton] at hlen hdec
  exact (u.steps_payload kind h hok hcode es (e ++ rest) hlen.1 hdec.1 hroom (left + 1) hleft hb).trans
    ((u.decoded kind h es).steps_read_element _ left (DecUnit.decoded_ready hb kind) hlen.2 hdec.2)

/-- A sample command reaches the read behind the elements `es`, of an element or of the residual bytes, and gets
the `part` of it that is there (R67, R210, R212, R220). -/
theorem DecUnit.steps_to_part (u : DecUnit) {kind : SampleKind} {h : WavHead} (hok : h.Ok)
    (hcode : h.fmt.audioFormat = kind.formatCode) {es : List (List Byte)} {part : List Byte}
    {what : DecRead} {need : Nat}
    (hw : (es.length < h.dataSize.toNat / kind.size ∧ need = kind.size ∧
        what = .element kind (h.dataSize.toNat / kind.size - es.length - 1)) ∨
      (es.length = h.dataSize.toNat / kind.size ∧ need = h.dataSize.toNat % kind.size ∧ what = .residual kind))
    (hpart : part.length < need) (hlen : ∀ e ∈ es, e.length = kind.size)
    (hdec : ∀ e ∈ es, decodable kind (elementWord kind u.ctl.sampleBo e) = true)
    (hroom : es.length ≤ u.sout.room) (hb : u.inp.ready = h.bytes ++ (es.flatten ++ part)) :
    (u.begin (.samples kind)).Steps (((u.decoded kind h es).consume part.length).goto
      ⟨.samples kind, u.ctl.sampleBo, .releasing⟩ (.reading what need part)) := by
  have hcount : h.dataSize.toNat / kind.size = es.length + (h.dataSize.toNat / kind.size - es.length) := by
    obtain ⟨hk, -⟩ | ⟨hk, -⟩ := hw <;> omega
  refine (u.steps_payload kind h hok hcode es part hlen hdec hroom _ hcount hb).trans ?_
  have hnext := (u.decoded kind h es).nextElement_eq_reading ⟨.samples kind, u.ctl.sampleBo, .releasing⟩ rfl hw
    (Nat.zero_lt_of_lt hpart)
  have hread := (u.decoded kind h es).steps_read_part ⟨.samples kind, u.ctl.sampleBo, .releasing⟩ what need part
    [] [] ((DecUnit.decoded_ready hb kind).trans (List.append_nil _).symm) (by simpa using hpart)
  rw [← hnext] at hread
  exact hread

/-- Settles O39: the position each wait reaches, and that it takes no step there. -/
theorem decWaitsForSink : Obligations.DecWaitsForSink := by
  refine ⟨fun s u kind h es e rest hu hacc hpace hok hcode hsize hlen hdec hroom hb => ?_,
    fun s u cmd h n hu hacc hpace hok hn hb ht => ?_,
    fun s u kind h es part what need hu hacc hpace hok hcode hw hpart hlen hdec hroom hb ht => ?_⟩
  · have hmore : es.length + 1 ≤ h.dataSize.toNat / kind.size := (Nat.le_div_iff_mul_le kind.size_pos).2 hsize
    obtain ⟨left, hleft⟩ : ∃ left, h.dataSize.toNat / kind.size = es.length + (left + 1) :=
      ⟨h.dataSize.toNat / kind.size - es.length - 1, by omega⟩
    have hrun := u.steps_to_append (rest := rest) hok hcode hlen hdec hroom.le hleft (by simpa using hb)
    have hwait := DecUnit.advance_appending_wait ((u.decoded kind h es).consume e.length)
      ⟨.samples kind, u.ctl.sampleBo, .releasing⟩ kind (elementWord kind u.ctl.sampleBo e) left
      (by rw [DecUnit.consume_sout, DecUnit.decoded_room, hroom, Nat.sub_self])
    rw [exec_decCmd, State.startDec_eq hu hpace hrun hwait]
    obtain ⟨-, -, -, -, -, -, hio, hsc, hasm⟩ := hacc
    have hpos : h.dataSize.toNat / kind.size - u.sout.room - 1 = left := by omega
    have hflat := length_flatten_elements fun x hx => hlen x (List.mem_append_left [e] hx)
    have he : e.length = kind.size := hlen e (by simp)
    simp [DecUnit.goto, DecUnit.decoded, DecUnit.parsedAs, DecUnit.started, DecUnit.consume, DecUnit.emit,
      DecUnit.setPhase, Ctl.setPhase, hio, hsc, hasm, hb, hpos, hflat, he, hroom, BitVec.ofNat_add,
      BitVec.add_assoc, Nat.add_mul]
  · obtain ⟨st, got, need, pos, hcut, hgot, hin, hrun⟩ := u.steps_parse_part cmd h hok n hn hb
    have hl : u.inp.ready.length = n := by rw [hb]; simp; omega
    have hgl : (u.inp.ready.drop (n - got)).length = got := by rw [List.length_drop, hl]; omega
    have hwait := DecUnit.advance_inside_wait (u.parsing h n st) ⟨cmd, u.ctl.sampleBo, .releasing⟩ hin
      (List.drop_eq_nil_of_le hl.le) ht
    refine ⟨st, got, need, pos, hcut, by simpa only [DecPos.Inside, hgl] using hin, ?_⟩
    rw [exec_decCmd, State.startDec_eq hu hpace hrun hwait]
    obtain ⟨-, -, -, -, -, -, hio, -, hasm⟩ := hacc
    simp [DecUnit.goto, DecUnit.parsing, DecUnit.started, DecUnit.consume, DecUnit.setPhase, Ctl.setPhase, hio, hasm,
      List.drop_of_length_le hl.le, List.take_of_length_le hl.le]
    rfl
  · have hb' : u.inp.ready = h.bytes ++ (es.flatten ++ part) := by rw [hb, List.append_assoc]
    have hrun := u.steps_to_part hok hcode hw hpart hlen hdec hroom hb'
    have hready := DecUnit.consume_ready (u.decoded kind h es)
      ((DecUnit.decoded_ready hb' kind).trans (List.append_nil part).symm)
    rw [exec_decCmd, State.startDec_eq hu hpace hrun (DecUnit.advance_read_wait _ _ what need part hready ht)]
    obtain ⟨-, -, -, -, -, -, hio, hsc, hasm⟩ := hacc
    simp [DecUnit.goto, DecUnit.decoded, DecUnit.parsedAs, DecUnit.started, DecUnit.consume, DecUnit.emit,
      DecUnit.setPhase, Ctl.setPhase, hio, hsc, hasm, hb, length_flatten_elements hlen, BitVec.ofNat_add]

end Sys2Proof.Machine
end


section
/-! Command words (R100 to R107): `decodeFor` and `encode` are inverse to each other, and word 0 alone tells whether
a command is legal and how long it is. -/

namespace Sys2Proof

/-! ### The fields of a word -/

/-- IMM16 of a word 0 made from its fields (R101). -/
theorem imm16Field_word0 (imm : Half) {o : Nat} (h : o < 2 ^ 8) : imm16Field (word0 imm o) = imm := by
  have := imm.isLt
  apply BitVec.eq_of_toNat_eq
  simp only [imm16Field, word0, BitVec.toNat_ofNat]
  omega

/-- A word with RSV = 0 is word 0 of its IMM16 and OPC (R101). -/
theorem word0_imm16Field_opc {w : Word} (h : rsv w = 0) : word0 (imm16Field w) (opc w) = w := by
  have := w.isLt
  apply BitVec.eq_of_toNat_eq
  simp only [rsv] at h
  simp only [word0, imm16Field, opc, BitVec.toNat_ofNat]
  omega

theorem imm16Field_eq_zero {w : Word} (h : imm16 w = 0) : imm16Field w = 0#16 := by
  rw [imm16] at h
  rw [imm16Field, h]

/-- A half as a word 2 (R102): its upper half is 0. -/
theorem imm16_setWidth (bits : Half) : imm16 (BitVec.setWidth 32 bits) = 0 := by
  have := bits.isLt
  rw [imm16, BitVec.toNat_setWidth]
  omega

/-- A half as a word 2 (R102): its lower half is the half. -/
theorem lowHalf_setWidth (bits : Half) : lowHalf (BitVec.setWidth 32 bits) = bits := by
  have := bits.isLt
  apply BitVec.eq_of_toNat_eq
  simp only [lowHalf, BitVec.toNat_setWidth, BitVec.toNat_ofNat]
  omega

/-- A word 2 whose upper half is 0 is its lower half (R102). -/
theorem setWidth_lowHalf {w : Word} (h : imm16 w = 0) : BitVec.setWidth 32 (lowHalf w) = w := by
  have := w.isLt
  rw [imm16] at h
  apply BitVec.eq_of_toNat_eq
  simp only [lowHalf, BitVec.toNat_setWidth, BitVec.toNat_ofNat]
  omega

/-! ### Legal first words and their lengths -/

/-- A legal word 0, field by field (R105 (a) to (c)). -/
theorem rejectWord0_eq_none_iff {k : UnitKind} {w : Word} : rejectWord0 k w = none ↔
    opcUnit (opc w) = some k ∧ rsv w = 0 ∧ (opcHasImm (opc w) = false → imm16 w = 0) := by
  refine ⟨fun h => ?_, fun ⟨hu, hr, hi⟩ => by simpa [rejectWord0, hu, hr] using hi⟩
  have hu := opcUnit_of_legal h
  refine ⟨hu, ?_⟩
  by_cases hr : rsv w = 0
  · simpa [rejectWord0, hu, hr] using h
  · simp [rejectWord0, hu, hr] at h

/-- Word 0 of a constructor is legal on ENC (R102, R104). -/
theorem rejectWord0_word0 (imm : Half) {o : Nat} (h : o = 0x21 ∨ o = 0x22) :
    rejectWord0 .enc (word0 imm o) = none := by
  obtain ⟨ho, hr⟩ := Laws.EncodeLength.opc_word0 imm (o := o) (by omega)
  rw [rejectWord0_eq_none_iff, ho]
  rcases h with rfl | rfl <;> exact ⟨rfl, hr, nofun⟩

/-- A legal word 0 decides the length of its command by its opcode (R107). -/
theorem commandLength_of_legal {k : UnitKind} {w : Word} (h : rejectWord0 k w = none) :
    commandLength k w = opcLength (opc w) := by
  rw [commandLength, h]

/-- An illegal word 0 is a command of one word (R107). -/
theorem commandLength_of_illegal {k : UnitKind} {w : Word} {r : Reject} (h : rejectWord0 k w = some r) :
    commandLength k w = 1 := by
  rw [commandLength, h]

theorem two_lt_opcLength_iff {o : Nat} : 2 < opcLength o ↔ o = 0x21 ∨ o = 0x22 := by
  unfold opcLength
  split_ifs <;> simp_all

theorem opcLength_eq_two_iff {o : Nat} : opcLength o = 2 ↔ o = 0x24 ∨ o = 0x25 := by
  unfold opcLength
  split_ifs <;> simp_all
  omega

/-- The opcode field's values as the opcode's (R101). -/
theorem opc_mem_of_opcField_mem {w : Word} {l : List (BitVec 8)} (h : Machine.opcField w ∈ l) :
    opc w ∈ l.map BitVec.toNat :=
  Machine.opcField_toNat w ▸ List.mem_map_of_mem h

/-- Settles O4: the decoder's checks are R105's, and a legal word's length is its opcode's. -/
theorem wordZeroDecidesLength : Obligations.WordZeroDecidesLength := by
  intro k w
  refine ⟨Machine.rejectWord0_none_iff k w, fun h => ?_, fun h => ?_⟩
  · obtain ⟨r, hr⟩ := Machine.rejectWord0_some_of_illegal h
    exact commandLength_of_illegal hr
  · rw [commandLength_of_legal ((Machine.rejectWord0_none_iff k w).2 h)]
    have hlen : (∀ o ∈ [0x21, 0x22], opcLength o = 3) ∧ (∀ o ∈ [0x24, 0x25], opcLength o = 2) ∧
        ∀ o ∈ [0x11, 0x12, 0x13, 0x23], opcLength o = 1 := by decide
    obtain ⟨h3, h2, h1⟩ := hlen
    exact ⟨fun ho => h3 _ (opc_mem_of_opcField_mem ho), fun ho => h2 _ (opc_mem_of_opcField_mem ho),
      fun ho => h1 _ (opc_mem_of_opcField_mem ho)⟩

/-! ### Decoding an encoding -/

/-- What decodes on a unit kind decodes to the same without naming one (R103). -/
theorem decode_of_decodeFor {k : UnitKind} {ws : List Word} {i : Instr} (h : decodeFor k ws = .ok i) :
    decode ws = .ok i := by
  obtain ⟨w0, rest, rfl, hr⟩ := decodeFor_legal h
  rw [decode, kindOfWord, opcUnit_of_legal hr]
  exact h

/-- A constructor's words with both halves of word 2 taken apart (R102). -/
theorem decodeFor_ctor (ch bits : Half) (rate : Word) {o : Nat} (h : o = 0x21 ∨ o = 0x22) :
    decodeFor .enc [word0 ch o, rate, BitVec.setWidth 32 bits] =
      if o = 0x21 then .ok (.fmtNewPcm ch rate bits) else .ok (.fmtNewFloat ch rate bits) := by
  have ho := (Laws.EncodeLength.opc_word0 ch (o := o) (by omega)).1
  have hl : ¬ opcLength o < 3 := Nat.not_lt.2 (two_lt_opcLength_iff.2 h)
  simp only [decodeFor, rejectWord0_word0 ch h, ho, decodeThree, hl, imm16_setWidth, if_false, ne_eq,
    not_true_eq_false, imm16Field_word0 ch (show o < 2 ^ 8 by omega), lowHalf_setWidth]

/-- The words of a command decode to it on the unit kind that executes it (R102, R103). -/
theorem decodeFor_encode (i : Instr) : decodeFor i.unitKind (encode i) = .ok i := by
  cases i with
  | decHeader => rfl
  | decInt16 => rfl
  | decFloat32 => rfl
  | fmtNewPcm ch rate bits => exact decodeFor_ctor ch bits rate (.inl rfl)
  | fmtNewFloat ch rate bits => exact decodeFor_ctor ch bits rate (.inr rfl)
  | encHeader => rfl
  | encInt16 n => rfl
  | encFloat32 n => rfl

/-- Settles O1: what decodes on the executing unit kind decodes on the opcode's. -/
theorem decodeOfEncode : Obligations.DecodeOfEncode := by
  refine fun i => ⟨decode_of_decodeFor (decodeFor_encode i), fun k hk => ?_⟩
  obtain rfl : i.unitKind = k := by simpa [Instr.wellFormed] using hk
  exact decodeFor_encode i

/-- Settles O3: the words are those of the commands. -/
theorem specWordsDecode : Obligations.SpecWordsDecode :=
  ⟨(decodeOfEncode (.fmtNewPcm 1 8000 16)).1, (decodeOfEncode (.fmtNewFloat 1 48000 32)).1,
    (decodeOfEncode .encHeader).1, (decodeOfEncode (.encInt16 7)).1, (decodeOfEncode (.encFloat32 3)).1,
    (decodeOfEncode .decHeader).1, (decodeOfEncode .decInt16).1, (decodeOfEncode .decFloat32).1⟩

/-! ### Encoding what decodes -/

theorem encode_of_decodeOne {o : Nat} {i : Instr} (h : decodeOne o = .ok i) :
    opcHasImm o = false ∧ encode i = [word0 0#16 o] := by
  unfold decodeOne at h
  split_ifs at h with ho ho ho ho <;> cases h <;> subst ho <;> exact ⟨rfl, rfl⟩

theorem encode_of_decodeTwo {o : Nat} {w1 : Word} {i : Instr} (h : decodeTwo o w1 = .ok i) :
    opcHasImm o = false ∧ encode i = [word0 0#16 o, w1] := by
  unfold decodeTwo at h
  split_ifs at h with ho ho <;> cases h <;> subst ho <;> exact ⟨rfl, rfl⟩

theorem encode_of_decodeThree {o : Nat} {w0 w1 w2 : Word} {i : Instr} (h : decodeThree o w0 w1 w2 = .ok i) :
    encode i = [word0 (imm16Field w0) o, w1, w2] := by
  unfold decodeThree at h
  split_ifs at h with hl hi ho <;> cases h
  · simp only [encode, setWidth_lowHalf (not_not.1 hi), ho]
  · obtain rfl : o = 0x22 := (two_lt_opcLength_iff.1 (Nat.not_lt.1 hl)).resolve_left ho
    simp only [encode, setWidth_lowHalf (not_not.1 hi)]

/-- A list of words that decodes is the encoding of its command (R102, R103). -/
theorem encode_of_decodeFor {k : UnitKind} {ws : List Word} {i : Instr} (h : decodeFor k ws = .ok i) :
    encode i = ws := by
  obtain ⟨w0, rest, rfl, hlegal⟩ := decodeFor_legal h
  obtain ⟨-, hr, hi⟩ := rejectWord0_eq_none_iff.1 hlegal
  have hw : word0 (imm16Field w0) (opc w0) = w0 := word0_imm16Field_opc hr
  simp only [decodeFor, hlegal] at h
  split at h
  · obtain ⟨himm, he⟩ := encode_of_decodeOne h
    rw [he, ← imm16Field_eq_zero (hi himm), hw]
  · obtain ⟨himm, he⟩ := encode_of_decodeTwo h
    rw [he, ← imm16Field_eq_zero (hi himm), hw]
  · rw [encode_of_decodeThree h, hw]
  · cases h

/-- Every command is encoded in as many words as its length, and its first word decides that (R103, R107). -/
theorem encodeLength (i : Instr) : Laws.EncodeLength.Statement i := by
  cases i with
  | decHeader => exact Laws.EncodeLength.decHeader
  | decInt16 => exact Laws.EncodeLength.decInt16
  | decFloat32 => exact Laws.EncodeLength.decFloat32
  | fmtNewPcm ch rate bits => exact Laws.EncodeLength.fmtNewPcm ch rate bits
  | fmtNewFloat ch rate bits => exact Laws.EncodeLength.fmtNewFloat ch rate bits
  | encHeader => exact Laws.EncodeLength.encHeader
  | encInt16 n => exact Laws.EncodeLength.encInt16 n
  | encFloat32 n => exact Laws.EncodeLength.encFloat32 n

/-- Settles O2: the words are the encoding, which has the command's length. -/
theorem encodeOfDecode : Obligations.EncodeOfDecode := by
  intro k ws i h
  have he := encode_of_decodeFor h
  exact ⟨he, by simp [Instr.wellFormed, decodeFor_unitKind h], he ▸ (encodeLength i).1⟩

end Sys2Proof
end


section
/-! The command port (R100, R105, R240, R241, R275): a step that writes a word to CMD, one lemma for each thing the
word can do, and the words of a whole command. -/

namespace Sys2Proof

/-! ### The words a unit collects -/

/-- A command that decodes has as many words as its word 0 says (R107). -/
theorem opcLength_of_decodeFor {k : UnitKind} {w0 : Word} {rest : List Word} {i : Instr}
    (h : decodeFor k (w0 :: rest) = .ok i) : opcLength (opc w0) = (w0 :: rest).length := by
  obtain ⟨he, -, hl⟩ := encodeOfDecode k _ i h
  obtain ⟨_, _, hw, hlegal⟩ := decodeFor_legal h
  cases hw
  have hhead : w0 ∈ (encode i).head? := by rw [he]; rfl
  rw [← commandLength_of_legal hlegal, hl, ← decodeFor_unitKind h]
  exact (encodeLength i).2 w0 hhead

theorem decodeTwo_of_length_two {o : Nat} (h : opcLength o = 2) (w1 : Word) : ∃ i, decodeTwo o w1 = .ok i := by
  rcases opcLength_eq_two_iff.1 h with rfl | rfl <;> exact ⟨_, rfl⟩

/-- The second of three words leaves one missing (R100). -/
theorem decodeFor_two_of_three {k : UnitKind} {w0 : Word} (hr : rejectWord0 k w0 = none)
    (hl : 2 < opcLength (opc w0)) (w1 : Word) : decodeFor k [w0, w1] = .error .operandMissing := by
  simp only [decodeFor, hr]
  rcases two_lt_opcLength_iff.1 hl with ho | ho <;> rw [ho] <;> rfl

/-- A word 2 with reserved bits set is illegal (R105 (d)). -/
theorem decodeFor_word2High {k : UnitKind} {w0 : Word} (hr : rejectWord0 k w0 = none)
    (hl : 2 < opcLength (opc w0)) (w1 : Word) {w2 : Word} (hi : imm16 w2 ≠ 0) :
    decodeFor k [w0, w1, w2] = .error .word2High := by
  simp only [decodeFor, hr, decodeThree, Nat.not_lt.2 hl, if_false, if_pos hi]

theorem decodeFor_three {k : UnitKind} {w0 : Word} (hr : rejectWord0 k w0 = none)
    (hl : 2 < opcLength (opc w0)) (w1 : Word) {w2 : Word} (hi : imm16 w2 = 0) :
    ∃ i, decodeFor k [w0, w1, w2] = .ok i := by
  simp only [decodeFor, hr, decodeThree, Nat.not_lt.2 hl, if_false, hi, ne_eq, not_true_eq_false]
  split_ifs <;> exact ⟨_, rfl⟩

namespace Machine

/-- What the next word makes of the words an encoder collects: the command, a longer part of it, or an illegal
word 2 (R100, R105 (d)). -/
theorem AsmOk.decodeFor_append {ws : List Word} (h : AsmOk ws) (w : Word) :
    (∃ i, decodeFor .enc (ws ++ [w]) = .ok i) ∨ decodeFor .enc (ws ++ [w]) = .error .operandMissing ∨
      (decodeFor .enc (ws ++ [w]) = .error .word2High ∧ highField w ≠ 0#16) := by
  match ws, h with
  | [w0], ⟨hr, hl⟩ =>
    obtain hl | hl := Nat.lt_or_eq_of_le (Nat.succ_le_of_lt hl)
    · exact .inr (.inl (decodeFor_two_of_three hr hl w))
    · obtain ⟨i, hi⟩ := decodeTwo_of_length_two hl.symm w
      exact .inl ⟨i, by simpa only [List.singleton_append, decodeFor, hr] using hi⟩
  | [w0, w1], ⟨hr, hl⟩ =>
    by_cases hi : imm16 w = 0
    · exact .inl (decodeFor_three hr hl w1 hi)
    · exact .inr (.inr ⟨decodeFor_word2High hr hl w1 hi, mt (highField_eq_zero w).1 hi⟩)

/-- A legal word 0 of a constructor starts a command of three words (R103, R107). -/
theorem legal_ctor {w : Word} (hw : ¬ IllegalWord0 .enc w) (ho : opcField w ∈ [0x21#8, 0x22#8]) :
    rejectWord0 .enc w = none ∧ 2 < opcLength (opc w) :=
  ⟨(rejectWord0_none_iff .enc w).2 hw, two_lt_opcLength_iff.2 (opc_of_ctorField ho)⟩

/-- A legal word 0 of an encoder other than ENC_HEADER's starts a longer command (R103, R107). -/
theorem one_lt_opcLength_of_legal {w : Word} (hr : rejectWord0 .enc w = none) (ho : opcField w ≠ 0x23#8) :
    1 < opcLength (opc w) := by
  have hne : opc w ≠ 0x23 := mt (opcField_eq_iff w 0x23 (by decide)).2 ho
  obtain ⟨hk, -⟩ | ⟨-, h | h | h | h | h⟩ := opc_cases (opcUnit_of_legal hr)
  · cases hk
  · rw [h]; decide
  · rw [h]; decide
  · exact absurd h hne
  · rw [h]; decide
  · rw [h]; decide

/-! ### A step that writes to CMD -/

section Dec

variable {s : State} {rest : List HostEvent} {d : Nat} {u : DecUnit} {w : Word}

/-- A word for a decoder that starts nothing changes the decoder's registers (R240). -/
theorem step_cmdDec_of_none {c : Ctl} (hs : s.script = .write (.dec d) 4 0x008 w :: rest)
    (hu : s.decs[d]? = some u) (h : u.ctl.takeWord .dec w = (c, none)) :
    step s = .next { { s with script := rest }.setDec d { u with ctl := c } with sel := d } := by
  rw [step_write_dec hs hu rfl (by decide), if_pos rfl]
  exact State.cmdDec_of_none h

/-- A word for a decoder that completes a command runs it (R241). -/
theorem step_cmdDec_of_some {c : Ctl} {i : Instr} (hs : s.script = .write (.dec d) 4 0x008 w :: rest)
    (hu : s.decs[d]? = some u) (h : u.ctl.takeWord .dec w = (c, some i)) :
    step s = exec i { { s with script := rest }.setDec d { u with ctl := c } with sel := d } := by
  rw [step_write_dec hs hu rfl (by decide), if_pos rfl]
  exact State.cmdDec_of_some h

end Dec

section Enc

variable {s : State} {rest : List HostEvent} {e : Nat} {u : EncUnit} {w : Word}

/-- A word for an encoder that starts nothing changes the encoder's registers (R240). -/
theorem step_cmdEnc_of_none {c : Ctl} (hs : s.script = .write (.enc e) 4 0x008 w :: rest)
    (hu : s.encs[e]? = some u) (h : u.ctl.takeWord .enc w = (c, none)) :
    step s = .next { { s with script := rest }.setEnc e { u with ctl := c } with sel := e } := by
  rw [step_write_enc hs hu rfl (by decide), if_pos rfl]
  exact State.cmdEnc_of_none h

/-- A word for an encoder that completes a command runs it (R241). -/
theorem step_cmdEnc_of_some {c : Ctl} {i : Instr} (hs : s.script = .write (.enc e) 4 0x008 w :: rest)
    (hu : s.encs[e]? = some u) (h : u.ctl.takeWord .enc w = (c, some i)) :
    step s = exec i { { s with script := rest }.setEnc e { u with ctl := c } with sel := e } := by
  rw [step_write_enc hs hu rfl (by decide), if_pos rfl]
  exact State.cmdEnc_of_some h

/-- The last operand word of a command runs it (R240, R241). -/
theorem step_lastWord {asm : List Word} {i : Instr} (hs : s.script = .write (.enc e) 4 0x008 w :: rest)
    (hu : s.encs[e]? = some u) (ha : u.ctl.asm = asm) (hne : asm ≠ [])
    (hd : decodeFor .enc (asm ++ [w]) = .ok i) :
    step s = exec i { { s with script := rest }.setEnc e { u with ctl := { u.ctl with asm := [] } } with sel := e } := by
  obtain ⟨w0, ops, rfl⟩ := List.exists_cons_of_ne_nil hne
  exact step_cmdEnc_of_some hs hu (Ctl.takeWord_last ha hd)

/-- An operand word after which more are missing is kept (R100, R240). -/
theorem step_operandWord {asm : List Word} (hs : s.script = .write (.enc e) 4 0x008 w :: rest)
    (hu : s.encs[e]? = some u) (ha : u.ctl.asm = asm) (hne : asm ≠ [])
    (hd : decodeFor .enc (asm ++ [w]) = .error .operandMissing) :
    step s = .next { { s with script := rest }.setEnc e { u with ctl := { u.ctl with asm := asm ++ [w] } } with
      sel := e } := by
  obtain ⟨w0, ops, rfl⟩ := List.exists_cons_of_ne_nil hne
  exact step_cmdEnc_of_none hs hu (Ctl.takeWord_operand ha hd nofun)

/-- An illegal word 2 ends the command (R105 (d), R246). -/
theorem step_illegalWord2 {asm : List Word} (hs : s.script = .write (.enc e) 4 0x008 w :: rest)
    (hu : s.encs[e]? = some u) (ha : u.ctl.asm = asm) (hne : asm ≠ [])
    (hd : decodeFor .enc (asm ++ [w]) = .error .word2High) :
    step s = .next { { s with script := rest }.setEnc e { u with ctl := { u.ctl with
      busy := false, done := true, phase := .error, err := some .illegalCommand,
      stickyErr := true, errStage := some .command, errActual := w, errExpected := 2#32,
      asm := [] } } with sel := e } := by
  obtain ⟨w0, ops, rfl⟩ := List.exists_cons_of_ne_nil hne
  rw [step_cmdEnc_of_none hs hu (Ctl.takeWord_word2 ha hd)]
  simp [Ctl.record, Ctl.release]

/-- The first word of a longer command is accepted and kept (R100, R240). -/
theorem step_firstWord (hs : s.script = .write (.enc e) 4 0x008 w :: rest) (hu : s.encs[e]? = some u)
    (hb : u.ctl.busy = false) (ha : u.ctl.asm = []) (hr : rejectWord0 .enc w = none)
    (hl : 1 < opcLength (opc w)) :
    step s = .next { { s with script := rest }.setEnc e { u with ctl := { u.ctl with
      busy := true, done := false, phase := .operands, err := none, errStage := none,
      errActual := 0#32, errExpected := 0#32, ioCount := 0#32, sampleCount := 0#32,
      asm := [w] } } with sel := e } :=
  step_cmdEnc_of_none hs hu (Ctl.takeWord_first hb ha hr hl)

end Enc

/-- Settles O6: what `takeWord` leaves of the registers when a word completes a command. -/
theorem stepRunsDecodedCommand : Obligations.StepRunsDecodedCommand :=
  ⟨fun _ _ _ _ _ _ hs hu hb ha hd => step_cmdDec_of_some hs hu (Ctl.takeWord_start hb ha hd),
   fun _ _ _ _ _ _ hs hu hb ha hd => step_cmdEnc_of_some hs hu (Ctl.takeWord_start hb ha hd),
   fun _ _ _ _ _ _ _ _ hs hu ha hd => step_lastWord hs hu ha (List.cons_ne_nil _ _) hd⟩

/-- Settles O7: a first word of a longer command is kept, and so is the second of three. -/
theorem operandWordsCollect : Obligations.OperandWordsCollect := by
  refine ⟨fun s rest e u w hs hu hb ha hw ho => ?_, fun s rest e u w w0 hs hu ha hw ho => ?_⟩
  · have hr := (rejectWord0_none_iff .enc w).2 hw
    exact step_firstWord hs hu hb ha hr (one_lt_opcLength_of_legal hr ho)
  · obtain ⟨hr, hl⟩ := legal_ctor hw ho
    exact step_operandWord hs hu ha (List.cons_ne_nil _ _) (decodeFor_two_of_three hr hl w)

/-- Settles O8: each of the illegal words is rejected, and `raise` ends the command. -/
theorem illegalWordsEndCommand : Obligations.IllegalWordsEndCommand := by
  refine ⟨fun s rest d u w hs hu hb ha hw => ?dec, fun s rest e u w hs hu hb ha hw => ?enc,
    fun s rest e u w w0 w1 hs hu ha hw ho hi => ?word2⟩
  case dec =>
    obtain ⟨r, hr⟩ := rejectWord0_some_of_illegal hw
    rw [step_cmdDec_of_none hs hu (Ctl.takeWord_illegal hb ha hr)]
    simp [Ctl.record, Ctl.release, Ctl.accept]
  case enc =>
    obtain ⟨r, hr⟩ := rejectWord0_some_of_illegal hw
    rw [step_cmdEnc_of_none hs hu (Ctl.takeWord_illegal hb ha hr)]
    simp [Ctl.record, Ctl.release, Ctl.accept]
  case word2 =>
    obtain ⟨hr, hl⟩ := legal_ctor hw ho
    exact step_illegalWord2 hs hu ha (List.cons_ne_nil _ _)
      (decodeFor_word2High hr hl w1 (mt (highField_eq_zero w).2 hi))

/-- Words that an encoder collects are at least one (R100). -/
theorem AsmOk.ne_nil {ws : List Word} (h : AsmOk ws) : ws ≠ [] := by
  rintro rfl
  exact h

/-- Settles O9: a word for a BUSY unit is lost, or one of the three things an operand word can be. -/
theorem cmdWordWhileBusy : Obligations.CmdWordWhileBusy := by
  refine ⟨fun s rest d u w hs hu hb ha => step_cmdDec_of_none hs hu (Ctl.takeWord_busy hb ha _ _),
    fun s rest e u w hs hu hb ha => step_cmdEnc_of_none hs hu (Ctl.takeWord_busy hb ha _ _),
    fun s rest e u w hs hu ha => ?_⟩
  obtain ⟨i, hd⟩ | hd | ⟨hd, hi⟩ := ha.decodeFor_append w
  · exact .inl ⟨i, hd, step_lastWord hs hu rfl ha.ne_nil hd⟩
  · exact .inr (.inl ⟨hd, step_operandWord hs hu rfl ha.ne_nil hd⟩)
  · exact .inr (.inr ⟨hd, hi, step_illegalWord2 hs hu rfl ha.ne_nil hd⟩)

end Machine

end Sys2Proof
end


section
/-! The commands that write and read a header alone (R143, R186, R188). -/

namespace Sys2Proof.Machine

/-- Settles O20: the header is written in full, and nothing follows it. -/
theorem encHeaderCompletes : Obligations.EncHeaderCompletes := by
  intro s u as hu hacc hpace ha
  have hrun : (u.begin s.params .header).Steps s.params
      (((u.sized s.params 0).send (waveStream s.params u.fmt 0 [])).finished .encDone) := by
    rw [EncUnit.begin_header, waveStream_eq, List.append_nil]
    refine (EncUnit.steps_header _ _ _ _ _ _ as ?_).trans (EncUnit.steps_finish ..)
    exact ha
  rw [show exec .encHeader s = s.startEnc .header from rfl,
    State.startEnc_eq hu hpace hrun (EncUnit.advance_of_idle rfl)]
  obtain ⟨-, -, -, -, -, -, hio, -⟩ := hacc
  simp [EncUnit.finished, EncUnit.send, EncUnit.sized, EncUnit.setPhase, Ctl.setPhase, Ctl.record, Ctl.release, hio,
    ha]

/-- After the parse DEC_HEADER finishes and reads nothing more (R186, R188). -/
theorem DecUnit.steps_parsed_header (v : DecUnit) (bo : ByteOrder) (p : DecPos) :
    (v.goto ⟨.header, bo, p⟩ .parsed).Steps (v.finished .dataChunkFound) :=
  (DecUnit.Steps.single rfl).trans (v.steps_finish ⟨.header, bo, .parsed⟩ .dataChunkFound)

/-- Settles O28: the parse consumes the header and loads its registers, and the command ends. -/
theorem decHeaderCompletes : Obligations.DecHeaderCompletes := by
  intro s u h rest hu hacc hpace hok hb
  have hrun := (u.steps_parse .header h hok rest hb).trans (DecUnit.steps_parsed_header ..)
  rw [show exec .decHeader s = s.startDec .header from rfl,
    State.startDec_eq hu hpace hrun (DecUnit.advance_of_idle rfl)]
  obtain ⟨-, -, -, -, -, -, hio, -⟩ := hacc
  simp [DecUnit.finished, DecUnit.parsedAs, DecUnit.started, DecUnit.consume, DecUnit.setPhase, Ctl.setPhase,
    Ctl.record, Ctl.release, hio, hb]

end Sys2Proof.Machine
end


section
/-! `wait` and the host actions that let a unit take a step (R109, R190, R253, R283, R284). -/

namespace Sys2Proof.Machine

/-! ### A wait for a unit that is not BUSY -/

/-- A wait whose poll shows BUSY = 0 is over (R109). -/
theorem State.waitFor_idle {s t : State} {x : UnitId} (hb : s.busy x = false)
    (h : s.mmioRead x 4 0x004 = .next t) : s.waitFor x = .next t := by
  simp only [State.waitFor, h, hb, Bool.false_eq_true, if_false]

theorem State.mmioRead_dec {s : State} {d off : Nat} {u : DecUnit} (hu : s.decs[d]? = some u) (h4 : off % 4 = 0)
    (hl : off < 0x100) : s.mmioRead (.dec d) 4 off = .next (s.polled (u.readAt s.draws off)) := by
  simp only [State.mmioRead, accessProblem_none h4 hl, hu, State.polled]

theorem State.mmioRead_enc {s : State} {e off : Nat} {u : EncUnit} (hu : s.encs[e]? = some u) (h4 : off % 4 = 0)
    (hl : off < 0x100) : s.mmioRead (.enc e) 4 off = .next (s.polled (u.readAt s.draws off)) := by
  simp only [State.mmioRead, accessProblem_none h4 hl, hu, State.polled]

theorem State.busy_dec {s : State} {d : Nat} {u : DecUnit} (hu : s.decs[d]? = some u) :
    s.busy (.dec d) = u.ctl.busy := by
  simp only [State.busy, hu, Option.map_some, Option.getD_some]

theorem State.busy_enc {s : State} {e : Nat} {u : EncUnit} (hu : s.encs[e]? = some u) :
    s.busy (.enc e) = u.ctl.busy := by
  simp only [State.busy, hu, Option.map_some, Option.getD_some]

/-- A poll of a decoder that is not BUSY returns its STATUS (R26, R63). -/
theorem DecUnit.readAt_status {u : DecUnit} (hb : u.ctl.busy = false) (n : Nat) :
    u.readAt n 0x004 = u.ctl.status u.hdrValid :=
  DecUnit.readAt_of_idle hb n 0x004

/-- A poll of an encoder that is not BUSY returns its STATUS (R26, R63). -/
theorem EncUnit.readAt_status {u : EncUnit} (hb : u.ctl.busy = false) (n : Nat) :
    u.readAt n 0x004 = u.ctl.status false :=
  EncUnit.readAt_of_idle hb n 0x004

theorem step_wait_idle_dec {s : State} {rest : List HostEvent} {d : Nat} {u : DecUnit}
    (hs : s.script = .wait (.dec d) :: rest) (hu : s.decs[d]? = some u) (hb : u.ctl.busy = false) :
    step s = .next { s with script := rest, rdata := u.ctl.status u.hdrValid, draws := s.draws + 1 } := by
  rw [step_of_script hs, ← DecUnit.readAt_status hb s.draws]
  exact State.waitFor_idle ((State.busy_dec hu).trans hb) (State.mmioRead_dec hu rfl (by decide))

theorem step_wait_idle_enc {s : State} {rest : List HostEvent} {e : Nat} {u : EncUnit}
    (hs : s.script = .wait (.enc e) :: rest) (hu : s.encs[e]? = some u) (hb : u.ctl.busy = false) :
    step s = .next { s with script := rest, rdata := u.ctl.status false, draws := s.draws + 1 } := by
  rw [step_of_script hs, ← EncUnit.readAt_status hb s.draws]
  exact State.waitFor_idle ((State.busy_enc hu).trans hb) (State.mmioRead_enc hu rfl (by decide))

/-! ### A wait for a BUSY unit -/

/-- A step at a wait for a BUSY unit: a turn, or else what the loop supplies, or else stuck; the wait stays the
host's next action (R109, R190, R283). -/
theorem step_wait_busy {s : State} {rest : List HostEvent} {u : UnitId} (hs : s.script = .wait u :: rest)
    (hb : s.busy u = true) : ∃ v : Word, v.getLsbD 0 = true ∧
    ((∃ x, s.CanStep x ∧ (s.CanStep u → x = u) ∧ step s = .next ((s.polled v).turnTaken x)) ∨
      (s.Quiet ∧ s.loop.filter s.supplies = [] ∧ step s = .fault .stuck) ∨
      (s.Quiet ∧ s.loop.filter s.supplies ≠ [] ∧
        step s = .next { s.polled v with script := s.loop.filter s.supplies ++ s.script })) := by
  have hself : ({ s with script := .wait u :: rest } : State) = s := by rw [← hs]
  rw [step_of_script hs]
  obtain ⟨v, hv, ⟨x, hx, hxu, h⟩ | h | ⟨hq, hne, h⟩⟩ := State.waitFor_busy (s := { s with script := rest }) hb
  · refine ⟨v, hv, .inl ⟨x, hx, hxu, h.trans ?_⟩⟩
    rw [← State.turnTaken_withScript, ← congrArg (State.polled · v) hself]
    rfl
  · exact ⟨v, hv, .inr (.inl h)⟩
  · exact ⟨v, hv, .inr (.inr ⟨hq, hne, hs ▸ h⟩)⟩

/-! ### What wakes a quiet machine -/

/-- In a quiet machine a changed decoder is the only unit that may take a step. -/
theorem State.Quiet.setDec_iff {s : State} (hq : s.Quiet) {d : Nat} {u v : DecUnit} (hu : s.decs[d]? = some u) :
    ¬ (s.setDec d v).Quiet ↔ v.advance.isSome := by
  have hd : d < s.decs.length := (List.getElem?_eq_some_iff.1 hu).1
  obtain ⟨hdec, henc⟩ := State.quiet_iff.1 hq
  rw [← Option.ne_none_iff_isSome, not_iff_not, State.quiet_iff]
  refine ⟨fun h => h.1 v (List.mem_set hd v), fun hv => ⟨fun w hw => ?_, henc⟩⟩
  obtain hw | rfl := List.mem_or_eq_of_mem_set hw
  · exact hdec w hw
  · exact hv

/-- In a quiet machine a changed encoder is the only unit that may take a step. -/
theorem State.Quiet.setEnc_iff {s : State} (hq : s.Quiet) {e : Nat} {u v : EncUnit} (hu : s.encs[e]? = some u) :
    ¬ (s.setEnc e v).Quiet ↔ (v.advance s.params).isSome := by
  have he : e < s.encs.length := (List.getElem?_eq_some_iff.1 hu).1
  obtain ⟨hdec, henc⟩ := State.quiet_iff.1 hq
  rw [← Option.ne_none_iff_isSome, not_iff_not, State.quiet_iff]
  refine ⟨fun h => h.2 v (List.mem_set he v), fun hv => ⟨hdec, fun w hw => ?_⟩⟩
  obtain hw | rfl := List.mem_or_eq_of_mem_set hw
  · exact henc w hw
  · exact hv

/-- An action on a decoder wakes a quiet machine when it lets that decoder take a step. -/
theorem State.Quiet.onDec_wakes_iff {s : State} (hq : s.Quiet) (d : Nat)
    (f : DecUnit → Host.Outcome DecUnit Fault Refusal) : (∃ t, s.onDec d f = .next t ∧ ¬ t.Quiet) ↔
      ∃ u v, s.decs[d]? = some u ∧ f u = .next v ∧ v.advance.isSome := by
  refine ⟨fun ⟨t, h, ht⟩ => ?_, fun ⟨u, v, hu, hf, hv⟩ => ⟨_, State.onDec_next hu hf, (hq.setDec_iff hu).2 hv⟩⟩
  cases hu : s.decs[d]? with
  | none => simp [State.onDec, hu] at h
  | some u =>
    cases hf : f u with
    | next v =>
      rw [State.onDec_next hu hf] at h
      cases h
      exact ⟨u, v, rfl, hf, (hq.setDec_iff hu).1 ht⟩
    | fault r => simp [State.onDec, hu, hf] at h
    | refused r => simp [State.onDec, hu, hf] at h

/-- An action on an encoder wakes a quiet machine when it lets that encoder take a step. -/
theorem State.Quiet.onEnc_wakes_iff {s : State} (hq : s.Quiet) (e : Nat)
    (f : EncUnit → Host.Outcome EncUnit Fault Refusal) : (∃ t, s.onEnc e f = .next t ∧ ¬ t.Quiet) ↔
      ∃ u v, s.encs[e]? = some u ∧ f u = .next v ∧ (v.advance s.params).isSome := by
  refine ⟨fun ⟨t, h, ht⟩ => ?_, fun ⟨u, v, hu, hf, hv⟩ => ⟨_, State.onEnc_next hu hf, (hq.setEnc_iff hu).2 hv⟩⟩
  cases hu : s.encs[e]? with
  | none => simp [State.onEnc, hu] at h
  | some u =>
    cases hf : f u with
    | next v =>
      rw [State.onEnc_next hu hf] at h
      cases h
      exact ⟨u, v, rfl, hf, (hq.setEnc_iff hu).1 ht⟩
    | fault r => simp [State.onEnc, hu, hf] at h
    | refused r => simp [State.onEnc, hu, hf] at h

/-- A host action that is the next event of a stream attached to a unit (R66, R69, R70, R279). -/
def HostEvent.FromStream (e : HostEvent) : Prop :=
  (∃ d v, e = .inEvent d v) ∨ (∃ d n, e = .soutRoom d n) ∨ (∃ k a, e = .outAnswer k a) ∨ ∃ k w, e = .sinWord k w

/-- In a quiet machine an action supplies a unit when it is an event of a stream that wakes the machine. -/
theorem State.Quiet.supplies_iff {s : State} (hq : s.Quiet) (e : HostEvent) :
    s.supplies e = true ↔ e.FromStream ∧ ∃ t, s.perform e = .next t ∧ ¬ t.Quiet := by
  cases e with
  | inEvent d v =>
    rw [State.perform, hq.onDec_wakes_iff]
    rw [State.supplies, Option.any_eq_true, and_iff_right (.inl ⟨d, v, rfl⟩)]
    refine exists_congr fun u => ?_
    cases u.deliver v <;> simp
  | soutRoom d n =>
    rw [State.perform, hq.onDec_wakes_iff]
    simp [State.supplies, Option.any_eq_true, HostEvent.FromStream]
  | outAnswer k a =>
    rw [State.perform, hq.onEnc_wakes_iff]
    simp [State.supplies, Option.any_eq_true, HostEvent.FromStream]
  | sinWord k w =>
    rw [State.perform, hq.onEnc_wakes_iff]
    simp [State.supplies, Option.any_eq_true, HostEvent.FromStream]
  | _ => simp [State.supplies, HostEvent.FromStream]

/-- Settles O57: the polled unit's STATUS when it is idle, and else the three outcomes of a poll. -/
theorem waitUntilIdle : Obligations.WaitUntilIdle := by
  refine ⟨fun s rest d u => step_wait_idle_dec, fun s rest e u => step_wait_idle_enc, fun s rest u hs hb => ?_,
    fun s e hq => hq.supplies_iff e⟩
  obtain ⟨v, hv, h⟩ := step_wait_busy hs hb
  refine ⟨v, hv, ?_⟩
  obtain ⟨x, hx, hxu, h⟩ | ⟨hq, hnone, h⟩ | ⟨hq, hsome, h⟩ := h
  · refine ⟨fun hu => hxu hu ▸ h, fun _ _ => ⟨x, hx, h⟩, fun hq => absurd hx (hq x), fun hq => absurd hx (hq x)⟩
  · refine ⟨fun hu => absurd hu (hq u), fun _ hn => absurd hq hn, fun _ _ => h, fun _ ⟨e, he, hse⟩ => ?_⟩
    exact absurd hse (List.filter_eq_nil_iff.1 hnone e he)
  · refine ⟨fun hu => absurd hu (hq u), fun _ hn => absurd hq hn, fun _ hnone => ?_, fun _ _ => h⟩
    exact absurd (List.filter_eq_nil_iff.2 fun e he => by simp [hnone e he]) hsome

end Sys2Proof.Machine
end


section
/-! Command lines and pseudo-instructions (R108, R109): the words of a line, and what they do at CMD. -/

namespace Sys2Proof

/-! ### The words of a line -/

/-- Word 0 as its fields side by side (R101). -/
theorem word0_eq_append (imm : Half) {o : Nat} (h : o < 2 ^ 8) :
    word0 imm o = imm ++ 0x00#8 ++ BitVec.ofNat 8 o := by
  have := imm.isLt
  apply BitVec.eq_of_toNat_eq
  simp only [word0, BitVec.toNat_append, BitVec.toNat_ofNat, Nat.zero_mod, Nat.or_zero]
  rw [← Nat.shiftLeft_add_eq_or_of_lt (by omega)]
  simp only [Nat.shiftLeft_eq]
  omega

/-- A number that fits a half is the same number as a word. -/
theorem setWidth_ofNat_half {n : Nat} (h : n < 2 ^ 16) :
    BitVec.setWidth 32 (BitVec.ofNat 16 n) = BitVec.ofNat 32 n := by
  apply BitVec.eq_of_toNat_eq
  simp only [BitVec.toNat_setWidth, BitVec.toNat_ofNat]
  omega

/-- A line assembles to the encoding of the command it names, on a unit of the kind that executes it (R108; log
19). -/
theorem AsmLine.assemble_eq_some_iff {l : AsmLine} {ws : List Word} : l.assemble = some ws ↔
    ∃ i, l.instr? = some i ∧ i.unitKind = l.unit.kind ∧ encode i = ws := by
  cases h : l.instr? with
  | none => simp [AsmLine.assemble, AsmLine.wellFormed, h]
  | some i => simp [AsmLine.assemble, AsmLine.wellFormed, Instr.wellFormed, h]

/-! The lines by the operands they take (R108). -/

/-- The lines without operands. -/
def plainLines : List (Mnemonic × Instr) :=
  [(.DEC_HEADER, .decHeader), (.DEC_INT16, .decInt16), (.DEC_FLOAT32, .decFloat32), (.ENC_HEADER, .encHeader)]

/-- The lines with a sample count. -/
def countLines : List (Mnemonic × (Word → Instr)) := [(.ENC_INT16, .encInt16), (.ENC_FLOAT32, .encFloat32)]

/-- The lines with a format, and their opcodes. -/
def formatLines : List (Mnemonic × (Half → Word → Half → Instr) × BitVec 8) :=
  [(.FMT_NEW_PCM, .fmtNewPcm, 0x21#8), (.FMT_NEW_FLOAT, .fmtNewFloat, 0x22#8)]

theorem mem_plainLines {m : Mnemonic} {i : Instr} : (m, i) ∈ plainLines ↔
    (m = .DEC_HEADER ∧ i = .decHeader) ∨ (m = .DEC_INT16 ∧ i = .decInt16) ∨ (m = .DEC_FLOAT32 ∧ i = .decFloat32) ∨
      (m = .ENC_HEADER ∧ i = .encHeader) := by
  simp [plainLines]

theorem mem_countLines {m : Mnemonic} {f : Word → Instr} : (m, f) ∈ countLines ↔
    (m = .ENC_INT16 ∧ f = .encInt16) ∨ (m = .ENC_FLOAT32 ∧ f = .encFloat32) := by
  simp [countLines]

theorem mem_formatLines {m : Mnemonic} {f : Half → Word → Half → Instr} {o : BitVec 8} : (m, f, o) ∈ formatLines ↔
    (m = .FMT_NEW_PCM ∧ f = .fmtNewPcm ∧ o = 0x21#8) ∨ (m = .FMT_NEW_FLOAT ∧ f = .fmtNewFloat ∧ o = 0x22#8) := by
  simp [formatLines]

section

variable {x : UnitId} {m : Mnemonic} {ops : List Nat} {ws : List Word}

/-- A line without operands names its command when none is written. -/
theorem AsmLine.instr?_plain {i j : Instr} (h : (m, i) ∈ plainLines) :
    (AsmLine.mk x m ops).instr? = some j ↔ ops = [] ∧ j = i := by
  rcases mem_plainLines.1 h with ⟨rfl, rfl⟩ | ⟨rfl, rfl⟩ | ⟨rfl, rfl⟩ | ⟨rfl, rfl⟩ <;> cases ops <;>
    simp [AsmLine.instr?, eq_comm (a := j)]

/-- A line with a count names its command when one number below 2^32 is written. -/
theorem AsmLine.instr?_count {f : Word → Instr} {j : Instr} (h : (m, f) ∈ countLines) :
    (AsmLine.mk x m ops).instr? = some j ↔ ∃ n, ops = [n] ∧ n < 2 ^ 32 ∧ j = f (BitVec.ofNat 32 n) := by
  rcases mem_countLines.1 h with ⟨rfl, rfl⟩ | ⟨rfl, rfl⟩ <;> rcases ops with _ | ⟨n, _ | ⟨n', ops⟩⟩ <;>
    simp [AsmLine.instr?, eq_comm (a := j)]

/-- A line with a format names its command when three numbers in their ranges are written. -/
theorem AsmLine.instr?_format {f : Half → Word → Half → Instr} {o : BitVec 8} {j : Instr}
    (h : (m, f, o) ∈ formatLines) :
    (AsmLine.mk x m ops).instr? = some j ↔ ∃ ch rate bits, ops = [ch, rate, bits] ∧
      (ch < 2 ^ 16 ∧ rate < 2 ^ 32 ∧ bits < 2 ^ 16) ∧
      j = f (BitVec.ofNat 16 ch) (BitVec.ofNat 32 rate) (BitVec.ofNat 16 bits) := by
  rcases mem_formatLines.1 h with ⟨rfl, rfl, -⟩ | ⟨rfl, rfl, -⟩ <;>
    rcases ops with _ | ⟨ch, _ | ⟨rate, _ | ⟨bits, _ | ⟨n, ops⟩⟩⟩⟩ <;>
    simp [AsmLine.instr?, eq_comm (a := j), and_assoc]

/-- The words of a format command on the numbers of its line (R102). -/
theorem encode_format {f : Half → Word → Half → Instr} {o : BitVec 8} (h : (m, f, o) ∈ formatLines) (ch rate : Nat)
    {bits : Nat} (hb : bits < 2 ^ 16) :
    encode (f (BitVec.ofNat 16 ch) (BitVec.ofNat 32 rate) (BitVec.ofNat 16 bits)) =
      [BitVec.ofNat 16 ch ++ 0x00#8 ++ o, BitVec.ofNat 32 rate, BitVec.ofNat 32 bits] := by
  rw [← setWidth_ofNat_half hb]
  obtain ⟨-, rfl, rfl⟩ | ⟨-, rfl, rfl⟩ := mem_formatLines.1 h
  · rw [encode, word0_eq_append _ (by decide)]
  · rw [encode, word0_eq_append _ (by decide)]

/-- The words of a line without operands. -/
theorem AsmLine.assemble_plain {i : Instr} (h : (m, i) ∈ plainLines) :
    (AsmLine.mk x m ops).assemble = some ws ↔ x.kind = i.unitKind ∧ ops = [] ∧ ws = encode i := by
  simp only [AsmLine.assemble_eq_some_iff, AsmLine.instr?_plain h]
  constructor
  · rintro ⟨_, ⟨ho, rfl⟩, hk, rfl⟩
    exact ⟨hk.symm, ho, rfl⟩
  · rintro ⟨hk, ho, rfl⟩
    exact ⟨i, ⟨ho, rfl⟩, hk.symm, rfl⟩

/-- The words of a line with a sample count. -/
theorem AsmLine.assemble_count {f : Word → Instr} (h : (m, f) ∈ countLines) :
    (AsmLine.mk x m ops).assemble = some ws ↔
      x.kind = .enc ∧ ∃ n, ops = [n] ∧ n < 2 ^ 32 ∧ ws = encode (f (BitVec.ofNat 32 n)) := by
  have hf : ∀ n, (f n).unitKind = .enc := by
    obtain ⟨-, rfl⟩ | ⟨-, rfl⟩ := mem_countLines.1 h <;> exact fun _ => rfl
  simp only [AsmLine.assemble_eq_some_iff, AsmLine.instr?_count h]
  constructor
  · rintro ⟨_, ⟨n, ho, hn, rfl⟩, hk, rfl⟩
    exact ⟨hk.symm.trans (hf _), n, ho, hn, rfl⟩
  · rintro ⟨hk, n, ho, hn, rfl⟩
    exact ⟨_, ⟨n, ho, hn, rfl⟩, (hf _).trans hk.symm, rfl⟩

/-- The words of a line with a format. -/
theorem AsmLine.assemble_format {f : Half → Word → Half → Instr} {o : BitVec 8} (h : (m, f, o) ∈ formatLines) :
    (AsmLine.mk x m ops).assemble = some ws ↔ x.kind = .enc ∧ ∃ ch rate bits, ops = [ch, rate, bits] ∧
      ch < 2 ^ 16 ∧ rate < 2 ^ 32 ∧ bits < 2 ^ 16 ∧
      ws = [BitVec.ofNat 16 ch ++ 0x00#8 ++ o, BitVec.ofNat 32 rate, BitVec.ofNat 32 bits] := by
  have hf : ∀ ch rate bits, (f ch rate bits).unitKind = .enc := by
    obtain ⟨-, rfl, -⟩ | ⟨-, rfl, -⟩ := mem_formatLines.1 h <;> exact fun _ _ _ => rfl
  simp only [AsmLine.assemble_eq_some_iff, AsmLine.instr?_format h]
  constructor
  · rintro ⟨_, ⟨ch, rate, bits, ho, ⟨hch, hrate, hbits⟩, rfl⟩, hk, rfl⟩
    exact ⟨hk.symm.trans (hf ..), ch, rate, bits, ho, hch, hrate, hbits, encode_format h ch rate hbits⟩
  · rintro ⟨hk, ch, rate, bits, ho, hch, hrate, hbits, rfl⟩
    exact ⟨_, ⟨ch, rate, bits, ho, ⟨hch, hrate, hbits⟩, rfl⟩, (hf ..).trans hk.symm,
      encode_format h ch rate hbits⟩

end

namespace Machine

/-! ### The words of a line at CMD -/

/-- A line's host actions are the CMD writes of the words it assembles to, which decode on its unit (R108). -/
theorem AsmLine.events_eq_some {l : AsmLine} {es : List HostEvent} (h : AsmLine.events l = some es) :
    ∃ ws i, l.assemble = some ws ∧ es = ws.map (.write l.unit 4 0x008 ·) ∧ decodeFor l.unit.kind ws = .ok i := by
  obtain ⟨ws, hws, rfl⟩ := Option.map_eq_some_iff.1 h
  obtain ⟨i, -, hk, rfl⟩ := Sys2Proof.AsmLine.assemble_eq_some_iff.1 hws
  exact ⟨_, i, hws, rfl, hk ▸ decodeFor_encode i⟩

/-- A run of one step is that step. -/
theorem core_run_one (M : Host.Core) (s : M.State) : M.run 1 s = M.step s := by
  simp only [Host.Core.run]
  cases M.step s <;> rfl

/-- A run of one step is that step. -/
theorem run_one (s : State) : Sys2Proof.core.run 1 s = step s := core_run_one Sys2Proof.core s

/-- A decoder's commands have one word (R103). -/
theorem eq_singleton_of_decodeFor_dec {ws : List Word} {i : Instr} (h : decodeFor .dec ws = .ok i) :
    ∃ w, ws = [w] := by
  obtain ⟨-, -, hl⟩ := encodeOfDecode .dec ws i h
  rw [← List.length_eq_one_iff, hl]
  match i, decodeFor_unitKind h with
  | .decHeader, _ => rfl
  | .decInt16, _ => rfl
  | .decFloat32, _ => rfl

/-- The words of a decoder's command, written to the CMD of an idle decoder (R108, R240). -/
theorem run_decWords {s : State} {ws : List Word} {rest : List HostEvent} {d : Nat} {u : DecUnit} {i : Instr}
    (hd : decodeFor .dec ws = .ok i) (hu : s.decs[d]? = some u) (hb : u.ctl.busy = false) (ha : u.ctl.asm = [])
    (hs : s.script = ws.map (.write (.dec d) 4 0x008 ·) ++ rest) :
    Sys2Proof.core.run ws.length s = exec i { { s with script := rest }.setDec d
      { u with ctl := u.ctl.accept } with sel := d } := by
  obtain ⟨w, rfl⟩ := eq_singleton_of_decodeFor_dec hd
  exact (run_one s).trans (step_cmdDec_of_some hs hu (Ctl.takeWord_start hb ha hd))

/-- The machine after a word for encoder `e` that leaves the encoder as `v`, with `l` still to be done. -/
def State.afterWord (s : State) (l : List HostEvent) (e : Nat) (v : EncUnit) : State :=
  { ({ s with script := l } : State).setEnc e v with sel := e }

theorem State.afterWord_encs {s : State} {e : Nat} {u : EncUnit} (hu : s.encs[e]? = some u) (l : List HostEvent)
    (v : EncUnit) : (s.afterWord l e v).encs[e]? = some v :=
  List.getElem?_set_self (List.getElem?_eq_some_iff.1 hu).1

theorem State.afterWord_afterWord (s : State) (k l : List HostEvent) (e : Nat) (v w : EncUnit) :
    (s.afterWord k e v).afterWord l e w = s.afterWord l e w := by
  simp only [State.afterWord, State.setEnc, List.set_set]

/-- An encoder that has accepted a command and holds the words `asm` of it (R100, R240). -/
def EncUnit.collecting (u : EncUnit) (asm : List Word) : EncUnit :=
  { u with ctl := { u.ctl.accept with phase := .operands, asm := asm } }

section

variable {s : State} {rest : List HostEvent} {e : Nat} {u : EncUnit} {asm : List Word} {w : Word}

/-- An operand word after which more are missing, in the middle of a command's words (R100, R240). -/
theorem step_collecting_operand (hu : s.encs[e]? = some u) (hne : asm ≠ [])
    (hd : decodeFor .enc (asm ++ [w]) = .error .operandMissing) :
    step (s.afterWord (.write (.enc e) 4 0x008 w :: rest) e (u.collecting asm)) =
      .next (s.afterWord rest e (u.collecting (asm ++ [w]))) := by
  rw [← s.afterWord_afterWord (.write (.enc e) 4 0x008 w :: rest) rest e (u.collecting asm)]
  exact step_operandWord rfl (State.afterWord_encs hu _ _) rfl hne hd

/-- The last word of a command's words (R240, R241). -/
theorem step_collecting_last {i : Instr} (hu : s.encs[e]? = some u) (hne : asm ≠ [])
    (hd : decodeFor .enc (asm ++ [w]) = .ok i) :
    step (s.afterWord (.write (.enc e) 4 0x008 w :: rest) e (u.collecting asm)) =
      exec i (s.afterWord rest e (u.collecting [])) := by
  rw [← s.afterWord_afterWord (.write (.enc e) 4 0x008 w :: rest) rest e (u.collecting asm)]
  exact step_lastWord rfl (State.afterWord_encs hu _ _) rfl hne hd

end

/-- The words of an encoder's command, written to the CMD of an idle encoder (R108, R240). -/
theorem run_encWords {s : State} {ws : List Word} {rest : List HostEvent} {e : Nat} {u : EncUnit} {i : Instr}
    (hd : decodeFor .enc ws = .ok i) (hu : s.encs[e]? = some u) (hb : u.ctl.busy = false) (ha : u.ctl.asm = [])
    (hs : s.script = ws.map (.write (.enc e) 4 0x008 ·) ++ rest) :
    Sys2Proof.core.run ws.length s = exec i (s.afterWord rest e
      { u with ctl := { u.ctl.accept with phase := if ws.length = 1 then u.ctl.phase else .operands } }) := by
  obtain ⟨w0, ops, rfl, hr⟩ := decodeFor_legal hd
  have hl := opcLength_of_decodeFor hd
  have hcollected : u.collecting [] = { u with ctl := { u.ctl.accept with phase := .operands } } := by
    rw [← ha]
    rfl
  match ops with
  | [] => exact (run_one s).trans (step_cmdEnc_of_some hs hu (Ctl.takeWord_start hb ha hd))
  | [w1] =>
    have first := step_firstWord hs hu hb ha hr (by rw [hl]; exact Nat.one_lt_two)
    have last := step_collecting_last (rest := rest) hu (List.cons_ne_nil w0 []) hd
    exact (run_succ first 1).trans ((run_one _).trans (hcollected ▸ last))
  | [w1, w2] =>
    have hlong : 2 < opcLength (opc w0) := by rw [hl]; exact Nat.lt_add_one 2
    have first := step_firstWord hs hu hb ha hr (Nat.lt_trans Nat.one_lt_two hlong)
    have second := step_collecting_operand (rest := .write (.enc e) 4 0x008 w2 :: rest) hu (List.cons_ne_nil w0 [])
      (decodeFor_two_of_three hr hlong w1)
    have last := step_collecting_last (rest := rest) hu (List.cons_ne_nil w0 [w1]) hd
    exact (run_succ first 2).trans ((run_succ second 1).trans ((run_one _).trans (hcollected ▸ last)))
  | _ :: _ :: _ :: _ => simp only [decodeFor, hr] at hd; cases hd

/-- Settles O5: the words of a line are its command's encoding, and a run of their writes ends in its start. -/
theorem assembledLinesDecode : Obligations.AssembledLinesDecode := by
  refine ⟨fun x m ops ws => ?words, fun s l es rest d u hl he hu hb ha hs => ?dec,
    fun s l es rest e u hl he hu hb ha hs => ?enc, fun x => ⟨rfl, rfl, rfl, rfl⟩, fun e ch rate n => ?pseudo⟩
  case words =>
    cases m with
    | DEC_HEADER => exact Sys2Proof.AsmLine.assemble_plain (i := .decHeader) (by decide)
    | DEC_INT16 => exact Sys2Proof.AsmLine.assemble_plain (i := .decInt16) (by decide)
    | DEC_FLOAT32 => exact Sys2Proof.AsmLine.assemble_plain (i := .decFloat32) (by decide)
    | FMT_NEW_PCM => exact Sys2Proof.AsmLine.assemble_format (.head _)
    | FMT_NEW_FLOAT => exact Sys2Proof.AsmLine.assemble_format (.tail _ (.head _))
    | ENC_HEADER => exact Sys2Proof.AsmLine.assemble_plain (i := .encHeader) (by decide)
    | ENC_INT16 => exact Sys2Proof.AsmLine.assemble_count (.head _)
    | ENC_FLOAT32 => exact Sys2Proof.AsmLine.assemble_count (.tail _ (.head _))
  case dec =>
    obtain ⟨ws, i, hws, rfl, hd⟩ := AsmLine.events_eq_some he
    rw [hl] at hd hs ⊢
    rw [List.length_map]
    exact ⟨ws, i, hws, rfl, hd, run_decWords hd hu hb ha hs⟩
  case enc =>
    obtain ⟨ws, i, hws, rfl, hd⟩ := AsmLine.events_eq_some he
    rw [hl] at hd hs ⊢
    rw [List.length_map]
    exact ⟨ws, i, hws, rfl, hd, run_encWords hd hu hb ha hs⟩
  case pseudo =>
    rw [← word0_eq_append ch (o := 0x21) (by decide), ← word0_eq_append ch (o := 0x22) (by decide)]
    exact ⟨rfl, rfl⟩

end Machine

end Sys2Proof
end

section
/-! The format constructors: all their format registers, and the byte rate they derive (R120 to R125). -/

namespace Sys2Proof.Machine

open Sys2Proof.Config (Params)

/-- A constructor always completes: it waits for no stream and checks no operand, and its turn ends with the seven
format registers written (R120, R121, R122, R124). -/
theorem State.startEnc_construct {s : State} {u : EncUnit} (hu : s.encs[s.sel]? = some u)
    (hpace : s.pace = none) (a : CtorArgs) :
    s.startEnc (.construct a) = .next (s.setEnc s.sel { u.constructed s.params a with
      ctl := { u.ctl with busy := false, done := true, phase := .encDone, asm := [] }
      run := none }) := by
  have hrun : (u.begin s.params (.construct a)).Steps s.params
      (({ u with ctl := { u.ctl with asm := [] } }.constructed s.params a).finished .encDone) :=
    (EncUnit.steps_construct ..).trans (EncUnit.steps_finish ..)
  rw [State.startEnc_eq hu hpace hrun (EncUnit.advance_of_idle rfl)]
  simp [EncUnit.finished, EncUnit.constructed, Ctl.record, Ctl.release]

/-- Settles O17: FMT_NEW_PCM is the constructor of format code 1. -/
theorem fmtNewPcmCompletes : Obligations.FmtNewPcmCompletes :=
  fun _ _ ch rate bits hu _ hpace => State.startEnc_construct hu hpace ⟨1#16, ch, rate, bits⟩

/-- Settles O18: FMT_NEW_FLOAT is the constructor of format code 3. -/
theorem fmtNewFloatCompletes : Obligations.FmtNewFloatCompletes :=
  fun _ _ ch rate bits hu _ hpace => State.startEnc_construct hu hpace ⟨3#16, ch, rate, bits⟩

/-- R123: with nothing truncated and `scale·bits` a multiple of 8, the division commutes with the factor `rate`. -/
theorem ctorBytesPerSec_eq_rate_mul_ctorBlockAlign {p : Params} {ch bits : Half} {rate : Word}
    (h8 : 8 ∣ ctorScale p ch * bits.toNat) (halign : ctorScale p ch * bits.toNat / 8 < 2 ^ 16)
    (hrate : rate.toNat * ctorScale p ch * bits.toNat / 8 < 2 ^ 32) :
    (ctorBytesPerSec p ch rate bits).toNat = rate.toNat * (ctorBlockAlign p ch bits).toNat := by
  calc (ctorBytesPerSec p ch rate bits).toNat
      = rate.toNat * ctorScale p ch * bits.toNat / 8 := Nat.mod_eq_of_lt hrate
    _ = rate.toNat * (ctorScale p ch * bits.toNat / 8) := by rw [Nat.mul_assoc, Nat.mul_div_assoc _ h8]
    _ = rate.toNat * (ctorBlockAlign p ch bits).toNat := congrArg _ (Nat.mod_eq_of_lt halign).symm

/-- Settles O19: the registers of a completed constructor, and R123's law of their values. -/
theorem constructedByteRate : Obligations.ConstructedByteRate := by
  intro s t u ch rate bits i hi hu _ hpace ht scale hscale h8 halign hrate
  subst hscale
  obtain ⟨code, hexec⟩ : ∃ code, exec i s = s.startEnc (.construct ⟨code, ch, rate, bits⟩) := by
    obtain rfl | rfl : i = .fmtNewPcm ch rate bits ∨ i = .fmtNewFloat ch rate bits := by simpa using hi
    · exact ⟨1#16, rfl⟩
    · exact ⟨3#16, rfl⟩
  rw [hexec, State.startEnc_construct hu hpace] at ht
  cases ht
  exact ⟨_, List.getElem?_set_self (List.getElem?_eq_some_iff.1 hu).1,
    ctorBytesPerSec_eq_rate_mul_ctorBlockAlign h8 halign hrate⟩

end Sys2Proof.Machine
end

section
/-! Sample commands that the encoder ends itself: a count above NMAX, a float out of range (R140, R146, R250). -/

namespace Sys2Proof.Machine

open Sys2Proof.Config (Params)

/-- `EncPrologue` with a count above NMAX fails before it touches a size register or the sink (R140, R250). -/
theorem EncUnit.begin_samples_of_gt (p : Params) (u : EncUnit) {kind : SampleKind} {n : Word}
    (h : nMax p kind < n.toNat) :
    u.begin p (.samples kind n) = { u with ctl := { u.ctl with asm := [] } }.fail u.ctl.sampleBo
      .operandRange .command n.toNat (nMax p kind) :=
  if_pos h

/-- Settles O23: the operand check ends the command, and the error is all it leaves. -/
theorem sampleCountTooLarge : Obligations.SampleCountTooLarge := by
  intro s u kind n hu _ hpace hn
  have hrun := EncUnit.steps_raise s.params { u with ctl := { u.ctl with asm := [] } } u.ctl.sampleBo
    .operandRange .command n.toNat (nMax s.params kind)
  rw [← EncUnit.begin_samples_of_gt s.params u hn] at hrun
  rw [exec_encSamples, State.startEnc_eq hu hpace hrun (EncUnit.advance_of_idle rfl)]
  simp [EncUnit.raised, Ctl.raise, Ctl.record, Ctl.release, nMax]

/-- A word that the encoder does not write is taken from SIN and ends the command (R70, R146). -/
theorem EncUnit.steps_taking_of_not_encodable {p : Params} {u : EncUnit} {bo : ByteOrder}
    {kind : SampleKind} {left : Nat} {w : Word} {rest : List Word} (hs : u.sin.ready = w :: rest)
    (hw : encodable p kind w = false) : (u.goto bo (.taking kind left)).Steps p
      ((u.takeWords 1).raised .sampleOutOfRange .encSampleRange w.toNat floatOne) := by
  refine .head (v := (u.takeWords 1).fail bo .sampleOutOfRange .encSampleRange w.toNat floatOne) ?_
    (EncUnit.steps_raise ..)
  simp [EncUnit.advance, EncUnit.goto, EncUnit.stepTake, SampleSource.next, hs, hw, EncUnit.takeWords,
    EncUnit.fail]

/-- After the words `ws` have been written, SIN holds what follows them (R142). -/
theorem EncUnit.wrote_ready {v : EncUnit} {kind : SampleKind} {bo : ByteOrder} {ws rest : List Word}
    (h : v.sin.ready = ws ++ rest) : (v.wrote kind bo ws).sin.ready = rest := by
  simp [EncUnit.wrote, EncUnit.takeWords, EncUnit.send, EncUnit.countSamples, h]

/-- Settles O26: the header and the samples in range are written, and the next word ends the command. -/
theorem encRangeFailure : Obligations.EncRangeFailure := by
  intro s u n ws w rest as hu hacc hpace hcheck hn hlt hs hok hw ha
  rw [Nat.mul_comm 4 ws.length] at ha
  obtain ⟨left, hleft⟩ : ∃ left, n.toNat = ws.length + (left + 1) := ⟨n.toNat - ws.length - 1, by omega⟩
  have hwrite := EncUnit.steps_begin_samples s.params u .float32 n ws (w :: rest) as (left + 1) hn hleft hs
    (fun x hx => encodable_float32 fun _ => hok x hx) ha
  have hbad : encodable s.params .float32 w = false := by simp [encodable, hcheck, hw]
  have hend := hwrite.trans (EncUnit.steps_taking_of_not_encodable (EncUnit.wrote_ready hs) hbad)
  rw [show exec (.encFloat32 n) s = _ from exec_encSamples .float32 n s,
    State.startEnc_eq hu hpace hend (EncUnit.advance_of_idle rfl)]
  obtain ⟨-, -, -, -, -, -, hio, hsc, -⟩ := hacc
  simp [EncUnit.raised, EncUnit.wrote, EncUnit.takeWords, EncUnit.send, EncUnit.countSamples, EncUnit.setPhase,
    EncUnit.sized, Ctl.setPhase, Ctl.raise, Ctl.record, Ctl.release, waveStream_eq, floatOne, SampleKind.size,
    hio, hsc, hs, ha, BitVec.ofNat_add, Nat.mul_comm]

end Sys2Proof.Machine
end


section
/-! Headers that end every decode command: a wrong identifier or tag, a format code that is not recognized (R172 to
R178). -/

namespace Sys2Proof.Machine

/-- A decode command that comes to `raise` ends there (R246). -/
theorem exec_decCmd_raised {s : State} {u v : DecUnit} {cmd : DecCmd} {r : DecRun} {k : ErrKind} {st : Stage}
    {a x : Nat} (hu : s.decs[s.sel]? = some u) (hpace : s.pace = none)
    (h : (u.begin cmd).Steps (v.fail r k st a x)) :
    exec cmd.instr s = .next (s.setDec s.sel (v.raised k st a x)) := by
  rw [exec_decCmd, State.startDec_eq hu hpace (h.trans (v.steps_raise r k st a x)) (DecUnit.advance_of_idle rfl)]

/-! ### Tags as words -/

theorem tagRiff_bytes : [0x52#8, 0x49#8, 0x46#8, 0x46#8] = tagRiff := rfl

theorem ofNat_pack32_tagRiff : BitVec.ofNat 32 (pack32 tagRiff) = 0x46464952#32 := rfl

theorem ofNat_pack32_tagWave : BitVec.ofNat 32 (pack32 tagWave) = 0x45564157#32 := rfl

theorem ofNat_pack32_tagFmt : BitVec.ofNat 32 (pack32 tagFmt) = 0x20746D66#32 := rfl

/-! ### The RiffHeader -/

/-- A decoder with the RiffHeader registers loaded (R33, R91). -/
def DecUnit.withRiff (u : DecUnit) (ident size type : Word) : DecUnit :=
  { u with hdr := { u.hdr with riffIdent := ident, riffSize := size, riffType := type } }

theorem DecHeader.loadRiff_eq (h : DecHeader) (a0 a1 a2 a3 : Byte) (size : Word) (b0 b1 b2 b3 : Byte) :
    h.loadRiff ([a0, a1, a2, a3] ++ bytesLe32 size ++ [b0, b1, b2, b3]) =
      { h with riffIdent := a3 ++ a2 ++ a1 ++ a0, riffSize := size, riffType := b3 ++ b2 ++ b1 ++ b0 } := by
  have hident : slice ([a0, a1, a2, a3] ++ bytesLe32 size ++ [b0, b1, b2, b3]) 0 4 = [a0, a1, a2, a3] := rfl
  have hsize : slice ([a0, a1, a2, a3] ++ bytesLe32 size ++ [b0, b1, b2, b3]) 4 4 = bytesLe32 size := rfl
  have htype : slice ([a0, a1, a2, a3] ++ bytesLe32 size ++ [b0, b1, b2, b3]) 8 4 = [b0, b1, b2, b3] := rfl
  simp only [DecHeader.loadRiff, hident, hsize, htype, ofNat_pack32, le32_bytesLe32, BitVec.ofNat_toNat,
    BitVec.setWidth_eq]

/-- A wrong identifier fails the command, the ident reported when both are wrong (R174, R175). -/
theorem DecUnit.afterRiff_of_wrong (u : DecUnit) (r : DecRun) {a0 a1 a2 a3 b0 b1 b2 b3 : Byte} (size : Word)
    (hne : [a0, a1, a2, a3] ≠ tagRiff ∨ [b0, b1, b2, b3] ≠ tagWave) :
    u.afterRiff r ([a0, a1, a2, a3] ++ bytesLe32 size ++ [b0, b1, b2, b3]) =
      (u.withRiff (a3 ++ a2 ++ a1 ++ a0) size (b3 ++ b2 ++ b1 ++ b0)).fail r .malformedContainer .riffRecord
        (pack32 (if [a0, a1, a2, a3] = tagRiff then [b0, b1, b2, b3] else [a0, a1, a2, a3]))
        (pack32 (if [a0, a1, a2, a3] = tagRiff then tagWave else tagRiff)) := by
  rw [DecUnit.afterRiff, DecHeader.loadRiff_eq]
  by_cases hident : [a0, a1, a2, a3] = tagRiff
  · have htype : [b0, b1, b2, b3] ≠ tagWave := hne.resolve_left (not_not.2 hident)
    rw [if_pos hident, if_pos hident]
    exact (if_neg (not_not.2 hident)).trans (if_pos htype)
  · rw [if_neg hident, if_neg hident]
    exact if_pos hident

/-- "RIFF" and "WAVE" lead to the format tag (R172). -/
theorem DecUnit.steps_riffVerified (u : DecUnit) (r : DecRun) {size : Word} {rest : List Byte}
    (hb : u.inp.ready = tagRiff ++ bytesLe32 size ++ tagWave ++ rest) :
    (u.goto r (.reading .riff 12 [])).Steps
      ((((u.withRiff 0x46464952#32 size 0x45564157#32).setPhase .riffVerified).consume 12).goto r
        (.reading .fmtTag 4 [])) := by
  have hread := u.steps_read r .riff 12 _ rest [] hb (by simp [tagRiff]) rfl
  rw [List.nil_append, DecUnit.afterRead, DecUnit.afterRiff, DecHeader.loadRiff_bytes] at hread
  exact hread

/-- Settles O31: the RiffHeader is loaded, then the first of its identifiers that is wrong ends the command. -/
theorem wrongRiffHeader : Obligations.WrongRiffHeader := by
  intro s u cmd a0 a1 a2 a3 size b0 b1 b2 b3 rest hu hacc hpace hb hne
  have hread := u.started.steps_read ⟨cmd, u.ctl.sampleBo, .releasing⟩ .riff 12 _ rest [] hb (by simp) rfl
  rw [List.nil_append, DecUnit.afterRead, DecUnit.afterRiff_of_wrong _ _ size hne] at hread
  rw [exec_decCmd_raised hu hpace hread]
  obtain ⟨-, -, -, -, -, -, hio, -⟩ := hacc
  have hdrop : u.inp.ready.drop 12 = rest := by rw [hb]; rfl
  by_cases hident : [a0, a1, a2, a3] = tagRiff <;>
    simp [DecUnit.raised, DecUnit.withRiff, DecUnit.started, DecUnit.consume, Ctl.record, Ctl.release, hio, hdrop,
      tagRiff_bytes, hident, -List.cons.injEq, ofNat_pack32, ofNat_pack32_tagRiff, ofNat_pack32_tagWave]

/-! ### The format tag and the format record -/

/-- Any tag but "fmt " ends the command (R176). -/
theorem DecUnit.steps_fmtTag_wrong (u : DecUnit) (r : DecRun) {tag rest : List Byte} (hb : u.inp.ready = tag ++ rest)
    (hlen : tag.length = 4) (hne : tag ≠ tagFmt) :
    (u.goto r (.reading .fmtTag 4 [])).Steps
      ((u.consume 4).fail r .malformedContainer .fmtTag (pack32 tag) (pack32 tagFmt)) := by
  have hread := u.steps_read r .fmtTag 4 tag rest [] hb (List.ne_nil_of_length_pos (by omega)) (by simpa using hlen)
  rwa [List.nil_append, DecUnit.afterRead, DecUnit.afterFmtTag, if_pos hne, hlen] at hread

/-- Settles O32: behind "RIFF" and "WAVE" the tag is the first thing wrong. -/
theorem wrongFormatTag : Obligations.WrongFormatTag := by
  intro s u cmd size a0 a1 a2 a3 rest hu hacc hpace hb hne
  have hb' : u.started.inp.ready = tagRiff ++ bytesLe32 size ++ tagWave ++ ([a0, a1, a2, a3] ++ rest) := by
    rw [← List.append_assoc]; exact hb
  have hriff := u.started.steps_riffVerified ⟨cmd, u.ctl.sampleBo, .releasing⟩ hb'
  have htag := DecUnit.steps_fmtTag_wrong
    (((u.started.withRiff 0x46464952#32 size 0x45564157#32).setPhase .riffVerified).consume 12)
    ⟨cmd, u.ctl.sampleBo, .releasing⟩ (DecUnit.consume_ready u.started hb') rfl hne
  rw [exec_decCmd_raised hu hpace (hriff.trans htag), DecUnit.consume_consume]
  obtain ⟨-, -, -, -, -, -, hio, -⟩ := hacc
  have hdrop : u.inp.ready.drop 16 = rest := by rw [hb]; rfl
  simp [DecUnit.raised, DecUnit.withRiff, DecUnit.started, DecUnit.consume, DecUnit.setPhase, Ctl.setPhase, Ctl.record,
    Ctl.release, hio, hdrop, ofNat_pack32, ofNat_pack32_tagFmt]

/-- "RIFF", "WAVE" and "fmt " lead to the format record (R172). -/
theorem DecUnit.steps_fmtVerified (u : DecUnit) (r : DecRun) {size : Word} {rest : List Byte}
    (hb : u.inp.ready = tagRiff ++ bytesLe32 size ++ tagWave ++ (tagFmt ++ rest)) :
    (u.goto r (.reading .riff 12 [])).Steps
      ((((u.withRiff 0x46464952#32 size 0x45564157#32).setPhase .fmtVerified).consume 16).goto r
        (.reading .fmtRecord 20 [])) := by
  refine (u.steps_riffVerified r hb).trans ?_
  have hread := DecUnit.steps_read
    (((u.withRiff 0x46464952#32 size 0x45564157#32).setPhase .riffVerified).consume 12) r .fmtTag 4 tagFmt rest []
    (DecUnit.consume_ready u hb) (by decide) rfl
  rw [DecUnit.consume_consume] at hread
  exact hread

theorem DecHeader.loadFormat_audioFormat (h : DecHeader) (f : EncFormat) :
    (h.loadFormat (formatRecord f)).audioFormat = f.audioFormat := by
  rw [DecHeader.loadFormat_bytes]

/-- A format code that is not recognized ends the command, the format registers loaded (R177, R178). -/
theorem DecUnit.steps_fmtRecord_unrecognized (u : DecUnit) (r : DecRun) {f : EncFormat} {rest : List Byte}
    (hb : u.inp.ready = formatRecord f ++ rest) (hf : f.audioFormat ∉ recognizedFormats) :
    (u.goto r (.reading .fmtRecord 20 [])).Steps
      ({ u.consume 20 with hdr := u.hdr.loadFormat (formatRecord f) }.fail r .unsupportedFormat .fmtValidate
        f.audioFormat.toNat 0) := by
  have hread := u.steps_read r .fmtRecord 20 (formatRecord f) rest [] hb (by simp [formatRecord, bytesLe32]) rfl
  simp only [List.nil_append, DecUnit.afterRead, DecUnit.afterFmtRecord, DecHeader.loadFormat_audioFormat, hf,
    not_false_eq_true, if_true] at hread
  exact hread

/-- Settles O33: behind "RIFF", "WAVE" and "fmt " the format code is the first thing wrong. -/
theorem unrecognizedFormatCode : Obligations.UnrecognizedFormatCode := by
  intro s u cmd h rest hu hacc hpace hf hb
  have hb' : u.started.inp.ready = tagRiff ++ bytesLe32 h.riffSize ++ tagWave ++
      (tagFmt ++ (formatRecord h.fmt ++ rest)) := by
    rw [← List.append_assoc, ← List.append_assoc]; exact hb
  have htag := u.started.steps_fmtVerified ⟨cmd, u.ctl.sampleBo, .releasing⟩ hb'
  rw [← List.append_assoc] at hb'
  have hrecord := DecUnit.steps_fmtRecord_unrecognized
    (((u.started.withRiff 0x46464952#32 h.riffSize 0x45564157#32).setPhase .fmtVerified).consume 16)
    ⟨cmd, u.ctl.sampleBo, .releasing⟩ (DecUnit.consume_ready u.started hb') hf
  rw [exec_decCmd_raised hu hpace (htag.trans hrecord), DecUnit.consume_consume]
  obtain ⟨-, -, -, -, -, -, hio, -⟩ := hacc
  have hdrop : u.inp.ready.drop 36 = rest := by rw [hb]; rfl
  simp [DecUnit.raised, DecUnit.withRiff, DecUnit.started, DecUnit.consume, DecUnit.setPhase, Ctl.setPhase, Ctl.record,
    Ctl.release, hio, hdrop, DecHeader.loadFormat_bytes, WavHead.registers, DecHeader.zero, setWidth32_eq_append]

end Sys2Proof.Machine
end


section
/-! Where a unit's turn leaves it, that a decode command with all it needs ends, and that the machine's progress is
fair (R190, R283; log 4). -/

namespace Sys2Proof.Machine

open Sys2Proof.Config (Params)

/-! ### Positions in which no step can be taken -/

theorem InStream.next_eq_none_iff {s : InStream} : s.next = none ↔ s.ready = [] ∧ s.term = none := by
  obtain ⟨_ | ⟨b, bs⟩, _ | t, taken, past⟩ := s <;> simp [InStream.next]

theorem SampleSource.next_eq_none_iff {s : SampleSource} : s.next = none ↔ s.ready = [] := by
  obtain ⟨_ | ⟨w, ws⟩, taken, past⟩ := s <;> simp [SampleSource.next]

theorem SampleSink.append_eq_none_iff {s : SampleSink} {w : Word} : s.append w = none ↔ s.room = 0 := by
  obtain ⟨_ | n, words, removed, past⟩ := s <;> simp [SampleSink.append]

theorem OutSink.offer_eq_none_iff {s : OutSink} {b : Byte} : s.offer b = none ↔ s.answers = [] := by
  obtain ⟨_ | ⟨_ | _, as⟩, bytes, past⟩ := s <;> simp [OutSink.offer]

/-- A read waits exactly for an event of IN (R67). -/
theorem DecUnit.stepRead_eq_none_iff {u : DecUnit} {r : DecRun} {what : DecRead} {need : Nat} {got : List Byte} :
    u.stepRead r what need got = none ↔ u.inp.ready = [] ∧ u.inp.term = none := by
  rw [← InStream.next_eq_none_iff, DecUnit.stepRead]
  split
  · simp [*]
  · split <;> simp [*]
  · simp [*]

/-- A skip waits exactly for an event of IN (R68). -/
theorem DecUnit.stepSkip_eq_none_iff {u : DecUnit} {r : DecRun} {what : DecSkip} {need got : Nat} :
    u.stepSkip r what need got = none ↔ u.inp.ready = [] ∧ u.inp.term = none := by
  rw [← InStream.next_eq_none_iff, DecUnit.stepSkip]
  split
  · simp [*]
  · split <;> simp [*]
  · simp [*]

/-- An append waits exactly for room in SOUT (R71). -/
theorem DecUnit.stepAppend_eq_none_iff {u : DecUnit} {r : DecRun} {kind : SampleKind} {w : Word} {left : Nat} :
    u.stepAppend r kind w left = none ↔ u.sout.room = 0 := by
  rw [← SampleSink.append_eq_none_iff (w := w), DecUnit.stepAppend]
  split <;> simp [*]

/-- A decoder that can take no step is idle or collects operands, or waits for IN or SOUT (R279, R283). -/
theorem DecUnit.advance_eq_none_cases {u : DecUnit} (h : u.advance = none) : u.run = none ∨
    (∃ r what need got, u.run = some r ∧ r.pos = .reading what need got ∧
      u.inp.ready = [] ∧ u.inp.term = none) ∨
    (∃ r what need got, u.run = some r ∧ r.pos = .skipping what need got ∧
      u.inp.ready = [] ∧ u.inp.term = none) ∨
    (∃ r kind w left, u.run = some r ∧ r.pos = .appending kind w left ∧ u.sout.room = 0) := by
  cases hr : u.run with
  | none => exact .inl rfl
  | some r =>
    refine .inr ?_
    simp only [DecUnit.advance, hr] at h
    cases hp : r.pos with simp only [hp] at h
    | reading what need got =>
      exact .inl ⟨r, what, need, got, rfl, hp, DecUnit.stepRead_eq_none_iff.1 h⟩
    | skipping what need got =>
      exact .inr (.inl ⟨r, what, need, got, rfl, hp, DecUnit.stepSkip_eq_none_iff.1 h⟩)
    | appending kind w left =>
      exact .inr (.inr ⟨r, kind, w, left, rfl, hp, DecUnit.stepAppend_eq_none_iff.1 h⟩)
    | _ => cases h

/-- The `MemWrite` of a header waits exactly for an answer to its next byte (R69). -/
theorem EncUnit.stepHeader_eq_none_iff {u : EncUnit} {bo : ByteOrder} {todo : List Byte} {sent : Nat}
    {next : Option (SampleKind × Nat)} :
    u.stepHeader bo todo sent next = none ↔ todo ≠ [] ∧ u.out.answers = [] := by
  cases todo with
  | nil => simp [EncUnit.stepHeader]
  | cons b bs =>
    rw [← OutSink.offer_eq_none_iff (b := b), EncUnit.stepHeader]
    split <;> simp [*]

/-- The `MemWrite` of an element waits exactly for an answer to its next byte (R69). -/
theorem EncUnit.stepElement_eq_none_iff {u : EncUnit} {bo : ByteOrder} {todo : List Byte} {sent : Nat}
    {kind : SampleKind} {left : Nat} :
    u.stepElement bo todo sent kind left = none ↔ todo ≠ [] ∧ u.out.answers = [] := by
  cases todo with
  | nil => simp [EncUnit.stepElement]
  | cons b bs =>
    rw [← OutSink.offer_eq_none_iff (b := b), EncUnit.stepElement]
    split <;> simp [*]

/-- `SampleIn()` waits exactly for a word of SIN (R70). -/
theorem EncUnit.stepTake_eq_none_iff {p : Params} {u : EncUnit} {bo : ByteOrder} {kind : SampleKind} {left : Nat} :
    u.stepTake p bo kind left = none ↔ u.sin.ready = [] := by
  rw [← SampleSource.next_eq_none_iff, EncUnit.stepTake]
  split
  · simp [*]
  · dsimp only
    split <;> simp [*]

/-- An encoder that can take no step is idle or collects operands, or waits for OUT or SIN (R278, R280, R283). -/
theorem EncUnit.advance_eq_none_cases {p : Params} {u : EncUnit} (h : u.advance p = none) : u.run = none ∨
    (∃ r todo sent next, u.run = some r ∧ r.pos = .header todo sent next ∧ todo ≠ [] ∧ u.out.answers = []) ∨
    (∃ r kind left, u.run = some r ∧ r.pos = .taking kind left ∧ u.sin.ready = []) ∨
    (∃ r todo sent kind left, u.run = some r ∧ r.pos = .element todo sent kind left ∧ todo ≠ [] ∧
      u.out.answers = []) := by
  cases hr : u.run with
  | none => exact .inl rfl
  | some r =>
    refine .inr ?_
    simp only [EncUnit.advance, hr] at h
    cases hp : r.pos with simp only [hp] at h
    | header todo sent next =>
      exact .inl ⟨r, todo, sent, next, rfl, hp, EncUnit.stepHeader_eq_none_iff.1 h⟩
    | taking kind left =>
      exact .inr (.inl ⟨r, kind, left, rfl, hp, EncUnit.stepTake_eq_none_iff.1 h⟩)
    | element todo sent kind left =>
      exact .inr (.inr ⟨r, todo, sent, kind, left, rfl, hp, EncUnit.stepElement_eq_none_iff.1 h⟩)
    | constructing a todo => cases todo <;> cases h
    | _ => cases h

/-- Settles O54: a long turn ends in a position without a step, and every run comes to a quiet state or ends. -/
theorem longTurnsSettle : Obligations.LongTurnsSettle := by
  refine ⟨fun n u hn => ?_, fun p n u hn => ?_, fun s => ?_⟩
  · exact ⟨(DecUnit.runFor_steps u.work u).runFor_eq (u.runFor_work_quiet le_rfl) hn,
      DecUnit.advance_eq_none_cases (u.runFor_work_quiet hn)⟩
  · exact ⟨(EncUnit.runFor_steps p u.work u).runFor_eq (u.runFor_work_quiet p le_rfl) hn,
      EncUnit.advance_eq_none_cases (u.runFor_work_quiet p hn)⟩
  · obtain ⟨n, hquiet | hstop⟩ := run_quiet s
    · exact ⟨n, .inl hquiet⟩
    · refine ⟨n, .inr ?_⟩
      cases hr : Sys2Proof.core.run n s with
      | next t => exact absurd hr (hstop t)
      | fault r => exact .inl ⟨r, rfl⟩
      | refused r => exact .inr ⟨r, rfl⟩

/-! ### A decode command with all it needs -/

/-- Words a position still appends that no byte of IN is left for. -/
def DecPos.owed : DecPos → Nat
  | .appending _ _ _ => 1
  | _ => 0

/-- A decoder whose IN ends with `t` and whose SOUT has room for all the words it can still append: an element is of
at least one byte. Once its command has ended it is not BUSY, and DONE. -/
structure DecUnit.Supplied (u : DecUnit) (t : Term) : Prop where
  term : u.inp.term = some t
  room : ∀ r, u.run = some r → u.inp.ready.length + r.pos.owed ≤ u.sout.room
  ended : u.run = none → u.ctl.busy = false ∧ u.ctl.done = true

/-- `v` is `u` at a position that owes at most `n` words, its streams untouched. -/
def DecUnit.MovedTo (u v : DecUnit) (n : Nat) : Prop :=
  v.inp = u.inp ∧ v.sout = u.sout ∧ ∃ r, v.run = some r ∧ r.pos.owed ≤ n

theorem DecUnit.movedTo_goto {u v : DecUnit} {p : DecPos} (hinp : v.inp = u.inp) (hsout : v.sout = u.sout)
    (hp : p.owed = 0) (r : DecRun) (n : Nat) : u.MovedTo (v.goto r p) n :=
  ⟨hinp, hsout, _, rfl, hp ▸ Nat.zero_le n⟩

theorem DecUnit.movedTo_startSkip {u v : DecUnit} (hinp : v.inp = u.inp) (hsout : v.sout = u.sout) (r : DecRun)
    (k : DecSkip) (size n : Nat) : u.MovedTo (v.startSkip r k size) n := by
  unfold DecUnit.startSkip
  split
  · cases k <;> exact DecUnit.movedTo_goto hinp hsout rfl r n
  · exact DecUnit.movedTo_goto hinp hsout rfl r n

theorem DecUnit.movedTo_nextElement {u v : DecUnit} (hinp : v.inp = u.inp) (hsout : v.sout = u.sout) (r : DecRun)
    (kind : SampleKind) (left n : Nat) : u.MovedTo (v.nextElement r kind left) n := by
  unfold DecUnit.nextElement
  split
  · exact DecUnit.movedTo_goto hinp hsout rfl r n
  · split <;> exact DecUnit.movedTo_goto hinp hsout rfl r n

/-- After a complete read at most the word of the element read is owed. -/
theorem DecUnit.movedTo_afterRead (u : DecUnit) (r : DecRun) (what : DecRead) (b : List Byte) :
    u.MovedTo (u.afterRead r what b) 1 := by
  cases what with
  | riff =>
    simp only [DecUnit.afterRead, DecUnit.afterRiff]
    split
    · exact DecUnit.movedTo_goto rfl rfl rfl r 1
    · split <;> exact DecUnit.movedTo_goto rfl rfl rfl r 1
  | fmtTag =>
    simp only [DecUnit.afterRead, DecUnit.afterFmtTag]
    split <;> exact DecUnit.movedTo_goto rfl rfl rfl r 1
  | fmtRecord =>
    simp only [DecUnit.afterRead, DecUnit.afterFmtRecord]
    split
    · exact DecUnit.movedTo_goto rfl rfl rfl r 1
    · split <;> exact DecUnit.movedTo_goto rfl rfl rfl r 1
  | extraSize => exact DecUnit.movedTo_startSkip rfl rfl r _ _ 1
  | chunkHeader =>
    simp only [DecUnit.afterRead, DecUnit.afterChunkHeader]
    split
    · exact DecUnit.movedTo_goto rfl rfl rfl r 1
    · exact DecUnit.movedTo_startSkip rfl rfl r _ _ 1
  | element kind left =>
    simp only [DecUnit.afterRead, DecUnit.afterElement]
    split
    · exact ⟨rfl, rfl, _, rfl, le_rfl⟩
    · exact DecUnit.movedTo_goto rfl rfl rfl r 1
  | residual kind => exact DecUnit.movedTo_goto rfl rfl rfl r 1

theorem DecUnit.movedTo_afterParse (u : DecUnit) (r : DecRun) : u.MovedTo (u.afterParse r) 0 := by
  unfold DecUnit.afterParse
  split
  · exact DecUnit.movedTo_goto rfl rfl rfl r 0
  · split
    · exact DecUnit.movedTo_goto rfl rfl rfl r 0
    · exact DecUnit.movedTo_nextElement rfl rfl r _ _ 0

/-- A position reached with the streams untouched is supplied if SOUT has room for the words it owes and one for
each byte of IN. -/
theorem DecUnit.MovedTo.supplied {u v : DecUnit} {n : Nat} {t : Term} (h : u.MovedTo v n) (ht : u.inp.term = some t)
    (hroom : u.inp.ready.length + n ≤ u.sout.room) : v.Supplied t := by
  obtain ⟨hinp, hsout, r, hr, hn⟩ := h
  refine ⟨hinp ▸ ht, fun r' hr' => ?_, fun h0 => by simp [hr] at h0⟩
  obtain rfl : r = r' := Option.some.inj (hr.symm.trans hr')
  rw [hinp, hsout]
  omega

/-- Every step keeps a decoder supplied: an append takes the room of a byte that has been consumed. -/
theorem DecUnit.Supplied.advance {u v : DecUnit} {t : Term} (h : u.Supplied t) (ha : u.advance = some v) :
    v.Supplied t := by
  obtain ⟨r, hr, hs⟩ := DecUnit.advance_step ha
  have hroom := h.room r hr
  have hkeep (hv : u.MovedTo v 0) : v.Supplied t := hv.supplied h.term (by omega)
  have hbyte {b : Byte} {bs : List Byte} (hb : u.inp.ready = b :: bs) (hv : (u.consume 1).MovedTo v 1) :
      v.Supplied t := by
    refine hv.supplied h.term ?_
    rw [DecUnit.consume_one u hb]
    simp only [hb, List.length_cons] at hroom ⊢
    omega
  cases hs with
  | readByte hp hb => exact hbyte hb (DecUnit.movedTo_goto rfl rfl rfl r 1)
  | readLast hp hb => exact hbyte hb (DecUnit.movedTo_afterRead _ r _ _)
  | readStop => exact hkeep (DecUnit.movedTo_goto rfl rfl rfl r 0)
  | skipByte hp hb => exact hbyte hb (DecUnit.movedTo_goto rfl rfl rfl r 1)
  | @skipLast what _ _ _ _ hp hb => cases what <;> exact hbyte hb (DecUnit.movedTo_goto rfl rfl rfl r 1)
  | skipStop => exact hkeep (DecUnit.movedTo_goto rfl rfl rfl r 0)
  | scan => exact hkeep (DecUnit.movedTo_goto rfl rfl rfl r 0)
  | parse => exact hkeep (u.movedTo_afterParse r)
  | @append kind w left hp =>
    refine (DecUnit.movedTo_nextElement (u := u.emit [w]) rfl rfl r kind left 0).supplied h.term ?_
    simp only [hp, DecPos.owed] at hroom
    simp only [DecUnit.emit, List.length_singleton]
    omega
  | record => exact hkeep (DecUnit.movedTo_goto rfl rfl rfl r 0)
  | release => exact ⟨h.term, fun _ h0 => by simp at h0, fun _ => ⟨rfl, rfl⟩⟩

theorem DecUnit.Supplied.steps {u v : DecUnit} {t : Term} (hs : u.Steps v) (h : u.Supplied t) : v.Supplied t := by
  induction hs with
  | refl => exact h
  | head ha _ ih => exact ih (h.advance ha)

/-- A supplied decoder waits for nothing: where it can take no step its command has ended. -/
theorem DecUnit.Supplied.run_eq_none {u : DecUnit} {t : Term} (h : u.Supplied t) (ha : u.advance = none) :
    u.run = none := by
  have hne : u.inp.term ≠ none := by simp [h.term]
  obtain hrun | ⟨_, _, _, _, _, _, _, hterm⟩ | ⟨_, _, _, _, _, _, _, hterm⟩ | ⟨r, _, _, _, hr, hp, hfull⟩ :=
    DecUnit.advance_eq_none_cases ha
  · exact hrun
  · exact absurd hterm hne
  · exact absurd hterm hne
  · have hroom := h.room r hr
    simp [hp, hfull, DecPos.owed] at hroom

/-- At its start a decode command on a stream with a terminator is supplied if SOUT takes a word for each byte. -/
theorem DecUnit.supplied_begin {u : DecUnit} {t : Term} (ht : u.inp.term = some t)
    (hroom : u.inp.ready.length ≤ u.sout.room) (cmd : DecCmd) : (u.begin cmd).Supplied t :=
  (DecUnit.movedTo_goto (u := u) (v := u.started) rfl rfl rfl ⟨cmd, u.ctl.sampleBo, .releasing⟩ 0).supplied ht hroom

/-- In a turn with no pace a decode command goes on, from any position it reaches, until it can take no more steps
(R283; log 4). -/
theorem exec_decCmd_runFor {s : State} {u v : DecUnit} {cmd : DecCmd} (hu : s.decs[s.sel]? = some u)
    (hpace : s.pace = none) (h : (u.begin cmd).Steps v) :
    exec cmd.instr s = .next (s.setDec s.sel (v.runFor v.work)) := by
  rw [exec_decCmd, State.startDec_eq hu hpace (h.trans (DecUnit.runFor_steps v.work v)) (v.runFor_work_quiet le_rfl)]

/-- Settles O42: the command stays supplied, and so stops only where it has ended. -/
theorem decodeAlwaysEnds : Obligations.DecodeAlwaysEnds := by
  intro s u cmd t hu hpace ht hroom
  have hv := DecUnit.Supplied.steps (DecUnit.runFor_steps (u.begin cmd).work _) (DecUnit.supplied_begin ht hroom cmd)
  have hrun := hv.run_eq_none (DecUnit.runFor_work_quiet _ le_rfl)
  exact ⟨_, exec_decCmd_runFor hu hpace (.refl _), hrun, hv.ended hrun⟩

end Sys2Proof.Machine
end


section
/-! What a decoder does without its counts of the bytes consumed, and that skipped chunks change nothing else (R189). -/

namespace Sys2Proof.Machine

/-! ### Decoders that agree but for IO_COUNT and the bytes consumed -/

/-- The decoder with IO_COUNT and the record of the bytes consumed cleared. -/
def DecUnit.uncounted (u : DecUnit) : DecUnit :=
  { u with ctl := { u.ctl with ioCount := 0#32 }, inp := { u.inp with taken := [] } }

/-- What two decoders agree on that are the same without their counts. -/
theorem DecUnit.eq_of_uncounted_eq {u v : DecUnit} (h : v.uncounted = u.uncounted) :
    v.ctl = { u.ctl with ioCount := v.ctl.ioCount } ∧ v.hdr = u.hdr ∧ v.hdrValid = u.hdrValid ∧ v.run = u.run ∧
      v.sout = u.sout ∧ v.inp = { u.inp with taken := v.inp.taken } :=
  ⟨congrArg (fun w : DecUnit => { w.ctl with ioCount := v.ctl.ioCount }) h, (congrArg DecUnit.hdr h :),
    (congrArg DecUnit.hdrValid h :), (congrArg DecUnit.run h :), (congrArg DecUnit.sout h :),
    congrArg (fun w : DecUnit => { w.inp with taken := v.inp.taken }) h⟩

theorem DecUnit.work_eq_of_uncounted_eq {u v : DecUnit} (h : v.uncounted = u.uncounted) : v.work = u.work :=
  (congrArg DecUnit.work h :)

/-! ### No step looks at the counts -/

/-- What does not look at the counts keeps decoders in agreement but for them. -/
theorem DecUnit.uncounted_congr {f : DecUnit → DecUnit} (hf : ∀ w, (f w).uncounted = f w.uncounted) {u v : DecUnit}
    (h : v.uncounted = u.uncounted) : (f v).uncounted = (f u).uncounted := by
  rw [hf, h, hf]

theorem DecUnit.uncounted_startSkip (u : DecUnit) (r : DecRun) (k : DecSkip) (n : Nat) :
    (u.startSkip r k n).uncounted = u.uncounted.startSkip r k n := by
  unfold DecUnit.startSkip
  split
  · cases k <;> rfl
  · rfl

theorem DecUnit.uncounted_nextElement (u : DecUnit) (r : DecRun) (kind : SampleKind) (left : Nat) :
    (u.nextElement r kind left).uncounted = u.uncounted.nextElement r kind left := by
  cases left with
  | succ n => rfl
  | zero => exact apply_ite DecUnit.uncounted ..

theorem DecUnit.uncounted_afterRead (u : DecUnit) (r : DecRun) (what : DecRead) (b : List Byte) :
    (u.afterRead r what b).uncounted = u.uncounted.afterRead r what b := by
  cases what with
  | riff =>
    simp only [DecUnit.afterRead, DecUnit.afterRiff]
    split
    · rfl
    · split <;> rfl
  | fmtTag => exact apply_ite DecUnit.uncounted ..
  | fmtRecord =>
    refine (apply_ite DecUnit.uncounted ..).trans ?_
    rw [apply_ite DecUnit.uncounted]; rfl
  | extraSize => exact DecUnit.uncounted_startSkip ..
  | chunkHeader =>
    refine (apply_ite DecUnit.uncounted ..).trans ?_
    rw [DecUnit.uncounted_startSkip]; rfl
  | element kind left => exact apply_ite DecUnit.uncounted ..
  | residual kind => rfl

theorem DecUnit.uncounted_afterParse (u : DecUnit) (r : DecRun) :
    (u.afterParse r).uncounted = u.uncounted.afterParse r := by
  unfold DecUnit.afterParse
  split
  · rfl
  · refine (apply_ite DecUnit.uncounted ..).trans ?_
    rw [DecUnit.uncounted_nextElement]; rfl

theorem DecUnit.uncounted_stepRead (u : DecUnit) (r : DecRun) (what : DecRead) (need : Nat) (got : List Byte) :
    (u.uncounted.stepRead r what need got).map DecUnit.uncounted =
      (u.stepRead r what need got).map DecUnit.uncounted := by
  obtain ⟨ctl, hdr, hv, run, ⟨_ | ⟨b, bs⟩, _ | t, taken, past⟩, sout⟩ := u
  · rfl
  · rfl
  all_goals
    simp only [DecUnit.stepRead, InStream.next, DecUnit.uncounted]
    split
    · rfl
    · exact congrArg some (DecUnit.uncounted_congr (f := (·.afterRead r what (got ++ [b])))
        (fun w => DecUnit.uncounted_afterRead w r what _) rfl)

theorem DecUnit.uncounted_stepSkip (u : DecUnit) (r : DecRun) (what : DecSkip) (need got : Nat) :
    (u.uncounted.stepSkip r what need got).map DecUnit.uncounted =
      (u.stepSkip r what need got).map DecUnit.uncounted := by
  obtain ⟨ctl, hdr, hv, run, ⟨_ | ⟨b, bs⟩, _ | t, taken, past⟩, sout⟩ := u
  · rfl
  · rfl
  all_goals
    simp only [DecUnit.stepSkip, InStream.next, DecUnit.uncounted]
    split
    · rfl
    · cases what <;> rfl

theorem DecUnit.uncounted_stepAppend (u : DecUnit) (r : DecRun) (kind : SampleKind) (w : Word) (left : Nat) :
    (u.uncounted.stepAppend r kind w left).map DecUnit.uncounted =
      (u.stepAppend r kind w left).map DecUnit.uncounted := by
  obtain ⟨ctl, hdr, hv, run, inp, ⟨_ | n, words, removed, past⟩⟩ := u
  · rfl
  · exact congrArg some (DecUnit.uncounted_congr (f := (·.nextElement r kind left))
      (fun w => DecUnit.uncounted_nextElement w r kind left) rfl)

theorem DecUnit.uncounted_advance (u : DecUnit) :
    u.uncounted.advance.map DecUnit.uncounted = u.advance.map DecUnit.uncounted := by
  have hrun : u.uncounted.run = u.run := rfl
  simp only [DecUnit.advance, hrun]
  cases u.run with
  | none => rfl
  | some r =>
    dsimp only
    cases r.pos with
    | reading what need got => exact DecUnit.uncounted_stepRead ..
    | skipping what need got => exact DecUnit.uncounted_stepSkip ..
    | scanning => rfl
    | parsed => exact congrArg some (DecUnit.uncounted_congr (f := (·.afterParse r))
        (fun w => DecUnit.uncounted_afterParse w r) rfl)
    | appending kind w left => exact DecUnit.uncounted_stepAppend ..
    | ending e => cases e <;> rfl
    | releasing => rfl

/-- Decoders that agree but for their counts take the same step (R189). -/
theorem DecUnit.advance_of_uncounted_eq {u v : DecUnit} (h : v.uncounted = u.uncounted) :
    v.advance.map DecUnit.uncounted = u.advance.map DecUnit.uncounted := by
  rw [← DecUnit.uncounted_advance v, h, DecUnit.uncounted_advance]

/-- They take the same turns. -/
theorem DecUnit.runFor_of_uncounted_eq {u v : DecUnit} (h : v.uncounted = u.uncounted) (n : Nat) :
    (v.runFor n).uncounted = (u.runFor n).uncounted := by
  induction n generalizing u v with
  | zero => exact h
  | succ n ih =>
    have hstep := DecUnit.advance_of_uncounted_eq h
    cases hu : u.advance with
    | none =>
      have hv : v.advance = none := by simpa [hu] using hstep
      rw [DecUnit.runFor_of_none hu, DecUnit.runFor_of_none hv, h]
    | some u' =>
      obtain ⟨v', hv, h'⟩ : ∃ v', v.advance = some v' ∧ v'.uncounted = u'.uncounted := by simpa [hu] using hstep
      rw [DecUnit.runFor_of_some hu, DecUnit.runFor_of_some hv, ih h']

/-! ### Skipped chunks -/

/-- The header without its chunks. -/
def WavHead.bare (h : WavHead) : WavHead := { h with chunks := [] }

/-- The decoder on a stream of that header in place of the whole one. -/
def DecUnit.onBare (u : DecUnit) (h : WavHead) (rest : List Byte) : DecUnit :=
  { u with inp := { u.inp with ready := h.bare.bytes ++ rest } }

/-- After the parse of a header only the counts tell how long it was (R188, R189). -/
theorem DecUnit.uncounted_parsedAs {u : DecUnit} {h : WavHead} {rest : List Byte}
    (hb : u.inp.ready = h.bytes ++ rest) :
    (u.started.parsedAs h).uncounted =
      ({ u.started with
        hdr := h.registers, hdrValid := true, inp := { u.inp with ready := rest } }.setPhase
          .dataChunkFound).uncounted := by
  simp [DecUnit.uncounted, DecUnit.parsedAs, DecUnit.consume, DecUnit.started, DecUnit.setPhase, Ctl.setPhase, hb]

/-- Settles O41: behind either header the command stands at the same position, but for its counts. -/
theorem skippedChunksLeaveNoTrace : Obligations.SkippedChunksLeaveNoTrace := by
  rintro s u cmd h rest hu - hpace hok hb s' rfl
  have hbare : h.bare.Ok := ⟨hok.1, hok.2.1, fun c hc => absurd hc List.not_mem_nil⟩
  have hagree := DecUnit.uncounted_congr (f := (·.goto ⟨cmd, u.ctl.sampleBo, .releasing⟩ .parsed)) (fun _ => rfl)
    ((DecUnit.uncounted_parsedAs (u := u.onBare h rest) (h := h.bare) rfl).trans (DecUnit.uncounted_parsedAs hb).symm)
  refine ⟨_, _, exec_decCmd_runFor hu hpace (u.steps_parse cmd h hok rest hb),
    exec_decCmd_runFor (u := u.onBare h rest) (List.getElem?_set_self (List.getElem?_eq_some_iff.1 hu).1) hpace
      (DecUnit.steps_parse _ cmd h.bare hbare rest rfl), DecUnit.eq_of_uncounted_eq ?_⟩
  rw [← DecUnit.work_eq_of_uncounted_eq hagree]
  exact DecUnit.runFor_of_uncounted_eq hagree _

end Sys2Proof.Machine
end


section
/-! A machine with no host action pending, and an endless feed (R190, R258, R283, R284; logs 1, 20). -/

namespace Sys2Proof.Machine

/-! ### No host action pending -/

theorem State.idle_iff {s : State} :
    s.idle = true ↔ (∀ u ∈ s.decs, u.ctl.busy = false) ∧ ∀ u ∈ s.encs, u.ctl.busy = false := by
  simp [State.idle]

/-- No unit of an idle machine can take a step (R258). -/
theorem State.Inv.quiet_of_idle {s : State} (hi : s.Inv) (h : s.idle = true) : s.Quiet := by
  obtain ⟨-, -, hdec, henc⟩ := hi
  obtain ⟨hdecs, hencs⟩ := State.idle_iff.1 h
  exact State.quiet_iff.2 ⟨fun u hu => DecUnit.advance_of_idle ((hdec u hu).idle (hdecs u hu)),
    fun u hu => EncUnit.advance_of_idle ((henc u hu).idle (hencs u hu)).1⟩

/-- Where no unit can take a step, a host goes on that finds all units idle or has an action that helps. -/
theorem step_loop {s : State} (hs : s.script = []) (hq : s.Quiet)
    (h : s.idle = true ∨ ∃ e ∈ s.loop, s.helps e = true) :
    step s = .next { s with script := s.loop } := by
  rw [step_of_done hs, State.settle_of_quiet hq, if_pos]
  simpa [List.any_eq_true] using h

/-- Where no unit can take a step, one is BUSY and nothing helps, the machine is stuck (R283, R284). -/
theorem step_stuck {s : State} (hs : s.script = []) (hq : s.Quiet) (hb : ¬ s.idle = true)
    (h : ∀ e ∈ s.loop, s.helps e = false) : step s = .fault .stuck := by
  rw [step_of_done hs, State.settle_of_quiet hq, if_neg]
  simpa [hb] using h

/-! ### What gets a machine further that can take no step of its own -/

/-- A write hands a unit a word of a command when it is an accepted access to CMD of a unit that takes it. -/
theorem State.commands_iff {s : State} {e : HostEvent} : s.commands e = true ↔
    (∃ d u w, e = .write (.dec d) 4 0x008 w ∧ s.decs[d]? = some u ∧ (u.ctl.busy = false ∨ u.ctl.asm ≠ [])) ∨
    (∃ k u w, e = .write (.enc k) 4 0x008 w ∧ s.encs[k]? = some u ∧ (u.ctl.busy = false ∨ u.ctl.asm ≠ [])) ∨
    (∃ x, e = .resetUnit x ∧ s.busy x = true) := by
  cases e with
  | write x width off w =>
    cases x with
    | dec d => simp [State.commands, State.takesWord, Option.any_eq_true]
    | enc k => simp [State.commands, State.takesWord, Option.any_eq_true]
  | resetUnit x => simp [State.commands]
  | _ => simp [State.commands]

theorem State.helps_iff {s : State} {e : HostEvent} :
    s.helps e = true ↔ s.supplies e = true ∨ s.commands e = true ∨ ∀ t, s.perform e ≠ .next t := by
  rw [State.helps]
  cases s.perform e <;> simp

/-! ### The endless feed -/

theorem length_flatMap_bytes_pos {cs : List Chunk} (hne : cs ≠ []) : 0 < (cs.flatMap Chunk.bytes).length := by
  obtain ⟨c, cs, rfl⟩ := List.exists_cons_of_ne_nil hne
  simp [Chunk.bytes]

/-- A decoder at a chunk header of a stream with nothing ready is in the scan of what is still to come. -/
theorem State.Feeding.of_chunkHeader {s : State} {d : Nat} {u : DecUnit} {r : DecRun} {cs : List Chunk}
    {rest : List HostEvent} (hu : s.decs[d]? = some u) (hb : u.ctl.busy = true) (hr : u.run = some r)
    (hp : r.pos = .reading .chunkHeader 8 []) (hready : u.inp.ready = []) (hterm : u.inp.term = none)
    (hs : s.script = [] ∨ s.script = .wait (.dec d) :: rest)
    (hl : s.loop = (cs.flatMap Chunk.bytes).map fun b => .inEvent d (.byte b)) : s.Feeding d cs u [] where
  unit := hu
  script := ⟨s.script, rfl, hs.imp_right fun h => ⟨rest, h⟩⟩
  scanning := ⟨hb, hterm, r, [], hr, by simp, .inl ⟨[], hp, by decide, by simp [hready]⟩⟩
  loop := hl

section Feed

variable {s : State} {d : Nat} {cs : List Chunk} {u : DecUnit} {bs : List Byte}

/-- Every step of an endless feed goes on with it: a delivery, a turn of a unit, or the loop once more. -/
theorem State.Feeding.step_feeding (h : s.Feeding d cs u bs) (hne : cs ≠ []) (hcs : ∀ c ∈ cs, Chunk.Ok c) :
    ∃ t v bs', step s = .next t ∧ t.Feeding d cs v bs' := by
  cases bs with
  | cons b bs =>
    obtain ⟨t, hstep, ht⟩ := h.step_deliver
    exact ⟨t, _, bs, hstep, ht⟩
  | nil =>
    by_cases hq : s.Quiet
    · obtain ⟨t, hstep, ht⟩ := h.step_again hq hne hcs
      exact ⟨t, u, _, hstep, ht⟩
    · obtain ⟨t, v, hstep, ht, -⟩ := h.step_turn hq
      exact ⟨t, v, [], hstep, ht⟩

/-- The decoder stays BUSY in it for ever (R190). -/
theorem State.Feeding.run_feeding (h : s.Feeding d cs u bs) (hne : cs ≠ []) (hcs : ∀ c ∈ cs, Chunk.Ok c)
    (n : Nat) :
    ∃ t v bs', Sys2Proof.core.run n s = .next t ∧ t.Feeding d cs v bs' := by
  induction n generalizing s u bs with
  | zero => exact ⟨s, u, bs, rfl, h⟩
  | succ n ih =>
    obtain ⟨t, v, bs', hstep, ht⟩ := h.step_feeding hne hcs
    rw [run_succ hstep]
    exact ih ht

/-- The decoder consumes as many bytes as one likes: all of the chunks each time round the loop (R190). -/
theorem State.Feeding.consumes (h : s.Feeding d cs u bs) (hne : cs ≠ []) (hcs : ∀ c ∈ cs, Chunk.Ok c) (k : Nat) :
    ∃ n t v, Sys2Proof.core.run n s = .next t ∧ t.Feeding d cs v [] ∧ t.Quiet ∧ k ≤ v.inp.taken.length := by
  induction k with
  | zero =>
    obtain ⟨n, t, v, hrun, ht, hq, -⟩ := h.quiesce
    exact ⟨n, t, v, hrun, ht, hq, Nat.zero_le _⟩
  | succ k ih =>
    obtain ⟨n, t, v, hrun, ht, hq, hk⟩ := ih
    obtain ⟨t1, hstep, ht1⟩ := ht.step_again hq hne hcs
    obtain ⟨m, t2, v2, hrun2, ht2, hq2, hl⟩ := ht1.quiesce
    have hpos := length_flatMap_bytes_pos hne
    exact ⟨n + (m + 1), t2, v2, by rw [run_add hrun, run_succ hstep, hrun2], ht2, hq2, by omega⟩

end Feed

/-! ### What a run leaves on record -/

/-- No step loses the record of what the streams carried (R284; log 20). -/
theorem step_records {s t : State} (h : step s = .next t) : s.Records t := by
  cases hs : s.script with
  | nil =>
    rw [step_of_done hs] at h
    obtain ⟨x, -, rfl⟩ | ⟨-, rfl⟩ := State.settle_next h
    · exact State.turnTaken_records s x
    · exact .of_eq rfl rfl
  | cons e rest =>
    rw [step_of_script hs] at h
    exact State.perform_records (s := { s with script := rest }) h

/-- Settles O55: the outcomes of a step with no host action pending, the endless feed, and the records. -/
theorem endOfRun : Obligations.EndOfRun := by
  refine ⟨fun s hs hi => ⟨fun hdec henc => ?idle, fun hq hb hl => ?stuck, fun hq hl => ?goesOn, fun hq => ?turn⟩,
    fun s e hq => ?helps, fun s d u r cs rest hu hb hr hp hready hterm hne hcs hs hl => ?feed,
    fun s t h => step_records h⟩
  case idle =>
    have hidle := State.idle_iff.2 ⟨hdec, henc⟩
    have hstep := step_loop hs (hi.quiet_of_idle hidle) (.inl hidle)
    exact ⟨hstep, fun hl => hstep.trans
      (congrArg (fun l => Host.Outcome.next { s with script := l }) (hl.trans hs.symm))⟩
  case stuck =>
    refine step_stuck hs hq (fun hidle => ?_) hl
    obtain ⟨hdec, henc⟩ := State.idle_iff.1 hidle
    obtain ⟨u, hu, hbusy⟩ | ⟨u, hu, hbusy⟩ := hb
    · simp [hdec u hu] at hbusy
    · simp [henc u hu] at hbusy
  case goesOn => exact step_loop hs hq (.inr hl)
  case turn =>
    obtain ⟨x, hx, hstep⟩ := State.settle_of_not_quiet hq
    exact ⟨x, hx, (step_of_done hs).trans hstep, hx.turnTaken_ne⟩
  case helps =>
    rw [State.helps_iff, hq.supplies_iff, State.commands_iff, or_assoc, or_assoc]
    exact Iff.rfl
  case feed =>
    have h := State.Feeding.of_chunkHeader hu hb hr hp hready hterm hs hl
    refine ⟨fun n => ?_, fun k => ?_⟩
    · obtain ⟨t, v, bs, hrun, ht⟩ := h.run_feeding hne hcs n
      exact ⟨t, v, hrun, ht.unit, ht.scanning.1⟩
    · obtain ⟨n, t, v, hrun, ht, -, hk⟩ := h.consumes hne hcs k
      exact ⟨n, t, v, hrun, ht.unit, hk⟩

end Sys2Proof.Machine
end


section
/-! Sample commands that the decoder ends itself: a format code of another kind, bytes short of an element, a float
out of range (R210 to R223). -/

namespace Sys2Proof.Machine

/-! ### A format code of another kind -/

/-- After the parse a sample command fails on a format code that is not its own (R215). -/
theorem DecUnit.afterParse_of_mismatch (v : DecUnit) (r : DecRun) {kind : SampleKind} (hr : r.cmd = .samples kind)
    (hne : v.hdr.audioFormat ≠ kind.formatCode) :
    v.afterParse r = v.fail r .unsupportedFormat .sampleKind v.hdr.audioFormat.toNat kind.formatCode.toNat := by
  simp only [DecUnit.afterParse, hr, hne, ne_eq, not_false_eq_true, if_true]

/-- Settles O35: the parse completes, and the check behind it ends the command. -/
theorem sampleKindMismatch : Obligations.SampleKindMismatch := by
  intro s u kind h rest hu hacc hpace hok hne hb
  have hfail := DecUnit.afterParse_of_mismatch (u.started.parsedAs h) ⟨.samples kind, u.ctl.sampleBo, .parsed⟩ rfl hne
  have hrun := (u.steps_parse (.samples kind) h hok rest hb).trans
    (.single (congrArg some hfail))
  rw [exec_decCmd_raised hu hpace hrun]
  obtain ⟨-, -, -, -, -, -, hio, -⟩ := hacc
  cases kind <;>
    simp [DecUnit.raised, DecUnit.parsedAs, DecUnit.started, DecUnit.consume, DecUnit.setPhase, Ctl.setPhase, Ctl.record,
      Ctl.release, hio, hb, WavHead.registers, setWidth32_eq_append, SampleKind.formatCode]

/-! ### A payload that ends the command -/

/-- The whole next state of a sample command that appends the elements `es`, consumes the bytes `part` behind them
and fails there (R210, R220, R246). -/
theorem exec_decSamples_raised {s : State} {u : DecUnit} {kind : SampleKind} {h : WavHead} {es : List (List Byte)}
    {part rest : List Byte} {r : DecRun} {k : ErrKind} {st : Stage} {actual expected : Nat}
    (hu : s.decs[s.sel]? = some u) (hacc : u.ctl.Accepted) (hpace : s.pace = none)
    (hlen : ∀ e ∈ es, e.length = kind.size) (hb : u.inp.ready = h.bytes ++ es.flatten ++ part ++ rest)
    (hrun : (u.begin (.samples kind)).Steps
      (((u.decoded kind h es).consume part.length).fail r k st actual expected)) :
    exec (DecCmd.samples kind).instr s = .next (s.setDec s.sel { u with
      ctl := { u.ctl with
        busy := false, done := true, phase := .error, err := some k, stickyErr := true,
        errStage := some st, errActual := BitVec.ofNat 32 actual,
        errExpected := BitVec.ofNat 32 expected,
        ioCount := BitVec.ofNat 32 (h.bytes.length + es.length * kind.size + part.length),
        sampleCount := BitVec.ofNat 32 es.length, asm := [] }
      hdr := h.registers
      hdrValid := true
      run := none
      inp := { u.inp with ready := rest, taken := u.inp.taken ++ (h.bytes ++ es.flatten ++ part) }
      sout := { u.sout with
        room := u.sout.room - es.length
        words := u.sout.words ++ es.map (elementWord kind u.ctl.sampleBo) } }) := by
  rw [exec_decCmd_raised hu hpace hrun]
  obtain ⟨-, -, -, -, -, -, hio, hsc, -⟩ := hacc
  simp [DecUnit.raised, DecUnit.decoded, DecUnit.parsedAs, DecUnit.started, DecUnit.consume, DecUnit.emit,
    DecUnit.setPhase, Ctl.setPhase, Ctl.record, Ctl.release, hio, hsc, hb, length_flatten_elements hlen,
    BitVec.ofNat_add]

/-- A terminator behind a part of an element, or of the residual bytes, fails the command with the bytes it got
(R67, R212, R214). -/
theorem DecUnit.steps_part_stop (u : DecUnit) {kind : SampleKind} {h : WavHead} (hok : h.Ok)
    (hcode : h.fmt.audioFormat = kind.formatCode) {es : List (List Byte)} {part : List Byte}
    {what : DecRead} {need : Nat} {t : Term}
    (hw : (es.length < h.dataSize.toNat / kind.size ∧ need = kind.size ∧
        what = .element kind (h.dataSize.toNat / kind.size - es.length - 1)) ∨
      (es.length = h.dataSize.toNat / kind.size ∧ need = h.dataSize.toNat % kind.size ∧ what = .residual kind))
    (hpart : part.length < need) (hlen : ∀ e ∈ es, e.length = kind.size)
    (hdec : ∀ e ∈ es, decodable kind (elementWord kind u.ctl.sampleBo e) = true)
    (hroom : es.length ≤ u.sout.room) (hb : u.inp.ready = h.bytes ++ (es.flatten ++ part))
    (ht : u.inp.term = some t) :
    (u.begin (.samples kind)).Steps (((u.decoded kind h es).consume part.length).fail
      ⟨.samples kind, u.ctl.sampleBo, .releasing⟩ t.errKind what.stage part.length need) := by
  have hready : ((u.decoded kind h es).consume part.length).inp.ready = [] :=
    DecUnit.consume_ready _ ((DecUnit.decoded_ready hb kind).trans (List.append_nil part).symm)
  exact (u.steps_to_part hok hcode hw hpart hlen hdec hroom hb).trans
    (.single (DecUnit.advance_read_stop _ _ what need t part hready ht))

/-- Settles O37: the terminator stands behind a part of the next element. -/
theorem payloadCutShort : Obligations.PayloadCutShort := by
  intro s u kind h es part t hu hacc hpace hok hcode hsize hpart hlen hdec hroom hb ht
  have hmore : es.length < h.dataSize.toNat / kind.size := (Nat.le_div_iff_mul_le kind.size_pos).2 hsize
  have hrun := u.steps_part_stop hok hcode (.inl ⟨hmore, rfl, rfl⟩) hpart hlen hdec hroom
    (hb.trans (List.append_assoc ..)) ht
  have hexec := exec_decSamples_raised hu hacc hpace hlen (hb.trans (List.append_nil _).symm) hrun
  cases t <;> exact hexec

/-- The residual bytes that are all there are consumed and fail the command (R212). -/
theorem DecUnit.steps_residual (u : DecUnit) {kind : SampleKind} {h : WavHead} (hok : h.Ok)
    (hcode : h.fmt.audioFormat = kind.formatCode) {es : List (List Byte)} {part rest : List Byte}
    (hsize : h.dataSize.toNat / kind.size = es.length) (hpos : 0 < part.length)
    (hpart : part.length = h.dataSize.toNat % kind.size) (hlen : ∀ e ∈ es, e.length = kind.size)
    (hdec : ∀ e ∈ es, decodable kind (elementWord kind u.ctl.sampleBo e) = true)
    (hroom : es.length ≤ u.sout.room) (hb : u.inp.ready = h.bytes ++ (es.flatten ++ (part ++ rest))) :
    (u.begin (.samples kind)).Steps (((u.decoded kind h es).consume part.length).fail
      ⟨.samples kind, u.ctl.sampleBo, .releasing⟩ .truncatedStream .sampleData part.length kind.size) := by
  have hnext := (u.decoded kind h es).nextElement_eq_reading ⟨.samples kind, u.ctl.sampleBo, .releasing⟩
    (d := h.dataSize.toNat) rfl (.inr ⟨hsize.symm, hpart, rfl⟩) hpos
  have hread := (u.decoded kind h es).steps_read ⟨.samples kind, u.ctl.sampleBo, .releasing⟩ (.residual kind)
    part.length part rest [] (DecUnit.decoded_ready hb kind) (List.ne_nil_of_length_pos hpos) (Nat.zero_add _)
  rw [← hnext, hsize, Nat.sub_self] at hread
  exact (u.steps_payload kind h hok hcode es (part ++ rest) hlen hdec hroom 0 hsize hb).trans hread

/-- Settles O36: the bytes behind the whole elements end the command, or the terminator among them does. -/
theorem residualBytes : Obligations.ResidualBytes := by
  intro s u kind h es rem part rest hu hacc hpace hok hcode hsize hpos hrem hlen hdec hroom hb k st actual expected
    hend hst
  subst hst
  have hdiv : h.dataSize.toNat / kind.size = es.length := by
    rw [hsize, Nat.mul_comm, Nat.mul_add_div kind.size_pos, Nat.div_eq_of_lt hrem, Nat.add_zero]
  have hmod : h.dataSize.toNat % kind.size = rem := by
    rw [hsize, Nat.mul_comm, Nat.mul_add_mod, Nat.mod_eq_of_lt hrem]
  refine exec_decSamples_raised (r := ⟨.samples kind, u.ctl.sampleBo, .releasing⟩) hu hacc hpace hlen hb ?_
  obtain ⟨hpart, rfl, rfl, rfl⟩ | ⟨hpart, rfl, rfl, rfl, hterm⟩ := hend
  · subst hpart
    exact u.steps_residual hok hcode hdiv hpos hmod.symm hlen hdec hroom (by simpa using hb)
  · have hstop (t : Term) (ht : u.inp.term = some t) := u.steps_part_stop hok hcode
      (.inr ⟨hdiv.symm, hmod.symm, rfl⟩) hpart hlen hdec hroom (by simpa using hb) ht
    obtain ⟨ht, rfl⟩ | ⟨ht, rfl⟩ := hterm
    · exact hstop .eof ht
    · exact hstop .fail ht

/-- An element that is there and not decodable is consumed and fails the command (R220, R223). -/
theorem DecUnit.steps_read_element_of_not_decodable (v : DecUnit) (r : DecRun) {kind : SampleKind} {e rest : List Byte}
    (left : Nat) (hb : v.inp.ready = e ++ rest) (hlen : e.length = kind.size)
    (hdec : decodable kind (elementWord kind r.bo e) = false) :
    (v.nextElement r kind (left + 1)).Steps ((v.consume e.length).fail r .sampleOutOfRange .sampleRange
      (elementWord kind r.bo e).toNat floatOne) := by
  have hne : e ≠ [] := List.ne_nil_of_length_pos (hlen ▸ kind.size_pos)
  have h := v.steps_read r (.element kind left) kind.size e rest [] hb hne (by simpa using hlen)
  simpa only [DecUnit.afterRead, List.nil_append, DecUnit.afterElement, hdec, Bool.false_eq_true, if_false,
    DecUnit.nextElement] using h

/-- Settles O38: the elements before it are appended, and the element out of range ends the command. -/
theorem floatOutOfRange : Obligations.FloatOutOfRange := by
  intro s u h es e rest hu hacc hpace hok hcode hsize hlen he hdec hbad hroom hb
  have hmore : es.length + 1 ≤ h.dataSize.toNat / 4 := (Nat.le_div_iff_mul_le (by decide)).2 hsize
  obtain ⟨left, hleft⟩ : ∃ left, h.dataSize.toNat / 4 = es.length + (left + 1) :=
    ⟨h.dataSize.toNat / 4 - es.length - 1, by omega⟩
  have hb' : u.inp.ready = h.bytes ++ (es.flatten ++ (e ++ rest)) := by simpa using hb
  have hpay := u.steps_payload .float32 h hok hcode es (e ++ rest) hlen hdec hroom (left + 1) hleft hb'
  have hend := DecUnit.steps_read_element_of_not_decodable (kind := .float32) (u.decoded .float32 h es)
    ⟨.samples .float32, u.ctl.sampleBo, .releasing⟩ left (DecUnit.decoded_ready hb' .float32) he hbad
  refine (exec_decSamples_raised hu hacc hpace hlen hb (hpay.trans hend)).trans ?_
  simp [he, floatOne, SampleKind.size, Nat.add_mul, Nat.add_assoc]

end Sys2Proof.Machine
end


section
/-! The range of a float32 pattern (R222, R224): a pattern without its sign is ordered as the value it stands for. -/

namespace Sys2Proof.Machine

theorem inRangeF32_iff (w : Word) : inRangeF32 w = true ↔ (w.extractLsb' 0 31).toNat ≤ 0x3F800000 := by
  rw [inRangeF32, decide_eq_true_iff, BitVec.extractLsb'_toNat, Nat.shiftRight_zero, floatOne]

/-- A pattern without its sign is the exponent above the fraction (R222). -/
theorem toNat_extractLsb'_31 (w : Word) : (w.extractLsb' 0 31).toNat =
    (w.extractLsb' 23 8).toNat * 2 ^ 23 + (w.extractLsb' 0 23).toNat := by
  simp only [BitVec.extractLsb'_toNat, Nat.shiftRight_eq_div_pow]
  omega

theorem f32Magnitude_of_exponent_zero {w : Word} (h : w.extractLsb' 23 8 = 0#8) :
    f32Magnitude w = (w.extractLsb' 0 23).toNat := if_pos h

theorem f32Magnitude_of_exponent_pos {w : Word} {k : Nat} (h : (w.extractLsb' 23 8).toNat = k + 1) :
    f32Magnitude w = (2 ^ 23 + (w.extractLsb' 0 23).toNat) * 2 ^ k := by
  have hne : w.extractLsb' 23 8 ≠ 0#8 := fun h0 => by simp [h0] at h
  rw [f32Magnitude, if_neg hne, h, Nat.add_sub_cancel]

theorem f32Magnitude_one : f32Magnitude 0x3F800000#32 = 2 ^ 23 * 2 ^ 126 := by decide

/-- A normalized magnitude is at most that of 1.0 where the exponent is smaller, or the same and the fraction 0. -/
theorem mul_two_pow_le_one_iff {f k : Nat} (hf : f < 2 ^ 23) :
    (2 ^ 23 + f) * 2 ^ k ≤ 2 ^ 23 * 2 ^ 126 ↔ (k + 1) * 2 ^ 23 + f ≤ 0x3F800000 := by
  obtain hk | rfl | hk := lt_trichotomy k 126
  · refine iff_of_true ?_ (by omega)
    calc (2 ^ 23 + f) * 2 ^ k ≤ 2 ^ 24 * 2 ^ 125 :=
          Nat.mul_le_mul (by omega) (Nat.pow_le_pow_right (by decide) (by omega))
      _ = 2 ^ 23 * 2 ^ 126 := by decide
  · rw [Nat.mul_le_mul_right_iff (by decide)]
    omega
  · refine iff_of_false (Nat.not_le.2 ?_) (by omega)
    calc 2 ^ 23 * 2 ^ 126 < 2 ^ 23 * 2 ^ 127 := by decide
      _ ≤ (2 ^ 23 + f) * 2 ^ k := Nat.mul_le_mul (by omega) (Nat.pow_le_pow_right (by decide) (by omega))

/-- The verdict on the pattern is the verdict on the value (R222). -/
theorem f32Magnitude_le_one_iff (w : Word) : f32Magnitude w ≤ f32Magnitude 0x3F800000#32 ↔ inRangeF32 w = true := by
  have hfrac : (w.extractLsb' 0 23).toNat < 2 ^ 23 := (w.extractLsb' 0 23).isLt
  rw [inRangeF32_iff, toNat_extractLsb'_31, f32Magnitude_one]
  cases hexp : (w.extractLsb' 23 8).toNat with
  | zero =>
    rw [f32Magnitude_of_exponent_zero (BitVec.eq_of_toNat_eq hexp)]
    exact iff_of_true (hfrac.le.trans (by decide)) (by omega)
  | succ k => rw [f32Magnitude_of_exponent_pos hexp, mul_two_pow_le_one_iff hfrac]

/-- Zeros and subnormals are in range (R224). -/
theorem inRangeF32_of_exponent_zero {w : Word} (h : w.extractLsb' 23 8 = 0#8) : inRangeF32 w = true := by
  have hfrac := (w.extractLsb' 0 23).isLt
  rw [inRangeF32_iff, toNat_extractLsb'_31, h, BitVec.toNat_ofNat]
  omega

/-- Infinities and NaNs are out of range (R224). -/
theorem inRangeF32_of_exponent_max {w : Word} (h : w.extractLsb' 23 8 = 255#8) : inRangeF32 w = false := by
  rw [← Bool.not_eq_true, inRangeF32_iff, toNat_extractLsb'_31, h, BitVec.toNat_ofNat]
  omega

/-- The sign does not matter (R222). -/
theorem inRangeF32_xor_sign (w : Word) : inRangeF32 (w ^^^ 0x80000000#32) = inRangeF32 w := by
  have hbits : (w ^^^ 0x80000000#32).extractLsb' 0 31 = w.extractLsb' 0 31 := by
    rw [BitVec.extractLsb'_xor]
    exact BitVec.xor_zero
  rw [Bool.eq_iff_iff, inRangeF32_iff, inRangeF32_iff, hbits]

/-- Settles O40: the pattern is ordered as the value, so the verdict on the one is the verdict on the other. -/
theorem floatRangeVerdict : Obligations.FloatRangeVerdict := by
  refine ⟨inRangeF32_iff, fun w => ⟨fun h => ⟨fun hmax => ?_, (f32Magnitude_le_one_iff w).2 h⟩,
    fun ⟨_, h⟩ => (f32Magnitude_le_one_iff w).1 h⟩, inRangeF32_xor_sign, fun _ => inRangeF32_of_exponent_zero,
    fun _ => inRangeF32_of_exponent_max, ?_, ?_⟩
  · exact Bool.false_ne_true ((inRangeF32_of_exponent_max hmax).symm.trans h)
  · simp [inRangeF32, floatOne]
  · simp [inRangeF32, floatOne]

end Sys2Proof.Machine
end


section
/-! What an encoder writes decodes to what it was written from (R226). -/

namespace Sys2Proof.Machine

open Sys2Proof.Config (Params)

/-! ### The header an encoder writes -/

/-- The header the encoder writes for a payload of `size` bytes (R97, R141). -/
def EncFormat.head (p : Params) (f : EncFormat) (size : Nat) : WavHead where
  riffSize := BitVec.ofNat 32 (p.riffSizeBias.toNat + size)
  fmt := f
  ext := []
  chunks := []
  dataSize := BitVec.ofNat 32 size

/-- A stream without an extension is a header of R98's grammar and its payload. -/
theorem waveStream_eq_head (p : Params) {f : EncFormat} (hlen : f.fmtLen = 16#32) (size : Nat) (payload : List Byte) :
    waveStream p f size payload = (f.head p size).bytes ++ payload := by
  simp [waveStream, EncFormat.head, WavHead.bytes, WavHead.extBytes, formatRecord, hlen, tagRiff, tagWave, tagFmt,
    tagData]

theorem SampleKind.formatCode_mem_recognized (kind : SampleKind) : kind.formatCode ∈ recognizedFormats := by
  cases kind <;> decide

theorem EncFormat.head_ok (p : Params) {f : EncFormat} {kind : SampleKind} (hcode : f.audioFormat = kind.formatCode)
    (size : Nat) : (f.head p size).Ok := by
  refine ⟨?_, by simp [EncFormat.head], by simp [EncFormat.head]⟩
  exact hcode ▸ kind.formatCode_mem_recognized

/-- The data size of a sample count that the encoder takes fits its register (R140). -/
theorem EncFormat.head_dataSize {p : Params} (f : EncFormat) {kind : SampleKind} {n : Nat} (hn : n ≤ nMax p kind) :
    (f.head p (n * kind.size)).dataSize.toNat = n * kind.size :=
  toNat_ofNat32 _ ((Nat.le_add_left _ _).trans_lt (riffSize_bound p kind n (Nat.not_lt.2 hn)))

/-! ### Elements in the same byte order and in the other -/

theorem elementWord_elementBytes_int16 (bo : ByteOrder) (w : Word) :
    elementWord .int16 bo (elementBytes .int16 bo w) = (w.extractLsb' 0 16).signExtend 32 := by
  rw [low16_eq_setWidth]
  exact elementWord_elementBytes .int16 bo w

theorem elementWord_elementBytes_float32 (bo : ByteOrder) (w : Word) :
    elementWord .float32 bo (elementBytes .float32 bo w) = w :=
  elementWord_elementBytes .float32 bo w

theorem ByteOrder.eq_or_of_ne {bo bo' : ByteOrder} (h : bo' ≠ bo) :
    bo = .little ∧ bo' = .big ∨ bo = .big ∧ bo' = .little := by
  revert h; cases bo <;> cases bo' <;> decide

theorem elementWord_elementBytes_int16_of_ne {bo bo' : ByteOrder} (h : bo' ≠ bo) (w : Word) :
    elementWord .int16 bo' (elementBytes .int16 bo w) =
      (w.extractLsb' 0 8 ++ w.extractLsb' 8 8).signExtend 32 := by
  obtain ⟨rfl, rfl⟩ | ⟨rfl, rfl⟩ := ByteOrder.eq_or_of_ne h <;>
    simp only [elementBytes_int16, elementWord_int16]

theorem elementWord_elementBytes_float32_of_ne {bo bo' : ByteOrder} (h : bo' ≠ bo) (w : Word) :
    elementWord .float32 bo' (elementBytes .float32 bo w) =
      w.extractLsb' 0 8 ++ w.extractLsb' 8 8 ++ w.extractLsb' 16 8 ++ w.extractLsb' 24 8 := by
  obtain ⟨rfl, rfl⟩ | ⟨rfl, rfl⟩ := ByteOrder.eq_or_of_ne h <;>
    simp only [elementBytes_float32, elementWord_float32]

/-- The encoder writes samples that the decoder takes, range check or none (R146, R222). -/
theorem encodable_of_inRange (p : Params) {kind : SampleKind} {w : Word}
    (h : kind = .float32 → inRangeF32 w = true) : encodable p kind w = true := by
  cases kind with
  | int16 => rfl
  | float32 => exact encodable_float32 fun _ => h rfl

theorem decodable_of_inRange {kind : SampleKind} {w : Word} (h : kind = .float32 → inRangeF32 w = true) :
    decodable kind w = true := by
  cases kind with
  | int16 => rfl
  | float32 => exact h rfl

/-- Settles O43: both commands complete, and the stream of the first is a header and elements for the second. -/
theorem roundTrip : Obligations.RoundTrip := by
  intro s u kind n ws rest as hu hacc hpace hn hl hs hrange ha hlen hcode
  have henc := exec_encSamples_completes hu hacc hpace hn hl hs
    (fun w hw => encodable_of_inRange s.params fun hk => hrange hk w hw) rfl rfl ha
  refine ⟨_, _, _, henc, List.getElem?_set_self (List.getElem?_eq_some_iff.1 hu).1, rfl, rfl, ?_⟩
  intro s' u' hu' hacc' hpace' hb _ hroom out hsame hswap hout
  have hword (w : Word) : elementWord kind u'.ctl.sampleBo (elementBytes kind u.ctl.sampleBo w) = out w := by
    by_cases hbo : u'.ctl.sampleBo = u.ctl.sampleBo
    · rw [hsame hbo, hbo]
      cases kind with
      | int16 => exact elementWord_elementBytes_int16 _ w
      | float32 => exact elementWord_elementBytes_float32 _ w
    · rw [hswap hbo]
      cases kind with
      | int16 => exact elementWord_elementBytes_int16_of_ne hbo w
      | float32 => exact elementWord_elementBytes_float32_of_ne hbo w
  have hdec := exec_decSamples_completes (h := u.fmt.head s.params (n.toNat * kind.size)) (es := ws) (rest := [])
    hu' hacc' hpace' (EncFormat.head_ok _ hcode _) hcode
    ((EncFormat.head_dataSize _ hn).trans (by rw [hl, Nat.mul_comm])) (hl ▸ hroom)
    (by rw [hb, waveStream_eq_head _ hlen, List.append_nil]) (elementBytes_length _ _) hword
    (fun w hw => decodable_of_inRange fun hk => hout hk w hw)
  obtain ⟨-, -, herr, -⟩ := hacc'
  refine ⟨_, _, hdec, List.getElem?_set_self (List.getElem?_eq_some_iff.1 hu').1, rfl, herr, rfl, rfl, rfl, ?_⟩
  simp [EncFormat.head, WavHead.registers, hlen]

end Sys2Proof.Machine
end


section
/-! The errors each command can end with (R244): a running command has no error recorded until it ends, what it can
still end with lies among the errors of its row, and the recorded error is told as `raise` tells it (R246). -/

namespace Sys2Proof.Machine

open Sys2Proof.Config (Params)

/-! ### The error registers -/

/-- The error the registers show, if any, is one of `errors`, told as `raise` tells it (R246). -/
def Ctl.Reports (c : Ctl) (errors : List (ErrKind × Stage)) : Prop :=
  ∀ k, c.err = some k →
    ∃ st, c.errStage = some st ∧ c.phase = .error ∧ c.stickyErr = true ∧ (k, st) ∈ errors

theorem Ctl.reports_of_none {c : Ctl} (h : c.err = none) (errors : List (ErrKind × Stage)) : c.Reports errors :=
  fun k hk => by simp [h] at hk

theorem Ctl.reports_record {c : Ctl} {e : Ending} {errors : List (ErrKind × Stage)} (h : c.err = none)
    (he : ∀ k st a x, e = .error k st a x → (k, st) ∈ errors) : (c.record e).Reports errors := by
  cases e with
  | ok ph => exact Ctl.reports_of_none (c := c.record (.ok ph)) h errors
  | error k st a x =>
    intro k' hk
    obtain rfl : k = k' := Option.some.inj hk
    exact ⟨st, rfl, rfl, rfl, he k st a x rfl⟩

/-! ### The decoder -/

/-- A command that has not ended has no error recorded (R240, R246). -/
theorem DecUnit.Ok.err_eq_none {u : DecUnit} {r : DecRun} (h : u.Ok) (hr : u.run = some r)
    (hp : r.pos ≠ .releasing) : u.ctl.err = none := by
  obtain ⟨-, -, h⟩ := h
  simp only [hr] at h
  obtain ⟨-, -, -, hpos⟩ := h
  cases hq : r.pos with
  | releasing => exact absurd hq hp
  | ending e => cases e <;> (rw [hq] at hpos; exact hpos.1.1)
  | _ => rw [hq] at hpos; exact hpos.1.1

/-- A decode command about to end with an error ends with one of its row (R244). -/
theorem DecUnit.Ok.mem_decErrors {u : DecUnit} {r : DecRun} {k : ErrKind} {st : Stage} {a x : Nat} (h : u.Ok)
    (hr : u.run = some r) (hp : r.pos = .ending (.error k st a x)) : (k, st) ∈ decErrors r.cmd := by
  obtain ⟨-, -, h⟩ := h
  simp only [hr] at h
  obtain ⟨-, -, -, hpos⟩ := h
  rw [hp] at hpos
  exact hpos.2

/-- `v` runs the command that `u` runs in `r`, and shows the error that `u` shows. -/
def DecUnit.GoesOn (u : DecUnit) (r : DecRun) (v : DecUnit) : Prop :=
  v.ctl.err = u.ctl.err ∧ ∃ r', v.run = some r' ∧ r'.cmd = r.cmd

theorem DecUnit.goesOn_goto {u v : DecUnit} (h : v.ctl.err = u.ctl.err) (r : DecRun) (p : DecPos) :
    u.GoesOn r (v.goto r p) :=
  ⟨h, _, rfl, rfl⟩

theorem DecUnit.goesOn_startSkip {u v : DecUnit} (h : v.ctl.err = u.ctl.err) (r : DecRun) (k : DecSkip) (n : Nat) :
    u.GoesOn r (v.startSkip r k n) := by
  unfold DecUnit.startSkip
  split
  · cases k <;> exact DecUnit.goesOn_goto h r _
  · exact DecUnit.goesOn_goto h r _

theorem DecUnit.goesOn_nextElement {u v : DecUnit} (h : v.ctl.err = u.ctl.err) (r : DecRun) (kind : SampleKind)
    (left : Nat) : u.GoesOn r (v.nextElement r kind left) := by
  unfold DecUnit.nextElement
  split
  · exact DecUnit.goesOn_goto h r _
  · split <;> exact DecUnit.goesOn_goto h r _

theorem DecUnit.goesOn_afterRead (u : DecUnit) (r : DecRun) (what : DecRead) (b : List Byte) :
    u.GoesOn r (u.afterRead r what b) := by
  cases what with
  | riff =>
    simp only [DecUnit.afterRead, DecUnit.afterRiff]
    split
    · exact DecUnit.goesOn_goto rfl r _
    · split <;> exact DecUnit.goesOn_goto rfl r _
  | fmtTag =>
    simp only [DecUnit.afterRead, DecUnit.afterFmtTag]
    split <;> exact DecUnit.goesOn_goto rfl r _
  | fmtRecord =>
    simp only [DecUnit.afterRead, DecUnit.afterFmtRecord]
    split
    · exact DecUnit.goesOn_goto rfl r _
    · split <;> exact DecUnit.goesOn_goto rfl r _
  | extraSize => exact DecUnit.goesOn_startSkip rfl r _ _
  | chunkHeader =>
    simp only [DecUnit.afterRead, DecUnit.afterChunkHeader]
    split
    · exact DecUnit.goesOn_goto rfl r _
    · exact DecUnit.goesOn_startSkip rfl r _ _
  | element kind left =>
    simp only [DecUnit.afterRead, DecUnit.afterElement]
    split <;> exact DecUnit.goesOn_goto rfl r _
  | residual kind => exact DecUnit.goesOn_goto rfl r _

theorem DecUnit.goesOn_afterParse (u : DecUnit) (r : DecRun) : u.GoesOn r (u.afterParse r) := by
  unfold DecUnit.afterParse
  split
  · exact DecUnit.goesOn_goto rfl r _
  · split
    · exact DecUnit.goesOn_goto rfl r _
    · exact DecUnit.goesOn_nextElement rfl r _ _

/-- A decoder that runs `cmd`, or has ended it, and shows an error of `cmd` only. -/
structure DecUnit.Reports (u : DecUnit) (cmd : DecCmd) : Prop where
  cmd_eq : ∀ r, u.run = some r → r.cmd = cmd
  shown : u.ctl.Reports (decErrors cmd)

/-- A command that goes on shows no error, as it shows none so far. -/
theorem DecUnit.GoesOn.reports {u v : DecUnit} {r : DecRun} (h : u.GoesOn r v) (hnone : u.ctl.err = none) :
    v.Reports r.cmd := by
  obtain ⟨herr, r', hr', hcmd⟩ := h
  refine ⟨fun q hq => ?_, Ctl.reports_of_none (herr.trans hnone) _⟩
  obtain rfl : r' = q := Option.some.inj (hr'.symm.trans hq)
  exact hcmd

/-- Every step keeps a decoder to the errors of its command: an error is recorded in one step, of an ending whose
error is in the row. -/
theorem DecUnit.Reports.advance {u v : DecUnit} {cmd : DecCmd} (h : u.Reports cmd) (hok : u.Ok)
    (ha : u.advance = some v) : v.Reports cmd := by
  obtain ⟨r, hr, hs⟩ := DecUnit.advance_step ha
  obtain rfl := h.cmd_eq r hr
  have hnone := hok.err_eq_none hr
  cases hs with
  | readByte hp => exact (DecUnit.goesOn_goto rfl r _).reports (hnone (by simp [hp]))
  | readLast hp => exact (DecUnit.goesOn_afterRead _ r _ _).reports (hnone (by simp [hp]))
  | readStop hp => exact (DecUnit.goesOn_goto rfl r _).reports (hnone (by simp [hp]))
  | skipByte hp => exact (DecUnit.goesOn_goto rfl r _).reports (hnone (by simp [hp]))
  | @skipLast what _ _ _ _ hp =>
    cases what <;> exact (DecUnit.goesOn_goto rfl r _).reports (hnone (by simp [hp]))
  | skipStop hp => exact (DecUnit.goesOn_goto rfl r _).reports (hnone (by simp [hp]))
  | scan hp => exact (DecUnit.goesOn_goto rfl r _).reports (hnone (by simp [hp]))
  | parse hp => exact (u.goesOn_afterParse r).reports (hnone (by simp [hp]))
  | append hp => exact (DecUnit.goesOn_nextElement rfl r _ _).reports (hnone (by simp [hp]))
  | record hp =>
    refine ⟨fun q hq => by cases hq; rfl, Ctl.reports_record (hnone (by simp [hp])) fun k st a x he => ?_⟩
    exact hok.mem_decErrors hr (he ▸ hp)
  | release => exact ⟨fun q hq => by simp at hq, h.shown⟩

theorem DecUnit.Reports.steps {u v : DecUnit} {cmd : DecCmd} (hs : u.Steps v) (h : u.Reports cmd) (hok : u.Ok) :
    v.Reports cmd := by
  induction hs with
  | refl => exact h
  | head ha _ ih => exact ih (h.advance hok ha) (DecUnit.advance_ok hok ha)

/-- A turn of a decode command just accepted ends with no error or with one of its row. -/
theorem DecUnit.begin_runFor_reports {u : DecUnit} (hacc : u.ctl.Accepted) (cmd : DecCmd) (n : Nat) :
    ((u.begin cmd).runFor n).Reports cmd := by
  have hok := u.begin_ok cmd hacc
  obtain ⟨-, -, herr, -⟩ := hacc
  exact DecUnit.Reports.steps (DecUnit.runFor_steps n _)
    ⟨fun r hr => by cases hr; rfl, Ctl.reports_of_none (c := (u.begin cmd).ctl) herr _⟩ hok

/-! ### The encoder -/

/-- An encoder command that has not ended has no error recorded (R240, R246). -/
theorem EncUnit.Ok.err_eq_none {p : Params} {u : EncUnit} {r : EncRun} (h : u.Ok p) (hr : u.run = some r)
    (hp : r.pos ≠ .releasing) : u.ctl.err = none := by
  simp only [EncUnit.Ok, hr] at h
  obtain ⟨-, -, -, -, hpos⟩ := h
  cases hq : r.pos with
  | releasing => exact absurd hq hp
  | ending e => cases e <;> (rw [hq] at hpos; exact hpos.1.1)
  | element => rw [hq] at hpos; exact hpos.1.1.1
  | _ => rw [hq] at hpos; exact hpos.1.1

/-- The errors a position can still end its command with: those of the commands that come to it (R244), and at its
end the error itself. -/
def EncPos.errors (p : Params) : EncPos → List (ErrKind × Stage)
  | .constructing a _ => encErrors p (.construct a)
  | .header _ _ next => encErrors p (next.elim .header fun q => .samples q.1 0#32)
  | .taking kind _ => encErrors p (.samples kind 0#32)
  | .element _ _ kind _ => encErrors p (.samples kind 0#32)
  | .ending (.ok _) => []
  | .ending (.error k st _ _) => [(k, st)]
  | .releasing => []

theorem encErrors_samples (p : Params) (kind : SampleKind) (m n : Word) :
    encErrors p (.samples kind m) = encErrors p (.samples kind n) := by
  cases kind <;> rfl

theorem operandRange_mem_encErrors (p : Params) (kind : SampleKind) (n : Word) :
    (.operandRange, .command) ∈ encErrors p (.samples kind n) := by
  cases kind <;> simp [encErrors]

theorem headerWrite_mem_errors (p : Params) (todo : List Byte) (sent : Nat) (next : Option (SampleKind × Nat)) :
    (.ioFailure, .encHeaderWrite) ∈ (EncPos.header todo sent next).errors p := by
  obtain _ | ⟨_ | _, n⟩ := next <;> simp [EncPos.errors, encErrors]

theorem sampleWrite_mem_encErrors (p : Params) (kind : SampleKind) (n : Word) :
    (.ioFailure, .encSampleWrite) ∈ encErrors p (.samples kind n) := by
  cases kind <;> simp [encErrors]

/-- Only a float32 is out of range, and only when it is checked (R146). -/
theorem sampleRange_mem_encErrors {p : Params} {kind : SampleKind} {w : Word} (h : encodable p kind w = false)
    (n : Word) : (.sampleOutOfRange, .encSampleRange) ∈ encErrors p (.samples kind n) := by
  cases kind with
  | int16 => simp [encodable] at h
  | float32 =>
    obtain ⟨hcheck, -⟩ : p.encFloatRangeCheck = true ∧ inRangeF32 w = false := by simpa [encodable] using h
    simp [encErrors, hcheck]

/-- An encoder that shows an error of `errors` only, and whose running command can end with no other. -/
structure EncUnit.Reports (u : EncUnit) (p : Params) (errors : List (ErrKind × Stage)) : Prop where
  ahead : ∀ r, u.run = some r → r.pos.errors p ⊆ errors
  shown : u.ctl.Reports errors

theorem EncUnit.reports_goto {p : Params} {v : EncUnit} {bo : ByteOrder} {q : EncPos}
    {errors : List (ErrKind × Stage)} (h : v.ctl.err = none) (hq : q.errors p ⊆ errors) :
    (v.goto bo q).Reports p errors :=
  ⟨fun r hr => by cases hr; exact hq, Ctl.reports_of_none h errors⟩

theorem EncUnit.reports_fail {p : Params} {v : EncUnit} {bo : ByteOrder} {k : ErrKind} {st : Stage} {a x : Nat}
    {errors : List (ErrKind × Stage)} (h : v.ctl.err = none) (hk : (k, st) ∈ errors) :
    (v.fail bo k st a x).Reports p errors :=
  EncUnit.reports_goto h fun _ he => List.mem_singleton.1 he ▸ hk

theorem EncUnit.reports_nextSample {p : Params} {v : EncUnit} {bo : ByteOrder} {kind : SampleKind} {left : Nat}
    {errors : List (ErrKind × Stage)} (h : v.ctl.err = none) (hq : encErrors p (.samples kind 0#32) ⊆ errors) :
    (v.nextSample bo kind left).Reports p errors := by
  cases left with
  | zero => exact EncUnit.reports_goto h (List.nil_subset _)
  | succ n => exact EncUnit.reports_goto h hq

/-- Every step keeps an encoder to the errors of its command: a position leads only to positions of the same
commands, or to an ending with one of their errors. -/
theorem EncUnit.Reports.advance {p : Params} {u v : EncUnit} {errors : List (ErrKind × Stage)}
    (h : u.Reports p errors) (hok : u.Ok p) (ha : u.advance p = some v) : v.Reports p errors := by
  obtain ⟨r, hr, hs⟩ := EncUnit.advance_step ha
  have hahead := h.ahead r hr
  have hnone := hok.err_eq_none hr
  cases hs with
  | constructed hp => exact EncUnit.reports_goto (hnone (by simp [hp])) (List.nil_subset _)
  | construct hp => exact EncUnit.reports_goto (hnone (by simp [hp])) (List.nil_subset _)
  | @headerDone sent next hp =>
    rw [hp] at hahead
    cases next with
    | none => exact EncUnit.reports_goto (hnone (by simp [hp])) (List.nil_subset _)
    | some q => exact EncUnit.reports_nextSample (hnone (by simp [hp])) hahead
  | @headerByte b bs sent next as hp =>
    rw [hp] at hahead
    exact EncUnit.reports_goto (hnone (by simp [hp])) hahead
  | headerFail hp =>
    rw [hp] at hahead
    exact EncUnit.reports_fail (hnone (by simp [hp])) (hahead (headerWrite_mem_errors p _ _ _))
  | take hp =>
    rw [hp] at hahead
    exact EncUnit.reports_goto (hnone (by simp [hp])) hahead
  | takeBad hp _ hbad =>
    rw [hp] at hahead
    exact EncUnit.reports_fail (hnone (by simp [hp])) (hahead (sampleRange_mem_encErrors hbad _))
  | elementDone hp =>
    rw [hp] at hahead
    exact EncUnit.reports_nextSample (hnone (by simp [hp])) hahead
  | elementByte hp =>
    rw [hp] at hahead
    exact EncUnit.reports_goto (hnone (by simp [hp])) hahead
  | elementFail hp =>
    rw [hp] at hahead
    exact EncUnit.reports_fail (hnone (by simp [hp])) (hahead (sampleWrite_mem_encErrors p _ _))
  | record hp =>
    refine ⟨fun q hq => by cases hq; exact List.nil_subset _,
      Ctl.reports_record (hnone (by simp [hp])) fun k st a x he => ?_⟩
    rw [hp, he] at hahead
    exact hahead (List.mem_singleton_self _)
  | release => exact ⟨fun q hq => by simp at hq, h.shown⟩

theorem EncUnit.Reports.steps {p : Params} {u v : EncUnit} {errors : List (ErrKind × Stage)} (hs : u.Steps p v)
    (h : u.Reports p errors) (hok : u.Ok p) : v.Reports p errors := by
  induction hs with
  | refl => exact h
  | head ha _ ih => exact ih (h.advance hok ha) (EncUnit.advance_ok hok ha)

/-- An encoder command starts at a position of its own, or fails at the operand check (R140). -/
theorem EncUnit.begin_reports {u : EncUnit} (h : u.ctl.err = none) (p : Params) (job : EncJob) :
    (u.begin p job).Reports p (encErrors p job) := by
  cases job with
  | construct a => exact EncUnit.reports_goto h (List.Subset.refl _)
  | header =>
    rw [EncUnit.begin_header]
    exact EncUnit.reports_goto h (List.Subset.refl _)
  | samples kind n =>
    by_cases hn : n.toNat ≤ nMax p kind
    · rw [EncUnit.begin_samples p u kind n hn, encErrors_samples p kind n 0#32]
      exact EncUnit.reports_goto h (List.Subset.refl _)
    · rw [EncUnit.begin_samples_of_gt p u (Nat.lt_of_not_le hn)]
      exact EncUnit.reports_fail h (operandRange_mem_encErrors p kind n)

/-- A turn of an encoder command just accepted ends with no error or with one of its row. -/
theorem EncUnit.begin_runFor_reports {u : EncUnit} (hacc : u.ctl.Accepted) (p : Params) (job : EncJob) (n : Nat) :
    ((u.begin p job).runFor p n).Reports p (encErrors p job) := by
  have hok := u.begin_ok p job hacc
  obtain ⟨-, -, herr, -⟩ := hacc
  exact EncUnit.Reports.steps (EncUnit.runFor_steps p n _) (EncUnit.begin_reports herr p job) hok

/-! ### The table -/

theorem codes_of_mem_encErrors_int16 {p : Params} {n : Word} {k : ErrKind} {st : Stage}
    (h : (k, st) ∈ encErrors p (.samples .int16 n)) : (k.code, st.code) ∈ [(9, 16), (5, 17), (5, 18)] :=
  List.mem_map_of_mem (f := fun e => (e.1.code, e.2.code)) h

theorem codes_of_mem_encErrors_float32 {p : Params} {n : Word} {k : ErrKind} {st : Stage}
    (h : (k, st) ∈ encErrors p (.samples .float32 n)) :
    (k.code, st.code) ∈ [(9, 16), (5, 17), (5, 18)] ∨
      p.encFloatRangeCheck = true ∧ (k.code, st.code) = (4, 19) := by
  obtain h | h := List.mem_append.1 h
  · exact .inl (codes_of_mem_encErrors_int16 (p := p) (n := n) h)
  · split at h
    · rename_i hcheck
      obtain ⟨rfl, rfl⟩ : k = .sampleOutOfRange ∧ st = .encSampleRange := by simpa using h
      exact .inr ⟨hcheck, rfl⟩
    · simp at h

/-- Settles O46: a command's run keeps to the errors of its row, whose codes are the table's. -/
theorem errorsByCommand : Obligations.ErrorsByCommand := by
  refine ⟨fun s t u v cmd k hu hacc h hv hk => ?_, fun s t u v i k hi hu hacc h hv hk => ?_⟩
  · obtain ⟨n, rfl⟩ := exec_decCmd_next hu h
    obtain rfl := Option.some.inj ((List.getElem?_set_self (List.getElem?_eq_some_iff.1 hu).1).symm.trans hv)
    obtain ⟨st, hst, hph, hsticky, hmem⟩ := (DecUnit.begin_runFor_reports hacc cmd n).shown k hk
    refine ⟨st, hst, hph, hsticky, ?_⟩
    match cmd, hmem with
    | .header, hmem => exact (by decide : ∀ e ∈ decErrors .header, (e.1.code, e.2.code) ∈ _) _ hmem
    | .samples .int16, hmem =>
      exact (by decide : ∀ e ∈ decErrors (.samples .int16), (e.1.code, e.2.code) ∈ _) _ hmem
    | .samples .float32, hmem =>
      exact (by decide : ∀ e ∈ decErrors (.samples .float32), (e.1.code, e.2.code) ∈ _) _ hmem
  · obtain ⟨n, rfl⟩ := exec_encCmd_next hi hu h
    obtain rfl := Option.some.inj ((List.getElem?_set_self (List.getElem?_eq_some_iff.1 hu).1).symm.trans hv)
    obtain ⟨st, hst, hph, hsticky, hmem⟩ := (EncUnit.begin_runFor_reports hacc s.params _ n).shown k hk
    refine ⟨st, hst, hph, hsticky, ?_⟩
    cases i with
    | decHeader | decInt16 | decFloat32 => simp [Instr.unitKind] at hi
    | fmtNewPcm | fmtNewFloat => simp [Instr.job, encErrors] at hmem
    | encHeader =>
      obtain ⟨rfl, rfl⟩ : k = .ioFailure ∧ st = .encHeaderWrite := by simpa [Instr.job, encErrors] using hmem
      rfl
    | encInt16 => exact codes_of_mem_encErrors_int16 hmem
    | encFloat32 => exact codes_of_mem_encErrors_float32 hmem

end Sys2Proof.Machine
end

section
/-! The reset of a unit (R270, R271). -/

namespace Sys2Proof.Machine

/-- The reset of a decoder that exists is never refused, whatever the decoder does at that moment (R271). -/
theorem step_resetUnit_dec {s : State} {rest : List HostEvent} {d : Nat} {u : DecUnit}
    (hs : s.script = .resetUnit (.dec d) :: rest) (hu : s.decs[d]? = some u) :
    step s = .next (({ s with script := rest } : State).setDec d u.resetUnit) :=
  (step_of_script hs).trans (State.onDec_update (s := { s with script := rest }) hu DecUnit.resetUnit)

/-- The reset of an encoder that exists is never refused, whatever the encoder does at that moment (R271). -/
theorem step_resetUnit_enc {s : State} {rest : List HostEvent} {e : Nat} {u : EncUnit}
    (hs : s.script = .resetUnit (.enc e) :: rest) (hu : s.encs[e]? = some u) :
    step s = .next (({ s with script := rest } : State).setEnc e u.resetUnit) :=
  (step_of_script hs).trans (State.onEnc_update (s := { s with script := rest }) hu EncUnit.resetUnit)

/-- Settles O48: the step is the unit's `resetUnit`, whose fields are the reset values of R42 and the streams of
the unit before it. -/
theorem unitResetKeepsStreams : Obligations.UnitResetKeepsStreams :=
  ⟨fun _ _ _ _ => step_resetUnit_dec, fun _ _ _ _ => step_resetUnit_enc⟩

end Sys2Proof.Machine
end
